-- ==== Sys2Proof/Word.lean ====
section
/-! DEFINITION. The word types of the QN8-A and their plainest arithmetic (R1, R6). -/
namespace Sys2Proof

/-- A byte of memory. -/
abbrev Byte := BitVec 8
/-- A lane of a vector register, 32 bits (R66). -/
abbrev W32 := BitVec 32
/-- A scalar register, a queue entry or a system register, 64 bits (R105). -/
abbrev W64 := BitVec 64

end Sys2Proof
end

