-- ==== Sys2Proof/Syntax.lean ====
section
/-! DEFINITION. The instructions and operations of spec/opcode_table.json as one inductive: the 184 encoded
instructions of R80 with their decoded operands, and the 79 operations and events of the module's other agents
(spec/95), which have no encoding and carry their inputs as operands. -/
namespace Sys2Proof

/-! ## Operands of encoded instructions -/

/-- A scalar register field (R66): x0-x31, the keep registers k0-k7, the queue registers q0-q7. -/
inductive SReg where
  | x (n : Fin 32)
  | k (n : Fin 8)
  | q (n : Fin 8)
  deriving DecidableEq, Repr

/-- A vector register field (R66). -/
abbrev VReg := Fin 64
/-- A predicate register field (R66); p0 reads as all ones. -/
abbrev PReg := Fin 16

/-- Source b of a vector instruction: a vector register, or a scalar field when flags bit 8 (BS) is set (R131). -/
inductive VSrc where
  | v (r : VReg)
  | s (r : SReg)
  deriving DecidableEq, Repr

/-- CLASS of the source modifier (R68). -/
inductive ModClass where
  | none | rotate | swap | bcast
  deriving DecidableEq, Repr

/-- The source modifier (R68) and MSEL (R65): `onB` applies it to source b instead of a. -/
structure SrcMod where
  cls  : ModClass
  lseg : Fin 8
  dist : Fin 128
  onB  : Bool
  deriving DecidableEq, Repr

/-- The RND field (R133). `ctl` is RND 0: the mode held in RNDCTL. -/
inductive Rnd where
  | ctl | rne | rz | ru | rd | sr
  deriving DecidableEq, Repr

/-- Rounding operands of an instruction with RND and SAT fields (R133). -/
structure RndSat where
  rnd : Rnd
  sat : Bool
  deriving DecidableEq, Repr

/-- A branch target of Fb.br (R62, R63); tslot 31 is no field value. -/
structure BrTarget where
  loff  : BitVec 15
  tslot : Fin 31
  deriving DecidableEq, Repr

/-- A jump target of Fd.br (R62, R63). -/
structure JTarget where
  loff  : BitVec 53
  tslot : Fin 31
  deriving DecidableEq, Repr

/-- Scopes (R7), in the order of the SCOPE field (R247). -/
inductive Scope where
  | core | cluster | die | part | sys
  deriving DecidableEq, Repr

/-- The f14 of BFX and BFI (R122): POS and LENM, the length less 1. -/
structure BitField where
  pos  : Fin 64
  lenm : Fin 64
  deriving DecidableEq, Repr

/-- DISP with the use count and dead flag of a load (R247, R240). -/
structure LoadImm where
  disp : BitVec 22
  uc   : Fin 16
  dead : Bool
  deriving DecidableEq, Repr

/-- W64, SCOPE and DISP of LDACQ and STREL (R247). -/
structure SyncImm where
  disp  : BitVec 22
  w64   : Bool
  scope : Scope
  deriving DecidableEq, Repr

/-- Flags of an atomic (R268): W64, ACQ, REL, SCOPE. -/
structure AtomFlags where
  w64   : Bool
  acq   : Bool
  rel   : Bool
  scope : Scope
  deriving DecidableEq, Repr

/-- OP of RED (R271). -/
inductive RedOp where
  | addI | addF | minI | maxI | minF | maxF | and | or | xor
  deriving DecidableEq, Repr

/-- KIND of FENCE (R273). -/
inductive FenceKind where
  | rel | acq | ar
  deriving DecidableEq, Repr

/-- Flags of SEND and SENDT (R125). -/
structure SendFlags where
  merge  : Bool
  direct : Bool
  zp     : Bool
  deriving DecidableEq, Repr

/-- Flags of FABA (R124). -/
structure FabaFlags where
  ownk : Bool
  ownc : Bool
  srel : Bool
  deriving DecidableEq, Repr

/-- Type and SAT of an integer vector instruction (R136): `u` is n32. -/
structure IntSat where
  u   : Bool
  sat : Bool
  deriving DecidableEq, Repr

/-- The narrower type of VISAT (R137). -/
inductive NarrowInt where
  | i8 | n8 | i16 | n16
  deriving DecidableEq, Repr

/-- Condition codes of VCMP (R139). -/
inductive CmpCC where
  | eq | ne | lt | le | gt | ge | un
  deriving DecidableEq, Repr

/-- Lane types of VCMP (R139). -/
inductive CmpTy where
  | f32 | i32 | n32
  deriving DecidableEq, Repr

/-- OP of VRED (R144). -/
inductive VRedOp where
  | addI | addF | minI | maxI | minN | maxN | minF | maxF | and | or | xor
  deriving DecidableEq, Repr

/-- Type codes of VCVT (R145). -/
inductive CvtTy where
  | f32 | i32 | n32 | bf16 | f16 | e4m3 | e5m2 | e2m1 | i16 | n16 | i8 | n8 | i4 | dt0 | dt1
  deriving DecidableEq, Repr

/-- Alias windows 0 to 10 (R169). -/
inductive Window where
  | raw | e4m3 | e5m2 | e2m1 | i8 | n8 | i4 | bf16 | f16 | dt0 | dt1
  deriving DecidableEq, Repr

/-- The imm of VLD and VST (R152): `stride` is given when STR is 1. -/
structure VMemImm where
  disp   : BitVec 16
  stride : Option (BitVec 16)
  pred   : PReg
  deriving DecidableEq, Repr

/-- ELT, SH and the governing predicate of VLDG and VSTG (R156). -/
structure GatherImm where
  elt  : Window
  sh   : Fin 4
  pred : PReg
  deriving DecidableEq, Repr

/-- A tile code (R201): a0-a3 are 0-3, the trap tile at is 4. -/
abbrev TileCode := Fin 5

/-- The imm of MLOAD and MSTORE (R219), PITCH in units of 16 bytes. -/
structure MMemImm where
  f64   : Bool
  pitch : Fin 512
  deriving DecidableEq, Repr

/-- The imm of MMA (R221). -/
structure MmaImm where
  km1 : Fin 1024
  pa  : Fin 512
  pb  : Fin 512
  f64 : Bool
  sc  : Bool
  ss  : Option (Fin 4)
  swa : Bool
  swb : Bool
  swc : Fin 5
  sws : Fin 7
  deriving DecidableEq, Repr

/-- The f14 of SEAL and UNSEAL (R362). -/
structure SealImm where
  ctx : Fin 64
  vr  : Bool
  len : Fin 65
  deriving DecidableEq, Repr

/-! ## Names of the module's parts, operands of events -/

/-- A cluster site: die 0-7 and physical site number 12y + x, 0-131 (R10). -/
structure SiteId where
  die  : Nat
  site : Nat
  deriving DecidableEq, Repr

/-- A core: its cluster site and its number 0-3 (R11). -/
structure CoreId where
  die  : Nat
  site : Nat
  core : Nat
  deriving DecidableEq, Repr

/-- A bank: home cluster site and number 0-31 (R181). -/
structure BankId where
  die  : Nat
  site : Nat
  num  : Nat
  deriving DecidableEq, Repr

/-- Where an arriving message waits: at place `i` of the core's outbound queue, of the device's engine
messages, or of the arrivals already held at the destination's cluster port (R42, R45). -/
inductive MsgFrom where
  | core (c : CoreId) (i : Nat)
  | engine (i : Nat)
  | port (i : Nat)
  deriving DecidableEq, Repr

/-- A counted source of errors (R387). -/
inductive ErrSource where
  | site (s : SiteId)
  | bank (b : BankId)
  | group (strait grp : Nat)
  | row (stack row : Nat)
  deriving DecidableEq, Repr

/-- A row of a context's registers (R388, R436). -/
inductive RegRow where
  | x (n : Nat)
  | q (n : Nat)
  | v (n : Nat)
  | p (n : Nat)
  deriving DecidableEq, Repr

/-- A row of a core's keep registers, or a tile (R388, R436). -/
inductive CoreRow where
  | k (n : Nat)
  | tile (n : Nat)
  deriving DecidableEq, Repr

/-- An uncorrectable error's place: an aligned 8-byte word of physical memory or of a bank (R388, R251); a register, a tile,
an inbox slot, a word of an L1 line or a line of an instruction cache (R388); one of the images that a cluster's shadow
store holds, counted from the oldest (R436). -/
inductive BadWord where
  | mem (word : Nat)
  | bank (b : BankId) (word : Nat)
  | reg (c : CoreId) (ctx : Nat) (r : RegRow)
  | coreRow (c : CoreId) (r : CoreRow)
  | slot (c : CoreId) (n : Nat)
  | l1 (c : CoreId) (word : Nat)
  | icache (n : SiteId) (pa : Nat)
  | shadow (n : SiteId) (image : Nat)
  deriving DecidableEq, Repr

/-- One constructor for every row of spec/opcode_table.json. -/
inductive Instr where
  -- 0x01 branches (R107)
  | beq (a b : SReg) (t : BrTarget)
  | bne (a b : SReg) (t : BrTarget)
  | blt (a b : SReg) (t : BrTarget)
  | bge (a b : SReg) (t : BrTarget)
  | bltn (a b : SReg) (t : BrTarget)
  | bgen (a b : SReg) (t : BrTarget)
  | bz (a : SReg) (t : BrTarget)
  | bnz (a : SReg) (t : BrTarget)
  -- 0x02 jumps, LOOP, END (R108-R111)
  | j (t : JTarget)
  | jal (d : SReg) (t : JTarget)
  | jr (d : SReg)
  | jalr (d a : SReg)
  | loop (a : SReg) (t : BrTarget)
  | end_
  -- 0x03 gangs and barriers (R112-R115)
  | gang (log : Fin 3)
  | ungang
  | align
  | sbar (d : SReg) (idx : Fin 4)
  -- 0x04 arithmetic (R116)
  | add (d a b : SReg)
  | sub (d a b : SReg)
  | mul (d a b : SReg)
  | mulh (d a b : SReg)
  | mulhn (d a b : SReg)
  | div (d a b : SReg)
  | divn (d a b : SReg)
  | rem (d a b : SReg)
  | remn (d a b : SReg)
  | min (d a b : SReg)
  | max (d a b : SReg)
  | minn (d a b : SReg)
  | maxn (d a b : SReg)
  -- 0x05 logic and shifts (R118)
  | and (d a b : SReg)
  | or (d a b : SReg)
  | xor (d a b : SReg)
  | andn (d a b : SReg)
  | shl (d a b : SReg)
  | shr (d a b : SReg)
  | sra (d a b : SReg)
  | rot (d a b : SReg)
  | clz (d a : SReg)
  | ctz (d a : SReg)
  | popc (d a : SReg)
  -- 0x06 compare, select, move (R119)
  | slt (d a b : SReg)
  | sltn (d a b : SReg)
  | seq (d a b : SReg)
  | sel (d a b c : SReg)
  | mov (d a : SReg)
  -- 0x07 immediates (R120, R121)
  | addi (d a : SReg) (imm : BitVec 14)
  | andi (d a : SReg) (imm : BitVec 14)
  | ori (d a : SReg) (imm : BitVec 14)
  | xori (d a : SReg) (imm : BitVec 14)
  | shli (d a : SReg) (sh : Fin 64)
  | shri (d a : SReg) (sh : Fin 64)
  | srai (d a : SReg) (sh : Fin 64)
  | li (d : SReg) (imm : BitVec 58)
  | lih (d : SReg) (imm : BitVec 32)
  -- 0x08 bit fields and addresses (R122-R124)
  | bfx (d a : SReg) (f : BitField) (sx : Bool)
  | bfi (d a : SReg) (f : BitField)
  | lea (d a b : SReg) (loc : Bool) (sh : Fin 8)
  | faba (d a b c : SReg) (f : FabaFlags)
  -- 0x0A loads (R247-R249)
  | ldb (d a : SReg) (i : LoadImm)
  | ldbn (d a : SReg) (i : LoadImm)
  | ldh (d a : SReg) (i : LoadImm)
  | ldhn (d a : SReg) (i : LoadImm)
  | ldw (d a : SReg) (i : LoadImm)
  | ldwn (d a : SReg) (i : LoadImm)
  | ldd (d a : SReg) (i : LoadImm)
  | ldacq (d a : SReg) (i : SyncImm)
  | pfu (a : SReg) (i : LoadImm)
  -- 0x0B stores (R247, R248)
  | stb (d a : SReg) (disp : BitVec 22)
  | sth (d a : SReg) (disp : BitVec 22)
  | stw (d a : SReg) (disp : BitVec 22)
  | std (d a : SReg) (disp : BitVec 22)
  | strel (d a : SReg) (i : SyncImm)
  | stnb (d a : SReg) (disp : BitVec 22) (hi : Bool)
  -- 0x0C atomics (R268)
  | cas (d a b c : SReg) (f : AtomFlags)
  | swap (d a b : SReg) (f : AtomFlags)
  | fadd (d a b : SReg) (f : AtomFlags)
  | fand (d a b : SReg) (f : AtomFlags)
  | for_ (d a b : SReg) (f : AtomFlags)
  | fxor (d a b : SReg) (f : AtomFlags)
  | fmin (d a b : SReg) (u : Bool) (f : AtomFlags)
  | fmax (d a b : SReg) (u : Bool) (f : AtomFlags)
  -- 0x0D, 0x0E (R271-R276)
  | red (a b : SReg) (op : RedOp) (w64 : Bool)
  | fence (kind : FenceKind) (scope : Scope)
  | sfence
  | ifence
  -- 0x0F messages and counters (R125-R128)
  | send (d a b c : SReg) (f : SendFlags)
  | sendt (d a b c : SReg) (f : SendFlags)
  | inb (d a : SReg) (w : Fin 8)
  | cset (d a b : SReg) (ctr : Fin 64)
  | cadd (d a : SReg) (ctr : Fin 64)
  | crd (d : SReg) (ctr : Fin 64)
  -- 0x10 vector float (R135)
  | vadd (d a : VReg) (b : VSrc) (m : SrcMod) (p : PReg) (r : RndSat)
  | vsub (d a : VReg) (b : VSrc) (m : SrcMod) (p : PReg) (r : RndSat)
  | vmul (d a : VReg) (b : VSrc) (m : SrcMod) (p : PReg) (r : RndSat)
  | vfma (d a : VReg) (b : VSrc) (c : VReg) (m : SrcMod) (p : PReg) (r : RndSat)
  | vfms (d a : VReg) (b : VSrc) (c : VReg) (m : SrcMod) (p : PReg) (r : RndSat)
  | vfnma (d a : VReg) (b : VSrc) (c : VReg) (m : SrcMod) (p : PReg) (r : RndSat)
  | vmin (d a : VReg) (b : VSrc) (m : SrcMod) (p : PReg)
  | vmax (d a : VReg) (b : VSrc) (m : SrcMod) (p : PReg)
  | vabs (d a : VReg) (m : SrcMod) (p : PReg)
  | vneg (d a : VReg) (m : SrcMod) (p : PReg)
  | vdiv (d a : VReg) (b : VSrc) (m : SrcMod) (p : PReg) (r : RndSat)
  -- 0x11 vector integer (R136, R137)
  | viadd (d a : VReg) (b : VSrc) (m : SrcMod) (p : PReg) (t : IntSat)
  | visub (d a : VReg) (b : VSrc) (m : SrcMod) (p : PReg) (t : IntSat)
  | vimul (d a : VReg) (b : VSrc) (m : SrcMod) (p : PReg) (t : IntSat)
  | vimulh (d a : VReg) (b : VSrc) (m : SrcMod) (p : PReg) (u : Bool)
  | vimin (d a : VReg) (b : VSrc) (m : SrcMod) (p : PReg) (u : Bool)
  | vimax (d a : VReg) (b : VSrc) (m : SrcMod) (p : PReg) (u : Bool)
  | visat (d a : VReg) (m : SrcMod) (p : PReg) (w : NarrowInt)
  -- 0x12 vector logic (R138)
  | vand (d a : VReg) (b : VSrc) (m : SrcMod) (p : PReg)
  | vor (d a : VReg) (b : VSrc) (m : SrcMod) (p : PReg)
  | vxor (d a : VReg) (b : VSrc) (m : SrcMod) (p : PReg)
  | vshl (d a : VReg) (b : VSrc) (m : SrcMod) (p : PReg)
  | vshr (d a : VReg) (b : VSrc) (m : SrcMod) (p : PReg)
  | vsra (d a : VReg) (b : VSrc) (m : SrcMod) (p : PReg)
  -- 0x13 compare and select (R139, R140)
  | vcmp (d : PReg) (a : VReg) (b : VSrc) (m : SrcMod) (p : PReg) (cc : CmpCC) (ty : CmpTy)
  | vsel (d a : VReg) (b : VSrc) (m : SrcMod) (p : PReg)
  -- 0x14 moves (R141)
  | vmov (d a : VReg) (m : SrcMod) (p : PReg)
  | vbcast (d : VReg) (a : SReg) (p : PReg)
  | viota (d : VReg) (a : SReg) (step : BitVec 7) (p : PReg)
  | vext (d : SReg) (a : VReg) (b : SReg) (m : SrcMod) (sx : Bool)
  -- 0x15 cross-lane (R142-R144)
  | vxl (d a b : VReg) (c : PReg) (m : SrcMod) (p : PReg)
  | vperm (d a b c : VReg) (m : SrcMod) (p : PReg)
  | vred (d : SReg) (a : VReg) (m : SrcMod) (p : PReg) (op : VRedOp)
  -- 0x16 conversion (R145)
  | vcvt (d a : VReg) (outTy frm : CvtTy) (m : SrcMod) (p : PReg) (r : RndSat)
  -- 0x17 special functions (R150)
  | vrcp (d a : VReg) (m : SrcMod) (p : PReg)
  | vrsq (d a : VReg) (m : SrcMod) (p : PReg)
  | vexp2 (d a : VReg) (m : SrcMod) (p : PReg)
  | vlog2 (d a : VReg) (m : SrcMod) (p : PReg)
  | vsin (d a : VReg) (m : SrcMod) (p : PReg)
  | vcos (d a : VReg) (m : SrcMod) (p : PReg)
  | vtanh (d a : VReg) (m : SrcMod) (p : PReg)
  | verf (d a : VReg) (m : SrcMod) (p : PReg)
  -- 0x18, 0x19 vector memory (R152-R157)
  | vld (d : VReg) (a : SReg) (i : VMemImm)
  | vst (d : VReg) (a : SReg) (i : VMemImm)
  | vldg (d : VReg) (a : SReg) (b : VReg) (m : SrcMod) (i : GatherImm)
  | vstg (d : VReg) (a : SReg) (b : VReg) (m : SrcMod) (i : GatherImm)
  -- 0x1A, 0x1B (R159-R161)
  | vloop (a : SReg) (k : Fin 16)
  | vsync
  | pand (d a b : PReg)
  | por (d a b : PReg)
  | pxor (d a b : PReg)
  | pnot (d a : PReg)
  | pcnt (d : SReg) (a : PReg)
  | pfirst (d : SReg) (a : PReg)
  -- 0x1C-0x1F matrix (R217-R227)
  | mzero (d : TileCode)
  | mload (d : TileCode) (a : SReg) (i : MMemImm)
  | mstore (d : TileCode) (a : SReg) (i : MMemImm) (r : RndSat)
  | mma (d : TileCode) (a b : SReg) (i : MmaImm)
  | mjoin
  | mwait (done : Bool)
  | mstat (d : SReg)
  | mscale (a b : SReg) (ea eb : Bool)
  | mstream (a : SReg) (s : Fin 4) (clr : Bool)
  | dtld (d a : SReg) (table : Bool)
  -- 0x20 banks (R194)
  | berth (d a b : SReg) (clr : Bool)
  | unberth (d a : SReg) (clr : Bool)
  | hand (d a : SReg) (slot : Fin 8)
  | binfo (d a : SReg) (rem : Bool) (slot : Fin 8)
  | bclr (d : SReg) (slot : Fin 8)
  | spec (d : SReg) (slot : Fin 8)
  | scommit (d : SReg) (slot : Fin 8)
  | sabort (d : SReg) (slot : Fin 8)
  | wmrd (d : SReg) (part : Fin 3) (slot : Fin 8)
  -- 0x21 copies (R309)
  | cpyq (d : Fin 28)
  | cpyqt (d : Fin 28)
  | cpys (d a : SReg)
  | cpyr (d a : SReg)
  | cpyw (d a : SReg)
  | cpyst (d a : SReg) (part : Fin 4)
  -- 0x22 straits (R285)
  | turn (d a : SReg) (strait : Fin 10)
  | turnq (d : SReg) (strait : Fin 10)
  | thrd (d : SReg) (strait : Fin 10) (part : Fin 3)
  -- 0x23 system (R390)
  | trap (a : SReg) (code : Fin 16)
  | sret
  | sysr (d : SReg) (reg : Fin 256)
  | sysw (d a : SReg) (reg : Fin 256)
  | tlbi (a : SReg) (all : Bool)
  | wfe
  -- 0x24 sealed contexts (R362)
  | seal (d a b : SReg) (i : SealImm)
  | unseal (d a b : SReg) (i : SealImm)
  | sluice (d a b : SReg) (idx : Fin 15)
  -- operations and events of the module's other agents
  | powerUp
  | load
  | start
  | create
  | addCommand
  | assign
  | importCmd
  | depart
  | evidence
  | clockStep
  | clusterGate
  | hbmSelfRefresh
  | straitIdle
  | allowance
  | faultwin
  | chkpt
  | apply
  | run
  | halt
  | stateSummary
  | qctlWrite (func q : Nat) (v : W64)
  | registerWrite (func off : Nat) (v : W64)
  | plainNotify (func q : Nat) (v : W64)
  | sealedNotify (func q : Nat) (v : W64)
  | sealedNotifyEffect (func q : Nat)
  | notifyTimeout (func q : Nat)
  | bar2Write (func off : Nat) (data : List Byte)
  | bar2Read (func off len : Nat)
  | takeEntry (part q : Nat)
  | timelineRead (launch wait : Nat)
  | priorityAging (launch : Nat)
  | placement
  | spanStart (span : Nat)
  | messageArrival (dest : CoreId) (src : MsgFrom)
  | firingStart (c : CoreId)
  | sliceComplete (span : Nat)
  | mergeDelivery (launch : Nat)
  | tsliceExpiry (part : Nat)
  | preemptStop (part : Nat)
  | contextExchange (part : Nat)
  | drainStart (part : Nat)
  | drainComplete (part : Nat)
  | drainOverrun (part : Nat)
  | checkpointDiscard (part : Nat)
  | preemptRetry (part : Nat)
  | turnWindow
  | groupTurnComplete (strait grp : Nat)
  | landingUnit (c : CoreId)
  | copyCompletion (c : CoreId)
  | remoteWriteArrival (i : Nat)
  | heldWriteApply (b : BankId) (i : Nat)
  | storeAck (i : Nat) (peerRefused : Bool)
  | fabricAccessArrival (i : Nat)
  | fabricLoadReturn (i : Nat)
  | redMerge (line : Nat)
  | l2MissFill (die rank : Nat)
  | l2Writeback (line : Nat) (bad : Bool)
  | tableWalk (die i : Nat)
  | peerIngressWrite (port peerModule peerPart part : Nat) (ia : Nat) (data : List Byte) (rel : Bool)
  | peerLinkDown (port : Nat)
  | trapEntry (c : CoreId) (ctx : Nat)
  | revocation (c : CoreId)
  | watchdog (c : CoreId) (ctx : Nat)
  | portStallDiscard (c : CoreId)
  | alignTimeout (c : CoreId) (ctx : Nat)
  | wfeTimeout (c : CoreId) (ctx : Nat)
  | errorEvent (src : ErrSource) (bad : Option BadWord)
  | faultWindow
  | clusterRetirement (s : SiteId)
  | heartbeat (die : Nat) (arrived : Bool)
  | dieFence (die : Nat)
  | masterElection
  | temperatureChange (die : Nat) (temp : BitVec 8) (stack0 stack1 : Nat)
  | sequencerExecution (c : CoreId) (ctx : Nat)
  | matrixSliceExecution (c : CoreId)
  | powerOff
  | linkTrainingReturns (port : Nat)
  | hostReadCompletion (i : Nat) (data : List Byte)
  | postPackageRepairDone (stack row : Nat)
  deriving DecidableEq, Repr

end Sys2Proof
end

