-- ==== Sys2Proof/Config.lean ====
section
/-! DEFINITION. What an implementation fixes and the values the spec leaves open: constants with no body, so that
nothing can be proved of a particular value. -/
namespace Sys2Proof.Config

/-- Which of the sites that are left is the k-th spare of a die, fixed at manufacturing test (R10, DESIGN CHOICE, log 5). -/
opaque sparePick : Nat → Fin 4 → Fin 129

/-- A free value: the n-th draw of the machine (DESIGN CHOICE, log 12). -/
opaque draw : Nat → Nat

/-- Bytes of the n-th key that Lantern draws (R357, R363, DESIGN CHOICE, log 10). -/
opaque key : Nat → List Byte

/-- Modulus and exponent of the verifying key in the boot ROM, and the length of the salt of its signatures (R367, DESIGN CHOICE,
log 10). -/
opaque romKey : Nat × Nat
opaque romSalt : Nat

/-- The two primes of the n-th evidence key pair (R361, R366, DESIGN CHOICE, log 10). -/
opaque primes : Nat → Nat × Nat

/-- The salt of a signature, by the number of its draw (R361, DESIGN CHOICE, log 10). -/
opaque salt : Nat → List Byte

/-- The bytes in which a section of the state summary holds its content, by its type (R371, DESIGN CHOICE, log 12). -/
opaque sectionBytes : Nat → List Nat → List Byte

/-- The 64-byte beats that the i-th transfer of a counter takes on a strait; the first argument names strait, partition and
direction (R288, DESIGN CHOICE, log 18). -/
opaque beats : Nat → Nat → Nat

/-- The four spare sites of a die, all different (R10). -/
def spareSites (d : Nat) : List Nat :=
  (List.finRange 4).foldl (fun l k => l ++ [(((List.range 132).filter fun n => !l.contains n)[(sparePick d k).val]?).getD 0]) []

/-- The physical site is a spare by manufacturing test. -/
def isSpare (d n : Nat) : Bool := (spareSites d).contains n

end Sys2Proof.Config
end

