-- ==== Sys2Proof/Machine/State.lean ====
section
/-! DEFINITION. The state of the QN8-A module as plain data: everything spec/ gives the machine (INVENTORY.md,
heading State), and the model's own fields for whose turn it is, what stalls and what left the module. -/
namespace Sys2Proof.Machine

/-- A sparse table: a key that is not listed reads as the default its reader names. -/
abbrev Tab (κ α : Type) := List (κ × α)

/-! ## A firing context -/

/-- A vector register: 16 lanes, lane 0 first (R66). -/
abbrev Vec := List W32

/-- Why a context is in the middle of an instruction that keeps its progress while it waits (R340) (DEDUCED, log 11). -/
inductive Wait where
  /-- no such instruction -/
  | none
  /-- SBAR after its arrival in episode k (R115) -/
  | sbar (idx k : Nat)
  /-- END after its issue (R111) -/
  | ending
  /-- END of a joined context at the barrier of its leaving MJOIN (R215) -/
  | leaving
  /-- GANG before the gang forms (R52) -/
  | gang (log : Nat)
  /-- a fabric load or atomic whose request is in the fabric (R248, R270) -/
  | fabric (id : Nat)
  /-- a load or AtomicOp of host memory under way (R235, R270) -/
  | host (id : Nat)
  /-- a load or atomic of HBM that waits in a miss table or an overflow queue (R241) -/
  | line (id : Nat)
  /-- the value an access or a copy stop brought back, not yet written to its destination (R248, R270, R312) -/
  | value (v : W64)
  /-- the fault a fabric or host access brought back (R420, R428) -/
  | failed (code info : Nat) (va : W64)
  /-- ALIGN since this cycle, with the cores of the cluster seen at its PC since then (R56) -/
  | align (since : Nat) (seen : List Nat)
  /-- WFE since this cycle (R395) -/
  | wfe (since : Nat)
  /-- ALIGN or WFE whose wait has ended (R56, R395) -/
  | woken
  /-- CPYS waiting for a copy to stop (R312) -/
  | stopping (id : BitVec 32)
  /-- a trap of this context waits for another handler of the core (R374) -/
  | trap
  deriving DecidableEq, Repr

/-- A vector instruction as forwarded: x and k operands and RNDCTL as read then (R70, R171); `gang` names the
members of the gang it was forwarded in, none when the context stood alone (R53); `order` is the number of its
forwarding, by which it stands before or after the issue of a matrix instruction (R210) (DESIGN CHOICE, log 7). -/
structure VInstr where
  instr  : Instr
  pc     : W64
  num    : Nat
  order  : Nat := 0
  sval   : Option W64
  rndctl : W64
  gang   : List (CoreId × Nat) := []
  deriving DecidableEq, Repr

/-- A VLOOP that is repeating: repetitions still to do after this pass, and the next body position (R159). -/
structure LoopPos where
  left : Nat
  pos  : Nat
  deriving DecidableEq, Repr

/-- An entry of the sequencer; a VLOOP holds its body and where it stands in it (R158, R159); `offs` holds the lane
offsets of a gang's VLDG or VSTG once its source modifier has been applied over the gang lanes (R156, R162). -/
structure SeqEntry where
  v    : VInstr
  body : List VInstr := []
  loop : Option LoopPos := none
  offs : List W32 := []
  deriving DecidableEq, Repr

/-- A trap raised and not yet entered (R373, R374). -/
structure TrapInfo where
  code   : Nat
  info   : Nat
  stream : Nat
  epc    : W64
  xpc    : W64
  va     : W64
  order  : Nat
  deriving DecidableEq, Repr

/-- Where the context stands with the joint row (R213). -/
inductive JoinSt where
  | no | joining | joined | leaving
  deriving DecidableEq, Repr

/-- Bytes that a vector or matrix access may touch, for the order of R72; the addresses of a gather are not known
before its offsets are. -/
inductive Foot where
  | bank (b : BankId) (lo n : Nat)
  | mem (pa n : Nat)
  | anyMem
  deriving DecidableEq, Repr

/-- One firing context (R35, R342 row "firings"); `touch` holds the bytes of an issued scalar access that stands
behind a held byte or a protected row, `touchAt` the number of its issue (R188, R210, R300); `qbad` counts the oldest words
of a queue that have an uncorrectable error (R388) (DESIGN CHOICE, log 7). -/
structure Ctx where
  running  : Bool := false
  fid      : Nat := 0
  pc       : W64 := 0
  heads    : Nat := 1
  stalled  : Bool := false
  x        : Tab Nat W64 := []
  v        : Tab Nat Vec := []
  p        : Tab Nat (BitVec 16) := []
  q        : Tab Nat (List W64) := []
  rndctl   : W64 := 1
  status   : W64 := 1
  epc      : W64 := 0
  xpc      : W64 := 0
  cause    : W64 := 0
  faultva  : W64 := 0
  tscr     : Tab Nat W64 := []
  slots    : BitVec 32 := 0
  handler  : Nat := 0
  prio     : BitVec 2 := 0
  version  : BitVec 8 := 0
  compart  : Nat := 0
  sends    : Nat := 0
  sent     : Nat := 0
  wait     : Wait := .none
  trapPend : Option TrapInfo := none
  num      : Nat := 0
  seq      : List SeqEntry := []
  hist     : List VInstr := []
  heldWait : Wait := .none
  heldPc   : W64 := 0
  issued   : BitVec 16 := 0
  consumed : BitVec 16 := 0
  done     : BitVec 16 := 0
  scaleA   : Option W64 := none
  scaleB   : Option W64 := none
  join     : JoinSt := .no
  refuse   : Bool := false
  watch    : Nat := 0
  ports    : List Nat := []
  relMark  : Bool := false
  walkFail : Option (Nat × Nat) := none
  seqFail  : Option (Nat × Nat) := none
  touch    : List Foot := []
  touchAt  : Nat := 0
  bad      : List RegRow := []
  qbad     : Tab Nat Nat := []
  deriving DecidableEq, Repr

/-! ## A core -/

/-- A firing in the ready queue: its handler, the entry as read with the event (R34, R39), its inbox slots. -/
structure Ready where
  handler : Nat
  entry   : BitVec 128
  slots   : BitVec 32
  deriving DecidableEq, Repr

/-- A message of R40: two header words and 48 payload bytes. -/
structure Msg where
  h0      : W64
  h1      : W64
  payload : List Byte
  deriving DecidableEq, Repr

/-- A message on its way: who sent it and in which compartment the sender ran (R356); `frozen` names the copy
of the core's channel whose report it is (R411); `merged` marks one the merge engine delivered (R399); `chan` names
the copy channel that sent it, whose messages to one core keep their order (R307); `saved` marks an arrival that came back
from the shadow store (R345); `origin` is the die an engine's report sets out from (R384) (DESIGN CHOICE, log 7). -/
structure Flight where
  msg     : Msg
  src     : Option CoreId
  compart : Nat
  dest    : CoreId
  origin  : Option Nat := none
  report  : Option (CoreId × BitVec 32) := none
  merged  : Bool := false
  chan    : Option CoreId := none
  saved   : Bool := false
  deriving DecidableEq, Repr

/-- An inbox slot that holds a message (R45), tagged with the compartment it was sent from (R358). -/
structure InSlot where
  msg    : Msg
  report : Option (CoreId × BitVec 32)
  comp   : Nat := 0
  bad    : Bool := false
  deriving DecidableEq, Repr

/-- A counter (R43): value, bound handler, pending inbox slots. -/
structure Counter where
  value   : BitVec 16 := 0
  handler : BitVec 8 := 0
  pending : BitVec 32 := 0
  deriving DecidableEq, Repr

/-- The first refusal a core has recorded and their count (R403): delivery INFO and address. -/
structure Refusals where
  count : Nat := 0
  info  : Nat := 0
  addr  : W64 := 0
  deriving DecidableEq, Repr

/-- A stream register (R212). `live` is false while the stream is unset or ended. -/
structure Stream where
  live : Bool := false
  addr : W64 := 0
  skip : Nat := 0
  keep : Nat := 0
  deriving DecidableEq, Repr

/-- A bank operand of a matrix instruction as resolved at issue (R205). -/
structure MOp where
  bank : BankId
  off  : Nat
  win  : Nat
  addr : W64
  deriving DecidableEq, Repr

/-- A matrix instruction in the slice's buffer (R203), with what its issue captured (DESIGN CHOICE, log 7). -/
structure MEntry where
  ctx    : Nat
  instr  : Instr
  pc     : W64
  num    : Nat
  order  : Nat := 0
  fid    : Nat
  comp   : Nat := 0
  rndctl : W64
  opA    : Option MOp := none
  opB    : Option MOp := none
  scA    : Option MOp := none
  scB    : Option MOp := none
  skip   : Option MOp := none
  addr   : W64 := 0
  prot   : List (BankId × Nat) := []
  feet   : List Foot := []
  begun  : Bool := false
  cons   : Bool := false
  group  : Nat := 0
  paired : Bool := false
  held   : Bool := false
  deriving DecidableEq, Repr

/-- A tile: 1,024 elements keyed 32m + n; an unlisted element is +0 (R201). -/
abbrev Tile := Tab Nat W32

/-- The states of a copy (R289). -/
inductive CopySt where
  | waiting | landing | suspended | frozen | landed
  deriving DecidableEq, Repr

/-- A copy a channel holds (R289-R296): request words, progress in bytes of destination positions from the first
unit's start, banks resolved at acceptance, FROM and TO of its sluice (R360), and the requesting firing (R384). -/
structure Copy where
  id      : BitVec 32
  w0      : W64
  w1      : W64
  w2      : W64
  w3      : W64
  st      : CopySt := .waiting
  began   : Bool := false
  prog    : Nat := 0
  src     : Option BankId := none
  dst     : Option BankId := none
  sv      : Bool := false
  compart : Nat := 0
  sfrom   : Nat := 0
  sto     : Nat := 0
  fid     : Nat := 0
  stop    : Bool := false
  preempt : Bool := false
  retired : Bool := false
  fail    : Option (Nat × Nat) := none
  deriving DecidableEq, Repr

/-- A copy channel (R289, R297, R410): `taken` names the copy it lands (R291), `passed` says that DONE has moved since slice
start, so that a DONE of 0 shows completed copies (R296, R297) (DESIGN CHOICE, log 7). -/
structure Channel where
  next    : BitVec 32 := 0
  done    : BitVec 32 := 0
  places  : List Copy := []
  taken   : Option (BitVec 32) := none
  passed  : Bool := false
  record  : List W64 := [0, 0, 0, 0]
  reports : BitVec 32 := 0
  deriving DecidableEq, Repr

/-- A clean line of an L1 (R238): line number (physical address / 64), 64 bytes, use count (R240), the effective
compartment recorded at fill (R358), and the 8-byte words with an uncorrectable error (R388). -/
structure L1Line where
  line : Nat
  data : BitVec 512
  uc   : Nat
  dead : Bool
  comp : Nat
  bad  : List Nat := []
  deriving DecidableEq, Repr

/-- A pending update of an update-only line (R239, R272). -/
structure Update where
  addr : Nat
  op   : RedOp
  w64  : Bool
  val  : W64
  fid  : Nat
  deriving DecidableEq, Repr

/-- A combined translation (R234): the page of the partition's global space under a stage-1 root, its physical page and
what both stages allow; `tag` is the stage-1 leaf's TAG and `peer` marks a peer window (R335). -/
structure TlbEntry where
  part : Nat
  root : Nat
  va   : Nat
  size : Nat
  pa   : Nat
  rd   : Bool
  w    : Bool
  xe   : Bool
  sv   : Bool
  tag  : BitVec 8
  peer : Bool
  deriving DecidableEq, Repr

/-- Gang state of a core (R52): size as log2, the members in gang order, the ganged context of each. -/
structure Gang where
  log     : Nat
  members : List (CoreId × Nat)
  deriving DecidableEq, Repr

/-- A revocation that waits for its moment R (R423): cause, trap words and the dying firing. -/
structure RevPend where
  cause   : W64
  epc     : W64
  va      : W64
  handler : Nat
  version : BitVec 8
  report  : Bool
  deriving DecidableEq, Repr

/-- One core (R20, R342 row "core state"); `handed` lists the slots that a HAND has filled and the core has not yet used
(R255) (DESIGN CHOICE, log 7). -/
structure Core where
  ctxs     : Tab Nat Ctx := []
  k        : Tab Nat W64 := []
  last     : Nat := 0
  ready    : List Ready := []
  inbox    : Tab Nat InSlot := []
  ctrs     : Tab Nat Counter := []
  outq     : List Flight := []
  portq    : List Flight := []
  portSince : Nat := 0
  seqno    : BitVec 32 := 0
  unacked  : Nat := 0
  refusals : Refusals := {}
  sbar     : Tab Nat Nat := []
  gang     : Option Gang := none
  ptbase   : W64 := 0
  tvec     : W64 := 0
  seed     : W32 := 1
  berths   : Tab Nat (Option BankId) := []
  handed   : List Nat := []
  tiles    : Tab Nat Tile := []
  streams  : Tab Nat Stream := []
  dt0      : Tab Nat (BitVec 19) := []
  dt1      : Tab Nat (BitVec 19) := []
  slice    : List MEntry := []
  chan     : Channel := {}
  l1       : List L1Line := []
  updates  : List Update := []
  tlb      : List TlbEntry := []
  rev      : List RevPend := []
  vplace   : List (Nat × Nat × Bool) := []
  bad      : List CoreRow := []
  fatals   : BitVec 32 := 0
  stopped  : Bool := false
  deriving DecidableEq, Repr

/-! ## Banks -/

/-- The five states of a bank (R181). -/
inductive BankSt where
  | free | berthed | shadow | revoked | disabled
  deriving DecidableEq, Repr

/-- What a fabric load or atomic asks for (R248, R270). -/
inductive FKind where
  | load (size : Nat) (signed : Bool)
  | acq (size : Nat) (scope : Scope)
  | cas (f : AtomFlags) (b c : W64)
  | rmw (i : Instr) (f : AtomFlags) (b : W64)
  deriving DecidableEq, Repr

/-- A fabric load or atomic on its way to the owning cluster port (R186); `bound` is the bank its arrival was resolved to
while it waits there (R300). -/
structure FReq where
  id   : Nat
  core : CoreId
  ctx  : Nat
  fid  : Nat
  comp : Nat
  addr : W64
  dest : SReg
  kind : FKind
  bound : Option BankId := none
  deriving DecidableEq, Repr

/-- What a fabric write does at its bank (R440). -/
inductive WKind where
  /-- whole bytes from the offset upward -/
  | bytes (data : List Byte)
  /-- one nibble (R244) -/
  | nibble (val : BitVec 4) (hi : Bool)
  /-- a RED update (R272) -/
  | red (op : RedOp) (w64 : Bool) (val : W64)
  /-- a fabric atomic, or a fabric load that waits behind a full port (R270) -/
  | access (r : FReq)
  deriving DecidableEq, Repr

/-- A fabric load or atomic. -/
def WKind.isAccess : WKind → Bool
  | .access _ => true
  | _ => false

/-- A write through a fabric address, on its way or held at a bank port; `addr` is the address as formed and
`order` the number of its arrival, by which it stands before or after the issue of a matrix instruction (R210) (DESIGN CHOICE,
log 7); `saved` marks one that came back from the shadow store (R345). -/
structure FWrite where
  src   : CoreId
  ctx   : Nat
  fid   : Nat
  comp  : Nat
  addr  : W64
  kind  : WKind
  order : Nat := 0
  saved : Bool := false
  deriving DecidableEq, Repr

/-- A copy's place in a bank's queue (R303): its channel's core, its ID, its span START to END; `order` is the number of its
acceptance, by which a write stands before or after it (R301) (DESIGN CHOICE, log 7). -/
structure QCopy where
  core  : CoreId
  id    : BitVec 32
  start : Nat
  stop  : Nat
  order : Nat := 0
  deriving DecidableEq, Repr

/-- Where and why a bank was revoked (R424). -/
structure RevFrom where
  cause : W64
  score : Nat
  slot  : Nat
  deriving DecidableEq, Repr

/-- A bank: contents (an unlisted byte is 0, as a row whose valid bit is reset reads, R197), tag (R355), watermark
(R199, R299), ranges that closed envelopes have landed (R264), copy queue (R303), port places (R440), speculative shadow (R192), uncorrectable words (R388). -/
structure Bank where
  st      : BankSt := .free
  bytes   : List Host.Cell := []
  tag     : Nat := 0
  wmW     : Nat := 0x10000
  wmStart : Nat := 0
  wmEnd   : Nat := 0
  wmOpen  : Bool := false
  wmSusp  : Bool := false
  wmFroz  : Bool := false
  wmChan  : Nat := 0
  wmId    : BitVec 32 := 0
  wmOrder : Nat := 0
  landed  : List (Nat × Nat) := []
  queue   : List QCopy := []
  held    : List FWrite := []
  waiting : List FWrite := []
  shadow  : Option BankId := none
  bad     : List Nat := []
  retire  : Bool := false
  rev     : Option RevFrom := none
  part    : Option Nat := none
  reports : BitVec 32 := 0
  deriving DecidableEq, Repr

/-! ## Clusters, dies, straits, ports -/

/-- What a cluster site is (R10). -/
inductive SiteSt where
  | enabled | spare | disabled
  deriving DecidableEq, Repr

/-- A line held by a cluster's instruction cache (R79): its global line address within a partition, and the physical
address it was read from. -/
structure ILine where
  part : Nat
  va   : Nat
  pa   : Nat
  data : BitVec 512
  bad  : Bool := false
  deriving DecidableEq, Repr

/-- A cluster (R19). -/
structure Cluster where
  gated    : Bool := false
  retiring : Bool := false
  handlers : Tab Nat (BitVec 128) := []
  icache   : List ILine := []
  tlb      : List TlbEntry := []
  deriving DecidableEq, Repr

/-- A line of an L2 slice (R236): line number, dirty bytes (offset in the line, byte) over the HBM contents,
use count and dead flag (R240), effective compartment (R358); `queued` marks a write that waits in the overflow queue
(R241). -/
structure L2Line where
  line  : Nat
  dirty : List Host.Cell
  uc    : Nat
  dead  : Bool
  comp  : Nat
  queued : Bool := false
  deriving DecidableEq, Repr

/-- Who waits for a line or a translation: the integer pipeline or the sequencer of a context, a copy, a PFU that has
completed, with what its fill needs (R249), or an agent of the module that looks again. -/
inductive Waiter where
  | pipe (c : CoreId) (x : Nat)
  | seq (c : CoreId) (x : Nat)
  | copy (c : CoreId) (id : BitVec 32)
  | pfu (c : CoreId) (ea uc : Nat) (dead sv : Bool) (comp : Nat)
  | agent
  deriving DecidableEq, Repr

/-- What a request wants of its line: the value of a load or an atomic, kept out of L1 where `point` says so; the line in
L1, for PFU; or that the line stands in its slice when the one who asked looks again (R238-R241). -/
inductive Want where
  | value (k : FKind) (point : Bool)
  | fill
  | look
  deriving DecidableEq, Repr

/-- A request for a line that is not in its home slice (R241): who asks and for what, the number and the firing by which
the answer finds its wait, the address, and the use count it carries (R240) (DESIGN CHOICE, log 7). -/
structure LineReq where
  who  : Waiter
  want : Want := .look
  id   : Nat := 0
  fid  : Nat := 0
  pa   : Nat := 0
  ea   : W64 := 0
  uc   : Nat := 0
  dead : Bool := false
  deriving DecidableEq, Repr

/-- An entry of an L2 slice's miss table or overflow queue (R241): the line, the rank it stands under, its requests in the
order they came; `write` marks a write-back in the overflow queue (DESIGN CHOICE, log 7). -/
structure Miss where
  line  : Nat
  rank  : Nat
  comp  : Nat
  reqs  : List LineReq := []
  write : Bool := false
  deriving DecidableEq, Repr

/-- A walk waiting at a walker pool (R234): the page, the stage-1 root it starts from, and who waits for it, with the
firing where that is a context (DESIGN CHOICE, log 7). -/
structure Walk where
  core : CoreId
  who  : Waiter
  fid  : Nat
  part : Nat
  root : W64
  va   : Nat
  deriving DecidableEq, Repr

/-- A saved image of one span or merge cluster (R342, R347): its cores, its banks, the handler tables of its clusters
(R400), the units it takes on each cluster (R344), the urgent launch and slice it made room for (R323), an error met in
it (R436). -/
structure Image where
  part    : Nat
  ctx     : Nat
  span    : Option Nat
  launch  : Nat
  drained : Bool
  urgent  : Option (Nat × Nat)
  cores   : Tab CoreId Core
  banks   : Tab BankId Bank
  tables  : Tab SiteId (Tab Nat (BitVec 128))
  units   : Tab SiteId Nat
  bad     : Bool := false
  deriving DecidableEq, Repr

/-- A compute die with its cache die (R8, R13, R369, R370); `ovHead` counts the requests each rank's overflow queue has
given back (R241) (DESIGN CHOICE, logs 3 and 7). -/
structure Die where
  l2       : List L2Line := []
  misses   : List Miss := []
  overflow : List Miss := []
  ovHead   : Tab Nat Nat := []
  slicemap : Tab Nat Nat := []
  tlb      : List TlbEntry := []
  walks    : List Walk := []
  clock    : Nat := 0
  allow    : BitVec 16 := 500
  temp     : BitVec 8 := 0
  hot0     : Bool := false
  hot1     : Bool := false
  refresh0 : Bool := false
  refresh1 : Bool := false
  fenced   : Bool := false
  hbMissed : Nat := 0
  reports  : Tab Nat (BitVec 32) := []
  repairs  : List (Nat × Nat) := []
  deriving DecidableEq, Repr

/-- The state of a lane group (R277): direction, or turning toward one since a time in ns (R283). -/
inductive LaneSt where
  | toLo | toHi
  | turning (toLo : Bool) (since : Nat)
  deriving DecidableEq, Repr

/-- A lane group: direction, allotment (R279), idled (R369), to be removed at the next window (R412). -/
structure Lane where
  dir   : LaneSt
  owner : Option Nat := none
  idle  : Bool := false
  lost  : Bool := false
  retire : Bool := false
  deriving DecidableEq, Repr

/-- A strait with its arbiter (R277-R288); `xfers` counts, for a partition, the transfers toward lo (true) and toward hi
since its allotment was made (R288). -/
structure Strait where
  lanes   : List Lane
  pending : Tab Nat Nat := []
  initial : Tab Nat Nat := []
  start   : Option Nat := none
  reports : BitVec 32 := 0
  xfers   : Tab (Nat × Bool) Nat := []
  deriving DecidableEq, Repr

/-- A peer port (R16, R430): the link's training state and since when it is down (DESIGN CHOICE, log 3). -/
structure Port where
  up      : Bool := true
  down    : Option Nat := none
  refuse  : Bool := false
  reports : BitVec 32 := 0
  deriving DecidableEq, Repr

/-! ## Partitions, queues, launches, spans -/

/-- A roster entry (R336). -/
structure Roster where
  modul : Nat := 0
  rpart : Nat := 0
  port  : Nat := 0
  rd    : Bool := false
  w     : Bool := false
  v     : Bool := false
  size  : Nat := 0
  rbase : Nat := 0
  deriving DecidableEq, Repr

/-- How a pre-emption stops its spans (R338). -/
inductive PreMode where
  | immediate | drain | checkpoint
  deriving DecidableEq, Repr

/-- Why a pre-emption was asked for (R338, R435). -/
inductive PreWhy where
  | tslice | halt | urgentSlice (launch slice : Nat) | urgentCtx (ctx launch : Nat) | chkpt
  deriving DecidableEq, Repr

/-- A pre-emption asked for (R339): the spans an urgent slice takes (any other covers the whole running context), the
context that its images were counted with (R434); whether its cores stand, whether tokens went out and when (R346), the
time of the next attempt of one that did not fit and whether FNERR told of it (R435). -/
structure PreReq where
  mode    : PreMode
  why     : PreWhy
  spans   : List Nat := []
  coming  : Option Nat := none
  stopped : Bool := false
  tokens  : Bool := false
  since   : Nat := 0
  retry   : Nat := 0
  told    : Bool := false
  deriving DecidableEq, Repr

/-- Run state of a partition (R325). -/
inductive RunSt where
  | never | running | halted
  deriving DecidableEq, Repr

/-- A partition: its applied record (R325), running context (R326), deficit credits (R321), splits and targets
saved per context (R350), world failures (R389). -/
structure Part where
  defined  : Bool := false
  s2root   : W64 := 0
  s1root   : W64 := 0
  func     : Nat := 0
  nctx     : Nat := 1
  borrow   : Bool := false
  slmode   : Bool := false
  tslice   : Nat := 0
  quantum  : Nat := 0
  clusters : List SiteId := []
  channels : BitVec 512 := 0
  rate     : BitVec 16 := 0
  burst    : BitVec 13 := 0
  roster   : List Roster := []
  run      : RunSt := .never
  ctx      : Option Nat := none
  haltCtx  : Nat := 0
  turnAt   : Nat := 0
  credits  : Tab Nat Int := []
  splits   : Tab (Nat × Nat) Nat := []
  pre      : Option PreReq := none
  sliceTold : Bool := false
  deriving DecidableEq, Repr

/-- A queue of a partition's function (R315, R331, R332): registers, tail, and a waiting sealed notify
(TAIL, SEQ, since). -/
structure Queue where
  qbase  : W64 := 0
  irq    : Bool := false
  vec    : Nat := 0
  ctx    : Nat := 0
  log2n  : Nat := 0
  head   : BitVec 32 := 0
  tail   : BitVec 32 := 0
  sealed : Option (BitVec 32 × BitVec 32 × Nat) := none
  deriving DecidableEq, Repr

/-- A launch descriptor (R24, R25), its fields as stored. -/
structure Desc where
  table   : W64
  done    : W64
  ext     : List Nat
  slsz    : List Nat
  nwait   : Nat
  merge   : Bool
  reissue : Bool
  prio    : Nat
  dims    : Nat
  dies    : Nat
  h       : Nat
  w       : Nat
  quota   : Nat
  args    : List Byte
  waits   : List (W64 × W64)
  deriving DecidableEq, Repr

/-- A merge message held by the merge engine (R32): slice, sender's span-relative core, message. -/
structure MergeMsg where
  slice : Nat
  score : Nat
  msg   : Msg
  comp  : Nat
  deriving DecidableEq, Repr

/-- An active launch (R317, R320, R333); `tried` marks one whose first placement attempt has been made (R398), `asked` the
waits read once (R318), `need` the banks its images take on each cluster (R322), `refusedAt` the time of its refusal (R398), `calls` an urgent one that became eligible while its context did not run (R326), `told` one whose
pre-emption that did not fit FNERR records, `units` one that waits for units of the shadow store (R435). -/
structure Launch where
  id        : Nat
  part      : Nat
  ctx       : Nat
  queue     : Nat
  entry     : W64
  desc      : Desc
  sat       : List Bool
  prio      : Nat
  eligible  : Option Nat := none
  agedAt    : Nat := 0
  next      : Nat := 0
  back      : List Nat := []
  slices    : Nat
  done      : List Nat := []
  doneCnt   : Nat := 0
  placedAny : Bool := false
  discard   : Nat := 0
  tstart    : Nat := 0
  preempt   : Nat := 0
  cause     : Option Nat := none
  stop      : Bool := false
  lost      : Bool := false
  restarts  : Tab Nat Nat := []
  merge     : Option SiteId := none
  mergeNext : Nat := 0
  mergeMsgs : List MergeMsg := []
  compart   : Nat := 0
  drains    : Nat := 0
  calls     : Bool := false
  told      : Bool := false
  units     : Bool := false
  tried     : Bool := false
  asked     : List Nat := []
  need      : Nat := 0
  refusedAt : Option Nat := none
  deriving DecidableEq, Repr

/-- A placed span (R28, R29): its clusters in span-relative order and the slice it runs. -/
structure Span where
  id      : Nat
  launch  : Nat
  part    : Nat
  ctx     : Nat
  slice   : Nat
  sites   : List SiteId
  started : Bool := false
  saved   : Bool := false
  placed  : Nat := 0
  drains  : Nat := 0
  deriving DecidableEq, Repr

/-! ## Host interface and Lantern -/

/-- A PCIe function (R327-R329, R417). -/
structure Func where
  wbase   : W64 := 0
  count   : BitVec 32 := 0
  fnerr   : W64 := 0
  errs    : Nat := 0
  msix    : Tab Nat W64 := []
  pba     : List Nat := []
  d0      : Bool := true
  deriving DecidableEq, Repr

/-- An installed firmware image in load order (R367). -/
structure FwImage where
  target  : Nat
  version : Nat
  bytes   : List Byte
  deriving DecidableEq, Repr

/-- A compartment of a world: measurement (R361) and which of Lantern's drawn keys is its own (R357). -/
structure Compart where
  meas : List Byte
  key  : Nat
  deriving DecidableEq, Repr

/-- A sluice (R360). -/
structure Sluice where
  frm   : Nat := 0
  into    : Nat := 0
  allow : BitVec 48 := 0
  deriving DecidableEq, Repr

/-- A tenant world (R351, R357, R360, R363). -/
structure World where
  num      : Nat
  part     : Nat
  comps    : Tab Nat Compart
  counters : Tab Nat W64 := []
  sluices  : Tab Nat Sluice := []
  key      : Nat
  deriving DecidableEq, Repr

/-- Lantern (R18, R365-R371, R386); `keys` counts the keys it has drawn, `bootKey` is the one of this boot (R357, R368). -/
structure Lantern where
  images  : List FwImage := []
  started : Bool := false
  cmd     : Option Nat := none
  cargs   : List W64 := []
  result  : Nat := 0
  args    : Tab Nat W64 := []
  reply   : List Byte := []
  worlds  : List World := []
  keys    : Nat := 17
  bootKey : Nat := 0
  window  : Nat := 1000000
  began   : Nat := 0
  thresh  : Nat := 8
  counts  : Tab ErrSource Nat := []
  retired : List ErrSource := []
  sumAddr : W64 := 0
  sumGo   : Bool := false
  deriving DecidableEq, Repr

/-! ## Traffic -/

/-- The outcome of a fabric access returning to its context: a value, or a trap code and INFO. -/
structure FResp where
  req   : FReq
  value : W64
  fault : Option (Nat × Nat)
  deriving DecidableEq, Repr

/-- A read request sent to the host (R235): plain load or an AtomicOp, or nothing when it is not a load. -/
structure HReq where
  id   : Nat
  core : CoreId
  ctx  : Nat
  fid  : Nat
  pa   : Nat
  size : Nat
  dest : SReg
  kind : FKind
  deriving DecidableEq, Repr

/-- What left the module: interrupts, PCIe completions, Coastline writes, reset of the links (DESIGN CHOICE, log 36). -/
inductive Outside where
  /-- MSI-X message of a function's vector (R334) -/
  | msix (func vec : Nat)
  /-- completion of a BAR2 read: data, or Unsupported Request (R418) -/
  | readData (func off : Nat) (data : Option (List Byte))
  /-- a peer write sent on a port to an intermediate address of a partition of a module (R336, R337) -/
  | peerWrite (port modul rpart : Nat) (ia : Nat) (data : List Byte) (rel : Bool)
  /-- a nibble of a peer byte (R335, R246) -/
  | peerNibble (port modul rpart : Nat) (ia : Nat) (val : BitVec 4) (hi : Bool) (rel : Bool)
  /-- a landing unit sent to a peer as one write: intermediate address and value of each byte (R298, R336) -/
  | peerUnit (port modul rpart : Nat) (bytes : List (Nat × Byte))
  /-- a peer read sent on a port, of so many bytes (R336) -/
  | peerRead (port modul rpart : Nat) (ia n : Nat)
  /-- answer to an incoming peer read: the bytes, or a refusal (R336, R430) -/
  | peerData (port : Nat) (data : Option (List Byte))
  /-- a release mark placed on a port (R337) -/
  | peerMark (port : Nat)
  /-- answer to an incoming peer write: accepted or refused (R430) -/
  | peerAck (port : Nat) (accepted : Bool)
  deriving DecidableEq, Repr

/-- An acknowledgement of a remote store on its way to its core (R243): the address, the refusal's INFO if it was
refused; `peer` names the port of a peer store that the peer has still to accept or
refuse, `queued` what waits for the port's link (R430). -/
structure Ack where
  core    : CoreId
  ctx     : Nat
  addr    : W64
  refused : Option Nat
  peer    : Option Nat := none
  queued  : Option Outside := none
  deriving DecidableEq, Repr

/-! ## Whose turn it is -/

/-- One move of the agenda: a core issues one instruction (R49), an event of the opcode table, a peer's read or its store of a nibble
arrives (R335, R336, R430), or time passes with nothing moving. -/
inductive Turn where
  | issue (c : CoreId)
  | event (i : Instr)
  | peerRead (port modul rpart part : Nat) (ia n : Nat)
  | peerNibble (port modul rpart part : Nat) (ia : Nat) (val : BitVec 4) (hi : Bool)
  | idle (cycles : Nat)
  deriving DecidableEq, Repr

/-! ## The machine -/

/-- The module; `missed` holds the lines that a step under way has found missing from their slices (R241), `recheck` says that a
cluster or bank has been lost since R398's fourth check was last made for every launch (DESIGN CHOICE, log 7). -/
structure State where
  powered   : Bool := true
  cycle     : Nat := 0
  rtime     : Nat := 0
  cores     : Tab CoreId Core := []
  banks     : Tab BankId Bank := []
  sites     : Tab SiteId SiteSt := []
  clusters  : Tab SiteId Cluster := []
  dies      : Tab Nat Die := []
  mem       : List Host.Cell := []
  bad       : List Nat := []
  straits   : List Strait
  windows   : Nat := 0
  ports     : Tab Nat Port := []
  parts     : Tab Nat Part := []
  queues    : Tab (Nat × Nat) Queue := []
  launches  : List Launch := []
  spans     : List Span := []
  images    : List Image := []
  funcs     : Tab Nat Func := []
  lantern   : Lantern := {}
  prbase    : W64 := 0
  prcmd     : W64 := 0
  master    : Option Nat := none
  election  : Option Nat := none
  lastPart  : Tab Nat Nat := []
  lastPlace : Nat := 0
  fwrites   : List FWrite := []
  acks      : List Ack := []
  freqs     : List FReq := []
  fresps    : List FResp := []
  hreqs     : List HReq := []
  engine    : List Flight := []
  fids      : Nat := 1
  ids       : Nat := 0
  cur       : CoreId := ⟨0, 0, 0⟩
  curCtx    : Nat := 0
  draws     : Nat := 0
  missed    : List Nat := []
  recheck   : Bool := false
  turns     : List Turn := []
  outside   : List Outside := []
  deriving DecidableEq, Repr

/-- The machine stops. Raised by step alone, for a turn that names an agent the spec says does not exist (a die
above 7, a cluster site above 131, a core above 3, a context above 3, R8, R10, R48). Safe: the hardware has no
such turn. -/
inductive Fault where
  | noSuchAgent
  deriving DecidableEq, Repr

/-- No meaning for the instruction. -/
inductive Refusal where
  /-- an instruction whose arm of exec has no meaning yet; safe -/
  | notModelled (mnemonic : String)
  deriving DecidableEq, Repr

/-- A strait at power-up (R279): groups 0-15 toward hi, 16-31 toward lo, none allotted (DEDUCED, log 1). -/
def Strait.reset : Strait :=
  { lanes := List.replicate 16 { dir := .toHi } ++ List.replicate 16 { dir := .toLo } }

/-- The module right after power-up (R368 step 1): nothing on chip is valid, no firmware, no partition, every
table empty; the values the spec does not state are the log's (DESIGN CHOICE, logs 1, 2, 3). -/
def State.reset : State := { straits := List.replicate 10 Strait.reset }

end Sys2Proof.Machine
end

