-- ==== Sys2Proof/Machine/Data.lean ====
section
/-! DEFINITION. Sparse tables, byte lists in canonical form, and bit fields of words. -/
namespace Sys2Proof.Machine

/-! ## Tables -/

/-- The value listed under a key. -/
def Tab.find {κ α : Type} [DecidableEq κ] : Tab κ α → κ → Option α
  | [], _ => none
  | (j, v) :: t, k => if j = k then some v else Tab.find t k

/-- The value under a key, or the default where the key is not listed. -/
def Tab.getD {κ α : Type} [DecidableEq κ] (t : Tab κ α) (k : κ) (d : α) : α := (t.find k).getD d

/-- The key taken out of the table. -/
def Tab.del {κ α : Type} [DecidableEq κ] (t : Tab κ α) (k : κ) : Tab κ α := t.filter (·.1 ≠ k)

/-- The value put under a key. -/
def Tab.put {κ α : Type} [DecidableEq κ] (t : Tab κ α) (k : κ) (v : α) : Tab κ α := (k, v) :: t.del k

/-- The value under a key changed by a function. -/
def Tab.upd {κ α : Type} [DecidableEq κ] (t : Tab κ α) (k : κ) (d : α) (f : α → α) : Tab κ α :=
  t.put k (f (t.getD k d))

/-! ## Bytes in canonical form: addresses rising, no byte listed that reads 0 anyway -/

/-- The byte at an address; an unlisted address reads 0 (DESIGN CHOICE, log 2). -/
def cellGet (m : List Host.Cell) (a : Nat) : Byte :=
  match m with
  | [] => 0
  | (b, v) :: t => if b = a then v else cellGet t a

/-- A byte written; writing 0 takes the entry out. -/
def cellPut (m : List Host.Cell) (a : Nat) (v : Byte) : List Host.Cell :=
  match m with
  | [] => if v = 0 then [] else [(a, v)]
  | (b, w) :: t =>
    if a < b then (if v = 0 then (b, w) :: t else (a, v) :: (b, w) :: t)
    else if a = b then (if v = 0 then t else (a, v) :: t)
    else (b, w) :: cellPut t a v

/-- n bytes from an address upward. -/
def cellRead (m : List Host.Cell) (a : Nat) : Nat → List Byte
  | 0 => []
  | n + 1 => cellGet m a :: cellRead m (a + 1) n

/-- Bytes written from an address upward. -/
def cellWrite (m : List Host.Cell) (a : Nat) : List Byte → List Host.Cell
  | [] => m
  | v :: vs => cellWrite (cellPut m a v) (a + 1) vs

/-- The canonical form of a byte list above a bound: addresses strictly rising, no listed byte 0. -/
def cellsFrom (lo : Nat) : List Host.Cell → Bool
  | [] => true
  | (a, v) :: t => lo ≤ a && v != 0 && cellsFrom (a + 1) t

/-- The canonical form. -/
def Memory.wf (m : List Host.Cell) : Bool := cellsFrom 0 m

/-! ## Fields of words -/

/-- Bits hi down to lo of a word, as a number. -/
def field {n : Nat} (w : BitVec n) (hi lo : Nat) : Nat := (w.toNat / 2 ^ lo) % 2 ^ (hi + 1 - lo)

/-- One bit of a word. -/
def bitOf {n : Nat} (w : BitVec n) (i : Nat) : Bool := w.getLsbD i

/-- Bits hi down to lo replaced by a number. -/
def setField {n : Nat} (w : BitVec n) (hi lo v : Nat) : BitVec n :=
  let m := 2 ^ (hi + 1 - lo)
  BitVec.ofNat n (w.toNat - field w hi lo * 2 ^ lo + (v % m) * 2 ^ lo)

/-- A number as a 64-bit word. -/
def w64 (n : Nat) : W64 := BitVec.ofNat 64 n

/-- A Bool as a number. -/
def b2n (b : Bool) : Nat := b.toNat

/-- Sign extension of the low w bits of a number to an integer. -/
def sext (w n : Nat) : Int := (BitVec.ofNat w n).toInt

/-! ## Lists -/

/-- Element i changed by a function. -/
def updAt {α : Type} (l : List α) (i : Nat) (f : α → α) : List α := l.modify i f

/-- The least number of `n` upward candidates that satisfies a test. -/
def firstBelow (p : Nat → Bool) (n : Nat) : Option Nat := (List.range n).find? p

/-- The least value of a function over a list, 0 for the empty list. -/
def minBy {α : Type} (f : α → Nat) : List α → Option α
  | [] => none
  | a :: t =>
    match minBy f t with
    | none => some a
    | some b => if f b < f a then some b else some a

/-- Elements in rising order of a key, equal keys in list order. -/
def sortBy {α : Type} (f : α → Nat) (l : List α) : List α :=
  l.foldr (fun a acc => acc.takeWhile (fun b => f b < f a) ++ a :: acc.dropWhile (fun b => f b < f a)) []

end Sys2Proof.Machine
end

