-- ==== Sys2Proof/Decode.lean ====
section
/-! DEFINITION. The decoder of code lines (R58, R77), heads (R59) and tails (R62-R69, R78), total on any bytes and
rejecting by the name of the first check of R396 that fails; after it the encoder, from the same tables. -/
namespace Sys2Proof

/-! ## Rejections -/

/-- Why a line, a slot or an instruction is rejected: the rows of R396, in its order. -/
inductive DecodeError where
  | headerBits | noHeads | badTailLength | lineTooLong | noSuchSlot
  | badMajor | badMinor | wrongTailLength | badRegister | reservedBit | smallField | together
  deriving DecidableEq, Repr

/-- Cause code of a rejection (R77, R78). -/
def DecodeError.cause : DecodeError → Nat
  | .headerBits | .noHeads | .badTailLength | .lineTooLong | .noSuchSlot => 0x02
  | _ => 0x01

/-- CAUSE.INFO of a rejection (R396) (DEDUCED, log 21). -/
def DecodeError.info : DecodeError → Nat
  | .headerBits => 1
  | .noHeads => 2
  | .badTailLength => 3
  | .lineTooLong => 4
  | .noSuchSlot => 5
  | .badMajor => 1
  | .badMinor => 2
  | .wrongTailLength => 3
  | .badRegister => 4
  | .reservedBit => 5
  | .smallField => 6
  | .together => 7

/-- What decoding answers. -/
abbrev Dec (α : Type) := Except DecodeError α

/-! ## Fields -/

/-- Bits lo + w - 1 down to lo of n. -/
def bits (n lo w : Nat) : Nat := n / 2 ^ lo % 2 ^ w

/-- Bit i of n. -/
def flag (n i : Nat) : Bool := bits n i 1 == 1

/-- A check that must hold, or the instruction is rejected by `e`. -/
def require (e : DecodeError) (c : Bool) : Dec Unit := if c then .ok () else .error e

/-- A value that must be below the bound, or the instruction is rejected by `e`. -/
def ranged (e : DecodeError) (k n : Nat) : Dec (Fin k) := if h : n < k then .ok ⟨n, h⟩ else .error e

/-- A scalar register field (R66). -/
def scalarField (n : Nat) : Dec SReg :=
  if h : n < 32 then .ok (.x ⟨n, h⟩)
  else if h : n - 32 < 8 then .ok (.k ⟨n - 32, h⟩)
  else if h : n - 40 < 8 then .ok (.q ⟨n - 40, h⟩)
  else .error .badRegister

/-- A scalar field that is read and written: x1-x31 or k0-k7 (R105). -/
def readWriteField (n : Nat) : Dec SReg := do
  let r ← scalarField n
  match r with
  | .x i => if i.val = 0 then .error .badRegister else .ok r
  | .k _ => .ok r
  | .q _ => .error .badRegister

/-- The scalar destination of a vector instruction: a queue register (R75). -/
def queueField (n : Nat) : Dec SReg := do
  let r ← scalarField n
  match r with
  | .q _ => .ok r
  | _ => .error .badRegister

/-- The status destination of a matrix instruction: x0 or a queue register (R203). -/
def statusField (n : Nat) : Dec SReg := do
  let r ← scalarField n
  match r with
  | .q _ => .ok r
  | .x i => if i.val = 0 then .ok r else .error .badRegister
  | .k _ => .error .badRegister

/-- A vector register field (R66): every 6-bit value names one. -/
def vectorField (n : Nat) : VReg := Fin.ofNat 64 n

/-- A predicate register field (R66). -/
def predField (n : Nat) : Dec PReg := ranged .badRegister 16 n

/-- A predicate destination: p0 is refused (R66). -/
def predDestField (n : Nat) : Dec PReg := do
  let p ← predField n
  if p.val = 0 then .error .badRegister else .ok p

/-- Bits that must be zero (R64). -/
def zero (n : Nat) : Dec Unit := require .reservedBit (n == 0)

/-- SCOPE (R247): 5-7 reserved. -/
def scopeField (n : Nat) : Dec Scope :=
  match n with
  | 0 => .ok .core
  | 1 => .ok .cluster
  | 2 => .ok .die
  | 3 => .ok .part
  | 4 => .ok .sys
  | _ => .error .smallField

/-- RND (R133): 6-7 reserved. -/
def rndField (n : Nat) : Dec Rnd :=
  match n with
  | 0 => .ok .ctl
  | 1 => .ok .rne
  | 2 => .ok .rz
  | 3 => .ok .ru
  | 4 => .ok .rd
  | 5 => .ok .sr
  | _ => .error .smallField

/-- The alias window codes (R169): 11-15 are no window. -/
def windowOf (n : Nat) : Option Window :=
  match n with
  | 0 => some .raw
  | 1 => some .e4m3
  | 2 => some .e5m2
  | 3 => some .e2m1
  | 4 => some .i8
  | 5 => some .n8
  | 6 => some .i4
  | 7 => some .bf16
  | 8 => some .f16
  | 9 => some .dt0
  | 10 => some .dt1
  | _ => none

/-- ELT of VLDG and VSTG (R156): 11-15 reserved. -/
def windowField (n : Nat) : Dec Window :=
  match windowOf n with
  | some w => .ok w
  | none => .error .smallField

/-- Type codes of VCVT (R145). -/
def cvtField (n : Nat) : Dec CvtTy :=
  match n with
  | 0 => .ok .f32
  | 1 => .ok .i32
  | 2 => .ok .n32
  | 3 => .ok .bf16
  | 4 => .ok .f16
  | 5 => .ok .e4m3
  | 6 => .ok .e5m2
  | 7 => .ok .e2m1
  | 8 => .ok .i16
  | 9 => .ok .n16
  | 10 => .ok .i8
  | 11 => .ok .n8
  | 12 => .ok .i4
  | 13 => .ok .dt0
  | 14 => .ok .dt1
  | _ => .error .smallField

/-- OP of RED (R271). -/
def redOpField (n : Nat) : Dec RedOp :=
  match n with
  | 0 => .ok .addI
  | 1 => .ok .addF
  | 2 => .ok .minI
  | 3 => .ok .maxI
  | 4 => .ok .minF
  | 5 => .ok .maxF
  | 6 => .ok .and
  | 7 => .ok .or
  | 8 => .ok .xor
  | _ => .error .smallField

/-- OP of VRED (R144). -/
def vredOpField (n : Nat) : Dec VRedOp :=
  match n with
  | 0 => .ok .addI
  | 1 => .ok .addF
  | 2 => .ok .minI
  | 3 => .ok .maxI
  | 4 => .ok .minN
  | 5 => .ok .maxN
  | 6 => .ok .minF
  | 7 => .ok .maxF
  | 8 => .ok .and
  | 9 => .ok .or
  | 10 => .ok .xor
  | _ => .error .smallField

/-- CC of VCMP (R139). -/
def ccField (n : Nat) : Dec CmpCC :=
  match n with
  | 0 => .ok .eq
  | 1 => .ok .ne
  | 2 => .ok .lt
  | 3 => .ok .le
  | 4 => .ok .gt
  | 5 => .ok .ge
  | 6 => .ok .un
  | _ => .error .smallField

/-- CLASS of the source modifier (R68). -/
def modClass (n : Nat) : ModClass :=
  match n with
  | 0 => .none
  | 1 => .rotate
  | 2 => .swap
  | _ => .bcast

/-- The source modifier of an Fc tail (R68) with MSEL (R65). -/
def modField (m : Nat) (msel : Bool) : SrcMod :=
  { cls := modClass (bits m 10 2), lseg := Fin.ofNat 8 (bits m 7 3), dist := Fin.ofNat 128 (bits m 0 7), onB := msel }

/-- When CLASS is 0, LSEG and DIST are not used (R68). -/
def modUnused (m : Nat) : Dec Unit := zero (if bits m 10 2 = 0 then bits m 0 10 else 0)

/-! ## The tail formats (R62) -/

/-- Fa: d, a, s4. -/
structure Fa where
  d : Nat
  a : Nat
  s4 : Nat
/-- Fb: d, a, b, f14. -/
structure Fb where
  d : Nat
  a : Nat
  b : Nat
  f : Nat
/-- Fb.br: a, b, loff, tslot. -/
structure Fbr where
  a : Nat
  b : Nat
  loff : Nat
  tslot : Nat
/-- Fc: d, a, b, c, mod, flags. -/
structure Fc where
  d : Nat
  a : Nat
  b : Nat
  c : Nat
  mod : Nat
  fl : Nat
/-- Fd.2: d, a, imm. Fd.1 and Fd.3 are read from the same bits. -/
structure Fd where
  d : Nat
  a : Nat
  imm : Nat

def faOf (t : Nat) : Fa := { d := bits t 10 6, a := bits t 4 6, s4 := bits t 0 4 }
def fbOf (t : Nat) : Fb := { d := bits t 26 6, a := bits t 20 6, b := bits t 14 6, f := bits t 0 14 }
def fbrOf (t : Nat) : Fbr := { a := bits t 26 6, b := bits t 20 6, loff := bits t 5 15, tslot := bits t 0 5 }
def fcOf (t : Nat) : Fc :=
  { d := bits t 42 6, a := bits t 36 6, b := bits t 30 6, c := bits t 24 6, mod := bits t 12 12, fl := bits t 0 12 }
def fd2Of (t : Nat) : Fd := { d := bits t 58 6, a := bits t 52 6, imm := bits t 0 52 }

/-- The formats of R62 with their tail codes TL. -/
inductive Fmt where
  | h | a | b | c | d
  deriving DecidableEq, Repr

/-- TL of a format (R62). -/
def Fmt.tl : Fmt → Nat
  | .h => 0
  | .a => 1
  | .b => 2
  | .c => 3
  | .d => 4

/-- The opcode map (R80): the formats of a major's minors, in order; the empty list is a reserved major. -/
def opcodeMap (major : Nat) : List Fmt :=
  match major with
  | 0x01 => List.replicate 8 .b
  | 0x02 => [.d, .d, .a, .a, .b, .h]
  | 0x03 => [.a, .h, .h, .a]
  | 0x04 => List.replicate 13 .b
  | 0x05 => List.replicate 11 .b
  | 0x06 => [.b, .b, .b, .c, .a]
  | 0x07 => [.b, .b, .b, .b, .b, .b, .b, .d, .d]
  | 0x08 => [.b, .b, .b, .c]
  | 0x0A => List.replicate 9 .d
  | 0x0B => List.replicate 6 .d
  | 0x0C => List.replicate 8 .c
  | 0x0D => [.b]
  | 0x0E => [.a, .h, .h]
  | 0x0F => [.c, .c, .b, .b, .b, .b]
  | 0x10 => List.replicate 11 .c
  | 0x11 => List.replicate 7 .c
  | 0x12 => List.replicate 6 .c
  | 0x13 => [.c, .c]
  | 0x14 => List.replicate 4 .c
  | 0x15 => List.replicate 3 .c
  | 0x16 => [.c]
  | 0x17 => List.replicate 8 .c
  | 0x18 => [.d, .d]
  | 0x19 => [.c, .c]
  | 0x1A => [.b, .h]
  | 0x1B => List.replicate 6 .b
  | 0x1C => [.a, .d, .d]
  | 0x1D => [.d]
  | 0x1E => [.h, .a, .a]
  | 0x1F => [.b, .b, .b]
  | 0x20 => [.b, .b, .b, .b, .a, .a, .a, .a, .a]
  | 0x21 => List.replicate 6 .a
  | 0x22 => List.replicate 3 .b
  | 0x23 => [.a, .h, .b, .b, .b, .h]
  | 0x24 => List.replicate 3 .b
  | _ => []

/-! ## Decoding each family -/

/-- Majors 0x01 and LOOP: the target (R63). -/
def brTarget (f : Fbr) : Dec BrTarget := do
  let s ← ranged .smallField 31 f.tslot
  return { loff := BitVec.ofNat 15 f.loff, tslot := s }

def jTarget (t : Nat) : Dec JTarget := do
  let s ← ranged .smallField 31 (bits t 0 5)
  return { loff := BitVec.ofNat 53 (bits t 5 53), tslot := s }

def decBranch (mk : SReg → SReg → BrTarget → Instr) (t : Nat) : Dec Instr := do
  let f := fbrOf t
  let a ← scalarField f.a
  let b ← scalarField f.b
  let g ← brTarget f
  return mk a b g

def decBranch1 (mk : SReg → BrTarget → Instr) (t : Nat) : Dec Instr := do
  let f := fbrOf t
  let a ← scalarField f.a
  zero f.b
  let g ← brTarget f
  return mk a g

def dec01 (m t : Nat) : Dec Instr :=
  match m with
  | 0 => decBranch .beq t
  | 1 => decBranch .bne t
  | 2 => decBranch .blt t
  | 3 => decBranch .bge t
  | 4 => decBranch .bltn t
  | 5 => decBranch .bgen t
  | 6 => decBranch1 .bz t
  | 7 => decBranch1 .bnz t
  | _ => .error .badMinor

def dec02 (m t : Nat) : Dec Instr :=
  match m with
  | 0 => do
    zero (bits t 58 6)
    let g ← jTarget t
    return .j g
  | 1 => do
    let d ← scalarField (bits t 58 6)
    let g ← jTarget t
    return .jal d g
  | 2 => do
    let f := faOf t
    let d ← scalarField f.d
    zero f.a
    zero f.s4
    return .jr d
  | 3 => do
    let f := faOf t
    let d ← scalarField f.d
    let a ← scalarField f.a
    zero f.s4
    return .jalr d a
  | 4 => do
    let f := fbrOf t
    let a ← readWriteField f.a
    zero f.b
    let g ← brTarget f
    return .loop a g
  | 5 => return .end_
  | _ => .error .badMinor

def dec03 (m t : Nat) : Dec Instr :=
  match m with
  | 0 => do
    let f := faOf t
    zero f.d
    zero f.a
    require .smallField (f.s4 != 0)
    let n ← ranged .smallField 3 (f.s4 - 1)
    return .gang n
  | 1 => return .ungang
  | 2 => return .align
  | 3 => do
    let f := faOf t
    let d ← scalarField f.d
    zero f.a
    let i ← ranged .smallField 4 f.s4
    return .sbar d i
  | _ => .error .badMinor

/-- Three scalar fields, f14 reserved (R116, R118, R119). -/
def decDab (mk : SReg → SReg → SReg → Instr) (t : Nat) : Dec Instr := do
  let f := fbOf t
  let d ← scalarField f.d
  let a ← scalarField f.a
  let b ← scalarField f.b
  zero f.f
  return mk d a b

/-- d and a, with b and f14 reserved (R118). -/
def decDa (mk : SReg → SReg → Instr) (t : Nat) : Dec Instr := do
  let f := fbOf t
  let d ← scalarField f.d
  let a ← scalarField f.a
  zero f.b
  zero f.f
  return mk d a

def dec04 (m t : Nat) : Dec Instr :=
  match m with
  | 0 => decDab .add t
  | 1 => decDab .sub t
  | 2 => decDab .mul t
  | 3 => decDab .mulh t
  | 4 => decDab .mulhn t
  | 5 => decDab .div t
  | 6 => decDab .divn t
  | 7 => decDab .rem t
  | 8 => decDab .remn t
  | 9 => decDab .min t
  | 10 => decDab .max t
  | 11 => decDab .minn t
  | 12 => decDab .maxn t
  | _ => .error .badMinor

def dec05 (m t : Nat) : Dec Instr :=
  match m with
  | 0 => decDab .and t
  | 1 => decDab .or t
  | 2 => decDab .xor t
  | 3 => decDab .andn t
  | 4 => decDab .shl t
  | 5 => decDab .shr t
  | 6 => decDab .sra t
  | 7 => decDab .rot t
  | 8 => decDa .clz t
  | 9 => decDa .ctz t
  | 10 => decDa .popc t
  | _ => .error .badMinor

def dec06 (m t : Nat) : Dec Instr :=
  match m with
  | 0 => decDab .slt t
  | 1 => decDab .sltn t
  | 2 => decDab .seq t
  | 3 => do
    let f := fcOf t
    let d ← scalarField f.d
    let a ← scalarField f.a
    let b ← scalarField f.b
    let c ← scalarField f.c
    zero f.mod
    zero f.fl
    return .sel d a b c
  | 4 => do
    let f := faOf t
    let d ← scalarField f.d
    let a ← scalarField f.a
    zero f.s4
    return .mov d a
  | _ => .error .badMinor

/-- d, a and a 14-bit immediate (R120). -/
def decImm (mk : SReg → SReg → BitVec 14 → Instr) (t : Nat) : Dec Instr := do
  let f := fbOf t
  let d ← scalarField f.d
  let a ← scalarField f.a
  zero f.b
  return mk d a (BitVec.ofNat 14 f.f)

/-- d, a and a shift amount (R120). -/
def decShift (mk : SReg → SReg → Fin 64 → Instr) (t : Nat) : Dec Instr := do
  let f := fbOf t
  let d ← scalarField f.d
  let a ← scalarField f.a
  zero f.b
  zero (bits f.f 6 8)
  return mk d a (Fin.ofNat 64 f.f)

def dec07 (m t : Nat) : Dec Instr :=
  match m with
  | 0 => decImm .addi t
  | 1 => decImm .andi t
  | 2 => decImm .ori t
  | 3 => decImm .xori t
  | 4 => decShift .shli t
  | 5 => decShift .shri t
  | 6 => decShift .srai t
  | 7 => do
    let d ← scalarField (bits t 58 6)
    return .li d (BitVec.ofNat 58 (bits t 0 58))
  | 8 => do
    let d ← readWriteField (bits t 58 6)
    zero (bits t 32 26)
    return .lih d (BitVec.ofNat 32 (bits t 0 32))
  | _ => .error .badMinor

/-- POS and LENM of BFX and BFI, with pos + len at most 64 (R122). -/
def bitField (f : Nat) : Dec BitField := do
  require .together (bits f 0 6 + bits f 6 6 < 64)
  return { pos := Fin.ofNat 64 (bits f 0 6), lenm := Fin.ofNat 64 (bits f 6 6) }

def dec08 (m t : Nat) : Dec Instr :=
  match m with
  | 0 => do
    let f := fbOf t
    let d ← scalarField f.d
    let a ← scalarField f.a
    zero f.b
    zero (bits f.f 13 1)
    let g ← bitField f.f
    return .bfx d a g (flag f.f 12)
  | 1 => do
    let f := fbOf t
    let d ← readWriteField f.d
    let a ← scalarField f.a
    zero f.b
    zero (bits f.f 12 2)
    let g ← bitField f.f
    return .bfi d a g
  | 2 => do
    let f := fbOf t
    let d ← scalarField f.d
    let a ← scalarField f.a
    let b ← scalarField f.b
    zero (bits f.f 4 10)
    return .lea d a b (flag f.f 3) (Fin.ofNat 8 (bits f.f 0 3))
  | 3 => do
    let f := fcOf t
    let g : FabaFlags := { ownk := flag f.fl 2, ownc := flag f.fl 1, srel := flag f.fl 0 }
    let d ← scalarField f.d
    let a ← if g.ownc then .ok (SReg.x 0) else scalarField f.a
    let b ← if g.ownk then .ok (SReg.x 0) else scalarField f.b
    let c ← scalarField f.c
    zero (if g.ownc then f.a else 0)
    zero (if g.ownk then f.b else 0)
    zero f.mod
    zero (bits f.fl 3 9)
    require .together (!(g.ownc && g.srel))
    return .faba d a b c g
  | _ => .error .badMinor

/-- d, a and DISP, UC, DEAD of a load (R247). -/
def decLoad (mk : SReg → SReg → LoadImm → Instr) (t : Nat) : Dec Instr := do
  let f := fd2Of t
  let d ← scalarField f.d
  let a ← scalarField f.a
  zero (bits f.imm 27 25)
  require .together (!flag f.imm 26 || bits f.imm 22 4 != 0)
  return mk d a { disp := BitVec.ofNat 22 f.imm, uc := Fin.ofNat 16 (bits f.imm 22 4), dead := flag f.imm 26 }

/-- W64, SCOPE and DISP of LDACQ and STREL (R247). -/
def decSync (mk : SReg → SReg → SyncImm → Instr) (t : Nat) : Dec Instr := do
  let f := fd2Of t
  let d ← scalarField f.d
  let a ← scalarField f.a
  zero (bits f.imm 22 5)
  zero (bits f.imm 31 21)
  let sc ← scopeField (bits f.imm 28 3)
  return mk d a { disp := BitVec.ofNat 22 f.imm, w64 := flag f.imm 27, scope := sc }

/-- d, a and DISP of a store (R247). -/
def decStore (mk : SReg → SReg → BitVec 22 → Instr) (t : Nat) : Dec Instr := do
  let f := fd2Of t
  let d ← scalarField f.d
  let a ← scalarField f.a
  zero (bits f.imm 22 30)
  return mk d a (BitVec.ofNat 22 f.imm)

def dec0A (m t : Nat) : Dec Instr :=
  match m with
  | 0 => decLoad .ldb t
  | 1 => decLoad .ldbn t
  | 2 => decLoad .ldh t
  | 3 => decLoad .ldhn t
  | 4 => decLoad .ldw t
  | 5 => decLoad .ldwn t
  | 6 => decLoad .ldd t
  | 7 => decSync .ldacq t
  | 8 => do
    let f := fd2Of t
    let a ← scalarField f.a
    zero f.d
    zero (bits f.imm 27 25)
    require .together (!flag f.imm 26 || bits f.imm 22 4 != 0)
    return .pfu a { disp := BitVec.ofNat 22 f.imm, uc := Fin.ofNat 16 (bits f.imm 22 4), dead := flag f.imm 26 }
  | _ => .error .badMinor

def dec0B (m t : Nat) : Dec Instr :=
  match m with
  | 0 => decStore .stb t
  | 1 => decStore .sth t
  | 2 => decStore .stw t
  | 3 => decStore .std t
  | 4 => decSync .strel t
  | 5 => do
    let f := fd2Of t
    let d ← scalarField f.d
    let a ← scalarField f.a
    zero (bits f.imm 22 9)
    zero (bits f.imm 32 20)
    return .stnb d a (BitVec.ofNat 22 f.imm) (flag f.imm 31)
  | _ => .error .badMinor

/-- Flags of an atomic (R268); `u` says that flags bit 7 is defined. -/
def atomFlags (fl : Nat) (u : Bool) : Dec AtomFlags := do
  zero (bits fl 8 4)
  zero (if u then 0 else bits fl 7 1)
  zero (bits fl 3 1)
  let sc ← scopeField (bits fl 0 3)
  require .together (bits fl 4 2 != 0 || bits fl 0 3 == 0)
  return { w64 := flag fl 6, acq := flag fl 5, rel := flag fl 4, scope := sc }

def decAtomic (mk : SReg → SReg → SReg → AtomFlags → Instr) (t : Nat) : Dec Instr := do
  let f := fcOf t
  let d ← scalarField f.d
  let a ← scalarField f.a
  let b ← scalarField f.b
  zero f.c
  zero f.mod
  let g ← atomFlags f.fl false
  return mk d a b g

def decAtomicU (mk : SReg → SReg → SReg → Bool → AtomFlags → Instr) (t : Nat) : Dec Instr := do
  let f := fcOf t
  let d ← scalarField f.d
  let a ← scalarField f.a
  let b ← scalarField f.b
  zero f.c
  zero f.mod
  let g ← atomFlags f.fl true
  return mk d a b (flag f.fl 7) g

def dec0C (m t : Nat) : Dec Instr :=
  match m with
  | 0 => do
    let f := fcOf t
    let d ← scalarField f.d
    let a ← scalarField f.a
    let b ← scalarField f.b
    let c ← scalarField f.c
    zero f.mod
    let g ← atomFlags f.fl false
    return .cas d a b c g
  | 1 => decAtomic .swap t
  | 2 => decAtomic .fadd t
  | 3 => decAtomic .fand t
  | 4 => decAtomic .for_ t
  | 5 => decAtomic .fxor t
  | 6 => decAtomicU .fmin t
  | 7 => decAtomicU .fmax t
  | _ => .error .badMinor

def dec0D (m t : Nat) : Dec Instr :=
  match m with
  | 0 => do
    let f := fbOf t
    let a ← scalarField f.a
    let b ← scalarField f.b
    zero f.d
    zero (bits f.f 5 9)
    let op ← redOpField (bits f.f 0 4)
    return .red a b op (flag f.f 4)
  | _ => .error .badMinor

def fenceKind (n : Nat) : Dec FenceKind :=
  match n with
  | 1 => .ok .rel
  | 2 => .ok .acq
  | 3 => .ok .ar
  | _ => .error .smallField

def dec0E (m t : Nat) : Dec Instr :=
  match m with
  | 0 => do
    let f := faOf t
    zero f.d
    zero (bits f.s4 3 1)
    let k ← fenceKind f.a
    let sc ← scopeField (bits f.s4 0 3)
    return .fence k sc
  | 1 => return .sfence
  | 2 => return .ifence
  | _ => .error .badMinor

def decSend (mk : SReg → SReg → SReg → SReg → SendFlags → Instr) (t : Nat) : Dec Instr := do
  let f := fcOf t
  let g : SendFlags := { merge := flag f.fl 2, direct := flag f.fl 1, zp := flag f.fl 0 }
  let d ← scalarField f.d
  let a ← scalarField f.a
  let b ← scalarField f.b
  let c ← if g.zp then .ok (SReg.x 0) else scalarField f.c
  zero (if g.zp then f.c else 0)
  zero f.mod
  zero (bits f.fl 3 9)
  return mk d a b c g

def dec0F (m t : Nat) : Dec Instr :=
  match m with
  | 0 => decSend .send t
  | 1 => decSend .sendt t
  | 2 => do
    let f := fbOf t
    let d ← scalarField f.d
    let a ← scalarField f.a
    zero f.b
    zero (bits f.f 3 11)
    return .inb d a (Fin.ofNat 8 (bits f.f 0 3))
  | 3 => do
    let f := fbOf t
    let d ← scalarField f.d
    let a ← scalarField f.a
    let b ← scalarField f.b
    zero (bits f.f 6 8)
    return .cset d a b (Fin.ofNat 64 (bits f.f 0 6))
  | 4 => do
    let f := fbOf t
    let d ← scalarField f.d
    let a ← scalarField f.a
    zero f.b
    zero (bits f.f 6 8)
    return .cadd d a (Fin.ofNat 64 (bits f.f 0 6))
  | 5 => do
    let f := fbOf t
    let d ← scalarField f.d
    zero f.a
    zero f.b
    zero (bits f.f 6 8)
    return .crd d (Fin.ofNat 64 (bits f.f 0 6))
  | _ => .error .badMinor

/-- Source b of a vector instruction with BS (R131). -/
def vsrcField (b fl : Nat) : Dec VSrc :=
  if flag fl 8 then do
    let s ← scalarField b
    return .s s
  else .ok (.v (vectorField b))

/-- The modifier and the governing predicate of an Fc instruction with vector sources a and b (R65, R68, R131):
with BS set MSEL must be 0. -/
def vmodBs (f : Fc) : Dec SrcMod := do
  require .together (!(flag f.fl 8 && flag f.fl 11))
  return modField f.mod (flag f.fl 11)

/-- The modifier of an instruction whose only vector source is a: CLASS must be 0 when MSEL selects b (R68). -/
def vmodA (f : Fc) : Dec SrcMod := do
  require .together (!(flag f.fl 11 && bits f.mod 10 2 != 0))
  return modField f.mod (flag f.fl 11)

/-- VADD, VSUB, VMUL, VDIV (R135). -/
def decVArith (mk : VReg → VReg → VSrc → SrcMod → PReg → RndSat → Instr) (t : Nat) : Dec Instr := do
  let f := fcOf t
  let b ← vsrcField f.b f.fl
  zero f.c
  zero (bits f.fl 9 2)
  modUnused f.mod
  let r ← rndField (bits f.fl 4 3)
  let m ← vmodBs f
  require .together (r != .sr)
  return mk (vectorField f.d) (vectorField f.a) b m (Fin.ofNat 16 (bits f.fl 0 4)) { rnd := r, sat := flag f.fl 7 }

/-- VFMA, VFMS, VFNMA (R135). -/
def decVFma (mk : VReg → VReg → VSrc → VReg → SrcMod → PReg → RndSat → Instr) (t : Nat) : Dec Instr := do
  let f := fcOf t
  let b ← vsrcField f.b f.fl
  zero (bits f.fl 9 2)
  modUnused f.mod
  let r ← rndField (bits f.fl 4 3)
  let m ← vmodBs f
  require .together (r != .sr)
  return mk (vectorField f.d) (vectorField f.a) b (vectorField f.c) m (Fin.ofNat 16 (bits f.fl 0 4))
    { rnd := r, sat := flag f.fl 7 }

/-- d, a, b with BS and no further flags (R135, R138, R140). -/
def decVAB (mk : VReg → VReg → VSrc → SrcMod → PReg → Instr) (t : Nat) : Dec Instr := do
  let f := fcOf t
  let b ← vsrcField f.b f.fl
  zero f.c
  zero (bits f.fl 4 4)
  zero (bits f.fl 9 2)
  modUnused f.mod
  let m ← vmodBs f
  return mk (vectorField f.d) (vectorField f.a) b m (Fin.ofNat 16 (bits f.fl 0 4))

/-- d and a only (R135, R141, R150). -/
def decVA (mk : VReg → VReg → SrcMod → PReg → Instr) (t : Nat) : Dec Instr := do
  let f := fcOf t
  zero f.b
  zero f.c
  zero (bits f.fl 4 7)
  modUnused f.mod
  let m ← vmodA f
  return mk (vectorField f.d) (vectorField f.a) m (Fin.ofNat 16 (bits f.fl 0 4))

def dec10 (m t : Nat) : Dec Instr :=
  match m with
  | 0 => decVArith .vadd t
  | 1 => decVArith .vsub t
  | 2 => decVArith .vmul t
  | 3 => decVFma .vfma t
  | 4 => decVFma .vfms t
  | 5 => decVFma .vfnma t
  | 6 => decVAB .vmin t
  | 7 => decVAB .vmax t
  | 8 => decVA .vabs t
  | 9 => decVA .vneg t
  | 10 => decVArith .vdiv t
  | _ => .error .badMinor

/-- VIADD, VISUB, VIMUL (R136). -/
def decVInt (mk : VReg → VReg → VSrc → SrcMod → PReg → IntSat → Instr) (t : Nat) : Dec Instr := do
  let f := fcOf t
  let b ← vsrcField f.b f.fl
  zero f.c
  zero (bits f.fl 6 2)
  zero (bits f.fl 9 2)
  modUnused f.mod
  let m ← vmodBs f
  return mk (vectorField f.d) (vectorField f.a) b m (Fin.ofNat 16 (bits f.fl 0 4)) { u := flag f.fl 4, sat := flag f.fl 5 }

/-- VIMULH, VIMIN, VIMAX (R136). -/
def decVIntU (mk : VReg → VReg → VSrc → SrcMod → PReg → Bool → Instr) (t : Nat) : Dec Instr := do
  let f := fcOf t
  let b ← vsrcField f.b f.fl
  zero f.c
  zero (bits f.fl 5 3)
  zero (bits f.fl 9 2)
  modUnused f.mod
  let m ← vmodBs f
  return mk (vectorField f.d) (vectorField f.a) b m (Fin.ofNat 16 (bits f.fl 0 4)) (flag f.fl 4)

/-- WID of VISAT (R137). -/
def narrowInt (n : Nat) : NarrowInt :=
  match n with
  | 0 => .i8
  | 1 => .n8
  | 2 => .i16
  | _ => .n16

def dec11 (m t : Nat) : Dec Instr :=
  match m with
  | 0 => decVInt .viadd t
  | 1 => decVInt .visub t
  | 2 => decVInt .vimul t
  | 3 => decVIntU .vimulh t
  | 4 => decVIntU .vimin t
  | 5 => decVIntU .vimax t
  | 6 => do
    let f := fcOf t
    zero f.b
    zero f.c
    zero (bits f.fl 6 5)
    modUnused f.mod
    let m ← vmodA f
    return .visat (vectorField f.d) (vectorField f.a) m (Fin.ofNat 16 (bits f.fl 0 4)) (narrowInt (bits f.fl 4 2))
  | _ => .error .badMinor

def dec12 (m t : Nat) : Dec Instr :=
  match m with
  | 0 => decVAB .vand t
  | 1 => decVAB .vor t
  | 2 => decVAB .vxor t
  | 3 => decVAB .vshl t
  | 4 => decVAB .vshr t
  | 5 => decVAB .vsra t
  | _ => .error .badMinor

/-- Lane type of VCMP from INT and U (R139). -/
def cmpTy (int u : Bool) : CmpTy := if int then (if u then .n32 else .i32) else .f32

def dec13 (m t : Nat) : Dec Instr :=
  match m with
  | 0 => do
    let f := fcOf t
    let d ← predDestField f.d
    let b ← vsrcField f.b f.fl
    zero f.c
    zero (bits f.fl 10 1)
    modUnused f.mod
    let cc ← ccField (bits f.fl 4 3)
    let m ← vmodBs f
    require .together (!(cc == .un && flag f.fl 7))
    require .together (!(flag f.fl 9 && !flag f.fl 7))
    return .vcmp d (vectorField f.a) b m (Fin.ofNat 16 (bits f.fl 0 4)) cc (cmpTy (flag f.fl 7) (flag f.fl 9))
  | 1 => decVAB .vsel t
  | _ => .error .badMinor

/-- Primary code 14. A field that an instruction requires zero is an unused field, INFO 5, VEXT's MSEL among them; two fields that
may not stand together have INFO 7 (R396) (DEDUCED, log 21). -/
def dec14 (m t : Nat) : Dec Instr :=
  match m with
  | 0 => decVA .vmov t
  | 1 => do
    let f := fcOf t
    let a ← scalarField f.a
    zero f.b
    zero f.c
    zero f.mod
    zero (bits f.fl 4 8)
    return .vbcast (vectorField f.d) a (Fin.ofNat 16 (bits f.fl 0 4))
  | 2 => do
    let f := fcOf t
    let a ← scalarField f.a
    zero f.b
    zero f.c
    zero f.mod
    zero (bits f.fl 11 1)
    return .viota (vectorField f.d) a (BitVec.ofNat 7 (bits f.fl 4 7)) (Fin.ofNat 16 (bits f.fl 0 4))
  | 3 => do
    let f := fcOf t
    let d ← queueField f.d
    let b ← scalarField f.b
    zero f.c
    zero (bits f.fl 0 4)
    zero (bits f.fl 5 7)
    modUnused f.mod
    return .vext d (vectorField f.a) b (modField f.mod false) (flag f.fl 4)
  | _ => .error .badMinor

def dec15 (m t : Nat) : Dec Instr :=
  match m with
  | 0 => do
    let f := fcOf t
    let c ← predDestField f.c
    zero (bits f.fl 4 7)
    modUnused f.mod
    return .vxl (vectorField f.d) (vectorField f.a) (vectorField f.b) c (modField f.mod (flag f.fl 11))
      (Fin.ofNat 16 (bits f.fl 0 4))
  | 1 => do
    let f := fcOf t
    zero (bits f.fl 4 7)
    modUnused f.mod
    return .vperm (vectorField f.d) (vectorField f.a) (vectorField f.b) (vectorField f.c)
      (modField f.mod (flag f.fl 11)) (Fin.ofNat 16 (bits f.fl 0 4))
  | 2 => do
    let f := fcOf t
    let d ← queueField f.d
    zero f.b
    zero f.c
    zero (bits f.fl 8 3)
    modUnused f.mod
    let op ← vredOpField (bits f.fl 4 4)
    let m ← vmodA f
    return .vred d (vectorField f.a) m (Fin.ofNat 16 (bits f.fl 0 4)) op
  | _ => .error .badMinor

/-- The rounding and target pairs VCVT allows (R147). -/
def cvtAllowed (outTy : CvtTy) (r : RndSat) : Bool :=
  match outTy with
  | .dt0 | .dt1 => (r.rnd == .ctl || r.rnd == .rne) && !r.sat
  | .bf16 | .f16 | .e4m3 | .e5m2 | .e2m1 => true
  | _ => r.rnd != .sr

/-- Primary code 16. VCVT requires MSEL 0 as an unused field, INFO 5; other fields that may not stand together have INFO 7 (R396)
(DEDUCED, log 21). -/
def dec16 (m t : Nat) : Dec Instr :=
  match m with
  | 0 => do
    let f := fcOf t
    zero (bits f.fl 8 4)
    modUnused f.mod
    let r ← rndField (bits f.fl 4 3)
    let outTy ← cvtField f.b
    let frm ← cvtField f.c
    require .together (cvtAllowed outTy { rnd := r, sat := flag f.fl 7 })
    return .vcvt (vectorField f.d) (vectorField f.a) outTy frm (modField f.mod false) (Fin.ofNat 16 (bits f.fl 0 4))
      { rnd := r, sat := flag f.fl 7 }
  | _ => .error .badMinor

def dec17 (m t : Nat) : Dec Instr :=
  match m with
  | 0 => decVA .vrcp t
  | 1 => decVA .vrsq t
  | 2 => decVA .vexp2 t
  | 3 => decVA .vlog2 t
  | 4 => decVA .vsin t
  | 5 => decVA .vcos t
  | 6 => decVA .vtanh t
  | 7 => decVA .verf t
  | _ => .error .badMinor

def decVMem (mk : VReg → SReg → VMemImm → Instr) (t : Nat) : Dec Instr := do
  let f := fd2Of t
  let a ← scalarField f.a
  zero (bits f.imm 37 15)
  zero (if flag f.imm 20 then 0 else bits f.imm 21 16)
  return mk (vectorField f.d) a
    { disp := BitVec.ofNat 16 f.imm
      stride := if flag f.imm 20 then some (BitVec.ofNat 16 (bits f.imm 21 16)) else none
      pred := Fin.ofNat 16 (bits f.imm 16 4) }

def dec18 (m t : Nat) : Dec Instr :=
  match m with
  | 0 => decVMem .vld t
  | 1 => decVMem .vst t
  | _ => .error .badMinor

/-- VLDG and VSTG (R156): only b is a vector source, so a modifier stands with MSEL 1 (R68). -/
def decGather (mk : VReg → SReg → VReg → SrcMod → GatherImm → Instr) (t : Nat) : Dec Instr := do
  let f := fcOf t
  let a ← scalarField f.a
  zero f.c
  zero (bits f.fl 10 1)
  modUnused f.mod
  let e ← windowField (bits f.fl 4 4)
  require .together (flag f.fl 11 || bits f.mod 10 2 == 0)
  return mk (vectorField f.d) a (vectorField f.b) (modField f.mod (flag f.fl 11))
    { elt := e, sh := Fin.ofNat 4 (bits f.fl 8 2), pred := Fin.ofNat 16 (bits f.fl 0 4) }

def dec19 (m t : Nat) : Dec Instr :=
  match m with
  | 0 => decGather .vldg t
  | 1 => decGather .vstg t
  | _ => .error .badMinor

def dec1A (m t : Nat) : Dec Instr :=
  match m with
  | 0 => do
    let f := fbOf t
    let a ← scalarField f.a
    zero f.d
    zero f.b
    zero (bits f.f 5 9)
    require .smallField (bits f.f 0 5 != 0)
    let k ← ranged .smallField 16 (bits f.f 0 5 - 1)
    return .vloop a k
  | 1 => return .vsync
  | _ => .error .badMinor

def decPred3 (mk : PReg → PReg → PReg → Instr) (t : Nat) : Dec Instr := do
  let f := fbOf t
  let d ← predDestField f.d
  let a ← predField f.a
  let b ← predField f.b
  zero f.f
  return mk d a b

def decPredQ (mk : SReg → PReg → Instr) (t : Nat) : Dec Instr := do
  let f := fbOf t
  let d ← queueField f.d
  let a ← predField f.a
  zero f.b
  zero f.f
  return mk d a

def dec1B (m t : Nat) : Dec Instr :=
  match m with
  | 0 => decPred3 .pand t
  | 1 => decPred3 .por t
  | 2 => decPred3 .pxor t
  | 3 => do
    let f := fbOf t
    let d ← predDestField f.d
    let a ← predField f.a
    zero f.b
    zero f.f
    return .pnot d a
  | 4 => decPredQ .pcnt t
  | 5 => decPredQ .pfirst t
  | _ => .error .badMinor

/-- F64 names a tile pair: code 0 or 2 (R201). -/
def pairOk (f64 : Bool) (d : TileCode) : Bool := !f64 || d.val == 0 || d.val == 2

def dec1C (m t : Nat) : Dec Instr :=
  match m with
  | 0 => do
    let f := faOf t
    zero f.a
    zero f.s4
    let d ← ranged .smallField 5 f.d
    return .mzero d
  | 1 => do
    let f := fd2Of t
    let a ← scalarField f.a
    zero (bits f.imm 0 11)
    zero (bits f.imm 20 4)
    zero (bits f.imm 25 27)
    let d ← ranged .smallField 5 f.d
    require .together (pairOk (flag f.imm 24) d)
    return .mload d a { f64 := flag f.imm 24, pitch := Fin.ofNat 512 (bits f.imm 11 9) }
  | 2 => do
    let f := fd2Of t
    let a ← scalarField f.a
    zero (bits f.imm 0 11)
    zero (bits f.imm 25 27)
    let d ← ranged .smallField 5 f.d
    let r ← rndField (bits f.imm 20 3)
    require .together (pairOk (flag f.imm 24) d)
    return .mstore d a { f64 := flag f.imm 24, pitch := Fin.ofNat 512 (bits f.imm 11 9) } { rnd := r, sat := flag f.imm 23 }
  | _ => .error .badMinor

def dec1D (m t : Nat) : Dec Instr :=
  match m with
  | 0 => do
    let i := bits t 0 46
    let a ← scalarField (bits t 52 6)
    let b ← scalarField (bits t 46 6)
    zero (bits i 0 5)
    zero (if flag i 15 then 0 else bits i 13 2)
    zero (if flag i 12 || flag i 11 then 0 else bits i 5 6)
    let d ← ranged .smallField 5 (bits t 58 6)
    let c ← ranged .smallField 5 (bits i 8 3)
    let s ← ranged .smallField 7 (bits i 5 3)
    require .together (pairOk (flag i 17) d)
    require .together (!(flag i 17 && (flag i 16 || flag i 15)))
    return .mma d a b
      { km1 := Fin.ofNat 1024 (bits i 36 10), pa := Fin.ofNat 512 (bits i 27 9), pb := Fin.ofNat 512 (bits i 18 9)
        f64 := flag i 17, sc := flag i 16, ss := if flag i 15 then some (Fin.ofNat 4 (bits i 13 2)) else none
        swa := flag i 12, swb := flag i 11, swc := c, sws := s }
  | _ => .error .badMinor

def dec1E (m t : Nat) : Dec Instr :=
  match m with
  | 0 => return .mjoin
  | 1 => do
    let f := faOf t
    zero f.d
    zero f.a
    require .smallField (f.s4 < 2)
    return .mwait (f.s4 == 1)
  | 2 => do
    let f := faOf t
    let d ← statusField f.d
    zero f.a
    zero f.s4
    return .mstat d
  | _ => .error .badMinor

def dec1F (m t : Nat) : Dec Instr :=
  match m with
  | 0 => do
    let f := fbOf t
    let a ← scalarField f.a
    let b ← scalarField f.b
    zero f.d
    zero (bits f.f 2 12)
    return .mscale a b (flag f.f 0) (flag f.f 1)
  | 1 => do
    let f := fbOf t
    let clr := flag f.f 2
    let a ← if clr then .ok (SReg.x 0) else scalarField f.a
    zero (if clr then f.a else 0)
    zero f.d
    zero f.b
    zero (bits f.f 3 11)
    return .mstream a (Fin.ofNat 4 (bits f.f 0 2)) clr
  | 2 => do
    let f := fbOf t
    let d ← statusField f.d
    let a ← scalarField f.a
    zero f.b
    zero (bits f.f 1 13)
    return .dtld d a (flag f.f 0)
  | _ => .error .badMinor

/-- BCLR, SPEC, SCOMMIT, SABORT (R194). -/
def decSlot (mk : SReg → Fin 8 → Instr) (t : Nat) : Dec Instr := do
  let f := faOf t
  let d ← scalarField f.d
  zero f.a
  zero (bits f.s4 3 1)
  return mk d (Fin.ofNat 8 (bits f.s4 0 3))

def dec20 (m t : Nat) : Dec Instr :=
  match m with
  | 0 => do
    let f := fbOf t
    let d ← scalarField f.d
    let a ← scalarField f.a
    let b ← scalarField f.b
    zero (bits f.f 1 13)
    return .berth d a b (flag f.f 0)
  | 1 => do
    let f := fbOf t
    let d ← scalarField f.d
    let a ← scalarField f.a
    zero f.b
    zero (bits f.f 1 13)
    return .unberth d a (flag f.f 0)
  | 2 => do
    let f := fbOf t
    let d ← scalarField f.d
    let a ← scalarField f.a
    zero f.b
    zero (bits f.f 3 11)
    return .hand d a (Fin.ofNat 8 (bits f.f 0 3))
  | 3 => do
    let f := fbOf t
    let rem := flag f.f 3
    let d ← scalarField f.d
    let a ← if rem then scalarField f.a else .ok (SReg.x 0)
    zero (if rem then bits f.f 0 3 else f.a)
    zero f.b
    zero (bits f.f 4 10)
    return .binfo d a rem (Fin.ofNat 8 (bits f.f 0 3))
  | 4 => decSlot .bclr t
  | 5 => decSlot .spec t
  | 6 => decSlot .scommit t
  | 7 => decSlot .sabort t
  | 8 => do
    let f := faOf t
    let d ← scalarField f.d
    zero (bits f.s4 3 1)
    let p ← ranged .smallField 3 f.a
    return .wmrd d p (Fin.ofNat 8 (bits f.s4 0 3))
  | _ => .error .badMinor

/-- The d field of CPYQ and CPYQT: x1-x28 (R309). -/
def decCpy (mk : Fin 28 → Instr) (t : Nat) : Dec Instr := do
  let f := faOf t
  require .badRegister (f.d != 0)
  let d ← ranged .badRegister 28 (f.d - 1)
  zero f.a
  zero f.s4
  return mk d

def decCpyDa (mk : SReg → SReg → Instr) (t : Nat) : Dec Instr := do
  let f := faOf t
  let d ← scalarField f.d
  let a ← scalarField f.a
  zero f.s4
  return mk d a

def dec21 (m t : Nat) : Dec Instr :=
  match m with
  | 0 => decCpy .cpyq t
  | 1 => decCpy .cpyqt t
  | 2 => decCpyDa .cpys t
  | 3 => decCpyDa .cpyr t
  | 4 => decCpyDa .cpyw t
  | 5 => do
    let f := faOf t
    let d ← scalarField f.d
    let a ← scalarField f.a
    let p ← ranged .smallField 4 f.s4
    return .cpyst d a p
  | _ => .error .badMinor

def dec22 (m t : Nat) : Dec Instr :=
  match m with
  | 0 => do
    let f := fbOf t
    let d ← scalarField f.d
    let a ← scalarField f.a
    zero f.b
    zero (bits f.f 4 10)
    let s ← ranged .smallField 10 (bits f.f 0 4)
    return .turn d a s
  | 1 => do
    let f := fbOf t
    let d ← scalarField f.d
    zero f.a
    zero f.b
    zero (bits f.f 4 10)
    let s ← ranged .smallField 10 (bits f.f 0 4)
    return .turnq d s
  | 2 => do
    let f := fbOf t
    let d ← scalarField f.d
    zero f.a
    zero f.b
    zero (bits f.f 6 8)
    let s ← ranged .smallField 10 (bits f.f 0 4)
    let p ← ranged .smallField 3 (bits f.f 4 2)
    return .thrd d s p
  | _ => .error .badMinor

/-- The numbers of the system-register table (R379). -/
def isSysReg (n : Nat) : Bool :=
  n ≤ 0x09 || (0x10 ≤ n && n ≤ 0x15) || (0x18 ≤ n && n ≤ 0x1E)

def dec23 (m t : Nat) : Dec Instr :=
  match m with
  | 0 => do
    let f := faOf t
    let a ← scalarField f.a
    zero f.d
    return .trap a (Fin.ofNat 16 f.s4)
  | 1 => return .sret
  | 2 => do
    let f := fbOf t
    let d ← scalarField f.d
    zero f.a
    zero f.b
    zero (bits f.f 8 6)
    require .smallField (isSysReg (bits f.f 0 8))
    return .sysr d (Fin.ofNat 256 (bits f.f 0 8))
  | 3 => do
    let f := fbOf t
    let d ← scalarField f.d
    let a ← scalarField f.a
    zero f.b
    zero (bits f.f 8 6)
    require .smallField (isSysReg (bits f.f 0 8))
    return .sysw d a (Fin.ofNat 256 (bits f.f 0 8))
  | 4 => do
    let f := fbOf t
    let a ← scalarField f.a
    zero f.d
    zero f.b
    zero (bits f.f 2 12)
    require .smallField (bits f.f 0 2 < 2)
    return .tlbi a (bits f.f 0 2 == 1)
  | 5 => return .wfe
  | _ => .error .badMinor

def decSeal (mk : SReg → SReg → SReg → SealImm → Instr) (t : Nat) : Dec Instr := do
  let f := fbOf t
  let len := bits f.f 0 7
  let d ← scalarField f.d
  let a ← scalarField f.a
  let b ← if len = 0 then .ok (SReg.x 0) else scalarField f.b
  zero (if len = 0 then f.b else 0)
  let l ← ranged .smallField 65 len
  require .together (flag f.f 7 || len != 0)
  return mk d a b { ctx := Fin.ofNat 64 (bits f.f 8 6), vr := flag f.f 7, len := l }

def dec24 (m t : Nat) : Dec Instr :=
  match m with
  | 0 => decSeal .seal t
  | 1 => decSeal .unseal t
  | 2 => do
    let f := fbOf t
    let d ← scalarField f.d
    let a ← scalarField f.a
    let b ← scalarField f.b
    zero (bits f.f 4 10)
    require .smallField (bits f.f 0 4 != 0)
    let i ← ranged .smallField 15 (bits f.f 0 4 - 1)
    return .sluice d a b i
  | _ => .error .badMinor

/-- The tail of an instruction whose head passed the first three rows of R396. -/
def decodeTail (major minor tail : Nat) : Dec Instr :=
  match major with
  | 0x01 => dec01 minor tail
  | 0x02 => dec02 minor tail
  | 0x03 => dec03 minor tail
  | 0x04 => dec04 minor tail
  | 0x05 => dec05 minor tail
  | 0x06 => dec06 minor tail
  | 0x07 => dec07 minor tail
  | 0x08 => dec08 minor tail
  | 0x0A => dec0A minor tail
  | 0x0B => dec0B minor tail
  | 0x0C => dec0C minor tail
  | 0x0D => dec0D minor tail
  | 0x0E => dec0E minor tail
  | 0x0F => dec0F minor tail
  | 0x10 => dec10 minor tail
  | 0x11 => dec11 minor tail
  | 0x12 => dec12 minor tail
  | 0x13 => dec13 minor tail
  | 0x14 => dec14 minor tail
  | 0x15 => dec15 minor tail
  | 0x16 => dec16 minor tail
  | 0x17 => dec17 minor tail
  | 0x18 => dec18 minor tail
  | 0x19 => dec19 minor tail
  | 0x1A => dec1A minor tail
  | 0x1B => dec1B minor tail
  | 0x1C => dec1C minor tail
  | 0x1D => dec1D minor tail
  | 0x1E => dec1E minor tail
  | 0x1F => dec1F minor tail
  | 0x20 => dec20 minor tail
  | 0x21 => dec21 minor tail
  | 0x22 => dec22 minor tail
  | 0x23 => dec23 minor tail
  | 0x24 => dec24 minor tail
  | _ => .error .badMajor

/-- An instruction from its head and its tail (R59, R78): MAJOR 15:10, TL 9:7, MINOR 6:0. -/
def decodeInstr (head tail : Nat) : Dec Instr :=
  match opcodeMap (bits head 10 6) with
  | [] => .error .badMajor
  | fs =>
    match fs[bits head 0 7]? with
    | none => .error .badMinor
    | some fmt =>
      if bits head 7 3 = fmt.tl then decodeTail (bits head 10 6) (bits head 0 7) tail else .error .wrongTailLength

/-! ## Lines (R58) -/

/-- Bytes as a little-endian number, the first byte lowest. -/
def leNat : List Byte → Nat
  | [] => 0
  | b :: bs => b.toNat + 256 * leNat bs

/-- The n bytes of a number, lowest first. -/
def leBytes : Nat → Nat → List Byte
  | 0, _ => []
  | n + 1, v => BitVec.ofNat 8 v :: leBytes n (v / 256)

/-- w bytes at offset i of a line, as a little-endian number. -/
def lineField (line : List Byte) (i w : Nat) : Nat := leNat ((line.drop i).take w)

/-- The tail lengths in bytes of heads i, i+1, ... (n of them). -/
def tailLens (line : List Byte) : Nat → Nat → List Nat
  | 0, _ => []
  | n + 1, i => 2 * bits (lineField line (2 + 2 * i) 2) 7 3 :: tailLens line n (i + 1)

/-- The head count of a well-formed line, or the first limit of R77 that it breaks. -/
def lineHeads (line : List Byte) : Dec Nat := do
  let hdr := lineField line 0 2
  let n := bits hdr 11 5
  require .headerBits (bits hdr 0 11 == 0)
  require .noHeads (n != 0)
  let lens := tailLens line n 0
  require .badTailLength (lens.all (· ≤ 8))
  require .lineTooLong (2 + 2 * n + lens.sum ≤ 64)
  return n

/-- Head and tail of slot s of a well-formed line (R58). -/
def slotWords (line : List Byte) (s : Nat) : Nat × Nat :=
  let lens := tailLens line (s + 1) 0
  let before := (lens.take s).sum
  let len := lens.getD s 0
  (lineField line (2 + 2 * s) 2, lineField line (64 - before - len) len)

/-- Slot s of a line (R58, R77, R78): the head count of the line and the instruction. -/
def decodeLine (line : List Byte) (s : Nat) : Dec (Nat × Instr) := do
  let n ← lineHeads line
  require .noSuchSlot (s < n)
  let (h, t) := slotWords line s
  let i ← decodeInstr h t
  return (n, i)

/-- A line that holds one instruction (R58): header with head count 1, the head, padding, the tail at its end. -/
def lineOf (head tail : Nat) : List Byte :=
  let len := 2 * bits head 7 3
  leBytes 2 0x0800 ++ leBytes 2 head ++ List.replicate (60 - len) 0 ++ leBytes len tail

/-- The instruction whose bits are w, numbered as spec/opcode_table.json numbers them: the head is bits 15:0 and
the tail stands above it; laid out in a line of its own and read back by the decoder. -/
def decodeTableWord (nbits w : Nat) : Option Instr :=
  let v := w % 2 ^ nbits
  match decodeLine (lineOf (v % 0x10000) (v / 0x10000)) 0 with
  | .ok (_, i) => some i
  | .error _ => none

/-! ## The encoder -/

/-- Fields put side by side, each a value and its width in bits, the highest first. -/
def pack : List (Nat × Nat) → Nat
  | [] => 0
  | (v, _) :: fs => v * 2 ^ (fs.map (·.2)).sum + pack fs

/-- The 6-bit field of a scalar register (R66). -/
def SReg.code : SReg → Nat
  | .x n => n.val
  | .k n => 32 + n.val
  | .q n => 40 + n.val

/-- The 6-bit field of source b and flags bit 8 (R131). -/
def VSrc.code : VSrc → Nat
  | .v r => r.val
  | .s r => r.code

def VSrc.bs : VSrc → Nat
  | .v _ => 0
  | .s _ => 1

/-- The 12 bits of a source modifier (R68). -/
def SrcMod.code (m : SrcMod) : Nat :=
  pack [(match m.cls with | .none => 0 | .rotate => 1 | .swap => 2 | .bcast => 3, 2), (m.lseg.val, 3), (m.dist.val, 7)]

def Rnd.code : Rnd → Nat
  | .ctl => 0
  | .rne => 1
  | .rz => 2
  | .ru => 3
  | .rd => 4
  | .sr => 5

def Scope.code : Scope → Nat
  | .core => 0
  | .cluster => 1
  | .die => 2
  | .part => 3
  | .sys => 4

def Window.code : Window → Nat
  | .raw => 0
  | .e4m3 => 1
  | .e5m2 => 2
  | .e2m1 => 3
  | .i8 => 4
  | .n8 => 5
  | .i4 => 6
  | .bf16 => 7
  | .f16 => 8
  | .dt0 => 9
  | .dt1 => 10

def CvtTy.code : CvtTy → Nat
  | .f32 => 0
  | .i32 => 1
  | .n32 => 2
  | .bf16 => 3
  | .f16 => 4
  | .e4m3 => 5
  | .e5m2 => 6
  | .e2m1 => 7
  | .i16 => 8
  | .n16 => 9
  | .i8 => 10
  | .n8 => 11
  | .i4 => 12
  | .dt0 => 13
  | .dt1 => 14

def RedOp.code : RedOp → Nat
  | .addI => 0
  | .addF => 1
  | .minI => 2
  | .maxI => 3
  | .minF => 4
  | .maxF => 5
  | .and => 6
  | .or => 7
  | .xor => 8

def VRedOp.code : VRedOp → Nat
  | .addI => 0
  | .addF => 1
  | .minI => 2
  | .maxI => 3
  | .minN => 4
  | .maxN => 5
  | .minF => 6
  | .maxF => 7
  | .and => 8
  | .or => 9
  | .xor => 10

def CmpCC.code : CmpCC → Nat
  | .eq => 0
  | .ne => 1
  | .lt => 2
  | .le => 3
  | .gt => 4
  | .ge => 5
  | .un => 6

/-- INT of VCMP (R139). -/
def CmpTy.int : CmpTy → Bool
  | .f32 => false
  | _ => true

/-- U of VCMP (R139). -/
def CmpTy.u : CmpTy → Bool
  | .n32 => true
  | _ => false

def NarrowInt.code : NarrowInt → Nat
  | .i8 => 0
  | .n8 => 1
  | .i16 => 2
  | .n16 => 3

def FenceKind.code : FenceKind → Nat
  | .rel => 1
  | .acq => 2
  | .ar => 3

/-- Head (R59) of a minor of a major in a format. -/
def headOf (major : Nat) (fmt : Fmt) (minor : Nat) : Nat := pack [(major, 6), (fmt.tl, 3), (minor, 7)]

/-- Head and tail in each format (R62). -/
def encH (major minor : Nat) : Nat × Nat := (headOf major .h minor, 0)
def encA (major minor d a s4 : Nat) : Nat × Nat := (headOf major .a minor, pack [(d, 6), (a, 6), (s4, 4)])
def encB (major minor d a b f : Nat) : Nat × Nat := (headOf major .b minor, pack [(d, 6), (a, 6), (b, 6), (f, 14)])
def encBr (major minor a b : Nat) (t : BrTarget) : Nat × Nat :=
  (headOf major .b minor, pack [(a, 6), (b, 6), (t.loff.toNat, 15), (t.tslot.val, 5)])
def encC (major minor d a b c mod fl : Nat) : Nat × Nat :=
  (headOf major .c minor, pack [(d, 6), (a, 6), (b, 6), (c, 6), (mod, 12), (fl, 12)])
def encD1 (major minor d imm : Nat) : Nat × Nat := (headOf major .d minor, pack [(d, 6), (imm, 58)])
def encD2 (major minor d a imm : Nat) : Nat × Nat := (headOf major .d minor, pack [(d, 6), (a, 6), (imm, 52)])
def encD3 (major minor d a b imm : Nat) : Nat × Nat := (headOf major .d minor, pack [(d, 6), (a, 6), (b, 6), (imm, 46)])
def encJ (major minor d : Nat) (t : JTarget) : Nat × Nat :=
  (headOf major .d minor, pack [(d, 6), (t.loff.toNat, 53), (t.tslot.val, 5)])

/-- d, a, b of majors 0x04-0x06. -/
def encDab (major minor : Nat) (d a b : SReg) : Nat × Nat := encB major minor d.code a.code b.code 0

/-- Imm of a load (R247). -/
def LoadImm.code (i : LoadImm) : Nat := pack [(i.dead.toNat, 1), (i.uc.val, 4), (i.disp.toNat, 22)]

/-- Imm of LDACQ and STREL (R247). -/
def SyncImm.code (i : SyncImm) : Nat := pack [(i.scope.code, 3), (i.w64.toNat, 1), (0, 5), (i.disp.toNat, 22)]

/-- Flags of an atomic (R268), with bit 7. -/
def AtomFlags.code (f : AtomFlags) (u : Bool) : Nat :=
  pack [(u.toNat, 1), (f.w64.toNat, 1), (f.acq.toNat, 1), (f.rel.toNat, 1), (0, 1), (f.scope.code, 3)]

def encAtom (minor : Nat) (d a b : SReg) (u : Bool) (f : AtomFlags) : Nat × Nat :=
  encC 0x0C minor d.code a.code b.code 0 0 (f.code u)

def SendFlags.code (f : SendFlags) : Nat := pack [(f.merge.toNat, 1), (f.direct.toNat, 1), (f.zp.toNat, 1)]

/-- Flags of a vector instruction (R65, R131, R133): MSEL, two bits of the instruction's own, BS, SAT, RND, p. -/
def vflags (msel : Bool) (hi2 bs sat rnd : Nat) (p : PReg) : Nat :=
  pack [(msel.toNat, 1), (hi2, 2), (bs, 1), (sat, 1), (rnd, 3), (p.val, 4)]

def encVR (major minor : Nat) (d a : VReg) (b : VSrc) (c : Nat) (m : SrcMod) (p : PReg) (r : RndSat) : Nat × Nat :=
  encC major minor d.val a.val b.code c m.code (vflags m.onB 0 b.bs r.sat.toNat r.rnd.code p)

/-- `own` stands in flags 7:4. -/
def encVAB (major minor : Nat) (d : Nat) (a : VReg) (b : VSrc) (m : SrcMod) (p : PReg) (own : Nat) : Nat × Nat :=
  encC major minor d a.val b.code 0 m.code (vflags m.onB 0 b.bs (own / 8) (own % 8) p)

def encVA (major minor : Nat) (d : Nat) (a : VReg) (m : SrcMod) (p : PReg) (own : Nat) : Nat × Nat :=
  encC major minor d a.val 0 0 m.code (vflags m.onB 0 0 (own / 8) (own % 8) p)

/-- Imm of VLD and VST (R152). -/
def VMemImm.code (i : VMemImm) : Nat :=
  pack [((i.stride.getD 0).toNat, 16), (i.stride.isSome.toNat, 1), (i.pred.val, 4), (i.disp.toNat, 16)]

def encGather (minor : Nat) (d : VReg) (a : SReg) (b : VReg) (m : SrcMod) (i : GatherImm) : Nat × Nat :=
  encC 0x19 minor d.val a.code b.val 0 m.code
    (pack [(m.onB.toNat, 1), (0, 1), (i.sh.val, 2), (i.elt.code, 4), (i.pred.val, 4)])

/-- Imm of MMA (R221). -/
def MmaImm.code (i : MmaImm) : Nat :=
  pack [(i.km1.val, 10), (i.pa.val, 9), (i.pb.val, 9), (i.f64.toNat, 1), (i.sc.toNat, 1), (i.ss.isSome.toNat, 1),
    ((i.ss.getD 0).val, 2), (i.swa.toNat, 1), (i.swb.toNat, 1), (i.swc.val, 3), (i.sws.val, 3), (0, 5)]

def SealImm.code (i : SealImm) : Nat := pack [(i.ctx.val, 6), (i.vr.toNat, 1), (i.len.val, 7)]

/-- Head and tail of an encoded instruction (R59, R62, R80); none for an operation or event, which has no words. -/
def encode (i : Instr) : Option (Nat × Nat) :=
  match i with
  | .beq a b t => some (encBr 0x01 0 a.code b.code t)
  | .bne a b t => some (encBr 0x01 1 a.code b.code t)
  | .blt a b t => some (encBr 0x01 2 a.code b.code t)
  | .bge a b t => some (encBr 0x01 3 a.code b.code t)
  | .bltn a b t => some (encBr 0x01 4 a.code b.code t)
  | .bgen a b t => some (encBr 0x01 5 a.code b.code t)
  | .bz a t => some (encBr 0x01 6 a.code 0 t)
  | .bnz a t => some (encBr 0x01 7 a.code 0 t)
  | .j t => some (encJ 0x02 0 0 t)
  | .jal d t => some (encJ 0x02 1 d.code t)
  | .jr d => some (encA 0x02 2 d.code 0 0)
  | .jalr d a => some (encA 0x02 3 d.code a.code 0)
  | .loop a t => some (encBr 0x02 4 a.code 0 t)
  | .end_ => some (encH 0x02 5)
  | .gang n => some (encA 0x03 0 0 0 (n.val + 1))
  | .ungang => some (encH 0x03 1)
  | .align => some (encH 0x03 2)
  | .sbar d i => some (encA 0x03 3 d.code 0 i.val)
  | .add d a b => some (encDab 0x04 0 d a b)
  | .sub d a b => some (encDab 0x04 1 d a b)
  | .mul d a b => some (encDab 0x04 2 d a b)
  | .mulh d a b => some (encDab 0x04 3 d a b)
  | .mulhn d a b => some (encDab 0x04 4 d a b)
  | .div d a b => some (encDab 0x04 5 d a b)
  | .divn d a b => some (encDab 0x04 6 d a b)
  | .rem d a b => some (encDab 0x04 7 d a b)
  | .remn d a b => some (encDab 0x04 8 d a b)
  | .min d a b => some (encDab 0x04 9 d a b)
  | .max d a b => some (encDab 0x04 10 d a b)
  | .minn d a b => some (encDab 0x04 11 d a b)
  | .maxn d a b => some (encDab 0x04 12 d a b)
  | .and d a b => some (encDab 0x05 0 d a b)
  | .or d a b => some (encDab 0x05 1 d a b)
  | .xor d a b => some (encDab 0x05 2 d a b)
  | .andn d a b => some (encDab 0x05 3 d a b)
  | .shl d a b => some (encDab 0x05 4 d a b)
  | .shr d a b => some (encDab 0x05 5 d a b)
  | .sra d a b => some (encDab 0x05 6 d a b)
  | .rot d a b => some (encDab 0x05 7 d a b)
  | .clz d a => some (encB 0x05 8 d.code a.code 0 0)
  | .ctz d a => some (encB 0x05 9 d.code a.code 0 0)
  | .popc d a => some (encB 0x05 10 d.code a.code 0 0)
  | .slt d a b => some (encDab 0x06 0 d a b)
  | .sltn d a b => some (encDab 0x06 1 d a b)
  | .seq d a b => some (encDab 0x06 2 d a b)
  | .sel d a b c => some (encC 0x06 3 d.code a.code b.code c.code 0 0)
  | .mov d a => some (encA 0x06 4 d.code a.code 0)
  | .addi d a imm => some (encB 0x07 0 d.code a.code 0 imm.toNat)
  | .andi d a imm => some (encB 0x07 1 d.code a.code 0 imm.toNat)
  | .ori d a imm => some (encB 0x07 2 d.code a.code 0 imm.toNat)
  | .xori d a imm => some (encB 0x07 3 d.code a.code 0 imm.toNat)
  | .shli d a sh => some (encB 0x07 4 d.code a.code 0 sh.val)
  | .shri d a sh => some (encB 0x07 5 d.code a.code 0 sh.val)
  | .srai d a sh => some (encB 0x07 6 d.code a.code 0 sh.val)
  | .li d imm => some (encD1 0x07 7 d.code imm.toNat)
  | .lih d imm => some (encD1 0x07 8 d.code imm.toNat)
  | .bfx d a f sx => some (encB 0x08 0 d.code a.code 0 (pack [(sx.toNat, 1), (f.lenm.val, 6), (f.pos.val, 6)]))
  | .bfi d a f => some (encB 0x08 1 d.code a.code 0 (pack [(f.lenm.val, 6), (f.pos.val, 6)]))
  | .lea d a b loc sh => some (encB 0x08 2 d.code a.code b.code (pack [(loc.toNat, 1), (sh.val, 3)]))
  | .faba d a b c f =>
    some (encC 0x08 3 d.code a.code b.code c.code 0 (pack [(f.ownk.toNat, 1), (f.ownc.toNat, 1), (f.srel.toNat, 1)]))
  | .ldb d a i => some (encD2 0x0A 0 d.code a.code i.code)
  | .ldbn d a i => some (encD2 0x0A 1 d.code a.code i.code)
  | .ldh d a i => some (encD2 0x0A 2 d.code a.code i.code)
  | .ldhn d a i => some (encD2 0x0A 3 d.code a.code i.code)
  | .ldw d a i => some (encD2 0x0A 4 d.code a.code i.code)
  | .ldwn d a i => some (encD2 0x0A 5 d.code a.code i.code)
  | .ldd d a i => some (encD2 0x0A 6 d.code a.code i.code)
  | .ldacq d a i => some (encD2 0x0A 7 d.code a.code i.code)
  | .pfu a i => some (encD2 0x0A 8 0 a.code i.code)
  | .stb d a disp => some (encD2 0x0B 0 d.code a.code disp.toNat)
  | .sth d a disp => some (encD2 0x0B 1 d.code a.code disp.toNat)
  | .stw d a disp => some (encD2 0x0B 2 d.code a.code disp.toNat)
  | .std d a disp => some (encD2 0x0B 3 d.code a.code disp.toNat)
  | .strel d a i => some (encD2 0x0B 4 d.code a.code i.code)
  | .stnb d a disp hi => some (encD2 0x0B 5 d.code a.code (pack [(hi.toNat, 1), (0, 9), (disp.toNat, 22)]))
  | .cas d a b c f => some (encC 0x0C 0 d.code a.code b.code c.code 0 (f.code false))
  | .swap d a b f => some (encAtom 1 d a b false f)
  | .fadd d a b f => some (encAtom 2 d a b false f)
  | .fand d a b f => some (encAtom 3 d a b false f)
  | .for_ d a b f => some (encAtom 4 d a b false f)
  | .fxor d a b f => some (encAtom 5 d a b false f)
  | .fmin d a b u f => some (encAtom 6 d a b u f)
  | .fmax d a b u f => some (encAtom 7 d a b u f)
  | .red a b op w => some (encB 0x0D 0 0 a.code b.code (pack [(w.toNat, 1), (op.code, 4)]))
  | .fence k sc => some (encA 0x0E 0 0 k.code sc.code)
  | .sfence => some (encH 0x0E 1)
  | .ifence => some (encH 0x0E 2)
  | .send d a b c f => some (encC 0x0F 0 d.code a.code b.code c.code 0 f.code)
  | .sendt d a b c f => some (encC 0x0F 1 d.code a.code b.code c.code 0 f.code)
  | .inb d a w => some (encB 0x0F 2 d.code a.code 0 w.val)
  | .cset d a b ctr => some (encB 0x0F 3 d.code a.code b.code ctr.val)
  | .cadd d a ctr => some (encB 0x0F 4 d.code a.code 0 ctr.val)
  | .crd d ctr => some (encB 0x0F 5 d.code 0 0 ctr.val)
  | .vadd d a b m p r => some (encVR 0x10 0 d a b 0 m p r)
  | .vsub d a b m p r => some (encVR 0x10 1 d a b 0 m p r)
  | .vmul d a b m p r => some (encVR 0x10 2 d a b 0 m p r)
  | .vfma d a b c m p r => some (encVR 0x10 3 d a b c.val m p r)
  | .vfms d a b c m p r => some (encVR 0x10 4 d a b c.val m p r)
  | .vfnma d a b c m p r => some (encVR 0x10 5 d a b c.val m p r)
  | .vmin d a b m p => some (encVAB 0x10 6 d.val a b m p 0)
  | .vmax d a b m p => some (encVAB 0x10 7 d.val a b m p 0)
  | .vabs d a m p => some (encVA 0x10 8 d.val a m p 0)
  | .vneg d a m p => some (encVA 0x10 9 d.val a m p 0)
  | .vdiv d a b m p r => some (encVR 0x10 10 d a b 0 m p r)
  | .viadd d a b m p t => some (encVAB 0x11 0 d.val a b m p (pack [(t.sat.toNat, 1), (t.u.toNat, 1)]))
  | .visub d a b m p t => some (encVAB 0x11 1 d.val a b m p (pack [(t.sat.toNat, 1), (t.u.toNat, 1)]))
  | .vimul d a b m p t => some (encVAB 0x11 2 d.val a b m p (pack [(t.sat.toNat, 1), (t.u.toNat, 1)]))
  | .vimulh d a b m p u => some (encVAB 0x11 3 d.val a b m p u.toNat)
  | .vimin d a b m p u => some (encVAB 0x11 4 d.val a b m p u.toNat)
  | .vimax d a b m p u => some (encVAB 0x11 5 d.val a b m p u.toNat)
  | .visat d a m p w => some (encVA 0x11 6 d.val a m p w.code)
  | .vand d a b m p => some (encVAB 0x12 0 d.val a b m p 0)
  | .vor d a b m p => some (encVAB 0x12 1 d.val a b m p 0)
  | .vxor d a b m p => some (encVAB 0x12 2 d.val a b m p 0)
  | .vshl d a b m p => some (encVAB 0x12 3 d.val a b m p 0)
  | .vshr d a b m p => some (encVAB 0x12 4 d.val a b m p 0)
  | .vsra d a b m p => some (encVAB 0x12 5 d.val a b m p 0)
  | .vcmp d a b m p cc ty =>
    some (encC 0x13 0 d.val a.val b.code 0 m.code (vflags m.onB ty.u.toNat b.bs ty.int.toNat cc.code p))
  | .vsel d a b m p => some (encVAB 0x13 1 d.val a b m p 0)
  | .vmov d a m p => some (encVA 0x14 0 d.val a m p 0)
  | .vbcast d a p => some (encC 0x14 1 d.val a.code 0 0 0 p.val)
  | .viota d a st p => some (encC 0x14 2 d.val a.code 0 0 0 (pack [(st.toNat, 7), (p.val, 4)]))
  | .vext d a b m sx => some (encC 0x14 3 d.code a.val b.code 0 m.code (pack [(sx.toNat, 1), (0, 4)]))
  | .vxl d a b c m p => some (encC 0x15 0 d.val a.val b.val c.val m.code (vflags m.onB 0 0 0 0 p))
  | .vperm d a b c m p => some (encC 0x15 1 d.val a.val b.val c.val m.code (vflags m.onB 0 0 0 0 p))
  | .vred d a m p op => some (encVA 0x15 2 d.code a m p op.code)
  | .vcvt d a outTy frm m p r =>
    some (encC 0x16 0 d.val a.val outTy.code frm.code m.code (vflags false 0 0 r.sat.toNat r.rnd.code p))
  | .vrcp d a m p => some (encVA 0x17 0 d.val a m p 0)
  | .vrsq d a m p => some (encVA 0x17 1 d.val a m p 0)
  | .vexp2 d a m p => some (encVA 0x17 2 d.val a m p 0)
  | .vlog2 d a m p => some (encVA 0x17 3 d.val a m p 0)
  | .vsin d a m p => some (encVA 0x17 4 d.val a m p 0)
  | .vcos d a m p => some (encVA 0x17 5 d.val a m p 0)
  | .vtanh d a m p => some (encVA 0x17 6 d.val a m p 0)
  | .verf d a m p => some (encVA 0x17 7 d.val a m p 0)
  | .vld d a i => some (encD2 0x18 0 d.val a.code i.code)
  | .vst d a i => some (encD2 0x18 1 d.val a.code i.code)
  | .vldg d a b m i => some (encGather 0 d a b m i)
  | .vstg d a b m i => some (encGather 1 d a b m i)
  | .vloop a k => some (encB 0x1A 0 0 a.code 0 (k.val + 1))
  | .vsync => some (encH 0x1A 1)
  | .pand d a b => some (encB 0x1B 0 d.val a.val b.val 0)
  | .por d a b => some (encB 0x1B 1 d.val a.val b.val 0)
  | .pxor d a b => some (encB 0x1B 2 d.val a.val b.val 0)
  | .pnot d a => some (encB 0x1B 3 d.val a.val 0 0)
  | .pcnt d a => some (encB 0x1B 4 d.code a.val 0 0)
  | .pfirst d a => some (encB 0x1B 5 d.code a.val 0 0)
  | .mzero d => some (encA 0x1C 0 d.val 0 0)
  | .mload d a i => some (encD2 0x1C 1 d.val a.code (pack [(i.f64.toNat, 1), (0, 4), (i.pitch.val, 9), (0, 11)]))
  | .mstore d a i r =>
    some (encD2 0x1C 2 d.val a.code
      (pack [(i.f64.toNat, 1), (r.sat.toNat, 1), (r.rnd.code, 3), (i.pitch.val, 9), (0, 11)]))
  | .mma d a b i => some (encD3 0x1D 0 d.val a.code b.code i.code)
  | .mjoin => some (encH 0x1E 0)
  | .mwait done => some (encA 0x1E 1 0 0 done.toNat)
  | .mstat d => some (encA 0x1E 2 d.code 0 0)
  | .mscale a b ea eb => some (encB 0x1F 0 0 a.code b.code (pack [(eb.toNat, 1), (ea.toNat, 1)]))
  | .mstream a s clr => some (encB 0x1F 1 0 a.code 0 (pack [(clr.toNat, 1), (s.val, 2)]))
  | .dtld d a t => some (encB 0x1F 2 d.code a.code 0 t.toNat)
  | .berth d a b clr => some (encB 0x20 0 d.code a.code b.code clr.toNat)
  | .unberth d a clr => some (encB 0x20 1 d.code a.code 0 clr.toNat)
  | .hand d a slot => some (encB 0x20 2 d.code a.code 0 slot.val)
  | .binfo d a rem slot => some (encB 0x20 3 d.code a.code 0 (pack [(rem.toNat, 1), (slot.val, 3)]))
  | .bclr d slot => some (encA 0x20 4 d.code 0 slot.val)
  | .spec d slot => some (encA 0x20 5 d.code 0 slot.val)
  | .scommit d slot => some (encA 0x20 6 d.code 0 slot.val)
  | .sabort d slot => some (encA 0x20 7 d.code 0 slot.val)
  | .wmrd d part slot => some (encA 0x20 8 d.code part.val slot.val)
  | .cpyq d => some (encA 0x21 0 (d.val + 1) 0 0)
  | .cpyqt d => some (encA 0x21 1 (d.val + 1) 0 0)
  | .cpys d a => some (encA 0x21 2 d.code a.code 0)
  | .cpyr d a => some (encA 0x21 3 d.code a.code 0)
  | .cpyw d a => some (encA 0x21 4 d.code a.code 0)
  | .cpyst d a part => some (encA 0x21 5 d.code a.code part.val)
  | .turn d a st => some (encB 0x22 0 d.code a.code 0 st.val)
  | .turnq d st => some (encB 0x22 1 d.code 0 0 st.val)
  | .thrd d st part => some (encB 0x22 2 d.code 0 0 (pack [(part.val, 2), (st.val, 4)]))
  | .trap a code => some (encA 0x23 0 0 a.code code.val)
  | .sret => some (encH 0x23 1)
  | .sysr d reg => some (encB 0x23 2 d.code 0 0 reg.val)
  | .sysw d a reg => some (encB 0x23 3 d.code a.code 0 reg.val)
  | .tlbi a all => some (encB 0x23 4 0 a.code 0 all.toNat)
  | .wfe => some (encH 0x23 5)
  | .seal d a b i => some (encB 0x24 0 d.code a.code b.code i.code)
  | .unseal d a b i => some (encB 0x24 1 d.code a.code b.code i.code)
  | .sluice d a b idx => some (encB 0x24 2 d.code a.code b.code (idx.val + 1))
  | .powerUp | .load | .start | .create | .addCommand | .assign | .importCmd | .depart | .evidence | .clockStep
  | .clusterGate | .hbmSelfRefresh | .straitIdle | .allowance | .faultwin | .chkpt | .apply | .run | .halt
  | .stateSummary | .qctlWrite .. | .registerWrite .. | .plainNotify .. | .sealedNotify .. | .sealedNotifyEffect ..
  | .notifyTimeout .. | .bar2Write .. | .bar2Read .. | .takeEntry .. | .timelineRead .. | .priorityAging ..
  | .placement | .spanStart .. | .messageArrival .. | .firingStart .. | .sliceComplete .. | .mergeDelivery ..
  | .tsliceExpiry .. | .preemptStop .. | .contextExchange .. | .drainStart .. | .drainComplete .. | .drainOverrun ..
  | .checkpointDiscard .. | .preemptRetry .. | .turnWindow | .groupTurnComplete .. | .landingUnit ..
  | .copyCompletion .. | .remoteWriteArrival .. | .heldWriteApply .. | .storeAck .. | .fabricAccessArrival ..
  | .fabricLoadReturn .. | .redMerge .. | .l2MissFill .. | .l2Writeback .. | .tableWalk .. | .peerIngressWrite ..
  | .peerLinkDown .. | .trapEntry .. | .revocation .. | .watchdog .. | .portStallDiscard .. | .alignTimeout ..
  | .wfeTimeout .. | .errorEvent .. | .faultWindow | .clusterRetirement .. | .heartbeat .. | .dieFence ..
  | .masterElection | .temperatureChange .. | .sequencerExecution .. | .matrixSliceExecution .. | .powerOff
  | .linkTrainingReturns .. | .hostReadCompletion .. | .postPackageRepairDone .. => none

/-- The line that holds one encoded instruction (R58). -/
def encodeLine (i : Instr) : Option (List Byte) := (encode i).map fun w => lineOf w.1 w.2

end Sys2Proof
end

