-- ==== Sys2Proof/WellFormed.lean ====
section
/-! DEFINITION. Which instructions are well-formed: the limits of R66, R68, R75, R105, R133 and each instruction's
own rule that its operand types do not already say, and, for an operation or event, that the parts it names exist. -/
namespace Sys2Proof

/-! ## Operands -/

/-- A destination that is read and written: x1-x31 or k0-k7 (R105). -/
def SReg.isReadWrite : SReg → Bool
  | .x n => n.val != 0
  | .k _ => true
  | .q _ => false

/-- A queue register (R75). -/
def SReg.isQueue : SReg → Bool
  | .q _ => true
  | _ => false

/-- A status destination of the matrix slice: x0 or a queue register (R203). -/
def SReg.isStatus : SReg → Bool
  | .x n => n.val == 0
  | .k _ => false
  | .q _ => true

/-- CLASS 0 leaves LSEG and DIST unused (R68). -/
def SrcMod.wf (m : SrcMod) : Bool := m.cls != .none || (m.lseg.val == 0 && m.dist.val == 0)

/-- The modifier beside a source b that may be a scalar (R131). -/
def SrcMod.wfB (m : SrcMod) (b : VSrc) : Bool := m.wf && (b.bs == 0 || !m.onB)

/-- The modifier of an instruction whose only vector source is a (R68). -/
def SrcMod.wfA (m : SrcMod) : Bool := m.wf && (!m.onB || m.cls == .none)

/-- Pos and length within 64 bits (R122). -/
def BitField.wf (f : BitField) : Bool := f.pos.val + f.lenm.val < 64

/-- A dead flag needs a use count (R240). -/
def LoadImm.wf (i : LoadImm) : Bool := !i.dead || i.uc.val != 0

/-- A relaxed atomic has scope field 0 (R268). -/
def AtomFlags.wf (f : AtomFlags) : Bool := f.acq || f.rel || f.scope == .core

/-- Rounding of arithmetic: stochastic rounding is for conversions alone (R133). -/
def RndSat.wfArith (r : RndSat) : Bool := r.rnd != .sr

/-- The limits of MMA's imm (R221). -/
def MmaImm.wf (i : MmaImm) (d : TileCode) : Bool :=
  pairOk i.f64 d && (!i.f64 || (!i.sc && i.ss.isNone)) && (i.swa || i.swb || (i.swc.val == 0 && i.sws.val == 0))

/-- The limits of a sealed operation's f14 (R362). -/
def SealImm.wf (i : SealImm) : Bool := i.vr || i.len.val != 0

/-! ## Parts of the module that exist -/

/-- Dies 0-7 (R8). -/
def dieExists (d : Nat) : Bool := d < 8
/-- Cluster sites 0-131 (R10). -/
def SiteId.exist (s : SiteId) : Bool := dieExists s.die && s.site < 132
/-- Cores 0-3 of a site (R11). -/
def CoreId.exist (c : CoreId) : Bool := dieExists c.die && c.site < 132 && c.core < 4
/-- Banks 0-31 of a site (R181). -/
def BankId.exist (b : BankId) : Bool := dieExists b.die && b.site < 132 && b.num < 32
/-- Contexts 0-3 of a core (R48). -/
def ctxExists (n : Nat) : Bool := n < 4
/-- Straits 0-9 (R277). -/
def straitExists (n : Nat) : Bool := n < 10
/-- Lane groups 0-31 (R277). -/
def groupExists (n : Nat) : Bool := n < 32
/-- Partitions 0-127 (R325). -/
def partExists (n : Nat) : Bool := n < 128
/-- Peer ports 0-15 (R16). -/
def portExists (n : Nat) : Bool := n < 16
/-- Memory stacks 0-15 (R14). -/
def stackExists (n : Nat) : Bool := n < 16

def ErrSource.exist : ErrSource → Bool
  | .site s => s.exist
  | .bank b => b.exist
  | .group st g => straitExists st && groupExists g
  | .row st _ => stackExists st

/-- Words of memory and of a bank, registers, tiles and inbox slots that exist. -/
def BadWord.exist : BadWord → Bool
  | .mem w => w < 2 ^ 37
  | .bank b w => b.exist && w < 8192
  | .reg c x r => c.exist && ctxExists x && (match r with
    | .x n => 0 < n && n < 32
    | .q n => n < 8
    | .v n => n < 64
    | .p n => 0 < n && n < 16)
  | .coreRow c r => c.exist && (match r with
    | .k n => n < 8
    | .tile n => n < 5)
  | .slot c n => c.exist && n < 32
  | .l1 c w => c.exist && w < 2 ^ 37
  | .icache n _ => n.exist
  | .shadow n _ => n.exist

def MsgFrom.exist : MsgFrom → Bool
  | .core c _ => c.exist
  | _ => true

/-! ## Instructions -/

/-- The instruction keeps every limit the spec sets to its operands. -/
def Instr.wf (i : Instr) : Bool :=
  match i with
  | .loop a _ => a.isReadWrite
  | .lih d _ => d.isReadWrite
  | .bfx _ _ f _ => f.wf
  | .bfi d _ f => d.isReadWrite && f.wf
  | .faba _ a b _ f => (!f.ownc || a == .x 0) && (!f.ownk || b == .x 0) && !(f.ownc && f.srel)
  | .ldb _ _ i | .ldbn _ _ i | .ldh _ _ i | .ldhn _ _ i | .ldw _ _ i | .ldwn _ _ i | .ldd _ _ i | .pfu _ i => i.wf
  | .cas _ _ _ _ f | .swap _ _ _ f | .fadd _ _ _ f | .fand _ _ _ f | .for_ _ _ _ f | .fxor _ _ _ f => f.wf
  | .fmin _ _ _ _ f | .fmax _ _ _ _ f => f.wf
  | .send _ _ _ c f | .sendt _ _ _ c f => !f.zp || c == .x 0
  | .vadd _ _ b m _ r | .vsub _ _ b m _ r | .vmul _ _ b m _ r | .vdiv _ _ b m _ r => m.wfB b && r.wfArith
  | .vfma _ _ b _ m _ r | .vfms _ _ b _ m _ r | .vfnma _ _ b _ m _ r => m.wfB b && r.wfArith
  | .vmin _ _ b m _ | .vmax _ _ b m _ | .vand _ _ b m _ | .vor _ _ b m _ | .vxor _ _ b m _ | .vshl _ _ b m _
  | .vshr _ _ b m _ | .vsra _ _ b m _ | .vsel _ _ b m _ => m.wfB b
  | .vabs _ _ m _ | .vneg _ _ m _ | .vmov _ _ m _ | .vrcp _ _ m _ | .vrsq _ _ m _ | .vexp2 _ _ m _ | .vlog2 _ _ m _
  | .vsin _ _ m _ | .vcos _ _ m _ | .vtanh _ _ m _ | .verf _ _ m _ => m.wfA
  | .viadd _ _ b m _ _ | .visub _ _ b m _ _ | .vimul _ _ b m _ _ | .vimulh _ _ b m _ _ | .vimin _ _ b m _ _
  | .vimax _ _ b m _ _ => m.wfB b
  | .visat _ _ m _ _ => m.wfA
  | .vcmp d _ b m _ cc ty => d.val != 0 && m.wfB b && (cc != .un || ty == .f32)
  | .vext d _ _ m _ => d.isQueue && m.wf && !m.onB
  | .vxl _ _ _ c m _ => c.val != 0 && m.wf
  | .vperm _ _ _ _ m _ => m.wf
  | .vred d _ m _ _ => d.isQueue && m.wfA
  | .vcvt _ _ outTy _ m _ r => cvtAllowed outTy r && m.wf && !m.onB
  | .vldg _ _ _ m _ | .vstg _ _ _ m _ => m.wf && (m.onB || m.cls == .none)
  | .pand d _ _ | .por d _ _ | .pxor d _ _ | .pnot d _ => d.val != 0
  | .pcnt d _ | .pfirst d _ => d.isQueue
  | .mload d _ i | .mstore d _ i _ => pairOk i.f64 d
  | .mma d _ _ i => i.wf d
  | .mstat d | .dtld d _ _ => d.isStatus
  | .mstream a _ clr => !clr || a == .x 0
  | .binfo _ a r slot => if r then slot.val == 0 else a == .x 0
  | .sysr _ reg | .sysw _ _ reg => isSysReg reg.val
  | .seal _ _ b i | .unseal _ _ b i => i.wf && (i.len.val != 0 || b == .x 0)
  | .beq .. | .bne .. | .blt .. | .bge .. | .bltn .. | .bgen .. | .bz .. | .bnz .. | .j .. | .jal .. | .jr ..
  | .jalr .. | .end_ | .gang .. | .ungang | .align | .sbar .. | .add .. | .sub .. | .mul .. | .mulh .. | .mulhn ..
  | .div .. | .divn .. | .rem .. | .remn .. | .min .. | .max .. | .minn .. | .maxn .. | .and .. | .or .. | .xor ..
  | .andn .. | .shl .. | .shr .. | .sra .. | .rot .. | .clz .. | .ctz .. | .popc .. | .slt .. | .sltn .. | .seq ..
  | .sel .. | .mov .. | .addi .. | .andi .. | .ori .. | .xori .. | .shli .. | .shri .. | .srai .. | .li .. | .lea ..
  | .ldacq .. | .stb .. | .sth .. | .stw .. | .std .. | .strel .. | .stnb .. | .red .. | .fence .. | .sfence
  | .ifence | .inb .. | .cset .. | .cadd .. | .crd .. | .vbcast .. | .viota .. | .vld .. | .vst .. | .vloop ..
  | .vsync | .mzero .. | .mjoin | .mwait .. | .mscale .. | .berth .. | .unberth .. | .hand .. | .bclr .. | .spec ..
  | .scommit .. | .sabort .. | .wmrd .. | .cpyq .. | .cpyqt .. | .cpys .. | .cpyr .. | .cpyw .. | .cpyst ..
  | .turn .. | .turnq .. | .thrd .. | .trap .. | .sret | .tlbi .. | .wfe | .sluice .. => true
  | .powerUp | .load | .start | .create | .addCommand | .assign | .importCmd | .depart | .evidence | .clockStep
  | .clusterGate | .hbmSelfRefresh | .straitIdle | .allowance | .faultwin | .chkpt | .apply | .run | .halt
  | .stateSummary | .qctlWrite .. | .registerWrite .. | .plainNotify .. | .sealedNotify .. | .sealedNotifyEffect ..
  | .notifyTimeout .. | .bar2Write .. | .bar2Read .. | .timelineRead .. | .priorityAging .. | .placement
  | .spanStart .. | .sliceComplete .. | .mergeDelivery .. | .turnWindow | .remoteWriteArrival .. | .storeAck ..
  | .fabricAccessArrival .. | .fabricLoadReturn .. | .redMerge .. | .l2Writeback .. | .faultWindow | .masterElection
  | .powerOff | .hostReadCompletion .. => true
  | .takeEntry p _ | .tsliceExpiry p | .preemptStop p | .contextExchange p | .drainStart p | .drainComplete p
  | .drainOverrun p | .checkpointDiscard p | .preemptRetry p => partExists p
  | .messageArrival c src => c.exist && src.exist
  | .firingStart c | .landingUnit c | .copyCompletion c | .revocation c | .portStallDiscard c
  | .matrixSliceExecution c => c.exist
  | .groupTurnComplete st g => straitExists st && groupExists g
  | .heldWriteApply b _ => b.exist
  | .l2MissFill d _ | .tableWalk d _ | .heartbeat d _ | .dieFence d => dieExists d
  | .temperatureChange d _ _ _ => dieExists d
  | .peerIngressWrite port _ _ part _ _ _ => portExists port && partExists part
  | .peerLinkDown port | .linkTrainingReturns port => portExists port
  | .trapEntry c x | .watchdog c x | .alignTimeout c x | .wfeTimeout c x | .sequencerExecution c x =>
    c.exist && ctxExists x
  | .errorEvent src bad => src.exist && bad.all BadWord.exist
  | .clusterRetirement s => s.exist
  | .postPackageRepairDone st _ => stackExists st

/-- The instruction has an encoding in a code line; the others are operations and events of other agents. -/
def Instr.encoded (i : Instr) : Bool := (encode i).isSome

end Sys2Proof
end

