-- ==== Sys2Proof/Machine/Access.lean ====
section
/-! DEFINITION. Named parts of the state and the module's geography: dies, sites, cores, logical clusters and
span-relative numbers (R8-R16, R29, R229). -/
namespace Sys2Proof

/-! ## Sites and cores -/

def SiteId.x (n : SiteId) : Nat := n.site % 12
def SiteId.y (n : SiteId) : Nat := n.site / 12
def CoreId.siteId (c : CoreId) : SiteId := ⟨c.die, c.site⟩
def BankId.siteId (b : BankId) : SiteId := ⟨b.die, b.site⟩

/-- The four cores of a site. -/
def SiteId.cores (n : SiteId) : List CoreId := (List.range 4).map fun k => ⟨n.die, n.site, k⟩

/-- A site's place in the ascending order of (die, physical site number) (R229). -/
def SiteId.rank (n : SiteId) : Nat := 132 * n.die + n.site

/-- Mesh-adjacent sites (R11). -/
def SiteId.adjacent (a b : SiteId) : Bool :=
  a.die = b.die &&
    ((a.y = b.y && (a.x = b.x + 1 || b.x = a.x + 1)) || (a.x = b.x && (a.y = b.y + 1 || b.y = a.y + 1)))

/-- The partner site of a GANG 8: the other column of the pair (R52). -/
def SiteId.partner (n : SiteId) : SiteId := { n with site := if n.x % 2 = 0 then n.site + 1 else n.site - 1 }

end Sys2Proof

namespace Sys2Proof.Machine

/-! ## Parts of the state -/

def State.core (s : State) (c : CoreId) : Core := s.cores.getD c {}
def State.setCore (s : State) (c : CoreId) (k : Core) : State := { s with cores := s.cores.put c k }
def State.updCore (s : State) (c : CoreId) (f : Core → Core) : State := s.setCore c (f (s.core c))

def Core.ctx (k : Core) (x : Nat) : Ctx := k.ctxs.getD x {}
def Core.setCtx (k : Core) (x : Nat) (v : Ctx) : Core := { k with ctxs := k.ctxs.put x v }
def Core.updCtx (k : Core) (x : Nat) (f : Ctx → Ctx) : Core := k.setCtx x (f (k.ctx x))

def State.ctx (s : State) (c : CoreId) (x : Nat) : Ctx := (s.core c).ctx x
def State.setCtx (s : State) (c : CoreId) (x : Nat) (v : Ctx) : State := s.updCore c (·.setCtx x v)
def State.updCtx (s : State) (c : CoreId) (x : Nat) (f : Ctx → Ctx) : State := s.setCtx c x (f (s.ctx c x))

/-- The core and the context whose instruction executes. -/
def State.myCore (s : State) : Core := s.core s.cur
def State.me (s : State) : Ctx := s.ctx s.cur s.curCtx
def State.setMe (s : State) (v : Ctx) : State := s.setCtx s.cur s.curCtx v
def State.updMe (s : State) (f : Ctx → Ctx) : State := s.setMe (f s.me)

def State.bank (s : State) (b : BankId) : Bank := s.banks.getD b {}
def State.setBank (s : State) (b : BankId) (v : Bank) : State := { s with banks := s.banks.put b v }
def State.updBank (s : State) (b : BankId) (f : Bank → Bank) : State := s.setBank b (f (s.bank b))

def State.cluster (s : State) (n : SiteId) : Cluster := s.clusters.getD n {}
def State.setCluster (s : State) (n : SiteId) (v : Cluster) : State := { s with clusters := s.clusters.put n v }
def State.updCluster (s : State) (n : SiteId) (f : Cluster → Cluster) : State := s.setCluster n (f (s.cluster n))

def State.die (s : State) (d : Nat) : Die := s.dies.getD d {}
def State.setDie (s : State) (d : Nat) (v : Die) : State := { s with dies := s.dies.put d v }
def State.updDie (s : State) (d : Nat) (f : Die → Die) : State := s.setDie d (f (s.die d))

def State.part (s : State) (p : Nat) : Part := s.parts.getD p {}
def State.setPart (s : State) (p : Nat) (v : Part) : State := { s with parts := s.parts.put p v }
def State.updPart (s : State) (p : Nat) (f : Part → Part) : State := s.setPart p (f (s.part p))

def State.func (s : State) (n : Nat) : Func := s.funcs.getD n {}
def State.updFunc (s : State) (n : Nat) (f : Func → Func) : State := { s with funcs := s.funcs.put n (f (s.func n)) }

def State.queue (s : State) (fn q : Nat) : Queue := s.queues.getD (fn, q) {}
def State.updQueue (s : State) (fn q : Nat) (f : Queue → Queue) : State :=
  { s with queues := s.queues.put (fn, q) (f (s.queue fn q)) }

def State.port (s : State) (n : Nat) : Port := s.ports.getD n {}
def State.updPort (s : State) (n : Nat) (f : Port → Port) : State := { s with ports := s.ports.put n (f (s.port n)) }

def State.strait (s : State) (n : Nat) : Strait := s.straits.getD n Strait.reset
def State.updStrait (s : State) (n : Nat) (f : Strait → Strait) : State := { s with straits := updAt s.straits n f }

def State.launch (s : State) (id : Nat) : Option Launch := s.launches.find? (·.id = id)
def State.updLaunch (s : State) (id : Nat) (f : Launch → Launch) : State :=
  { s with launches := s.launches.map fun l => if l.id = id then f l else l }

def State.span (s : State) (id : Nat) : Option Span := s.spans.find? (·.id = id)
def State.updSpan (s : State) (id : Nat) (f : Span → Span) : State :=
  { s with spans := s.spans.map fun p => if p.id = id then f p else p }

def State.updLantern (s : State) (f : Lantern → Lantern) : State := { s with lantern := f s.lantern }

def Core.berth (k : Core) (slot : Nat) : Option BankId := k.berths.getD slot none
def Core.setBerth (k : Core) (slot : Nat) (b : Option BankId) : Core := { k with berths := k.berths.put slot b, handed := k.handed.filter (· ≠ slot) }
def Core.counter (k : Core) (n : Nat) : Counter := k.ctrs.getD n {}
def Core.setCounter (k : Core) (n : Nat) (c : Counter) : Core := { k with ctrs := k.ctrs.put n c }

/-- A fresh number for requests, traps and walks. -/
def State.fresh (s : State) : Nat × State := (s.ids, { s with ids := s.ids + 1 })

/-! ## Geography -/

/-- What a site is; a site not listed is as manufacturing test left it (R10, DESIGN CHOICE, log 5). -/
def State.siteSt (s : State) (n : SiteId) : SiteSt := s.sites.getD n (if Config.isSpare n.die n.site then .spare else .enabled)
def State.enabled (s : State) (n : SiteId) : Bool := s.siteSt n = .enabled
def allSites (d : Nat) : List SiteId := (List.range 132).map fun k => ⟨d, k⟩
def State.enabledSites (s : State) (d : Nat) : List SiteId := (allSites d).filter s.enabled

/-- The dies of a strait, the lower first (R15). -/
def straitDies (n : Nat) : Nat × Nat :=
  if n < 3 then (n, n + 1) else if n < 6 then (n + 1, n + 2) else (n - 6, n - 2)

def straitBetween (a b : Nat) : Option Nat :=
  (List.range 10).find? fun n => straitDies n = (a, b) || straitDies n = (b, a)

/-! ## Routes between dies (R278, R412) -/

/-- One hop between neighbouring dies: the strait, and whether it goes toward lo. -/
def hop (a b : Nat) : List (Nat × Bool) :=
  match straitBetween a b with
  | some n => [(n, b < a)]
  | none => []

/-- The hops along a row of dies, from one column to another. -/
def rowHops (row a b : Nat) : List (Nat × Bool) :=
  if a ≤ b then (List.range (b - a)).flatMap fun i => hop (4 * row + a + i) (4 * row + a + i + 1)
  else (List.range (a - b)).flatMap fun i => hop (4 * row + a - i) (4 * row + a - i - 1)

/-- The fixed route: along the source die's row, then down or up the destination's column. -/
def route (a b : Nat) : List (Nat × Bool) :=
  rowHops (a / 4) (a % 4) (b % 4) ++ if a / 4 = b / 4 then [] else hop (4 * (a / 4) + b % 4) b

/-- A group carries beats in a direction: it has drained and stood slack for 120 ns at the latest (R283). -/
def LaneSt.carries (d : LaneSt) (lo : Bool) (now : Nat) : Bool :=
  match d with
  | .toLo => lo
  | .toHi => !lo
  | .turning t since => t = lo && since + 120 ≤ now

/-- A partition holds a group that carries its beats on every strait of a route; else they wait (R278, R412). -/
def State.routed (s : State) (p a b : Nat) : Bool :=
  (route a b).all fun h => (s.strait h.1).lanes.any fun l => l.owner = some p && !l.idle && l.dir.carries h.2 s.rtime

/-- One more transfer of a partition on every strait of a route (R288). -/
def Strait.transfer (t : Strait) (p : Nat) (lo : Bool) : Strait :=
  { t with xfers := t.xfers.put (p, lo) (t.xfers.getD (p, lo) 0 + 1) }
def State.crossing (s : State) (p a b : Nat) : State :=
  { s with straits := (route a b).foldl (fun l h => updAt l h.1 (·.transfer p h.2)) s.straits }

/-! ## Spans, launches and partitions of a site -/

/-- The partition whose clusters hold the site (R229). -/
def State.partOfSite (s : State) (n : SiteId) : Option Nat :=
  (s.parts.find? fun e => e.2.defined && e.2.clusters.contains n).map (·.1)

/-- A core's die and another die reach each other both ways for the core's partition. -/
def State.reaches (s : State) (c : CoreId) (d : Nat) : Bool :=
  c.die = d || (let p := (s.partOfSite c.siteId).getD 0; s.routed p c.die d && s.routed p d c.die)

/-- A request of a core to a die and its answer have crossed (R278). -/
def State.asked (s : State) (c : CoreId) (d : Nat) : State :=
  if c.die = d then s else (let p := (s.partOfSite c.siteId).getD 0; (s.crossing p c.die d).crossing p d c.die)

/-- The die of the host interface (R17), and of a peer port (R16). -/
def hostDie : Nat := 0
def peerDie (port : Nat) : Nat := port / 2

/-- From where an access comes: the partition whose groups carry it, and the die it starts on; none for the physical
function, which has no partition (DESIGN CHOICE, log 18). -/
abbrev Via := Option (Nat × Nat)

def State.viaOf (s : State) (c : CoreId) : Via := some ((s.partOfSite c.siteId).getD 0, c.die)

/-- A die is reached both ways. -/
def State.viaReaches (s : State) (v : Via) (d : Nat) : Bool :=
  match v with
  | none => true
  | some (p, a) => a = d || s.routed p a d && s.routed p d a

/-- A request and its answer have crossed. -/
def State.viaAsked (s : State) (v : Via) (d : Nat) : State :=
  match v with
  | none => s
  | some (p, a) => if a = d then s else (s.crossing p a d).crossing p d a

/-- The way out is open, and the data have crossed. -/
def State.viaCarries (s : State) (v : Via) (d : Nat) : Bool :=
  match v with
  | none => true
  | some (p, a) => a = d || s.routed p a d
def State.viaSent (s : State) (v : Via) (d : Nat) : State :=
  match v with
  | none => s
  | some (p, a) => if a = d then s else s.crossing p a d

/-- The way out of a core's die is open. -/
def State.carriedTo (s : State) (c : CoreId) (d : Nat) : Bool :=
  c.die = d || s.routed ((s.partOfSite c.siteId).getD 0) c.die d

/-- Data of a core to a die have crossed. -/
def State.sentTo (s : State) (c : CoreId) (d : Nat) : State :=
  if c.die = d then s else s.crossing ((s.partOfSite c.siteId).getD 0) c.die d

/-- The span that holds the site and is not saved (R29). -/
def State.spanAt (s : State) (n : SiteId) : Option Span := s.spans.find? fun p => !p.saved && p.sites.contains n

/-- The merge cluster of a launch is held in a saved image. -/
def State.mergeSaved (s : State) (l : Launch) : Bool := s.images.any fun i => i.span.isNone && i.launch = l.id

/-- The launch whose merge cluster the site is and stands on the module (R32). -/
def State.mergeAt (s : State) (n : SiteId) : Option Launch :=
  s.launches.find? fun l => l.merge = some n && !s.mergeSaved l

/-- The clusters in span-relative order: those of the span, or the merge cluster alone (R29, R32). -/
def State.spanSites (s : State) (n : SiteId) : List SiteId :=
  match s.spanAt n with
  | some p => p.sites
  | none => if (s.mergeAt n).isSome then [n] else []

/-- The launch that runs on a site. -/
def State.launchAt (s : State) (n : SiteId) : Option Launch :=
  match s.spanAt n with
  | some p => s.launch p.launch
  | none => s.mergeAt n

def State.isMerge (s : State) (n : SiteId) : Bool := (s.spanAt n).isNone && (s.mergeAt n).isSome

/-- Span-relative cluster number (R29). -/
def State.spanCluster (s : State) (n : SiteId) : Nat := (s.spanSites n).idxOf n

/-- Span-relative core number (R29). -/
def State.spanCoreNo (s : State) (c : CoreId) : Nat := 4 * s.spanCluster c.siteId + c.core

/-- The core of a span by its span-relative number; the merge cluster has core 0 alone (R32). -/
def State.spanCore (s : State) (n : SiteId) (i : Nat) : Option CoreId :=
  if s.isMerge n && i != 0 then none
  else ((s.spanSites n)[i / 4]?).map fun t => ⟨t.die, t.site, i % 4⟩

/-- The number of cores a firing on the site may name. -/
def State.spanCoreCount (s : State) (n : SiteId) : Nat := if s.isMerge n then 1 else 4 * (s.spanSites n).length

/-- Logical cluster number within the partition (R229). -/
def State.logical (s : State) (n : SiteId) : Nat :=
  match s.partOfSite n with
  | some p => (s.part p).clusters.idxOf n
  | none => 0x7FF

/-- The site of a logical cluster of the partition of site n. -/
def State.siteOfLogical (s : State) (n : SiteId) (l : Nat) : Option SiteId :=
  match s.partOfSite n with
  | some p => ((s.part p).clusters)[l]?
  | none => none

/-- The core a fabric address names, if its cluster lies in the span of the issuing core's site (R229); on a
merge cluster core 0 alone can be named (R32). -/
def State.fabricCore (s : State) (n : SiteId) (cluster core : Nat) : Option CoreId :=
  match s.siteOfLogical n cluster with
  | some t =>
    if (s.spanSites n).contains t && !(s.isMerge n && core != 0) then some ⟨t.die, t.site, core⟩ else none
  | none => none

/-- All cores of the span of a site. -/
def State.spanCores (s : State) (n : SiteId) : List CoreId :=
  if s.isMerge n then [⟨n.die, n.site, 0⟩] else (s.spanSites n).flatMap (·.cores)

/-- The core runs: no pre-emption has stopped it, and its die is not fenced (R339, R414). -/
def State.active (s : State) (c : CoreId) : Bool := !(s.core c).stopped && !(s.die c.die).fenced

/-- A WFE of the core ends its wait (R395). -/
def State.wake (s : State) (c : CoreId) : State :=
  s.updCore c fun k =>
    { k with ctxs := k.ctxs.map fun e =>
        match e.2.wait with
        | .wfe _ => (e.1, { e.2 with wait := .woken })
        | _ => e }

/-! ## Time (R2, R317): a cycle is 1/1.3 ns -/

/-- Cycles in a number of ns, rounded up (DESIGN CHOICE, log 34). -/
def cyclesOfNs (ns : Nat) : Nat := (ns * 13 + 9) / 10

/-- RTIME in ns (R317) (DESIGN CHOICE, log 34). -/
def State.now (s : State) : Nat := s.rtime

end Sys2Proof.Machine
end

