-- ==== Sys2Proof/Machine/Flags.lean ====
section
/-! DEFINITION. The fields of STATUS (R380), CAUSE (R381) and RNDCTL (R171), and the rounding in force (R133). -/
namespace Sys2Proof.Machine

/-! ## STATUS (R380) -/

/-- Integer division by zero traps (R117). -/
def Ctx.dz (x : Ctx) : Bool := bitOf x.status 0
/-- Supervisor level (R372). -/
def Ctx.sv (x : Ctx) : Bool := bitOf x.status 1
/-- Running a trap handler. -/
def Ctx.th (x : Ctx) : Bool := bitOf x.status 2
/-- SV before the current trap entry. -/
def Ctx.psv (x : Ctx) : Bool := bitOf x.status 4
/-- In a gang. -/
def Ctx.ganged (x : Ctx) : Bool := bitOf x.status 5

/-- A STATUS word from its fields; bits 63:6 and 3 are reserved and read 0. -/
def statusWord (dz sv th psv ganged : Bool) : W64 :=
  w64 (b2n dz + 2 * b2n sv + 4 * b2n th + 16 * b2n psv + 32 * b2n ganged)

/-- STATUS when a firing begins: DZ 1, SV 1 for handlers 254 and 255 (R380). -/
def statusAtStart (handler : Nat) : W64 := statusWord true (handler = 254 || handler = 255) false false false

/-- STATUS as trap entry leaves it: PSV takes SV, SV and TH are set (R373). -/
def Ctx.statusInTrap (x : Ctx) : W64 := statusWord x.dz true true x.sv x.ganged

/-- STATUS as SRET leaves it: SV takes PSV, TH is clear (R392). -/
def Ctx.statusAfterTrap (x : Ctx) : W64 := statusWord x.dz x.psv false x.psv x.ganged

/-- The GANGED bit as given. -/
def Ctx.setGanged (x : Ctx) (g : Bool) : Ctx := { x with status := statusWord x.dz x.sv x.th x.psv g }

/-- The DZ bit as given, STATUS's one writable field. -/
def Ctx.setDz (x : Ctx) (v : Bool) : Ctx := { x with status := statusWord v x.sv x.th x.psv x.ganged }

/-! ## CAUSE (R381) -/

/-- A CAUSE word: code, stream, INFO. -/
def causeWord (code stream info : Nat) : W64 := w64 (code % 256 + stream % 4 * 2 ^ 8 + info % 16 * 2 ^ 12)

/-! ## RNDCTL (R171) and rounding -/

/-- The rounding modes (R170). -/
inductive RMode where
  | rne | rz | ru | rd | sr
  deriving DecidableEq, Repr

/-- MODE of an RNDCTL word. -/
def rndctlMode (w : W64) : RMode :=
  match field w 2 0 with
  | 2 => .rz
  | 3 => .ru
  | 4 => .rd
  | 5 => .sr
  | _ => .rne

/-- SAT of an RNDCTL word. -/
def rndctlSat (w : W64) : Bool := bitOf w 3

/-- RNDCTL after a write: MODE is left alone by 0, 6 and 7 (R171). -/
def rndctlWrite (old new : W64) : W64 :=
  let m := field new 2 0
  let mode := if m = 0 || m = 6 || m = 7 then field old 2 0 else m
  w64 (mode + 8 * b2n (bitOf new 3))

/-- Mode and saturation in force for an instruction's RND and SAT fields (R133): RND 0 takes RNDCTL's mode, and
saturates when either bit is set; another RND takes its own SAT bit. -/
def RndSat.inForce (r : RndSat) (ctl : W64) : RMode × Bool :=
  match r.rnd with
  | .ctl => (rndctlMode ctl, r.sat || rndctlSat ctl)
  | .rne => (.rne, r.sat)
  | .rz => (.rz, r.sat)
  | .ru => (.ru, r.sat)
  | .rd => (.rd, r.sat)
  | .sr => (.sr, r.sat)

end Sys2Proof.Machine
end

