-- ==== Sys2Proof/Machine/Float.lean ====
section
/-! DEFINITION. Number formats (R163-R169) to the bit, exact values, one rounding into a format (R170, R173), overflow
and NaN results (R133, R147), binary32 and binary64 arithmetic (R134, R135), conversions (R145-R148). -/
namespace Sys2Proof.Machine

/-! ## Exact values -/

/-- An exact value: a NaN, an infinity, or (-1)^neg times m times 2^e. -/
inductive FVal where
  | nan
  | inf (neg : Bool)
  | fin (neg : Bool) (m : Nat) (e : Int)
  deriving DecidableEq, Repr

/-- How a format spends its topmost encodings (R164). -/
inductive FmtKind where
  | ieee | e4m3 | e2m1
  deriving DecidableEq, Repr

/-- A floating-point format (R163): exponent bits, fraction bits, bias, special encodings. -/
structure FFmt where
  e    : Nat
  f    : Nat
  bias : Nat
  kind : FmtKind
  deriving DecidableEq, Repr

def f64 : FFmt := ⟨11, 52, 1023, .ieee⟩
def f32 : FFmt := ⟨8, 23, 127, .ieee⟩
def f16 : FFmt := ⟨5, 10, 15, .ieee⟩
def bf16 : FFmt := ⟨8, 7, 127, .ieee⟩
def e5m2 : FFmt := ⟨5, 2, 15, .ieee⟩
def e4m3 : FFmt := ⟨4, 3, 7, .e4m3⟩
def e2m1 : FFmt := ⟨2, 1, 1, .e2m1⟩
def dt19 : FFmt := ⟨8, 10, 127, .ieee⟩

/-- Width in bits. -/
def FFmt.width (t : FFmt) : Nat := 1 + t.e + t.f
/-- The sign bit as a number. -/
def FFmt.signBit (t : FFmt) (neg : Bool) : Nat := if neg then 2 ^ (t.e + t.f) else 0
/-- Exponent and fraction fields of the largest finite value (R164). -/
def FFmt.maxEnc (t : FFmt) : Nat :=
  match t.kind with
  | .ieee => (2 ^ t.e - 1) * 2 ^ t.f - 1
  | .e4m3 => 0x7E
  | .e2m1 => 0x7
/-- Exponent of the subnormal spacing. -/
def FFmt.qmin (t : FFmt) : Int := 1 - (t.bias : Int) - (t.f : Int)
/-- The canonical NaN (R164); e2m1 has none and writes 0 for a NaN source (R147). -/
def FFmt.nan (t : FFmt) : Nat :=
  match t.kind with
  | .ieee => (2 ^ t.e - 1) * 2 ^ t.f + 2 ^ (t.f - 1)
  | .e4m3 => 0x7F
  | .e2m1 => 0
def FFmt.infEnc (t : FFmt) (neg : Bool) : Nat := t.signBit neg + (2 ^ t.e - 1) * 2 ^ t.f

/-- The value of an encoding (R163, R164). -/
def FFmt.decode (t : FFmt) (n : Nat) : FVal :=
  let neg := bits n (t.e + t.f) 1 = 1
  let ex := bits n t.f t.e
  let fr := bits n 0 t.f
  let finite := if ex = 0 then FVal.fin neg fr t.qmin else .fin neg (2 ^ t.f + fr) (t.qmin + (ex : Int) - 1)
  match t.kind with
  | .ieee => if ex = 2 ^ t.e - 1 then (if fr = 0 then .inf neg else .nan) else finite
  | .e4m3 => if ex = 15 && fr = 7 then .nan else finite
  | .e2m1 => finite

/-! ## Rounding (R170, R173) -/

/-- Whether magnitude (k + rem / 2^sh) units rounds up to k + 1; `r` is the draw of a stochastic rounding. -/
def roundsUp (mode : RMode) (neg : Bool) (k rem sh r : Nat) : Bool :=
  if rem = 0 then false
  else
    match mode with
    | .rne => 2 ^ sh < 2 * rem || (2 * rem = 2 ^ sh && k % 2 = 1)
    | .rz => false
    | .ru => !neg
    | .rd => neg
    | .sr => 2 ^ 32 ≤ rem * 2 ^ 32 / 2 ^ sh + r

/-- An overflow under IEEE rules goes to infinity (R147). -/
def overflowInf (mode : RMode) (neg : Bool) : Bool :=
  match mode with
  | .rne | .sr => true
  | .rz => false
  | .ru => !neg
  | .rd => neg

/-- The result of an overflow (R133, R147). -/
def FFmt.overflow (t : FFmt) (toInf sat neg : Bool) : Nat :=
  if sat || !toInf then t.signBit neg + t.maxEnc
  else
    match t.kind with
    | .ieee => t.infEnc neg
    | .e4m3 => t.signBit neg + 0x7F
    | .e2m1 => t.signBit neg + t.maxEnc

/-- A finite value rounded once into a format. -/
def FFmt.roundFin (t : FFmt) (mode : RMode) (sat : Bool) (r : Nat) (neg : Bool) (m : Nat) (e : Int) : Nat :=
  if m = 0 then t.signBit neg
  else
    let q := max ((m.log2 : Int) + e - (t.f : Int)) t.qmin
    let sh := (q - e).toNat
    let k := m * 2 ^ (e - q).toNat / 2 ^ sh
    let rem := m % 2 ^ sh
    let k := if roundsUp mode neg k rem sh r then k + 1 else k
    let enc := k + (q - t.qmin).toNat * 2 ^ t.f
    if t.maxEnc < enc then t.overflow (overflowInf mode neg) sat neg else t.signBit neg + enc

/-- An arithmetic result rounded into its format (R134): an infinity stays, saturation or not (R133). -/
def FFmt.round (t : FFmt) (mode : RMode) (sat : Bool) (v : FVal) : Nat :=
  let mode := if mode = .sr then .rne else mode
  match v with
  | .nan => t.nan
  | .inf neg => t.infEnc neg
  | .fin neg m e => t.roundFin mode sat 0 neg m e

/-- A value converted into a format (R146, R147): an infinite source is an overflow in every mode. -/
def FFmt.convert (t : FFmt) (mode : RMode) (sat : Bool) (r : Nat) (v : FVal) : Nat :=
  match v with
  | .nan => t.nan
  | .inf neg => t.overflow true sat neg
  | .fin neg m e => t.roundFin mode sat r neg m e

/-! ## Exact arithmetic -/

/-- A finite value as an integer in units of 2^q, for q at most its exponent. -/
def toUnits (neg : Bool) (m : Nat) (e q : Int) : Int :=
  let v : Int := m * 2 ^ (e - q).toNat
  if neg then -v else v

/-- An integer in units of 2^q; a zero takes the sign given. -/
def ofUnits (v q : Int) (zeroNeg : Bool) : FVal := .fin (if v = 0 then zeroNeg else v < 0) v.natAbs q

def FVal.neg : FVal → FVal
  | .nan => .nan
  | .inf n => .inf !n
  | .fin n m e => .fin (!n) m e

def FVal.isNan : FVal → Bool
  | .nan => true
  | _ => false

/-- Exact sum; a zero sum of opposite signs is +0, or -0 under RD (IEEE 754). -/
def FVal.add (mode : RMode) (a b : FVal) : FVal :=
  match a, b with
  | .nan, _ => .nan
  | _, .nan => .nan
  | .inf n, .inf p => if n = p then .inf n else .nan
  | .inf n, _ => .inf n
  | _, .inf p => .inf p
  | .fin n m e, .fin p k g =>
    let q := min e g
    ofUnits (toUnits n m e q + toUnits p k g q) q (if m = 0 && k = 0 && n = p then n else mode = .rd)

/-- Exact product. -/
def FVal.mul (a b : FVal) : FVal :=
  match a, b with
  | .nan, _ => .nan
  | _, .nan => .nan
  | .inf n, .inf p => .inf (n != p)
  | .inf n, .fin p k _ => if k = 0 then .nan else .inf (n != p)
  | .fin n m _, .inf p => if m = 0 then .nan else .inf (n != p)
  | .fin n m e, .fin p k g => .fin (n != p) (m * k) (e + g)

/-- Quotient, exact or with a low bit that stands for a remainder: enough for one rounding into binary32. -/
def FVal.div (a b : FVal) : FVal :=
  match a, b with
  | .nan, _ => .nan
  | _, .nan => .nan
  | .inf _, .inf _ => .nan
  | .inf n, .fin p _ _ => .inf (n != p)
  | .fin n _ _, .inf p => .fin (n != p) 0 0
  | .fin n m e, .fin p k g =>
    if k = 0 then (if m = 0 then .nan else .inf (n != p))
    else
      let num := m * 2 ^ 128
      .fin (n != p) (2 * (num / k) + (if num % k = 0 then 0 else 1)) (e - g - 129)

/-- a < b for values that are not NaN. -/
def FVal.lt (a b : FVal) : Bool :=
  match a, b with
  | .nan, _ => false
  | _, .nan => false
  | .inf n, .inf p => n && !p
  | .inf n, _ => n
  | _, .inf p => !p
  | .fin n m e, .fin p k g =>
    let q := min e g
    toUnits n m e q < toUnits p k g q

/-- a = b as values, -0 and +0 equal. -/
def FVal.eq (a b : FVal) : Bool := !a.isNan && !b.isNan && !a.lt b && !b.lt a

def FVal.signOf : FVal → Bool
  | .nan => false
  | .inf n => n
  | .fin n _ _ => n

/-- a < b with -0 below +0 (R135). -/
def FVal.ltz (a b : FVal) : Bool := a.lt b || (a.eq b && a.signOf && !b.signOf)

def FVal.abs : FVal → FVal
  | .nan => .nan
  | .inf _ => .inf false
  | .fin _ m e => .fin false m e

/-! ## Arithmetic on encodings -/

/-- One operation of a format, rounded once. -/
def FFmt.op2 (t : FFmt) (mode : RMode) (sat : Bool) (f : FVal → FVal → FVal) (a b : Nat) : Nat :=
  t.round mode sat (f (t.decode a) (t.decode b))

/-- minimumNumber and maximumNumber (R135); the result is one of the encodings, or the canonical NaN. -/
def FFmt.minmax (t : FFmt) (isMax : Bool) (a b : Nat) : Nat :=
  let x := t.decode a
  let y := t.decode b
  if x.isNan then (if y.isNan then t.nan else b)
  else if y.isNan then a
  else if (if isMax then y.ltz x else x.ltz y) then a else b

/-- Fused multiply-add, rounded once: x y + z (R135, R178). -/
def FFmt.fma (t : FFmt) (mode : RMode) (sat : Bool) (negProduct negAddend : Bool) (a b c : Nat) : Nat :=
  let mode := if mode = .sr then .rne else mode
  let p := (t.decode a).mul (t.decode b)
  let p := if negProduct then p.neg else p
  let z := t.decode c
  let z := if negAddend then z.neg else z
  t.round mode sat (FVal.add mode p z)

/-! ## Integers -/

/-- An integer as a value. -/
def ofInt (i : Int) : FVal := .fin (i < 0) i.natAbs 0

/-- A finite value rounded to an integer (R146); stochastic rounding is never asked for here and stands for RNE. -/
def roundToInt (mode : RMode) (neg : Bool) (m : Nat) (e : Int) : Int :=
  let mode := if mode = .sr then .rne else mode
  let sh := (-e).toNat
  let k := m * 2 ^ e.toNat / 2 ^ sh
  let k := if roundsUp mode neg k (m % 2 ^ sh) sh 0 then k + 1 else k
  if neg then -(k : Int) else k

/-- Clamped to a range. -/
def clampInt (lo hi i : Int) : Int := if i < lo then lo else if hi < i then hi else i

/-- An integer's low w bits. -/
def lowBits (w : Nat) (i : Int) : Nat := (i % 2 ^ w).toNat

/-! ## Decode tables (R167, R168) -/

/-- Entry c of a table, as stored. -/
def dtEntry (t : Tab Nat (BitVec 19)) (c : Nat) : FVal := dt19.decode (t.getD c 0).toNat

/-- The value a code decodes to. -/
def dtDecode (t : Tab Nat (BitVec 19)) (code : Nat) : FVal :=
  let v := dtEntry t (code % 128)
  if code / 128 = 1 then v.neg else v

/-- e ≤ m; false against a NaN. -/
def FVal.le (a b : FVal) : Bool := !a.isNan && !b.isNan && !b.lt a

/-- Difference a - b of R168: of two infinities of one sign, 0. -/
def dtDiff (a b : FVal) : FVal :=
  match a, b with
  | .inf n, .inf p => if n = p then .fin false 0 0 else .inf n
  | _, _ => FVal.add .rne a b.neg

/-- Steps b = k - 1 down to 0 of the search. -/
def dtSearch (t : Tab Nat (BitVec 19)) (m : FVal) : Nat → Nat → Nat
  | 0, lo => lo
  | k + 1, lo => dtSearch t m k (if (dtEntry t (lo + 2 ^ k)).le m then lo + 2 ^ k else lo)

/-- dt_encode (R168). -/
def dtEncode (t : Tab Nat (BitVec 19)) (x : FVal) : Nat :=
  if x.isNan then 0
  else
    let m := x.abs
    let lo := dtSearch t m 7 0
    let c :=
      if lo < 127 && (dtEntry t lo).le m then
        let dl := dtDiff m (dtEntry t lo)
        let dh := dtDiff (dtEntry t (lo + 1)) m
        if dh.lt dl || (dh.eq dl && lo % 2 = 1) then lo + 1 else lo
      else lo
    c + (if x.signOf then 128 else 0)

/-! ## Conversion of one lane (R145-R147) -/

/-- The two decode tables of a core. -/
structure Tables where
  t0 : Tab Nat (BitVec 19)
  t1 : Tab Nat (BitVec 19)

/-- What a type code is. -/
inductive CvtClass where
  | float (t : FFmt)
  | int (w : Nat) (signed : Bool)
  | dt (second : Bool)
  deriving DecidableEq, Repr


def cvtClass (t : CvtTy) : CvtClass :=
  match t with
  | .f32 => .float f32
  | .i32 => .int 32 true
  | .n32 => .int 32 false
  | .bf16 => .float bf16
  | .f16 => .float f16
  | .e4m3 => .float e4m3
  | .e5m2 => .float e5m2
  | .e2m1 => .float e2m1
  | .i16 => .int 16 true
  | .n16 => .int 16 false
  | .i8 => .int 8 true
  | .n8 => .int 8 false
  | .i4 => .int 4 true
  | .dt0 => .dt false
  | .dt1 => .dt true

def Tables.pick (t : Tables) (second : Bool) : Tab Nat (BitVec 19) := if second then t.t1 else t.t0

/-- The exact value of a code read as a type (R145, R146). -/
def readAs (tb : Tables) (c : CvtClass) (n : Nat) : FVal :=
  match c with
  | .float t => t.decode (n % 2 ^ t.width)
  | .int w signed => ofInt (if signed then sext w n else (n % 2 ^ w : Nat))
  | .dt second => dtDecode (tb.pick second) (n % 256)

/-- Lowest and highest value of an integer type (R166). -/
def intRange (w : Nat) (signed : Bool) : Int × Int :=
  if signed then (-(2 ^ (w - 1)), 2 ^ (w - 1) - 1) else (0, 2 ^ w - 1)

/-- Bits of a code's type. -/
def CvtClass.width : CvtClass → Nat
  | .float t => t.width
  | .int w _ => w
  | .dt _ => 8

/-- A value written as a type (R146, R147); `fromInt` says that the source is an integer. -/
def writeAs (tb : Tables) (c : CvtClass) (fromInt : Bool) (mode : RMode) (sat : Bool) (r : Nat) (v : FVal) : Nat :=
  match c with
  | .float t => t.convert mode sat r v
  | .int w signed =>
    let (lo, hi) := intRange w signed
    match v with
    | .nan => 0
    | .inf neg => lowBits w (if neg then lo else hi)
    | .fin neg m e =>
      let y := roundToInt mode neg m e
      if (lo ≤ y && y ≤ hi) || (fromInt && !sat) then lowBits w y else lowBits w (clampInt lo hi y)
  | .dt second => dtEncode (tb.pick second) v

/-- Rounds stochastically: the targets of RND 5 (R147). -/
def srTarget (t : CvtTy) : Bool :=
  match t with
  | .bf16 | .f16 | .e4m3 | .e5m2 | .e2m1 => true
  | _ => false

def CvtClass.isInt : CvtClass → Bool
  | .int _ _ => true
  | _ => false

/-- One lane converted (R146): equal types pass the bits through, a NaN made canonical. -/
def convertLane (tb : Tables) (outTy frm : CvtTy) (mode : RMode) (sat : Bool) (r n : Nat) : Nat :=
  let mode := if mode = .sr && !srTarget outTy then .rne else mode
  let c := cvtClass frm
  if outTy = frm then
    match c with
    | .float t => if (t.decode (n % 2 ^ t.width)).isNan then t.nan else n % 2 ^ t.width
    | _ => n % 2 ^ c.width
  else writeAs tb (cvtClass outTy) c.isInt mode sat r (readAs tb c n)

/-! ## The LFSR (R174) -/

/-- One step of the LFSR; the new state is the draw. -/
def lfsr (s : W32) : W32 := if s.getLsbD 0 then (s >>> 1) ^^^ 0x80200003#32 else s >>> 1

/-! ## The binary32 lane operations (R134-R137, R139, R144) -/

def lane2 (mode : RMode) (sat : Bool) (f : FVal → FVal → FVal) (a b : W32) : W32 :=
  BitVec.ofNat 32 (f32.op2 mode sat f a.toNat b.toNat)
def laneAdd (mode : RMode) (sat : Bool) (a b : W32) : W32 :=
  lane2 mode sat (FVal.add (if mode = .sr then .rne else mode)) a b
def laneSub (mode : RMode) (sat : Bool) (a b : W32) : W32 :=
  lane2 mode sat (fun x y => FVal.add (if mode = .sr then .rne else mode) x y.neg) a b
def laneMul (mode : RMode) (sat : Bool) (a b : W32) : W32 := lane2 mode sat FVal.mul a b
def laneDiv (mode : RMode) (sat : Bool) (a b : W32) : W32 := lane2 mode sat FVal.div a b
def laneFma (mode : RMode) (sat negP negC : Bool) (a b c : W32) : W32 :=
  BitVec.ofNat 32 (f32.fma mode sat negP negC a.toNat b.toNat c.toNat)
def laneMinMax (isMax : Bool) (a b : W32) : W32 := BitVec.ofNat 32 (f32.minmax isMax a.toNat b.toNat)
def laneAbs (a : W32) : W32 := a &&& 0x7FFFFFFF#32
def laneNeg (a : W32) : W32 := a ^^^ 0x80000000#32

/-- A lane as an integer. -/
def laneInt (u : Bool) (a : W32) : Int := if u then a.toNat else a.toInt

/-- An exact integer result reduced to 32 bits: low bits, or clamped (R136). -/
def reduceInt (t : IntSat) (i : Int) : W32 :=
  let (lo, hi) := intRange 32 (!t.u)
  BitVec.ofInt 32 (if t.sat then clampInt lo hi i else i)

/-- Condition codes of VCMP on ordered values (R139). -/
def ccHolds (cc : CmpCC) (lt eq : Bool) : Bool :=
  match cc with
  | .eq => eq
  | .ne => !eq
  | .lt => lt
  | .le => lt || eq
  | .gt => !lt && !eq
  | .ge => !lt
  | .un => false

/-- One lane of VCMP (R139). -/
def laneCmp (cc : CmpCC) (ty : CmpTy) (a b : W32) : Bool :=
  match ty with
  | .f32 =>
    let x := f32.decode a.toNat
    let y := f32.decode b.toNat
    if x.isNan || y.isNan then cc = .ne || cc = .un else ccHolds cc (x.lt y) (x.eq y)
  | .i32 => ccHolds cc (a.slt b) (a = b)
  | .n32 => ccHolds cc (a.ult b) (a = b)

end Sys2Proof.Machine
end

