-- ==== Sys2Proof/Machine/Channel.lean ====
section
/-! DEFINITION. Copies on their channels and banks: the request's shape (R293-R295), the bank's queue and envelope
(R299, R303), completion in ID order (R307, R308), retirement of frozen copies (R411), and the reports of engines
and ports (R384, R410). -/
namespace Sys2Proof.Machine

/-! ## The shape of a request (R292-R295) -/

def Copy.rb (c : Copy) : Nat := 4 * (field c.w2 13 0 + 1)
def Copy.rows (c : Copy) : Nat := field c.w2 27 14 + 1
def Copy.planes (c : Copy) : Nat := field c.w3 63 58 + 1
def Copy.ss (c : Copy) : Nat := 4 * field c.w2 45 28
def Copy.dp (c : Copy) : Nat := 4 * field c.w2 63 46
def Copy.ps (c : Copy) : Nat := 64 * field c.w3 57 44
def Copy.swz (c : Copy) : Bool := bitOf c.w3 43
def Copy.swc (c : Copy) : Nat := field c.w3 42 40 + 4
def Copy.sws (c : Copy) : Nat := field c.w3 39 37 + 9
def Copy.mkind (c : Copy) : Nat := field c.w3 36 35
def Copy.hidx (c : Copy) : Nat := field c.w3 34 27
def Copy.ctr (c : Copy) : Nat := field c.w3 26 21
def Copy.mdest (c : Copy) : Nat := field c.w3 20 9
def Copy.dead (c : Copy) : Bool := bitOf c.w3 8
def Copy.uc (c : Copy) : Nat := field c.w3 7 4
def Copy.sluice (c : Copy) : Nat := field c.w3 3 0

/-- The destination is a bank. -/
def Copy.toBank (c : Copy) : Bool := c.dst.isSome
/-- The destination position of the first byte: the offset in a bank, or the address. -/
def Copy.first (c : Copy) : Nat := if c.toBank then field c.w1 15 0 else c.w1.toNat
/-- The destination position of the last byte (R295). -/
def Copy.last (c : Copy) : Nat := c.first + (c.planes * c.rows - 1) * c.dp + c.rb - 1
/-- Bytes of a landing unit (R298). -/
def Copy.unit (c : Copy) : Nat := if c.swz then 512 else 64
/-- The first unit's start (R299). -/
def Copy.start (c : Copy) : Nat := c.first / c.unit * c.unit
/-- The end of the last unit (R299). -/
def Copy.stopAt (c : Copy) : Nat := (c.last / c.unit + 1) * c.unit
/-- The start of the next unit to land. -/
def Copy.pos (c : Copy) : Nat := c.start + c.prog
/-- The lowest destination position at or above W that the copy covers. -/
def Copy.nextByte (p : Copy) : Nat :=
  if p.pos ≤ p.first then p.first
  else
    let n := p.planes * p.rows
    if n = 1 then p.pos
    else
      let o := p.pos - p.first
      let r := o / p.dp
      if o - r * p.dp < p.rb then p.pos else p.first + (r + 1) * p.dp

/-- Start of the unit that lands next. -/
def Copy.nextUnit (p : Copy) : Nat := p.nextByte / p.unit * p.unit

/-- The virtual address of a unit: in global memory, or in the bank as the request names it. -/
def Copy.unitVa (p : Copy) (u : Nat) : W64 := if p.toBank then setField p.w1 15 0 u else w64 u
/-- Every unit has landed. -/
def Copy.ended (c : Copy) : Bool := c.stopAt ≤ c.pos

/-- The source position of destination byte `da`, when the copy covers it (R295). -/
def Copy.sourceOf (c : Copy) (da : Nat) : Option Nat :=
  if da < c.first then none
  else
    let o := da - c.first
    let r := if c.planes * c.rows = 1 then 0 else o / c.dp
    let j := o - r * c.dp
    if c.planes * c.rows ≤ r || c.rb ≤ j then none
    else
      let sa := c.w0.toNat + r / c.rows * c.ps + r % c.rows * c.ss + j
      some (if c.src.isSome then sa % 65536 else sa)

/-! ## The bank's queue and envelope (R299, R303) -/

/-- The copies that wait behind the open envelope, or all of them when none is open. -/
def Bank.waitingCopies (b : Bank) : List QCopy := if b.wmOpen then b.queue.drop 1 else b.queue

/-- A copy of a channel by its ID. -/
def Channel.copy (h : Channel) (id : BitVec 32) : Option Copy := h.places.find? (·.id = id)
def Channel.updCopy (h : Channel) (id : BitVec 32) (f : Copy → Copy) : Channel :=
  { h with places := h.places.map fun c => if c.id = id then f c else c }

def State.copy (s : State) (c : CoreId) (id : BitVec 32) : Option Copy := (s.core c).chan.copy id
def State.updCopy (s : State) (c : CoreId) (id : BitVec 32) (f : Copy → Copy) : State :=
  s.updCore c fun k => { k with chan := k.chan.updCopy id f }

/-- The head of the bank's queue opens its envelope, unless one is open or the bank is the original of a
speculative region (R192, R299). -/
def State.openEnvelope (s : State) (b : BankId) : State :=
  let k := s.bank b
  match k.queue with
  | [] => s
  | q :: _ =>
    if k.wmOpen || k.shadow.isSome then s
    else
      let susp := match s.copy q.core q.id with
        | some c => c.st = .suspended
        | none => false
      { s.setBank b { k with wmOpen := true, wmW := q.start, wmStart := q.start, wmEnd := q.stop, wmSusp := susp
                             wmFroz := false, wmChan := q.core.core, wmId := q.id, wmOrder := s.ids } with
        ids := s.ids + 1 }

/-- The bytes that have landed under the bank's current or last envelope. -/
def Bank.lastLanded (b : Bank) : Nat × Nat := (b.wmStart, Nat.min b.wmW b.wmEnd)

/-- The open envelope closes, W standing where it stands; FROZEN stays as it is, and what landed stays known (R264, R299,
R411). The next copy opens. -/
def State.closeEnvelope (s : State) (b : BankId) : State :=
  (s.updBank b fun k =>
    { k with wmOpen := false, wmSusp := false, queue := k.queue.drop 1
             landed := k.lastLanded :: k.landed.filter fun r => !(k.lastLanded.1 ≤ r.1 && r.2 ≤ k.lastLanded.2) }).openEnvelope b

/-! ## Messages of engines -/

/-- Header word 0 of a message to a core (R40). -/
def msgHead (dclus dcore hidx ctr flags : Nat) : W64 :=
  w64 (dclus + dcore * 2 ^ 11 + hidx * 2 ^ 16 + ctr * 2 ^ 24 + flags * 2 ^ 32)

/-- A message put on its way by an engine. -/
def State.sendEngine (s : State) (f : Flight) : State := { s with engine := s.engine ++ [f] }

/-- The firing still runs on the core (R384). -/
def Core.runs (k : Core) (fid : Nat) : Bool := k.ctxs.any fun e => e.2.running && e.2.fid = fid

/-- Where a report goes: the issuer's core, or span-relative core 0 once the issuer has ended (R384). -/
def State.reportDest (s : State) (c : CoreId) (fid : Nat) : CoreId :=
  if (s.core c).runs fid then c else (s.spanCore c.siteId 0).getD c

/-- The report of an asynchronous failure (R384); `mask` is what the port writes into H1 bits 39:32 (R424), `origin` the die of
the engine that sends it. -/
def State.report (s : State) (c : CoreId) (fid cause source detail addr : Nat) (words : List Nat)
    (seq : BitVec 32) (frozen : Option (CoreId × BitVec 32)) (mask : Nat := 0) (origin : Option Nat := none) : State :=
  let d := s.reportDest c fid
  let body := leBytes 1 cause ++ leBytes 1 source ++ leBytes 2 0 ++ leBytes 4 detail ++ leBytes 8 addr ++
    leBytes 8 (words.getD 0 0) ++ leBytes 8 (words.getD 1 0) ++ leBytes 8 (words.getD 2 0) ++ leBytes 8 (words.getD 3 0)
  s.sendEngine
    { msg := { h0 := msgHead (s.logical d.siteId) d.core 0xFF 0 0x0D, h1 := w64 (seq.toNat + mask * 2 ^ 32), payload := body }
      src := none, compart := 0, dest := d, report := frozen, origin := origin }

/-! ## Completion (R307, R308) -/

/-- The completion message of a copy, when W3 asks for one (R308). -/
def State.sendCompletion (s : State) (c : CoreId) (p : Copy) : State :=
  if p.mkind = 0 || p.retired then s
  else
    match s.spanCore c.siteId p.mdest with
    | none => s
    | some d =>
      let body := leBytes 4 p.id.toNat ++ leBytes 1 c.core ++ leBytes 1 0 ++ leBytes 2 0 ++ leBytes 8 p.w0.toNat ++
        leBytes 8 p.w1.toNat ++ leBytes 8 p.w2.toNat ++ leBytes 8 p.w3.toNat ++ leBytes 4 (s.spanCoreNo c) ++
        leBytes 4 0
      let fl := if p.mkind = 2 then 5 else 4
      s.sendEngine
        { msg := { h0 := msgHead (s.logical d.siteId) d.core p.hidx p.ctr fl, h1 := w64 p.id.toNat, payload := body }
          src := none, compart := p.compart, dest := d, chan := some c }

/-- The oldest copies of a channel that have landed complete, one after another. -/
def State.completeFrom (s : State) (c : CoreId) : List Copy → State
  | [] => s
  | p :: ps =>
    if p.st = .landed then
      let t := s.updCore c fun k => { k with chan := { k.chan with places := k.chan.places.drop 1, done := p.id + 1, passed := true } }
      State.completeFrom ((t.sendCompletion c p).wake c) c ps
    else s

/-- Every completion a channel can release now (R307). -/
def State.complete (s : State) (c : CoreId) : State := s.completeFrom c (s.core c).chan.places

/-- A CPYS that waits for a copy takes its status as the copy stops (R312). -/
def Wait.told (w : Wait) (id : BitVec 32) (n : Nat) : Wait := if w = .stopping id then .value (w64 n) else w

/-- Every CPYS of a core that waits for a copy, held aside by a trap or not, has its status. -/
def State.tellStop (s : State) (c : CoreId) (id : BitVec 32) (n : Nat) : State :=
  s.updCore c fun k =>
    { k with ctxs := k.ctxs.map fun e =>
        (e.1, { e.2 with wait := e.2.wait.told id n, heldWait := e.2.heldWait.told id n }) }

/-- A copy has landed to its end: its envelope closes (R299) and it waits for its completion (R307). -/
def State.landed (s : State) (c : CoreId) (p : Copy) : State :=
  let t := (s.updCopy c p.id fun q => { q with st := .landed, prog := q.stopAt - q.start, stop := false }).tellStop c p.id 4
  match p.dst with
  | some b => t.closeEnvelope b
  | none => t

/-- A frozen copy is retired (R411). -/
def State.retireCopy (s : State) (c : CoreId) (id : BitVec 32) : State :=
  match s.copy c id with
  | none => s
  | some p =>
    if p.st != .frozen then s
    else
      let t := s.updCore c fun k =>
        { k with chan :=
            { k.chan.updCopy id (fun q => { q with st := .landed, retired := true }) with
              record := match k.chan.record with
                | w :: ws => (if field w 63 32 = id.toNat then w ||| 0x200 else w) :: ws
                | [] => [] } }
      let t := match p.dst with
        | some b => t.closeEnvelope b
        | none => t
      t.complete c

/-- A copy is frozen by a fault at its next unit: record, watermark, report, in this order (R408, R410); W stands at the
start of the unit. -/
def State.freezeCopy (s : State) (c : CoreId) (p : Copy) (code info : Nat) (va : W64) : State :=
  let u := p.nextUnit
  let w0 := p.id.toNat * 2 ^ 32 + info * 2 ^ 12 + 0x100 + code
  let rec_ := [w64 w0, p.unitVa u, w64 (u - p.first), p.w1]
  let k := s.core c
  let stopped := fun (q : Copy) => { q with st := CopySt.frozen, stop := false, prog := u - p.start, fail := none }
  let t := s.setCore c { k with chan := { k.chan.updCopy p.id stopped with record := rec_, reports := k.chan.reports + 1 } }
  let t := match p.dst with
    | some b => t.updBank b fun v => { v with wmFroz := true, wmW := u }
    | none => t
  let t := (t.tellStop c p.id 3).wake c
  t.report c p.fid code 1 p.id.toNat va.toNat (rec_.map (·.toNat)) k.chan.reports (some (c, p.id))

/-! ## The held range of a bank (R300) -/

/-- An offset lies in the open envelope at or above W. -/
def Bank.inEnvelope (b : Bank) (o : Nat) : Bool := b.wmOpen && b.wmW ≤ o && o < b.wmEnd

/-- An offset lies in the held range, so far as copies accepted before number `order` make it (R301). -/
def Bank.landingHeldBy (b : Bank) (order o : Nat) : Bool :=
  (b.inEnvelope o && b.queue.head?.any (·.order < order)) ||
    b.waitingCopies.any fun q => q.order < order && q.start ≤ o && o < q.stop

/-- An offset lies in the held range. -/
def Bank.landingHeld (b : Bank) (o : Nat) : Bool :=
  b.inEnvelope o || b.waitingCopies.any fun q => q.start ≤ o && o < q.stop

/-- The offset of a byte lies behind a frozen watermark (R409). -/
def Bank.frozenHeld (b : Bank) (o : Nat) : Bool := b.wmFroz && b.wmOpen && b.landingHeld o

end Sys2Proof.Machine
end

