-- ==== Sys2Proof/Machine/Slice.lean ====
section
/-! DEFINITION. HBM addresses and the L2 slices: home die and home slice of a line (R235-R237), the 16 ways of a set and
what leaves one (R236), the miss table and the overflow queue of a rank (R241, R407). -/
namespace Sys2Proof.Machine

/-! ## Physical addresses (R235, R236) -/

def isHbm (pa : Nat) : Bool := pa < 2 ^ 40
def isHost (pa : Nat) : Bool := 2 ^ 51 ≤ pa && pa < 2 ^ 52
/-- The module channel of an HBM address. -/
def channelOf (pa : Nat) : Nat := pa / 2 ^ 31
/-- The device's top 1 MiB of a channel. -/
def isDeviceTop (pa : Nat) : Bool := isHbm pa && 2 ^ 31 - 2 ^ 20 ≤ pa % 2 ^ 31
/-- The home die of a line number. -/
def homeDie (line : Nat) : Nat := line / 2 ^ 31 % 8
/-- h of R236, the rank of a line in its die's slice map. -/
def homeRank (line : Nat) : Nat :=
  ((line % 128) ^^^ (line / 2 ^ 7 % 128)) ^^^ (line / 2 ^ 14 % 128)

/-- The rank-th enabled site of a die as manufacturing test left it (DESIGN CHOICE, log 5). -/
def factorySite (d r : Nat) : Nat := (((List.range 132).filter fun n => !Config.isSpare d n)[r]?).getD 0

/-- The site whose slice serves a rank (R237). -/
def State.sliceOf (s : State) (d r : Nat) : Nat := (s.die d).slicemap.getD r (factorySite d r)

/-- Two ranks of a die share a slice: only a rank that has moved can (R237). -/
def State.sameRank (s : State) (d a b : Nat) : Bool := a = b || !(s.die d).slicemap.isEmpty && s.sliceOf d a = s.sliceOf d b

/-- Two lines have one home slice. -/
def State.sameSlice (s : State) (a b : Nat) : Bool :=
  homeDie a = homeDie b && s.sameRank (homeDie a) (homeRank a) (homeRank b)

/-- The set of a line among the 1,024 of its slice: the spec gives no index, the bits above PA[12:6] are taken (DESIGN
CHOICE, log 9). -/
def l2Set (line : Nat) : Nat := line / 128 % 1024

/-- Two lines share a set of a slice. -/
def State.sameSet (s : State) (a b : Nat) : Bool := l2Set a = l2Set b && s.sameSlice a b

/-! ## Lines of the array (R236, R240) -/

def State.l2Find (s : State) (line : Nat) : Option L2Line := (s.die (homeDie line)).l2.find? (·.line = line)

/-- No earlier request for the line stands in the miss table or in the overflow queue (R241). -/
def State.lineFree (s : State) (line : Nat) : Bool :=
  !((s.die (homeDie line)).misses.any (·.line = line) || (s.die (homeDie line)).overflow.any (·.line = line))

/-- The line stands in the array, and no earlier request for it waits: a read is answered at once. -/
def State.l2Ready (s : State) (line : Nat) : Bool := (s.l2Find line).any (!·.queued) && s.lineFree line

/-- HBM with the dirty bytes of a line in it. -/
def L2Line.drain (l : L2Line) (m : List Host.Cell) : List Host.Cell :=
  (l.dirty.filter (·.1 < 64)).foldr (fun e m => cellPut m (64 * l.line + e.1) e.2) m

/-- A line leaves the array: its dirty bytes reach HBM (R236). -/
def State.evict (s : State) (line : Nat) : State :=
  match s.l2Find line with
  | none => s
  | some l =>
    { s.updDie (homeDie line) (fun d => { d with l2 := d.l2.filter (·.line ≠ line) }) with mem := l.drain s.mem }

/-- The bytes of a dirty line reach HBM, and the line stays clean (R236). -/
def State.writeBack (s : State) (line : Nat) : State :=
  match s.l2Find line with
  | none => s
  | some l =>
    { s.updDie (homeDie line) (fun d => { d with l2 := d.l2.map fun k => if k.line = line then { k with dirty := [] } else k }) with
      mem := l.drain s.mem }

/-- The lines that stand in the set of a line, and the ways that pending misses pin there. -/
def State.setLines (s : State) (line : Nat) : List L2Line :=
  (s.die (homeDie line)).l2.filter fun l => !l.queued && s.sameSet l.line line
def State.setPinned (s : State) (line : Nat) : Nat :=
  ((s.die (homeDie line)).misses.filter fun m => s.sameSet m.line line).length

/-- A way of the set is free, or holds a line that can leave it. -/
def State.wayFree (s : State) (line : Nat) : Bool := (s.setLines line).length + s.setPinned line < 16 || !(s.setLines line).isEmpty

/-- One of the 16 ways is made free: the line that came first leaves (DESIGN CHOICE, log 9). -/
def State.makeWay (s : State) (line : Nat) : State :=
  if (s.setLines line).length + s.setPinned line < 16 then s
  else
    match (s.setLines line).head? with
    | some v => s.evict v.line
    | none => s

/-- A new line stands in the array or, without a way, in the overflow queue. -/
def State.addL2 (s : State) (l : L2Line) : State := s.updDie (homeDie l.line) fun d => { d with l2 := d.l2 ++ [l] }

/-- The L2 line changed by a function, entered clean where it was absent. -/
def State.updL2 (s : State) (line comp : Nat) (f : L2Line → L2Line) : State :=
  match s.l2Find line with
  | some _ => s.updDie (homeDie line) fun d => { d with l2 := d.l2.map fun l => if l.line = line then f l else l }
  | none => (s.makeWay line).addL2 (f { line := line, dirty := [], uc := 0, dead := false, comp := comp })

/-! ## The miss table and the overflow queue (R241) -/

/-- Requests that an overflow area holds; those beyond them wait at the slice's router, in arrival order (R407). -/
def overflowDepth : Nat := 30720

/-- The two words of HBM in which the request at a place of a rank's overflow area stands. -/
def overflowWord (d rank place : Nat) : Nat :=
  ((64 * d + rank % 64) * 2 ^ 31 + (2 ^ 31 - 2 ^ 20) + (if rank < 64 then 0x10000 else 0x88000) + 16 * (place % overflowDepth)) / 8

/-- The requests of a rank in its overflow queue. -/
def Die.overflowOf (d : Die) (rank : Nat) : List Miss := d.overflow.filter (·.rank = rank)

/-- The place of a rank's queue that its request number k stands in is written: an error there is gone (R388). -/
def State.enterPlace (s : State) (d rank k : Nat) : State :=
  let w := overflowWord d rank ((s.die d).ovHead.getD rank 0 + k)
  { s with bad := s.bad.filter fun b => b ≠ w && b ≠ w + 1 }

/-- A request appended to the overflow queue of its rank. -/
def State.queueMiss (s : State) (m : Miss) : State :=
  let d := homeDie m.line
  let k := ((s.die d).overflowOf m.rank).length
  let t := if k < overflowDepth then s.enterPlace d m.rank k else s
  t.updDie d fun e => { e with overflow := e.overflow ++ [m] }

/-- The core that asks. -/
def Waiter.core : Waiter → Option CoreId
  | .pipe c _ => some c
  | .seq c _ => some c
  | .copy c _ => some c
  | .pfu c .. => some c
  | .agent => none

/-- A slice's entries without some requests. -/
def Miss.without (m : Miss) (gone : LineReq → Bool) : Miss := { m with reqs := m.reqs.filter fun r => !gone r }
def Die.withoutReqs (d : Die) (gone : LineReq → Bool) : Die :=
  { d with misses := d.misses.map (·.without gone), overflow := d.overflow.map (·.without gone) }

/-- Requests taken out of every slice. -/
def State.withoutReqs (s : State) (gone : LineReq → Bool) : State := { s with dies := s.dies.map fun e => (e.1, e.2.withoutReqs gone) }

/-- The request stands in an entry already: one who only looks again asks once. -/
def Miss.holds (e m : Miss) : Bool := e.line = m.line && m.reqs.all fun r => r.want = .look && e.reqs.contains r

/-- An entry of the miss table is free for a line's slice. -/
def State.entryFree (s : State) (line : Nat) : Bool :=
  ((s.die (homeDie line)).misses.filter fun e => s.sameSlice e.line line).length < 64

/-- A missing request joins the entry of its line, takes one of the 64 entries of its slice and a way, or is appended to
the overflow queue of its rank; it passes no earlier request for the line. -/
def State.askMiss (s : State) (m : Miss) : State :=
  let d := homeDie m.line
  let k := s.die d
  if k.misses.any (·.holds m) || k.overflow.any (·.holds m) then s
  else if k.overflow.any (·.line = m.line) then s.queueMiss m
  else if k.misses.any (·.line = m.line) then
    s.setDie d { k with misses := k.misses.map fun e => if e.line = m.line then { e with reqs := e.reqs ++ m.reqs } else e }
  else if s.entryFree m.line then (s.makeWay m.line).updDie d fun e => { e with misses := e.misses ++ [m] }
  else s.queueMiss m

/-- A write to a line that is absent finds every way pinned: it stands in the overflow queue, in order with the misses. -/
def State.queueWrite (s : State) (line comp : Nat) (f : L2Line → L2Line) : State :=
  (s.addL2 (f { line := line, dirty := [], uc := 0, dead := false, comp := comp, queued := true })).queueMiss
    { line := line, rank := homeRank line, comp := comp, write := true }

/-- A write to the line is taken: none waits before it, and it has a way or a place in the overflow queue; else its sender
waits (R241, R407). -/
def State.takesWrite (s : State) (line : Nat) : Bool :=
  s.lineFree line && ((s.l2Find line).isSome || s.wayFree line || ((s.die (homeDie line)).overflowOf (homeRank line)).length < overflowDepth)

/-- A write merges into the slice array, or is queued. -/
def State.putL2 (s : State) (line comp : Nat) (f : L2Line → L2Line) : State :=
  if (s.l2Find line).isSome || s.wayFree line then s.updL2 line comp f else s.queueWrite line comp f

/-- A walk request joins the pool of the die, once (R234). -/
def State.askWalk (s : State) (w : Walk) : State :=
  s.updDie w.core.die fun d => if d.walks.contains w then d else { d with walks := d.walks ++ [w] }

end Sys2Proof.Machine
end

