-- ==== Sys2Proof/Machine/Ops.lean ====
section
/-! DEFINITION. How an instruction of the issuing context ends: it completes, it waits, or it takes a trap; taking a
trap (R373), a fatal trap (R378) and returning from a trap (R392). -/
namespace Sys2Proof.Machine

/-! ## Ends of an instruction -/

/-- Why a meaning does not complete: `stall` leaves the state as it was, `held` stalls an access behind held bytes or a
protected row, `wait` keeps what it has recorded, `trap` is a fault of the integer pipeline with its code, INFO and
FAULTVA; `walk` asks a walker pool for a translation (R234) and `miss` an L2 slice for a line (R241), both with nothing
else changed. -/
inductive Stop where
  | stall
  | held (feet : List Foot)
  | wait
  | trap (code info : Nat) (va : W64)
  | walk (w : Walk)
  | miss (m : Miss)
  deriving DecidableEq, Repr

/-- The effect of an instruction: it reads and changes the state, or ends early. -/
abbrev Exec := EStateM Stop State

def stall {α : Type} : Exec α := throw .stall
def hold {α : Type} : Exec α := throw .wait
def trap {α : Type} (code : Nat) (info : Nat := 0) (va : W64 := 0) : Exec α := throw (.trap code info va)

/-- A check that must hold or the instruction traps. -/
def check (c : Bool) (code : Nat) (info : Nat := 0) (va : W64 := 0) : Exec Unit :=
  if c then pure () else trap code info va

/-- A condition the instruction waits for (DEDUCED, log 11). -/
def await (c : Bool) : Exec Unit := if c then pure () else stall

/-! ## The program counter (R60) -/

/-- The PC after an instruction that does not transfer control, in a line of `heads` heads (R60). -/
def nextPc (pc : W64) (heads : Nat) : W64 :=
  if field pc 5 0 + 1 < heads then pc + 1 else w64 ((pc.toNat / 64 + 1) * 64)

def Ctx.next (x : Ctx) : W64 := nextPc x.pc x.heads

/-- The context after an instruction that continues at a PC; the watchdog counts from now (R405). -/
def Ctx.goto (x : Ctx) (now : Nat) (pc : W64) : Ctx :=
  { x with pc := pc, num := x.num + 1, stalled := false, wait := .none, watch := now, walkFail := none, touch := [] }

/-- The state after an instruction of the issuing context that continues at a PC. -/
def State.jump (s : State) (pc : W64) : State := s.updMe (·.goto s.cycle pc)

/-- The instruction completes and the context goes on at a PC. -/
def jump (pc : W64) : Exec Unit := modify (·.jump pc)

/-- The instruction completes and the context goes on at the next one. -/
def complete : Exec Unit := modify fun s => s.jump s.me.next

/-! ## The end of a firing (R36) -/

/-- Inbox slots of a mask, 0 first. -/
def maskSlots (m : BitVec 32) : List Nat := (List.range 32).filter fun i => bitOf m i

/-- The slots of a mask become free; a copy report among them retires its copy (R45, R411). -/
def State.freeSlots (s : State) (c : CoreId) : List Nat → State
  | [] => s
  | i :: is =>
    let r := match (s.core c).inbox.find i with
      | some m => m.report
      | none => none
    let t := s.updCore c fun k => { k with inbox := k.inbox.del i }
    let t := match r with
      | some (owner, id) => t.retireCopy owner id
      | none => t
    State.freeSlots t c is

/-- The gang of a core disbands (R54): every member core forgets it. -/
def State.disband (s : State) (c : CoreId) : State :=
  match (s.core c).gang with
  | none => s
  | some g =>
    g.members.foldl (fun t m =>
      t.updCore m.1 fun k => { k.updCtx m.2 (·.setGanged false) with gang := none }) s

/-- The members an entry of the sequencer was forwarded with. -/
def SeqEntry.gangs (e : SeqEntry) : List (CoreId × Nat) := e.v.gang ++ e.body.flatMap (·.gang)

/-- An entry that executes on its member alone. -/
def SeqEntry.alone (e : SeqEntry) : SeqEntry :=
  { e with v := { e.v with gang := [] }, body := e.body.map fun v => { v with gang := [] } }

/-- A trap of a context takes it out of its gang, and of the gang instructions still in its sequencer: those that have
not executed execute on each of their members alone (R54, R377) (DEDUCED, log 33). -/
def State.leaveGangs (s : State) (c : CoreId) (x : Nat) : State :=
  let t := if (s.ctx c x).ganged then s.disband c else s
  ((s.ctx c x).seq.flatMap (·.gangs)).eraseDups.foldl (fun t m =>
    t.updCtx m.1 m.2 fun v => { v with seq := v.seq.map fun e => if e.gangs.contains (c, x) then e.alone else e }) t

/-- The joint row of a core's joined context dissolves (R215): the other members' joined contexts take a
joint-refused trap at their next matrix instruction. -/
def State.dissolve (s : State) (c : CoreId) (x : Nat) : State :=
  match (s.ctx c x).join with
  | .no => s
  | .joining => s
  | _ =>
    let t := s.updCtx c x fun v => { v with join := .no }
    c.siteId.cores.foldl (fun t d =>
      if d = c then t
      else t.updCore d fun k =>
        { k with ctxs := k.ctxs.map fun e =>
            if e.2.join = .joined || e.2.join = .leaving then (e.1, { e.2 with join := .no, refuse := true }) else e })
      t

/-- A firing ends (R36): its slots and its context become free; its queues and registers cease to exist. -/
def State.endFiring (s : State) (c : CoreId) (x : Nat) : State :=
  let slots := (s.ctx c x).slots
  let t := s.freeSlots c (maskSlots slots)
  t.updCore c fun k =>
    { k.setCtx x {} with
      slice := k.slice.filter fun e => e.ctx ≠ x || (e.begun && !e.held && e.instr ≠ .mjoin)
      vplace := k.vplace.filter (·.1 ≠ x)
      portSince := s.cycle }

/-! ## Taking a trap (R373) -/

/-- A context of the core other than x that runs a trap handler. -/
def Core.otherHandler (k : Core) (x : Nat) : Bool := k.ctxs.any fun e => e.1 ≠ x && e.2.running && e.2.th

/-- A trap of the core that waits for its entry. -/
def Core.trapWaits (k : Core) : Bool := k.ctxs.any fun e => e.2.trapPend.isSome

/-- The trap of a context is fatal: TVEC is 0 or the context already runs a handler (R373 step 5). -/
def Core.fatal (k : Core) (x : Nat) : Bool := k.tvec = 0 || (k.ctx x).th

/-- The context as trap entry leaves it (R373 steps 6 and 7, R375, R376): EPC, XPC, CAUSE and FAULTVA written, PSV,
SV and TH set, the PC at TVEC, an unfinished wait held aside. -/
def Ctx.enterTrap (x : Ctx) (t : TrapInfo) (tvec : W64) (now : Nat) : Ctx :=
  { x with status := x.statusInTrap, epc := t.epc, xpc := t.xpc, cause := causeWord t.code t.stream t.info
           faultva := t.va, pc := tvec, heads := 1, trapPend := none, stalled := false
           wait := .none, walkFail := none, seqFail := none, touch := [], num := x.num + 1, watch := now }

/-- The trap reports recorded refusals at a fence, not a refusal of a SEND (R403). -/
def TrapInfo.clearsRefusals (t : TrapInfo) : Bool := t.code = 0x0B && t.info != 5 && t.info != 7

/-- Trap entry of a context: its registers, the trap tile of the core set to +0, a reported record of refusals
cleared. -/
def Core.enterTrap (k : Core) (x : Nat) (t : TrapInfo) (now : Nat) : Core :=
  { k.setCtx x ((k.ctx x).enterTrap t k.tvec now) with
    tiles := k.tiles.put 4 [], bad := k.bad.filter (· ≠ .tile 4), refusals := if t.clearsRefusals then {} else k.refusals }

/-- A fatal trap ends the firing (R378): its uncompleted work is discarded, the firing ends, and the revocation of
the core's banks is pending. -/
def State.fatalEnd (s : State) (c : CoreId) (x : Nat) (cause epc va : W64) : State :=
  let v := s.ctx c x
  let t := s.endFiring c x
  let t := t.updCore c fun k =>
    { k with rev := k.rev ++ [{ cause := cause, epc := epc, va := va, handler := v.handler, version := v.version
                                report := v.handler ≠ 255 }] }
  match t.launchAt c.siteId with
  | some l => t.updLaunch l.id fun l => { l with cause := l.cause.orElse fun _ => some (field cause 7 0) }
  | none => t

/-- Which waits a trap keeps for the return: those whose instruction has already begun (R340, R375). -/
def Wait.kept : Wait → Bool
  | .sbar _ _ | .fabric _ | .host _ | .line _ | .stopping _ | .value _ | .failed .. => true
  | _ => false

/-- A fault of a context (R373): the gang disbands, the joint row dissolves, the slice's instructions of the context
that have not begun are held aside; then the context enters its handler at once, or waits for another handler of
the core or for its fatal end (TRAP_ENTRY). -/
def State.raise (s : State) (c : CoreId) (x : Nat) (t : TrapInfo) : State :=
  let s := (s.leaveGangs c x).dissolve c x
  let s := s.updCore c fun k =>
    { k.updCtx x (fun v =>
        { v with heldWait := if v.wait.kept && (t.stream ≠ 0 || t.code = 0x0E) then v.wait else .none, heldPc := v.pc
                 refuse := v.refuse && !(t.code = 0x0C && t.info = 4) }) with
      slice := k.slice.map fun e => if e.ctx = x && !e.begun then { e with held := true } else e }
  let k := s.core c
  if k.otherHandler x || k.trapWaits || k.fatal x then
    { s.updCtx c x (fun v => { v with trapPend := some { t with order := s.ids }, wait := .trap, stalled := true }) with
      ids := s.ids + 1 }
  else s.setCore c (k.enterTrap x t s.cycle)

/-- A fault of the integer pipeline in the issuing context: EPC and XPC hold its PC (R375). -/
def State.raiseInt (s : State) (code info : Nat) (va : W64) : State :=
  s.raise s.cur s.curCtx
    { code := code, info := info, stream := 0, epc := s.me.pc, xpc := s.me.pc, va := va, order := 0 }

/-- A fault of the sequencer or the matrix slice: XPC is where the integer pipeline stands (R375). -/
def State.raiseStream (s : State) (c : CoreId) (x stream code info : Nat) (pc va : W64) : State :=
  s.raise c x { code := code, info := info, stream := stream, epc := pc, xpc := (s.ctx c x).pc, va := va, order := 0 }

/-! ## Return from a trap (R392) -/

/-- The context as SRET leaves it: the saved level, the PC at XPC, its sequencer free to go on; an instruction that had
begun to wait at trap entry goes on where XPC still names it. -/
def Ctx.leaveTrap (x : Ctx) (now : Nat) : Ctx :=
  { x with status := x.statusAfterTrap, pc := x.xpc, num := x.num + 1, stalled := false, watch := now
           wait := if x.xpc = x.heldPc then x.heldWait else .none, heldWait := .none, touch := [] }

/-- Return from a trap of a context: its matrix instructions held aside rejoin the slice. -/
def Core.leaveTrap (k : Core) (x : Nat) (now : Nat) : Core :=
  { k.setCtx x ((k.ctx x).leaveTrap now) with slice := k.slice.map fun e => if e.ctx = x then { e with held := false } else e }

/-! ## Answers to waits -/

/-- What a context waited for has come: the wait takes its outcome, held aside by a trap or not. -/
def State.settle (s : State) (c : CoreId) (x fid : Nat) (w out : Wait) : State :=
  let v := s.ctx c x
  if v.fid ≠ fid then s
  else if v.wait = w then s.setCtx c x { v with wait := out }
  else if v.heldWait = w then s.setCtx c x { v with heldWait := out }
  else s

/-! ## From an effect to an outcome -/

/-- The issuing context could not issue: it keeps its PC (DEDUCED, log 11). -/
def State.stallMe (s : State) : State := s.updMe fun x => { x with stalled := true, touch := [] }

/-- The issuing context's access has issued and waits behind held bytes or a protected row (R188, R210, R300). -/
def State.holdMe (s : State) (f : List Foot) : State := s.updMe fun x => { x with stalled := true, touch := f, touchAt := if x.touch.isEmpty then s.ids else x.touchAt }

/-- The outcome of an instruction of the issuing context that ended early: `s` is the state before it, `t` what it had come
to. A trap leaves nothing of it (R106) (DEDUCED, log 11). -/
def stopOutcome (s : State) (e : Stop) (t : State) : Host.Outcome State Fault Refusal :=
  match e with
  | .stall => .next s.stallMe
  | .held f => .next (s.holdMe f)
  | .wait => .next t.stallMe
  | .walk w => .next (s.askWalk w).stallMe
  | .miss m => .next (s.askMiss m).stallMe
  | .trap code info va => .next (s.raiseInt code info va)

/-- What an instruction of the issuing context does: its effect, a stall, or the trap it takes (DEDUCED, log 11). -/
def issue (m : Exec Unit) (s : State) : Host.Outcome State Fault Refusal :=
  match m s with
  | .ok _ t => .next t
  | .error e t => stopOutcome s e t

/-- An operation or event: always a next state; one that is not enabled leaves the state alone (DESIGN CHOICE, log 4). -/
def event (c : Bool) (f : State → State) (s : State) : Host.Outcome State Fault Refusal :=
  .next (if c then f s else s)

end Sys2Proof.Machine
end

