-- ==== Sys2Proof/Machine/Memory.lean ====
section
/-! DEFINITION. Memory: physical addresses and home slices (R235-R237), the L2 as dirty bytes over HBM with use
counts (R236, R240, R241), L1 and update-only lines (R238, R239), translation in two stages (R231-R234), page checks
(R353, R354), and the bytes of banks (R181, R192, R197, R300, R301). -/
namespace Sys2Proof.Machine

/-- The owner entry of a page (R353). -/
def ownerAddr (pa : Nat) : Nat :=
  channelOf pa * 2 ^ 31 + (2 ^ 31 - 2 ^ 20) + 2 * (pa % 2 ^ 31 / 65536)

def State.ownerEntry (s : State) (pa : Nat) : Nat := leNat (cellRead s.mem (ownerAddr pa) 2)

/-! ## The execution point of HBM (R254): the L2 line over the HBM bytes -/

/-- The byte at the execution point (DESIGN CHOICE, log 2). -/
def State.memByte (s : State) (pa : Nat) : Byte :=
  match s.l2Find (pa / 64) with
  | some l => (Tab.find l.dirty (pa % 64)).getD (cellGet s.mem pa)
  | none => cellGet s.mem pa

def State.memRead (s : State) (pa : Nat) : Nat → List Byte
  | 0 => []
  | n + 1 => s.memByte pa :: s.memRead (pa + 1) n

/-- The words of bytes pa .. pa + n - 1 that the bytes cover whole. -/
def wholeWord (pa n w : Nat) : Bool := pa ≤ 8 * w && 8 * w + 8 ≤ pa + n

/-- One byte written at its execution point: into the L2 line, or into host memory. -/
def State.memPut (s : State) (comp pa : Nat) (v : Byte) : State :=
  if isHbm pa then s.putL2 (pa / 64) comp fun l => { l with dirty := Tab.put l.dirty (pa % 64) v }
  else { s with mem := cellPut s.mem pa v }

/-- Bytes written one after another from an address upward (DEDUCED, log 8). -/
def State.memPuts (s : State) (comp pa : Nat) : List Byte → State
  | [] => s
  | v :: vs => (s.memPut comp pa v).memPuts comp (pa + 1) vs

/-- A write of bytes at their execution point (R254); a word written whole loses its error (R388). -/
def State.memWrite (s : State) (comp pa : Nat) (data : List Byte) : State :=
  let t := s.memPuts comp pa data
  { t with bad := t.bad.filter fun w => !wholeWord pa data.length w }

/-- An error a read of memory meets: a location on a fenced die (R414), an uncorrectable word (R388). -/
def State.memError (s : State) (pa n : Nat) : Option (Nat × Nat) :=
  if isHbm pa && (s.die (homeDie (pa / 64))).fenced then some (0x0D, 2)
  else if s.bad.any fun w => w < (pa + n + 7) / 8 && pa / 8 ≤ w then some (0x0D, 1)
  else none

/-! ## Use counts (R240) -/

/-- One read of the L2 line: its count falls, and a dead line whose count reaches zero is freed, its dirty bytes
lost. -/
def State.l2Read (s : State) (line : Nat) : State :=
  s.updDie (homeDie line) fun d =>
    { d with l2 := d.l2.filterMap fun l =>
        if l.line ≠ line then some l
        else if l.uc = 0 then some l
        else if l.uc = 1 && l.dead then none
        else some { l with uc := l.uc - 1 } }

/-! ## Update-only lines (R239, R272) are merged at the home slice; the operation itself is RED's -/

/-- Lines of a core's update-only set. -/
def Core.updatesOn (k : Core) (line : Nat) : List Update := k.updates.filter fun u => u.addr / 64 = line

/-! ## L1 (R238) -/

def Core.l1Find (k : Core) (line : Nat) : Option L1Line := k.l1.find? (·.line = line)
def Core.l1Drop (k : Core) (line : Nat) : Core := { k with l1 := k.l1.filter (·.line ≠ line) }

/-- Bytes of a 64-byte line as a word, byte 0 lowest. -/
def packBytes (l : List Byte) : BitVec 512 := BitVec.ofNat 512 (leNat l)
/-- n bytes of a packed line from an offset. -/
def unpack (w : BitVec 512) (o n : Nat) : List Byte := leBytes n (w.toNat / 2 ^ (8 * o))

/-- Two lines share one of the 64 sets of an L1 of 768 lines in 12 ways (R238) (DESIGN CHOICE, log 9). -/
def l1Same (a b : Nat) : Bool := a % 64 = b % 64

/-- The update-only lines in the set of a line, oldest first. -/
def Core.redLines (k : Core) (line : Nat) : List Nat := ((k.updates.map (·.addr / 64)).filter (l1Same line)).eraseDups

/-- The newest n clean lines of a line's set stay, and the other sets as they are. -/
def Core.l1Cut (k : Core) (line n : Nat) : Core :=
  { k with l1 := (k.l1.filter fun l => l1Same line l.line).take n ++ k.l1.filter fun l => !l1Same line l.line }

/-- A line filled into L1: the oldest clean line of a full set leaves, and a set of 12 update-only lines takes none
(DESIGN CHOICE, log 9). -/
def Core.l1Fill (k : Core) (l : L1Line) : Core :=
  let r := (k.redLines l.line).length
  if 12 ≤ r then k.l1Drop l.line
  else
    let u := (k.l1Drop l.line).l1Cut l.line (11 - r)
    { u with l1 := l :: u.l1 }

/-- A read that hits: the count falls, a dead line at zero is freed. -/
def Core.l1Hit (k : Core) (line : Nat) : Core :=
  { k with l1 := k.l1.filterMap fun l =>
      if l.line ≠ line then some l
      else if l.uc = 0 then some l
      else if l.uc = 1 && l.dead then none
      else some { l with uc := l.uc - 1 } }

/-- Bytes of a line replaced from an offset. -/
def patchLine (w : BitVec 512) (o : Nat) (data : List Byte) : BitVec 512 :=
  let l := unpack w 0 64
  packBytes (l.take o ++ data ++ l.drop (o + data.length))

/-- A store's bytes written into the line, if it is present (R238); a word written whole is good again (R388). -/
def Core.l1Store (k : Core) (pa : Nat) (data : List Byte) : Core :=
  { k with l1 := k.l1.map fun l =>
      if l.line = pa / 64 then
        { l with data := patchLine l.data (pa % 64) data, bad := l.bad.filter fun w => !wholeWord (pa % 64) data.length w }
      else l }

/-- Bytes of the line at an offset have an uncorrectable error (R388). -/
def L1Line.error (l : L1Line) (o n : Nat) : Bool := l.bad.any fun w => w < (o + n + 7) / 8 && o / 8 ≤ w

/-! ## Translation (R231-R234) -/

/-- A leaf of one stage: base, page size, and what it allows. -/
structure Leaf where
  addr : Nat
  size : Nat
  rd   : Bool
  w    : Bool
  xe   : Bool
  sv   : Bool
  tag  : BitVec 8
  deriving DecidableEq, Repr

/-- A translation fault: cause and INFO. -/
abbrev TransErr := Nat × Nat

/-- Index of a level's table (R231). -/
def levelIndex (lvl va : Nat) : Nat := if lvl = 0 then va / 2 ^ 16 % 32 else va / 2 ^ (12 + 9 * lvl) % 512
/-- Size of a page that a leaf of the level maps. -/
def levelSize (lvl : Nat) : Nat := if lvl = 0 then 2 ^ 16 else 2 ^ (12 + 9 * lvl)
/-- Alignment of the table that a table entry of the level names. -/
def nextAlign (lvl : Nat) : Nat := if lvl = 1 then 256 else 4096

/-- The tag of a leaf keeps its own limits (R353). -/
def tagOk (tag : Nat) : Bool := tag / 64 % 2 = 0 && (tag / 128 = 1 || tag = 0)

/-- A malformed entry (R233): reserved bits, a leaf or table at a level that may hold none, misalignment. -/
def malformed (stage1 : Bool) (lvl e : Nat) : Bool :=
  let leaf := bits e 1 1 = 1
  let addr := bits e 8 44 * 256
  bits e 52 4 ≠ 0 || bits e 7 1 ≠ 0 || bits e 2 1 ≠ 0 ||
    (if leaf then
      lvl ≥ 3 || addr % levelSize lvl ≠ 0 ||
        (if stage1 then !tagOk (bits e 56 8) else bits e 56 8 ≠ 0 || bits e 3 1 ≠ 0)
    else lvl = 0 || bits e 3 4 ≠ 0 || bits e 56 8 ≠ 0 || addr % nextAlign lvl ≠ 0)

/-- The entry a walk reads at a level: a leaf, or the base of the next table. -/
def readEntry (stage1 : Bool) (lvl e : Nat) : Except TransErr (Leaf ⊕ Nat) :=
  if bits e 0 1 = 0 then .error (0x05, if stage1 then 2 else 3)
  else if malformed stage1 lvl e then .error (0x05, 4)
  else if bits e 1 1 = 1 then
    .ok (.inl { addr := bits e 8 44 * 256, size := levelSize lvl, rd := bits e 4 1 = 1, w := bits e 5 1 = 1
                xe := bits e 6 1 = 1, sv := bits e 3 1 = 1, tag := BitVec.ofNat 8 (bits e 56 8) })
  else .ok (.inr (bits e 8 44 * 256))

/-- The cached translation that covers an address under a stage-1 root (R393). -/
def tlbFind (l : List TlbEntry) (p root va : Nat) : Option TlbEntry :=
  l.find? fun e => e.part = p && e.root = root && e.va ≤ va && va < e.va + e.size

/-- A translation installed as the newest of `cap` (DESIGN CHOICE, log 9). -/
def tlbAdd (l : List TlbEntry) (cap : Nat) (e : TlbEntry) : List TlbEntry :=
  e :: (l.filter fun f => !(f.part = e.part && f.root = e.root && f.va = e.va && f.size = e.size)).take (cap - 1)

/-- The translation a core's TLBs hold: its own, its cluster's, its die's (R234). -/
def State.tlbLookup (s : State) (c : CoreId) (p root va : Nat) : Option TlbEntry :=
  (tlbFind (s.core c).tlb p root va).orElse fun _ =>
    (tlbFind (s.cluster c.siteId).tlb p root va).orElse fun _ => tlbFind (s.die c.die).tlb p root va

/-- A translation installed in all three TLBs of a core (R234) (DESIGN CHOICE, log 9). -/
def State.tlbInstall (s : State) (c : CoreId) (e : TlbEntry) : State :=
  let s := s.updCore c fun k => { k with tlb := tlbAdd k.tlb 32 e }
  let s := s.updCluster c.siteId fun k => { k with tlb := tlbAdd k.tlb 512 e }
  s.updDie c.die fun k => { k with tlb := tlbAdd k.tlb 8192 e }

/-- What an access does to a global page. -/
inductive AccKind where
  | load | store | atomic | red | fetch
  deriving DecidableEq, Repr

def AccKind.reads : AccKind → Bool
  | .load | .atomic => true
  | _ => false
def AccKind.writes : AccKind → Bool
  | .store | .atomic | .red => true
  | _ => false

/-- The world of a partition, 0 for none (R351). -/
def State.worldOf (s : State) (p : Nat) : Nat := ((s.lantern.worlds.find? (·.part = p)).map (·.num)).getD 0

/-- The effective compartment of a page, if leaf and owner entry agree (R353): 0 stands for none. -/
def State.effective (s : State) (e : TlbEntry) (va : Nat) : Option Nat :=
  let t := e.tag.toNat / 128 = 1
  let pa := e.pa + (va - e.va)
  if e.peer || isHost pa then (if t then none else some 0)
  else
    let o := s.ownerEntry pa
    if t then
      (if o / 256 ≠ 0 && o / 256 = s.worldOf e.part && o % 64 = e.tag.toNat % 64 then some (e.tag.toNat % 64) else none)
    else if o / 256 = 0 then some 0 else none

/-- The table of R354: a firing of compartment f on a page of effective compartment e (0 for none). -/
def compartmentAllows (f e : Nat) (k : AccKind) : Bool :=
  match k with
  | .fetch => e = 0 || (f ≠ 0 && e = f)
  | _ => if f = 0 then e = 0 else if f = 63 then e ≠ 0 else e = f

/-- The checks of a translated access in order: permissions (R233), the device's area (R235), owner and compartment
(R353, R354), the kinds a peer window takes (R335). -/
def State.pageError (s : State) (e : TlbEntry) (va : Nat) (k : AccKind) (sv : Bool) (comp : Nat) : Option TransErr :=
  if (k.reads && !e.rd) || (k.writes && !e.w) || (k = .fetch && !e.xe) || (e.sv && !sv) then some (0x06, 1)
  else if !e.peer && isDeviceTop (e.pa + (va - e.va)) then some (0x06, 3)
  else
    match s.effective e va with
    | none => some (0x06, 2)
    | some c =>
      if !compartmentAllows comp c k then some (0x06, 2)
      else if e.peer && k ≠ .store then some (0x06, 6)
      else none

/-- The page number of a stage-1 root in a PTBASE word (R232). -/
def rootPage (ptbase : W64) : Nat := field ptbase 51 12

/-- What a core's translations start from: its partition and its stage-1 root (R231, R232). -/
def State.rootFor (s : State) (c : CoreId) (va : Nat) : Except TransErr (Nat × W64) :=
  if va / 2 ^ 57 ≠ 0 then .error (0x05, 1)
  else
    match s.partOfSite c.siteId with
    | none => .error (0x05, 5)
    | some p => if bitOf (s.core c).ptbase 0 then .ok (p, (s.core c).ptbase) else .error (0x05, 5)

/-- A translation by one who waits at a miss until TABLE_WALK has answered, `fail` being a walk's failure (R234). -/
def translateAs (c : CoreId) (who : Waiter) (fid : Nat) (fail : Option TransErr) (va : Nat) : Exec TlbEntry := do
  let s ← get
  match s.rootFor c va with
  | .error (code, info) => trap code info (w64 va)
  | .ok (p, root) =>
    match s.tlbLookup c p (rootPage root) va, fail with
    | some e, _ => return e
    | none, some (code, info) => trap code info (w64 va)
    | none, none => throw (.walk { core := c, who := who, fid := fid, part := p, root := root, va := va / 65536 * 65536 })

/-- The translation of an address for the integer pipeline of the issuing context. -/
def translate (va : Nat) : Exec TlbEntry := do
  let s ← get
  translateAs s.cur (.pipe s.cur s.curCtx) s.me.fid s.me.walkFail va

/-- The translation of an address for the sequencer of the executing context. -/
def translateSeq (va : Nat) : Exec TlbEntry := do
  let s ← get
  translateAs s.cur (.seq s.cur s.curCtx) s.me.fid s.me.seqFail va

/-- Translation and page checks of an access: the physical address, or the peer window's intermediate address. -/
def translateFor (va : Nat) (k : AccKind) : Exec (TlbEntry × Nat) := do
  let e ← translate va
  let s ← get
  match s.pageError e va k s.me.sv s.me.compart with
  | some (code, info) => trap code info (w64 va)
  | none => return (e, e.pa + (va - e.va))

/-! ## Banks -/

/-- Where the core that holds a bank reads and writes: the shadow while a speculative region is open (R192). -/
def State.coreView (s : State) (b : BankId) : BankId := (s.bank b).shadow.getD b

def State.bankRead (s : State) (b : BankId) (o n : Nat) : List Byte := cellRead (s.bank b).bytes o n

/-- Bytes written into a bank; a word written whole loses its error (R388). -/
def State.bankWrite (s : State) (b : BankId) (o : Nat) (data : List Byte) : State :=
  s.updBank b fun k =>
    { k with bytes := cellWrite k.bytes o data, bad := k.bad.filter fun w => !wholeWord o data.length w }

/-- Every row's valid bit is reset (R197, R427). -/
def State.bankClear (s : State) (b : BankId) : State := s.updBank b fun k => { k with bytes := [], bad := [] }

/-- A read of the bank's bytes meets an uncorrectable word (R426). -/
def Bank.error (b : Bank) (o n : Nat) : Bool := b.bad.any fun w => w < (o + n + 7) / 8 && o / 8 ≤ w

/-- Offset a fabric write addresses. -/
def FWrite.off (w : FWrite) : Nat := field w.addr 15 0
/-- Bytes of a fabric access. -/
def FKind.size : FKind → Nat
  | .load n _ => n
  | .acq n _ => n
  | .cas f _ _ => if f.w64 then 8 else 4
  | .rmw _ f _ => if f.w64 then 8 else 4

/-- A fabric access has a write half (R440). -/
def FKind.writes : FKind → Bool
  | .load _ _ => false
  | .acq _ _ => false
  | _ => true

def WKind.size : WKind → Nat
  | .bytes d => d.length
  | .nibble _ _ => 1
  | .red _ w _ => if w then 8 else 4
  | .access r => r.kind.size
/-- The write covers a byte of o .. o + n - 1. -/
def FWrite.covers (w : FWrite) (o n : Nat) : Bool := o < w.off + w.kind.size && w.off < o + n

/-- A matrix instruction that was issued before number `order` and has not consumed its operands protects a row of
the bank that bytes o .. o + n - 1 touch (R210). -/
def State.protectedBefore (s : State) (b : BankId) (o n order : Nat) : Bool :=
  s.cores.any fun e => e.2.slice.any fun m =>
    !m.cons && m.order < order &&
      m.prot.any fun r => r.1 = b && r.2 < (o + n + 63) / 64 && o / 64 ≤ r.2

/-- Held writes at the port whose bytes count as held for an access of core c through its berth (R300): of those that a
speculative region holds from the core's view (R192) the core's own alone (R245) (DEDUCED, log 35). -/
def Bank.portHeld (b : Bank) (c : CoreId) (o n : Nat) : Bool := b.held.any fun w => w.covers o n && (b.shadow.isNone || w.src = c)

/-- Some byte of o .. o + n - 1 satisfies a test. -/
def anyByte (o n : Nat) (f : Nat → Bool) : Bool := (List.range n).any fun i => f (o + i)

/-- The tag check of a bank (R355). -/
def tagAllows (f t : Nat) : Bool := t = f || (f = 63 && t ≠ 0)

/-- How a bank's own copies and held writes stand in the way of an access. -/
inductive BankWait where
  | clear | held | frozen
  deriving DecidableEq, Repr

/-- The check of R300 for a read, of R300 and R409. -/
def State.readWait (s : State) (b : BankId) (o n : Nat) : BankWait :=
  let k := s.bank b
  if anyByte o n k.frozenHeld then .frozen
  else if anyByte o n k.landingHeld || k.portHeld s.cur o n then .held
  else .clear

/-- The check of R301 and R210 for a write by the core that holds the bank, issued or forwarded as number `order`. -/
def State.writeWaitAt (s : State) (b : BankId) (o n order : Nat) : BankWait :=
  match s.readWait b o n with
  | .clear => if s.protectedBefore b o n order then .held else .clear
  | w => w

/-- The number of the issue of the issuing context's instruction: now, or when its access first waited (R210). -/
def State.issueOrderNo (s : State) : Nat := if s.me.touch.isEmpty then s.ids else s.me.touchAt

/-- The check for a write of the issuing context. -/
def State.writeWait (s : State) (b : BankId) (o n : Nat) : BankWait := s.writeWaitAt b o n s.issueOrderNo

/-- A stall of an access to some bytes, or a frozen-landing trap, cause 0x08 (R409). -/
def passWait (w : BankWait) (f : List Foot) (va : W64) : Exec Unit :=
  match w with
  | .clear => pure ()
  | .held => throw (.held f)
  | .frozen => trap 0x08 0 va

end Sys2Proof.Machine
end

