-- ==== Sys2Proof/Machine/Element.lean ====
section
/-! DEFINITION. Elements of the alias windows (R169): their width in nibbles, widening and narrowing (R154), and the
nibble positions of vector and matrix elements (R153, R206). -/
namespace Sys2Proof.Machine

/-- Nibbles of an element (R153); RAW is 4 bytes, or 8 with F64 (R206). -/
def nibbles (w : Window) (f64 : Bool) : Nat :=
  match w with
  | .raw => if f64 then 16 else 8
  | .bf16 | .f16 => 4
  | .e2m1 | .i4 => 1
  | .e4m3 | .e5m2 | .i8 | .n8 | .dt0 | .dt1 => 2

/-- The VCVT type of a window's element (R169). -/
def windowTy (w : Window) : CvtTy :=
  match w with
  | .raw => .f32
  | .e4m3 => .e4m3
  | .e5m2 => .e5m2
  | .e2m1 => .e2m1
  | .i8 => .i8
  | .n8 => .n8
  | .i4 => .i4
  | .bf16 => .bf16
  | .f16 => .f16
  | .dt0 => .dt0
  | .dt1 => .dt1

/-- An element as a lane (R154). -/
def widen (tb : Tables) (w : Window) (n : Nat) : W32 :=
  match w with
  | .raw => BitVec.ofNat 32 n
  | .i8 | .i4 => BitVec.ofNat 32 (convertLane tb .i32 (windowTy w) .rne false 0 n)
  | .n8 => BitVec.ofNat 32 (convertLane tb .n32 .n8 .rne false 0 n)
  | _ => BitVec.ofNat 32 (convertLane tb .f32 (windowTy w) .rne false 0 n)

/-- A lane as an element (R154): mode and saturation as RNDCTL has them; `r` is the draw of a stochastic rounding. -/
def narrow (tb : Tables) (w : Window) (mode : RMode) (sat : Bool) (r : Nat) (v : W32) : Nat :=
  match w with
  | .raw => v.toNat
  | .i8 | .i4 | .n8 => convertLane tb (windowTy w) .i32 mode sat r v.toNat
  | _ => convertLane tb (windowTy w) .f32 mode sat r v.toNat

/-- The narrowing of the window takes a draw under stochastic rounding (R147, R149). -/
def drawsFor (w : Window) (mode : RMode) : Bool := mode = .sr && srTarget (windowTy w)

/-- The element at nibble position p, from the bytes of a bank or of memory. -/
def elementAt (read : Nat → Nat → List Byte) (nb p : Nat) : Nat :=
  if nb = 1 then
    let b := leNat (read (p / 2) 1)
    if p % 2 = 0 then b % 16 else b / 16
  else leNat (read (p / 2) (nb / 2))

/-- The bytes that rewrite one nibble of a byte. -/
def nibbleInto (old : Byte) (hi : Bool) (v : Nat) : Byte :=
  if hi then BitVec.ofNat 8 (old.toNat % 16 + v % 16 * 16) else BitVec.ofNat 8 (old.toNat / 16 * 16 + v % 16)

/-- A bank element written at nibble position p. -/
def State.putElement (s : State) (b : BankId) (nb p v : Nat) : State :=
  if nb = 1 then
    s.bankWrite b (p / 2) [nibbleInto (cellGet (s.bank b).bytes (p / 2)) (p % 2 = 1) v]
  else s.bankWrite b (p / 2) (leBytes (nb / 2) v)

/-- Bytes of an element. -/
def elemBytes (nb : Nat) : Nat := if nb = 1 then 1 else nb / 2

/-- The nibble position of lane i of a local vector access, its base offset and displacement given (R153). -/
def lanePos (off : Nat) (i : VMemImm) (nb lane : Nat) : Nat :=
  let q : Int := 2 * ((off + i.disp.toInt) % 65536)
  let st : Int := match i.stride with
    | some v => v.toInt
    | none => 1
  ((q + lane * st * nb) % 131072).toNat

/-- The first nibble position of a local vector access. -/
def basePos (off : Nat) (i : VMemImm) : Nat := (2 * ((off + i.disp.toInt) % 65536)).toNat

/-- The decode tables of a core. -/
def Core.tables (k : Core) : Tables := { t0 := k.dt0, t1 := k.dt1 }

/-- One draw of a core's LFSR (R174). -/
def State.drawSr (s : State) (c : CoreId) : Nat × State :=
  let v := lfsr (s.core c).seed
  (v.toNat, s.updCore c fun k => { k with seed := v })

end Sys2Proof.Machine
end

