-- ==== Sys2Proof/Machine/Operands.lean ====
section
/-! DEFINITION. Scalar operands (R66, R67, R105): reading, popping, writing and pushing, and the direction check of
the queue registers (R73-R75). -/
namespace Sys2Proof.Machine

/-! ## The registers -/

/-- x0 reads zero (R66). -/
def Ctx.xreg (v : Ctx) (n : Nat) : W64 := if n = 0 then 0 else v.x.getD n 0
/-- A write to x0 is discarded (R66); another register's row holds good contents again (R388). -/
def Ctx.setX (v : Ctx) (n : Nat) (w : W64) : Ctx :=
  if n = 0 then v else { v with x := v.x.put n w, bad := v.bad.filter (· ≠ .x n) }
def Core.kreg (k : Core) (n : Nat) : W64 := k.k.getD n 0
def Core.setK (k : Core) (n : Nat) (w : W64) : Core := { k with k := k.k.put n w, bad := k.bad.filter (· ≠ .k n) }

/-- The entries of a queue register, oldest first. -/
def Ctx.queue (v : Ctx) (n : Nat) : List W64 := v.q.getD n []
def Ctx.setQueue (v : Ctx) (n : Nat) (l : List W64) : Ctx := { v with q := v.q.put n l }

/-- Depths (R73). -/
def queueDepth (n : Nat) : Nat := if n < 4 then 8 else if n < 6 then 4 else 2

/-- A push finds the queue full (R74). -/
def Ctx.queueFull (v : Ctx) (n : Nat) : Bool := queueDepth n ≤ (v.queue n).length

/-! ## Reading and writing -/

/-- A source of the integer pipeline pops q0-q3, against the direction (R75). -/
def SReg.badSource : SReg → Bool
  | .q n => n.val < 4
  | _ => false

/-- A destination of the integer pipeline pushes q4-q7, against the direction (R75). -/
def SReg.badDest : SReg → Bool
  | .q n => 4 ≤ n.val
  | _ => false

/-- The direction check of an instruction's scalar fields (R75): INFO 1 for a pop, 2 for a push (R396) (DEDUCED, log 21). -/
def directions (srcs : List SReg) (dests : List SReg) : Exec Unit := do
  check (!srcs.any SReg.badSource) 0x0A 1
  check (!dests.any SReg.badDest) 0x0A 2

/-- A scalar register's row holds an uncorrectable error (R388); x0 has no row, and of a queue the oldest word counts. -/
def State.badReg (s : State) : SReg → Bool
  | .x n => n.val ≠ 0 && s.me.bad.contains (.x n.val)
  | .k n => s.myCore.bad.contains (.k n.val)
  | .q n => s.me.queue n.val ≠ [] && 0 < s.me.qbad.getD n.val 0

/-- The value of a source field; a queue register pops its oldest entry, and an empty one stalls (R74, R105). An uncorrectable
row traps its reader, INFO 1, with no address (R388, R436) (DEDUCED, log 36). -/
def readS (r : SReg) : Exec W64 := fun s =>
  if s.badReg r then .error (.trap 0x0D 1 0) s
  else
    match r with
    | .x n => .ok (s.me.xreg n.val) s
    | .k n => .ok (s.myCore.kreg n.val) s
    | .q n =>
      match s.me.queue n.val with
      | [] => .error .stall s
      | v :: rest => .ok v (s.updMe (·.setQueue n.val rest))

/-- The value a source field of another context would give, nothing popped. -/
def asPeek (c : CoreId) (x : Nat) (r : SReg) : Exec W64 := do
  let s ← get
  set { s with cur := c, curCtx := x }
  let v ← readS r
  set s
  return v

/-- The state after a destination field of the issuing context takes a value. -/
def State.writeD (s : State) (r : SReg) (w : W64) : State :=
  match r with
  | .x n => s.updMe (·.setX n.val w)
  | .k n => s.updCore s.cur (·.setK n.val w)
  | .q n => s.updMe fun v => v.setQueue n.val (v.queue n.val ++ [w])

/-- A destination field takes a value; a full queue stalls (R74, R105). -/
def writeS (r : SReg) (w : W64) : Exec Unit := fun s =>
  match r with
  | .q n => if s.me.queueFull n.val then .error .stall s else .ok () (s.writeD r w)
  | _ => .ok () (s.writeD r w)

/-- The result is written and the instruction completes. -/
def finish (d : SReg) (w : W64) : Exec Unit := do
  writeS d w
  complete

/-- d := f a, for one source. -/
def op1 (d a : SReg) (f : W64 → W64) : Exec Unit := do
  directions [a] [d]
  let va ← readS a
  finish d (f va)

/-- d := f a b, the sources read in the order a, b (R67). -/
def op2 (d a b : SReg) (f : W64 → W64 → W64) : Exec Unit := do
  directions [a, b] [d]
  let va ← readS a
  let vb ← readS b
  finish d (f va vb)

/-- Supervisor level is needed, or the instruction takes a privilege trap (R372) (DEDUCED, log 21). -/
def needSv : Exec Unit := fun s => if s.me.sv then .ok () s else .error (.trap 0x03 0 0) s

end Sys2Proof.Machine
end

