-- ==== Sys2Proof/Machine/Special.lean ====
section
/-! DEFINITION. The special functions of major 0x17 (R150, R151): each result is the function's value at the exact
binary32 input, computed to hundreds of bits with a low bit for the rest, and rounded once. -/
namespace Sys2Proof.Machine

/-! ## Fixed-point values: integers in units of 2^-512 or 2^-640 -/

def fixP : Nat := 512
def fixQ : Nat := 640
/-- ln 2 in units of 2^-512. -/
def ln2Fix : Int := 0xb17217f7d1cf79abc9e3b39803f2f6af40f343267298b62d8a0d175b8baafa2be7b876206debac98559552fb4afa1b10ed2eae35c138214427573b291169b825
/-- pi / 2 in units of 2^-640. -/
def halfPiFix : Int := 0x1921fb54442d18469898cc51701b839a252049c1114cf98e804177d4c76273644a29410f31c6809bbdf2a33679a748636605614dbe4be286e9fc26adadaa3848bc90b6aecc4bcfd8de89885d34c6fdad6
/-- 2 / sqrt pi in units of 2^-512. -/
def erfScaleFix : Int := 0x120dd750429b6d11ae3a914fed7fd8688281341d7587cea2e7342b06199cc416180eb39f0b24e1e2281806c12d98f35d77a3e9ddc91c394f0e9eedf0efffd84a2

/-- A binary32 input in units of 2^-p; exact for p at least 149. -/
def toFix (p : Nat) (neg : Bool) (m : Nat) (e : Int) : Int := toUnits neg m e (-(p : Int))

/-- An irrational result known to one unit of 2^-p: the unit's inside stands as a low bit (R150: one rounding). -/
def ofFix (p : Nat) (v : Int) : FVal := .fin (v < 0) (2 * v.natAbs + 1) (-(p : Int) - 1)

/-! ## Series -/

/-- Sum of t^k / k! for k from `k` on, `n` terms, `term` being term k. -/
def expSeries (p : Nat) (t : Int) : Nat → Nat → Int → Int
  | 0, _, _ => 0
  | n + 1, k, term => term + expSeries p t n (k + 1) (term * t / 2 ^ p / (k + 1 : Nat))

/-- exp t for t in 0 to 1, in units of 2^-512. -/
def expFix (t : Int) : Int := expSeries fixP t 110 0 (2 ^ fixP)

/-- Sum of s^(2k+1) / (2k+1), `n` terms; `pw` is s^(2k+1). -/
def atanhSeries (p : Nat) (s2 : Int) : Nat → Nat → Int → Int
  | 0, _, _ => 0
  | n + 1, k, pw => pw / (2 * k + 1 : Nat) + atanhSeries p s2 n (k + 1) (pw * s2 / 2 ^ p)

/-- Alternating sum r - r^3/3! + ... (first index 1) or 1 - r^2/2! + ... (first index 0). -/
def trigSeries (p : Nat) (r2 : Int) : Nat → Nat → Int → Int
  | 0, _, _ => 0
  | n + 1, k, term => term + trigSeries p r2 n (k + 2) (-(term * r2 / 2 ^ p) / ((k + 1) * (k + 2) : Nat))

/-- Sum of (-1)^k x^(2k+1) / (k! (2k+1)); `pw` is (-1)^k x^(2k+1) / k!. -/
def erfSeries (p : Nat) (x2 : Int) : Nat → Nat → Int → Int
  | 0, _, _ => 0
  | n + 1, k, pw => pw / (2 * k + 1 : Nat) + erfSeries p x2 n (k + 1) (-(pw * x2 / 2 ^ p) / (k + 1 : Nat))

/-! ## The functions at finite inputs -/

/-- 1 / x, x not zero. -/
def rcpFin (neg : Bool) (m : Nat) (e : Int) : FVal := FVal.div (.fin false 1 0) (.fin neg m e)

/-- 1 / sqrt x for x = m 2^e > 0: an integer square root with a low bit for the rest. -/
def rsqFin (m : Nat) (e : Int) : FVal :=
  let odd := e % 2 = 1
  let m := if odd then 2 * m else m
  let e := if odd then e - 1 else e
  let n := 2 ^ 256 / m
  let r := Nat.sqrt n
  .fin false (2 * r + (if r * r = n && 2 ^ 256 % m = 0 then 0 else 1)) (-(e / 2) - 129)

/-- 2^x. -/
def exp2Fin (neg : Bool) (m : Nat) (e : Int) : FVal :=
  let x := toFix fixP neg m e
  let n := x / 2 ^ fixP
  let fr := x % 2 ^ fixP
  if 200 ≤ n then .fin false 1 200
  else if n < -200 then .fin false 1 (-200)
  else if fr = 0 then .fin false 1 n
  else .fin false (2 * (expFix (fr * ln2Fix / 2 ^ fixP)).toNat + 1) (-(fixP : Int) - 1 + n)

/-- log2 x for x = m 2^e > 0. -/
def log2Fin (m : Nat) (e : Int) : FVal :=
  let l := (m.log2 : Int) + e
  if m = 2 ^ m.log2 then ofInt l
  else
    let z : Int := (m * 2 ^ fixP / 2 ^ m.log2 : Nat)
    let one : Int := 2 ^ fixP
    let s := (z - one) * 2 ^ fixP / (z + one)
    let ln := 2 * atanhSeries fixP (s * s / 2 ^ fixP) 170 0 s
    ofFix fixP (l * 2 ^ fixP + ln * 2 ^ fixP / ln2Fix)

/-- sin x or cos x: the quadrant and the rest of x over pi / 2, each by its series. -/
def trigFin (cos : Bool) (neg : Bool) (m : Nat) (e : Int) : FVal :=
  let x := toFix fixQ false m e
  let k := x / halfPiFix
  let r := x % halfPiFix
  let r2 := r * r / 2 ^ fixQ
  let q := (k + (if cos then 1 else 0)) % 4
  let v := if q % 2 = 0 then trigSeries fixQ r2 80 1 r else trigSeries fixQ r2 80 0 (2 ^ fixQ)
  let v := if q < 2 then v else -v
  ofFix fixQ (if neg && !cos then -v else v)

/-- exp t for t in 0 to 30: powers of 2 taken out. -/
def expBig (t : Int) : Int := expFix (t % ln2Fix) * 2 ^ (t / ln2Fix).toNat

/-- tanh x. -/
def tanhFin (neg : Bool) (m : Nat) (e : Int) : FVal :=
  let x := toFix fixP false m e
  if 12 * 2 ^ fixP ≤ x then ofFix fixP (if neg then 1 - 2 ^ fixP else 2 ^ fixP - 1)
  else
    let y := expBig (2 * x)
    let v := (y - 2 ^ fixP) * 2 ^ fixP / (y + 2 ^ fixP)
    ofFix fixP (if neg then -v else v)

/-- erf x. -/
def erfFin (neg : Bool) (m : Nat) (e : Int) : FVal :=
  let x := toFix fixP false m e
  if 5 * 2 ^ fixP ≤ x then ofFix fixP (if neg then 1 - 2 ^ fixP else 2 ^ fixP - 1)
  else
    let v := erfSeries fixP (x * x / 2 ^ fixP) 260 0 x * erfScaleFix / 2 ^ fixP
    ofFix fixP (if neg then -v else v)

/-! ## Lanes (R151) -/

def rcpVal : FVal → FVal
  | .nan => .nan
  | .inf n => .fin n 0 0
  | .fin n m e => if m = 0 then .inf n else rcpFin n m e

def rsqVal : FVal → FVal
  | .nan => .nan
  | .inf n => if n then .nan else .fin false 0 0
  | .fin n m e => if m = 0 then .inf n else if n then .nan else rsqFin m e

def exp2Val : FVal → FVal
  | .nan => .nan
  | .inf n => if n then .fin false 0 0 else .inf false
  | .fin n m e => if m = 0 then .fin false 1 0 else exp2Fin n m e

def log2Val : FVal → FVal
  | .nan => .nan
  | .inf n => if n then .nan else .inf false
  | .fin n m e => if m = 0 then .inf true else if n then .nan else log2Fin m e

def sinVal : FVal → FVal
  | .nan => .nan
  | .inf _ => .nan
  | .fin n m e => if m = 0 then .fin n 0 0 else trigFin false n m e

def cosVal : FVal → FVal
  | .nan => .nan
  | .inf _ => .nan
  | .fin n m e => if m = 0 then .fin false 1 0 else trigFin true n m e

def tanhVal : FVal → FVal
  | .nan => .nan
  | .inf n => .fin n 1 0
  | .fin n m e => if m = 0 then .fin n 0 0 else tanhFin n m e

def erfVal : FVal → FVal
  | .nan => .nan
  | .inf n => .fin n 1 0
  | .fin n m e => if m = 0 then .fin n 0 0 else erfFin n m e

/-- A special function on a lane: one rounding under RNE (R150). -/
def laneSpecial (f : FVal → FVal) (a : W32) : W32 := BitVec.ofNat 32 (f32.round .rne false (f (f32.decode a.toNat)))

end Sys2Proof.Machine
end

