-- ==== Sys2Proof/Machine/Lanes.lean ====
section
/-! DEFINITION. Vector lanes: registers and where they stand (R50, R51), the members of a gang (R53), source modifiers
(R69), the element-wise functions (R135-R138, R141, R150), what a vector instruction reads and writes, and the addresses
of a gather (R156). -/
namespace Sys2Proof.Machine

/-! ## Vector registers (R50, R51) -/

/-- Lanes of a register; one not written in the firing reads zero. -/
def Ctx.vreg (x : Ctx) (r : Nat) : Vec := x.v.getD r (List.replicate 16 0)

/-- A bound register of a context becomes the most recently used; when 128 others are in place, the least recently used
one of another context is spilled. -/
def Core.touchV (k : Core) (x r : Nat) : Core :=
  let rest := k.vplace.filter fun e => !(e.1 = x && e.2.1 = r)
  let full := 128 ≤ (rest.filter fun e => !e.2.2).length
  let rest := if full then
      match rest.reverse.find? fun e => !e.2.2 && e.1 ≠ x with
      | some v => rest.map fun e => if e = v then (e.1, e.2.1, true) else e
      | none => rest
    else rest
  { k with vplace := (x, r, false) :: rest }

/-- A read of a bound register refills it if it is spilled. -/
def Core.readV (k : Core) (x r : Nat) : Core :=
  if k.vplace.any fun e => e.1 = x && e.2.1 = r then k.touchV x r else k

/-! ## Members: the core, its context and the instruction as that member forwarded it -/

/-- One member of the gang an instruction runs in, or the one context alone. -/
structure Member where
  core : CoreId
  ctx  : Nat
  v    : VInstr
  deriving DecidableEq, Repr

/-- An effect run as a given context. -/
def asCtx {α : Type} (c : CoreId) (x : Nat) (m : Exec α) : Exec α := do
  let s ← get
  set { s with cur := c, curCtx := x }
  let r ← m
  modify fun t => { t with cur := s.cur, curCtx := s.curCtx }
  return r

/-- All gang lanes of a register (R53). -/
def gangV (s : State) (ms : List Member) (r : VReg) : List W32 := ms.flatMap fun m => (s.ctx m.core m.ctx).vreg r.val

/-- Predicate lanes of a context: p0 is all ones. -/
def Ctx.pred (x : Ctx) (p : Nat) : BitVec 16 := if p = 0 then BitVec.allOnes 16 else x.p.getD p 0

def predLanes (w : BitVec 16) : List Bool := (List.range 16).map (bitOf w)

/-- All gang lanes of a predicate. -/
def gangP (s : State) (ms : List Member) (p : PReg) : List Bool :=
  ms.flatMap fun m => predLanes ((s.ctx m.core m.ctx).pred p.val)

/-- The source modifier over the lanes present (R69). -/
def applyMod (m : SrcMod) (v : List W32) : List W32 :=
  let l := v.length
  let seg := Nat.min (2 ^ m.lseg.val) l
  let d := m.dist.val % seg
  (List.range l).map fun i =>
    let base := i - i % seg
    let j := i - base
    let src := match m.cls with
      | .none => i
      | .rotate => base + (j + d) % seg
      | .swap => base + Nat.xor j d
      | .bcast => base + d
    v.getD src 0

/-- Lanes of member number k. -/
def share {α : Type} (l : List α) (k : Nat) : List α := (l.drop (16 * k)).take 16

/-! ## Element-wise instructions (R135-R138, R141, R150) -/

/-- An element-wise instruction: registers, modifier, predicate, and the value of a lane from RNDCTL and A, B, C. -/
structure LaneFn where
  d : VReg
  a : VReg
  b : Option VSrc := none
  c : Option VReg := none
  m : SrcMod
  p : PReg
  f : W64 → W32 → W32 → W32 → W32

/-- Arithmetic rounds to nearest where RNDCTL holds the stochastic mode (R133). -/
def RMode.plain : RMode → RMode
  | .sr => .rne
  | m => m

def rounded (r : RndSat) (f : RMode → Bool → W32 → W32 → W32) (ctl : W64) (x y _z : W32) : W32 :=
  let q := RndSat.inForce r ctl
  f q.1.plain q.2 x y

def fused (r : RndSat) (negP negC : Bool) (ctl : W64) (x y z : W32) : W32 :=
  let q := RndSat.inForce r ctl
  laneFma q.1.plain q.2 negP negC x y z

def two (f : W32 → W32 → W32) (_ctl : W64) (x y _z : W32) : W32 := f x y
def one (f : W32 → W32) (_ctl : W64) (x _y _z : W32) : W32 := f x

def intOp (t : IntSat) (f : Int → Int → Int) (x y : W32) : W32 := reduceInt t (f (laneInt t.u x) (laneInt t.u y))

def mulHigh (u : Bool) (x y : W32) : W32 := BitVec.ofInt 32 (laneInt u x * laneInt u y / 2 ^ 32)
def intMin (u : Bool) (x y : W32) : W32 := if laneInt u x < laneInt u y then x else y
def intMax (u : Bool) (x y : W32) : W32 := if laneInt u x < laneInt u y then y else x

/-- VISAT: the lane clamped to the range of the narrower type (R137). -/
def satTo (w : NarrowInt) (x : W32) : W32 :=
  let (lo, hi) := match w with
    | .i8 => intRange 8 true
    | .n8 => intRange 8 false
    | .i16 => intRange 16 true
    | .n16 => intRange 16 false
  BitVec.ofInt 32 (clampInt lo hi x.toInt)

/-- Shift counts are B[4:0] (R138). -/
def vshamt (y : W32) : Nat := y.toNat % 32

def laneFn : Instr → Option LaneFn
  | .vadd d a b m p r => some { d, a, b, m, p, f := rounded r laneAdd }
  | .vsub d a b m p r => some { d, a, b, m, p, f := rounded r laneSub }
  | .vmul d a b m p r => some { d, a, b, m, p, f := rounded r laneMul }
  | .vdiv d a b m p r => some { d, a, b, m, p, f := rounded r laneDiv }
  | .vfma d a b c m p r => some { d, a, b, c, m, p, f := fused r false false }
  | .vfms d a b c m p r => some { d, a, b, c, m, p, f := fused r false true }
  | .vfnma d a b c m p r => some { d, a, b, c, m, p, f := fused r true false }
  | .vmin d a b m p => some { d, a, b, m, p, f := two (laneMinMax false) }
  | .vmax d a b m p => some { d, a, b, m, p, f := two (laneMinMax true) }
  | .vabs d a m p => some { d, a, m, p, f := one laneAbs }
  | .vneg d a m p => some { d, a, m, p, f := one laneNeg }
  | .viadd d a b m p t => some { d, a, b, m, p, f := two (intOp t (· + ·)) }
  | .visub d a b m p t => some { d, a, b, m, p, f := two (intOp t (· - ·)) }
  | .vimul d a b m p t => some { d, a, b, m, p, f := two (intOp t (· * ·)) }
  | .vimulh d a b m p u => some { d, a, b, m, p, f := two (mulHigh u) }
  | .vimin d a b m p u => some { d, a, b, m, p, f := two (intMin u) }
  | .vimax d a b m p u => some { d, a, b, m, p, f := two (intMax u) }
  | .visat d a m p w => some { d, a, m, p, f := one (satTo w) }
  | .vand d a b m p => some { d, a, b, m, p, f := two (· &&& ·) }
  | .vor d a b m p => some { d, a, b, m, p, f := two (· ||| ·) }
  | .vxor d a b m p => some { d, a, b, m, p, f := two (· ^^^ ·) }
  | .vshl d a b m p => some { d, a, b, m, p, f := two fun x y => x <<< vshamt y }
  | .vshr d a b m p => some { d, a, b, m, p, f := two fun x y => x >>> vshamt y }
  | .vsra d a b m p => some { d, a, b, m, p, f := two fun x y => x.sshiftRight (vshamt y) }
  | .vmov d a m p => some { d, a, m, p, f := one id }
  | .vrcp d a m p => some { d, a, m, p, f := one (laneSpecial rcpVal) }
  | .vrsq d a m p => some { d, a, m, p, f := one (laneSpecial rsqVal) }
  | .vexp2 d a m p => some { d, a, m, p, f := one (laneSpecial exp2Val) }
  | .vlog2 d a m p => some { d, a, m, p, f := one (laneSpecial log2Val) }
  | .vsin d a m p => some { d, a, m, p, f := one (laneSpecial sinVal) }
  | .vcos d a m p => some { d, a, m, p, f := one (laneSpecial cosVal) }
  | .vtanh d a m p => some { d, a, m, p, f := one (laneSpecial tanhVal) }
  | .verf d a m p => some { d, a, m, p, f := one (laneSpecial erfVal) }
  | _ => none

/-- Source a after the modifier (R68, R69). -/
def srcA (s : State) (ms : List Member) (a : VReg) (m : SrcMod) : List W32 :=
  if m.onB then gangV s ms a else applyMod m (gangV s ms a)

/-- Source b: a register after the modifier, or the members' scalars in every lane (R131). -/
def srcB (s : State) (ms : List Member) (sv : List W64) (b : VSrc) (m : SrcMod) : List W32 :=
  match b with
  | .v r => if m.onB then applyMod m (gangV s ms r) else gangV s ms r
  | .s _ => sv.flatMap fun w => List.replicate 16 (w.truncate 32)

/-- A register source b. -/
def VSrc.regs : VSrc → List VReg
  | .v r => [r]
  | .s _ => []

/-! ## What a vector instruction reads and writes -/

/-- The scalar source of a vector instruction. -/
def vecSource : Instr → Option SReg
  | .vadd _ _ (.s r) .. | .vsub _ _ (.s r) .. | .vmul _ _ (.s r) .. | .vfma _ _ (.s r) .. | .vfms _ _ (.s r) ..
  | .vfnma _ _ (.s r) .. | .vmin _ _ (.s r) .. | .vmax _ _ (.s r) .. | .vdiv _ _ (.s r) .. | .viadd _ _ (.s r) ..
  | .visub _ _ (.s r) .. | .vimul _ _ (.s r) .. | .vimulh _ _ (.s r) .. | .vimin _ _ (.s r) ..
  | .vimax _ _ (.s r) .. | .vand _ _ (.s r) .. | .vor _ _ (.s r) .. | .vxor _ _ (.s r) .. | .vshl _ _ (.s r) ..
  | .vshr _ _ (.s r) .. | .vsra _ _ (.s r) .. | .vcmp _ _ (.s r) .. | .vsel _ _ (.s r) .. => some r
  | .vbcast _ r _ | .viota _ r _ _ | .vext _ _ r _ _ | .vld _ r _ | .vst _ r _ | .vldg _ r _ _ _ | .vstg _ r _ _ _
  | .vloop r _ => some r
  | _ => none

/-- The scalar destination of a vector instruction. -/
def vecDest : Instr → Option SReg
  | .vext d .. | .vred d .. | .pcnt d _ | .pfirst d _ => some d
  | _ => none

/-- The vector and predicate registers that an instruction reads. -/
def vecReads (i : Instr) : List VReg × List PReg :=
  match laneFn i with
  | some g => (g.a :: (g.b.map VSrc.regs).getD [] ++ g.c.toList, [g.p])
  | none =>
    match i with
    | .vsel _ a b _ p | .vcmp _ a b _ p _ _ => (a :: VSrc.regs b, [p])
    | .vbcast _ _ p | .viota _ _ _ p => ([], [p])
    | .vext _ a _ _ _ => ([a], [])
    | .vxl _ a b _ _ p => ([a, b], [p])
    | .vperm _ a b c _ p => ([a, b, c], [p])
    | .vred _ a _ p _ | .vcvt _ a _ _ _ p _ => ([a], [p])
    | .pand _ a b | .por _ a b | .pxor _ a b => ([], [a, b])
    | .pnot _ a | .pcnt _ a | .pfirst _ a => ([], [a])
    | .vld _ _ g => ([], [g.pred])
    | .vst d _ g => ([d], [g.pred])
    | .vldg _ _ b _ g => ([b], [g.pred])
    | .vstg d _ b _ g => ([b, d], [g.pred])
    | _ => ([], [])

/-- The vector and predicate registers that an instruction writes. -/
def vecWrites (i : Instr) : List VReg × List PReg :=
  match laneFn i with
  | some g => ([g.d], [])
  | none =>
    match i with
    | .vsel d .. | .vbcast d .. | .viota d .. | .vperm d .. | .vcvt d .. | .vld d .. | .vldg d .. => ([d], [])
    | .vxl d _ _ c .. => ([d], [c])
    | .vcmp d .. | .pand d .. | .por d .. | .pxor d .. | .pnot d .. => ([], [d])
    | _ => ([], [])

/-- Active lanes, ascending. -/
def activeLanes (p : BitVec 16) : List Nat := (List.range 16).filter (bitOf p)

/-! ## Addresses of a gather (R156) -/

/-- The address of a lane, and whether a nibble element is the low one (R156). -/
def gatherAddr (base : W64) (off : W32) (sh : Nat) (nibble : Bool) : Nat × Bool :=
  let o : Int := off.toInt * 2 ^ sh
  if nibble then
    let n := 2 * (base.toNat : Int) + o
    ((n / 2 % 2 ^ 64).toNat, n % 2 = 0)
  else (((base.toNat + o) % 2 ^ 64).toNat, true)

/-- The offsets of a gather: source b over all gang lanes, modified before it is shared out (R156, R162). -/
def gatherOffsets (s : State) (ms : List Member) (b : VReg) (m : SrcMod) : List W32 := srcB s ms [] (.v b) m

end Sys2Proof.Machine
end

