-- ==== Sys2Proof/Machine/Order.lean ====
section
/-! DEFINITION. The order of one context's accesses across its streams (R72, R245) and the releases and acquires of a
context (R258, R259), with the merge of update-only lines at the home slice (R239, R272). -/
namespace Sys2Proof.Machine

/-! ## Bytes that accesses may touch -/

def Foot.overlaps : Foot → Foot → Bool
  | .bank b lo n, .bank c lo' n' => b = c && lo < lo' + n' && lo' < lo + n
  | .mem p n, .mem q m => p < q + m && q < p + n
  | .anyMem, .mem _ _ => true
  | .mem _ _, .anyMem => true
  | .anyMem, .anyMem => true
  | _, _ => false

def feetOverlap (a b : List Foot) : Bool := a.any fun f => b.any f.overlaps

/-! ## Updates of RED at their execution point (R271, R272) -/

/-- New value of a word of w bits (R271). -/
def redApply (op : RedOp) (w64 : Bool) (m b : Nat) : Nat :=
  let w := if w64 then 64 else 32
  let f := if w64 then f64 else f32
  match op with
  | .addI => (m + b) % 2 ^ w
  | .addF => f.op2 .rne false (FVal.add .rne) m b
  | .minI => if sext w b < sext w m then b else m
  | .maxI => if sext w m < sext w b then b else m
  | .minF => f.minmax false m b
  | .maxF => f.minmax true m b
  | .and => Nat.land m b
  | .or => Nat.lor m b
  | .xor => Nat.xor m b

/-- The compartment a line of memory belongs to by the owner map (R353), 0 for none. -/
def State.ownerComp (s : State) (pa : Nat) : Nat :=
  if isHbm pa then (let o := s.ownerEntry pa; if o / 256 = 0 then 0 else o % 64) else 0

/-- A report of the L2 slice: a merge met an uncorrectable line (R384, R410). The update is not applied. -/
def State.reportMerge (s : State) (c : CoreId) (u : Update) (info : Nat) : State :=
  let line := u.addr / 64
  let d := homeDie line
  let n := (s.die d).reports.getD (homeRank line) 0
  let t := s.updDie d fun k => { k with reports := k.reports.put (homeRank line) (n + 1) }
  t.report c u.fid 0x0D 4 0 (64 * line) [64 * line, info] n none (origin := some d)

/-- One pending update merged at the home slice (R239). -/
def State.mergeUpdate (s : State) (c : CoreId) (u : Update) : State :=
  let n := if u.w64 then 8 else 4
  match s.memError u.addr n with
  | some (_, info) => s.reportMerge c u info
  | none => s.memWrite (s.ownerComp u.addr) u.addr (leBytes n (redApply u.op u.w64 (leNat (s.memRead u.addr n)) u.val.toNat))

/-- A core's update-only line sent home and merged, its updates in the order they were gathered. -/
def State.sendHome (s : State) (c : CoreId) (line : Nat) : State :=
  let us := (s.core c).updatesOn line
  if us.isEmpty then s
  else
    us.foldl (fun t u => t.mergeUpdate c u)
      ((s.sentTo c (homeDie line)).updCore c fun k => { k with updates := k.updates.filter fun u => u.addr / 64 ≠ line })

/-- Every update-only line of a core sent home. -/
def State.sendAllHome (s : State) (c : CoreId) : State :=
  ((s.core c).updates.map (·.addr / 64)).foldl (fun t l => t.sendHome c l) s

/-- Every core's update-only copy of a line recalled and merged, as a read at the slice does (R239). -/
def State.recall (s : State) (line : Nat) : State := (s.cores.map (·.1)).foldl (fun t c => t.sendHome c line) s

/-- Every core's update-only copy of a line has its way home (R239, R278). -/
def State.recallable (s : State) (line : Nat) : Bool :=
  s.cores.all fun e => (e.2.updatesOn line).isEmpty || s.carriedTo e.1 (homeDie line)

/-- A step under way could not read a line. -/
def State.miss (s : State) (line : Nat) : State := { s with missed := line :: s.missed }

/-- The die of a physical address: the home die of HBM, else the host interface's. -/
def dieOf (pa : Nat) : Nat := if isHbm pa then homeDie (pa / 64) else hostDie

/-- A read request of bytes of one line at its home slice: update-only copies are recalled first, the line's count falls
(R239, R240); a line that is not there is missed (R241). -/
def State.sliceRead (s : State) (pa n : Nat) : List Byte × State :=
  let t := (if s.l2Ready (pa / 64) && s.recallable (pa / 64) then s else s.miss (pa / 64)).recall (pa / 64)
  (t.memRead pa n, t.l2Read (pa / 64))

/-- Bytes of one line or of host memory read by an agent of a die, over the straits between (R278). -/
def State.readFrom (s : State) (v : Via) (pa n : Nat) : List Byte × State :=
  let t := if s.viaReaches v (dieOf pa) then s.viaAsked v (dieOf pa) else s.miss (pa / 64)
  if isHbm pa then t.sliceRead pa n else (t.memRead pa n, t)

/-- A step that read lines which are not in their slices asks for them and does nothing else: it is made once they have
come (R241) (DESIGN CHOICE, log 13). -/
def State.orAsk (s t : State) : State :=
  if t.missed = s.missed then t
  else
    (t.missed.take (t.missed.length - s.missed.length)).foldl (fun u l =>
      if u.l2Ready l || !isHbm (64 * l) then u
      else u.askMiss { line := l, rank := homeRank l, comp := u.ownerComp (64 * l), reqs := [{ who := .agent, pa := 64 * l }] }) s

/-- An operation or event that reads memory. -/
def eventReading (c : Bool) (f : State → State) (s : State) : Host.Outcome State Fault Refusal :=
  event c (fun s => s.orAsk (f s)) s

/-! ## Walks of the translation tables (R231-R235) -/

/-- A walk reads tables and leaves its reads' traces at the home slices. -/
abbrev WalkM := EStateM TransErr State

/-- A walk from a table of a level downward; `read` fetches the 8 bytes of an entry. -/
def walkFrom (read : Nat → WalkM Nat) (stage1 : Bool) (va : Nat) : Nat → Nat → WalkM Leaf
  | 0, base => do
    let e ← read (base + 8 * levelIndex 0 va)
    match readEntry stage1 0 e with
    | .ok (.inl l) => return l
    | .ok (.inr _) => throw (0x05, 4)
    | .error f => throw f
  | n + 1, base => do
    let e ← read (base + 8 * levelIndex (n + 1) va)
    match readEntry stage1 (n + 1) e with
    | .ok (.inl l) => return l
    | .ok (.inr t) => walkFrom read stage1 va n t
    | .error f => throw f

/-- Eight bytes of physical memory read by a walk, HBM through L2 at the home slice (R234) (DESIGN CHOICE, log 13). -/
def walkRead (v : Via) (pa : Nat) : WalkM Nat := fun s =>
  match s.memError pa 8 with
  | some e => .error e s
  | none => let (data, t) := s.readFrom v pa 8; .ok (leNat data) t

/-- Where a stage-2 leaf puts an intermediate address: not in the reserved range (R235). -/
def Leaf.target (l : Leaf) (ia : Nat) : Except TransErr Nat :=
  let pa := l.addr + ia % l.size
  if isHbm pa || isHost pa then .ok pa else .error (0x05, 6)

/-- Stage 2 of a partition from its root: an intermediate address to its leaf. -/
def walk2 (v : Via) (s2root : W64) (ia : Nat) : WalkM Leaf := walkFrom (walkRead v) false ia 4 (rootPage s2root * 4096)

/-- Eight bytes at an intermediate address, as a stage-1 table read: no peer window, no reserved address, no byte of the
device's own (R231, R235, R335, R397). -/
def tableRead (v : Via) (s2root : W64) (ia : Nat) : WalkM Nat := do
  if ia / 2 ^ 51 = 1 then throw (0x05, 8)
  else
    let l ← walk2 v s2root ia
    match l.target ia with
    | .error f => throw f
    | .ok pa => if isDeviceTop pa then throw (0x06, 3) else walkRead v pa

/-- The combined translation of a page of a partition's global space, by a walk of both stages (R234). -/
def walkBoth (v : Via) (s2root ptbase : W64) (p va : Nat) : WalkM TlbEntry := do
  let root := rootPage ptbase
  let l1 ← walkFrom (tableRead v s2root) true va 4 (root * 4096)
  let ia := l1.addr + va % l1.size
  if ia / 2 ^ 51 = 1 then
    return { part := p, root := root, va := va / l1.size * l1.size, size := l1.size, pa := l1.addr, rd := l1.rd, w := l1.w
             xe := l1.xe, sv := l1.sv, tag := l1.tag, peer := true }
  else
    let l2 ← walk2 v s2root ia
    let size := Nat.min l1.size l2.size
    match l2.target ia with
    | .error f => throw f
    | .ok pa =>
      return { part := p, root := root, va := va / size * size, size := size, pa := pa / size * size, rd := l1.rd && l2.rd
               w := l1.w && l2.w, xe := l1.xe && l2.xe, sv := l1.sv, tag := l1.tag, peer := false }

/-- What a walk answers, its traces apart. -/
def answer {α : Type} (m : WalkM α) (s : State) : Except TransErr α :=
  match m s with
  | .ok a _ => .ok a
  | .error f _ => .error f

/-- The traces of a walk's reads (R240, R288). -/
def traces {α : Type} (m : WalkM α) (s : State) : State :=
  match m s with
  | .ok _ t => t
  | .error _ t => t

/-- Stage 2 of a partition. -/
def State.stage2 (s : State) (p ia : Nat) : Except TransErr Leaf := answer (walk2 none (s.part p).s2root ia) s

/-- Both stages of a partition. -/
def State.walk (s : State) (ptbase : W64) (p va : Nat) : Except TransErr TlbEntry :=
  answer (walkBoth none (s.part p).s2root ptbase p va) s

/-- Where an address of a core's partition stands now, by a cached translation or the tables. -/
def State.translateNow (s : State) (c : CoreId) (va : Nat) : Except TransErr TlbEntry :=
  match s.rootFor c va with
  | .error f => .error f
  | .ok (p, root) =>
    match s.tlbLookup c p (rootPage root) va with
    | some e => .ok e
    | none => s.walk root p va

/-! ## Bytes that forwarded and issued accesses may touch (R72) -/

/-- Registers that forwarded instructions have still to write before an instruction. -/
abbrev Unwritten := List VReg × List PReg

/-- The lanes that a predicate leaves active, all of them where it has still to be written. -/
def State.lanesOf (s : State) (c : CoreId) (x : Nat) (u : Unwritten) (p : PReg) : List Nat :=
  if u.2.contains p && p.val ≠ 0 then List.range 16 else activeLanes ((s.ctx c x).pred p.val)

/-- The bytes of a gather or scatter, its offsets given: where its pages translate now; lanes whose page does not make no
access. -/
def State.gatherFeet (s : State) (c : CoreId) (base : W64) (lanes : List Nat) (offs : List W32) (g : GatherImm) : List Foot :=
  let nb := nibbles g.elt false
  lanes.filterMap fun l =>
    let va := (gatherAddr base (offs.getD l 0) g.sh.val (nb = 1)).1
    match s.translateNow c va with
    | .ok e => if e.peer then none else some (.mem (e.pa + (va - e.va)) (elemBytes nb))
    | .error _ => none

/-- The bytes of VLDG or VSTG: any byte where the offsets have still to be written, or are taken over the lanes of a gang
(DEDUCED, log 14). -/
def State.globalFeet (s : State) (c : CoreId) (x : Nat) (u : Unwritten) (v : VInstr) (offs : List W32) (base : W64) (b : VReg)
    (m : SrcMod) (g : GatherImm) : List Foot :=
  let lanes := s.lanesOf c x u g.pred
  if !offs.isEmpty then s.gatherFeet c base lanes offs g
  else if u.1.contains b || (m.cls ≠ .none && !v.gang.isEmpty) then [.anyMem]
  else s.gatherFeet c base lanes (gatherOffsets s [{ core := c, ctx := x, v := v }] b m) g

/-- The bytes of the active lanes of VLD or VST (R153). -/
def State.localFeet (s : State) (c : CoreId) (x : Nat) (u : Unwritten) (base : W64) (m : VMemImm) : List Foot :=
  match windowOf (field base 31 28), (s.core c).berth (field base 18 16) with
  | some w, some b =>
    (s.lanesOf c x u m.pred).map fun l =>
      let nb := nibbles w false
      Foot.bank b (lanePos (field base 15 0) m nb l / 2) (elemBytes nb)
  | _, _ => []

/-- The bytes a vector instruction may touch, its base given, and for a gather the offsets its entry keeps (R153, R156). -/
def State.baseFeet (s : State) (c : CoreId) (x : Nat) (u : Unwritten) (v : VInstr) (offs : List W32) (base : W64) : List Foot :=
  match v.instr with
  | .vld _ _ m | .vst _ _ m => s.localFeet c x u base m
  | .vldg _ _ b m g | .vstg _ _ b m g => s.globalFeet c x u v offs base b m g
  | _ => []

/-- The scalar operand of a forwarded instruction, as far as it is known: captured, or the queue's oldest entry, and the
queues after its pop (R70, R74). -/
def popSource (v : VInstr) (q : Tab Nat (List W64)) : Option W64 × Tab Nat (List W64) :=
  match v.sval, vecSource v.instr with
  | some b, _ => (some b, q)
  | none, some (.q n) =>
    match q.getD n.val [] with
    | [] => (none, q)
    | b :: rest => (some b, q.put n.val rest)
  | none, _ => (none, q)

/-- What is known as one walks along the sequencer: the queues after the pops so far, the registers still to be written. -/
structure Known where
  q : Tab Nat (List W64)
  u : Unwritten := ([], [])

/-- The instruction reads memory. -/
def VInstr.reads (v : VInstr) : Bool :=
  match v.instr with
  | .vld .. | .vldg .. => true
  | _ => false

/-- The bytes that forwarded instructions may touch, oldest first, each with whether it is read, and what is known after them. An address that no push
has supplied yet comes from a later point of the program and orders nothing (DEDUCED, log 14). -/
def State.vecFeet (s : State) (c : CoreId) (x : Nat) (offs : List W32) : List VInstr → Known → List (Bool × Foot) × Known
  | [], k => ([], k)
  | v :: vs, k =>
    let (base, q) := popSource v k.q
    let mine := match base with
      | some b => s.baseFeet c x k.u v offs b
      | none => []
    let w := vecWrites v.instr
    let (fs, k') := s.vecFeet c x [] vs { q := q, u := (w.1 ++ k.u.1, w.2 ++ k.u.2) }
    (mine.map (v.reads, ·) ++ fs, k')

/-- What is left of a VLOOP: the rest of its pass, then the passes after it. A queue holds at most 8 entries (R73), so
passes beyond the ninth find no address that the first nine did not. -/
def LoopPos.rest (l : LoopPos) (body : List VInstr) : List VInstr :=
  body.drop l.pos ++ (List.replicate (Nat.min (l.left - 1) 9) body).flatten

/-- The instructions that an entry has still to execute, and the queues after the pop of a VLOOP's count. A count that
no push has supplied yet repeats nothing that orders (DEDUCED, log 14). -/
def SeqEntry.left (e : SeqEntry) (q : Tab Nat (List W64)) : List VInstr × Tab Nat (List W64) :=
  if e.body.isEmpty then ([e.v], q)
  else
    match e.loop with
    | some l => (l.rest e.body, q)
    | none =>
      match popSource e.v q with
      | (some n, q') => (({ left := field n 31 0 + 1, pos := e.body.length } : LoopPos).rest e.body, q')
      | (none, q') => ([], q')

/-- The bytes that entries of the sequencer may still touch, oldest first. -/
def State.entriesFeet (s : State) (c : CoreId) (x : Nat) : List SeqEntry → Known → List (Bool × Foot)
  | [], _ => []
  | e :: es, k =>
    let (vs, q) := e.left k.q
    let (fs, k') := s.vecFeet c x e.offs vs { k with q := q }
    fs ++ s.entriesFeet c x es k'

/-- The accesses that a context's forwarded vector instructions may still make, up to instruction number `before` (DEDUCED, log 14). -/
def State.seqAccesses (s : State) (c : CoreId) (x : Nat) (before : Nat) : List (Bool × Foot) :=
  let v := s.ctx c x
  s.entriesFeet c x (v.seq.filter (·.v.num < before)) { q := v.q }

/-- The bytes that they may touch. -/
def State.seqFeet (s : State) (c : CoreId) (x : Nat) (before : Nat) : List Foot := (s.seqAccesses c x before).map (·.2)

/-- A matrix instruction has still to make its accesses: its reads, or the writes of an MSTORE (R204). -/
def MEntry.accesses (e : MEntry) : Bool :=
  !e.cons || (match e.instr with
    | .mstore .. => true
    | _ => false)

/-- The bytes that a context's matrix instructions may still touch: those in the slice or held aside by a trap, numbered
below `before`, that have not made their accesses (R72, R376). -/
def State.sliceFeet (s : State) (c : CoreId) (x : Nat) (before : Nat) : List Foot :=
  ((s.core c).slice.filter fun e => e.ctx = x && e.accesses && e.num < before).flatMap (·.feet)

/-- A read that the context has forwarded, or issued to the slice, before an instruction has not been made: a plain read that a
FENCE.acq may turn into an acquire (R259, R260). -/
def State.readsPend (s : State) (c : CoreId) (x : Nat) (before : Nat) : Bool :=
  (s.seqAccesses c x before).any (·.1) ||
    (s.core c).slice.any fun e => e.ctx = x && !e.cons && e.num < before && !e.feet.isEmpty && (match e.instr with
      | .mstore .. => false
      | _ => true)

/-- A store of the core through a fabric address that names its own berth is still in the fabric, before whichever port it
waits (R245). -/
def State.ownStoreFlies (s : State) (c : CoreId) (f : Foot) : Bool :=
  match f with
  | .bank b lo n =>
    (s.fwrites ++ s.banks.flatMap (·.2.waiting)).any fun w =>
      w.src = c && s.fabricCore c.siteId (field w.addr 58 48) (field w.addr 47 46) = some c &&
        (s.core c).berth (field w.addr 18 16) = some b && w.covers lo n
  | _ => false

/-- An access of the context through a slot that a HAND has filled, the first since then, is forwarded or issued and has not
been made: what the context does after it waits for its acquire (R255, R259). -/
def State.handWaits (s : State) (c : CoreId) (x : Nat) : Bool :=
  let k := s.core c
  k.handed.any fun ts =>
    match k.berth ts with
    | some b =>
      let n := (s.ctx c x).num + 1
      feetOverlap [.bank b 0 65536] (s.seqFeet c x n ++ s.sliceFeet c x n) || s.ownStoreFlies c (.bank b 0 65536)
    | none => false

/-- Later accesses, vector forwarding and matrix issue wait for such an acquire (R259). -/
def awaitHanded : Exec Unit := do
  let s ← get
  await (!s.handWaits s.cur s.curCtx)

/-- A scalar access of the issuing context waits for the context's earlier vector and matrix accesses to its bytes and
for its core's own stores on their way to them (R72, R245), and for an acquire under way (R255); `own` are its bytes in the core's own berths. -/
def awaitStreams (f own : List Foot) : Exec Unit := fun s =>
  if feetOverlap f (s.seqFeet s.cur s.curCtx (s.me.num + 1)) || feetOverlap f (s.sliceFeet s.cur s.curCtx (s.me.num + 1)) ||
      f.any (s.ownStoreFlies s.cur) then
    .error (.held own) s
  else awaitHanded s

/-- Both streams behind the integer pipeline are done: no forwarded vector instruction and no matrix instruction of the
context waits, runs, or stands held by a trap (R258, R375, R376). -/
def State.streamsIdle (s : State) (c : CoreId) (x : Nat) : Bool :=
  (s.ctx c x).seq = [] && !(s.core c).slice.any fun e => e.ctx = x

/-! ## Releases and acquires (R256-R259) -/

/-- A release of scope .sys places its mark on every port that earlier peer writes used (R337). -/
def State.markPorts (s : State) : State :=
  let ps := s.me.ports
  { s.updMe (fun x => { x with ports := [] }) with outside := s.outside ++ ps.map .peerMark }

/-- A store of the context is in the fabric, at a bank port, or on its way to a peer (R186, R430, R440). -/
def State.storesFly (s : State) (c : CoreId) (x : Nat) : Bool :=
  let mine := fun (w : FWrite) => w.src = c && w.ctx = x
  s.fwrites.any mine || s.banks.any (fun b => b.2.held.any mine || b.2.waiting.any mine) ||
    s.acks.any fun a => a.core = c && a.ctx = x && a.peer.isSome

/-- Stores of a core that open speculative regions hold at their banks' ports (R192). -/
def State.regionHeld (s : State) (c : CoreId) : Nat :=
  ((s.banks.filter (·.2.shadow.isSome)).map fun e => (e.2.held ++ e.2.waiting).countP fun w => w.src = c && !w.kind.isAccess).sum

/-- A core's remote stores have been acknowledged, but for those that stay held until a region ends (R243, R425). -/
def State.storesDone (s : State) (c : CoreId) : Bool := (s.core c).unacked = s.regionHeld c

/-- A release by the issuing context (R258): the streams and the context's stores have taken effect; wider than .core,
the core's remote stores are acknowledged and its update-only lines merged. A global or host store reaches its execution
point as it issues (DEDUCED, log 8). -/
def release (sc : Scope) : Exec Unit := do
  let s ← get
  await (s.streamsIdle s.cur s.curCtx && !s.storesFly s.cur s.curCtx)
  if sc ≠ .core then
    await (s.myCore.unacked = 0 && s.myCore.updates.all fun u => s.carriedTo s.cur (homeDie (u.addr / 64)) && s.lineFree (u.addr / 64))
    modify fun t => t.sendAllHome t.cur
  if sc = .sys then modify State.markPorts

/-- An acquire by a core (R259): wider than .core, its clean L1 lines are invalidated. -/
def State.acquire (s : State) (c : CoreId) (sc : Scope) : State :=
  if sc = .core then s else s.updCore c fun k => { k with l1 := [] }

def acquire (sc : Scope) : Exec Unit := modify fun s => s.acquire s.cur sc

/-! ## Ends of waits -/

/-- A destination field can take a value now. -/
def State.canWrite (s : State) (d : SReg) : Bool :=
  match d with
  | .q n => !s.me.queueFull n.val
  | _ => true

end Sys2Proof.Machine
end

