-- ==== Sys2Proof/Machine/LoadStore.lean ====
section
/-! DEFINITION. Scalar loads and stores (R228-R230, R243-R249): the place an address names, local, fabric, host and peer
accesses, and the use of L1 and L2. -/
namespace Sys2Proof.Machine

/-! ## Addresses (R228-R230) -/

/-- An address whose offset has a displacement added, modulo 65,536 (R230). -/
def dispOff (v : W64) (disp : Int) : W64 := setField v 15 0 (BitVec.ofInt 16 (field v 15 0 + disp)).toNat

/-- Fabric form (R228). -/
def isFabric (v : W64) : Bool := bitOf v 63
/-- Local form (R228). -/
def isLocal (v : W64) : Bool := field v 63 32 = 0

/-- The address as formed: the displacement in the offset of a local or fabric base, in 64 bits for a global one. -/
def formed (v : W64) (disp : Int) : W64 :=
  if isFabric v || isLocal v then dispOff v disp else v + BitVec.ofInt 64 disp

/-- Where an access goes, its address as formed given. -/
inductive Place where
  | fabric (addr : W64)
  | berth (b : BankId) (addr : W64)
  | mem (e : TlbEntry) (pa : Nat) (ea : W64)
  deriving DecidableEq, Repr

/-- The receiver's first access through a slot that a HAND has filled is an acquire of scope .die (R189, R255). -/
def State.firstAccess (s : State) (c : CoreId) (slot : Nat) : State :=
  if (s.core c).handed.contains slot then
    (s.updCore c fun k => { k with handed := k.handed.filter (· ≠ slot) }).acquire c .die
  else s

/-- The same for an access that reaches the bank by an address resolved before, in the slice or at the port. -/
def State.firstUse (s : State) (c : CoreId) (b : BankId) : State :=
  match (s.core c).handed.find? fun ts => (s.core c).berth ts = some b with
  | some ts => s.firstAccess c ts
  | none => s

/-- The bank of a slot of the issuing core that an access may use: its tag allows the firing (R355, R420, R428). -/
def berthOf (slot : Nat) (addr : W64) : Exec BankId := do
  let s ← get
  match s.myCore.berth slot with
  | none => trap 0x07 0 addr
  | some b => do
    check (tagAllows s.me.compart (s.bank b).tag) 0x06 7 addr
    return b

/-- The bank of a slot that an access is made through now. -/
def openBerth (slot : Nat) (addr : W64) : Exec BankId := do
  let b ← berthOf slot addr
  modify fun s => s.firstAccess s.cur slot
  return b

/-- The checks of R248 in their order, but for the alignment. -/
def place (v : W64) (disp : Int) (k : AccKind) : Exec Place := do
  let a := formed v disp
  if isFabric v then do
    check (field v 62 59 ≤ 10 && field v 45 19 = 0) 0x06 4 a
    let s ← get
    check (s.fabricCore s.cur.siteId (field v 58 48) (field v 47 46)).isSome 0x06 5 a
    return .fabric a
  else if isLocal v then do
    check (field v 31 28 ≤ 10 && field v 27 19 = 0) 0x06 4 a
    return .berth (← openBerth (field v 18 16) a) a
  else do
    let (e, pa) ← translateFor a.toNat k
    return .mem e pa a

/-- The address of a place, as formed. -/
def Place.addr : Place → W64
  | .fabric a => a
  | .berth _ a => a
  | .mem _ _ a => a

/-- The checks of R248 for an access of a size, alignment last. -/
def locate (v : W64) (disp : Int) (k : AccKind) (size : Nat) : Exec Place := do
  let p ← place v disp k
  check (p.addr.toNat % size = 0) 0x04 0 p.addr
  return p

/-- The bytes a fabric address names as the berth tables stand. -/
def State.fabricFeet (s : State) (c : CoreId) (a : W64) (n : Nat) : List Foot :=
  match s.fabricCore c.siteId (field a 58 48) (field a 47 46) with
  | some d =>
    match (s.core d).berth (field a 18 16) with
    | some b => [.bank b (field a 15 0) n]
    | none => []
  | none => []

/-- Bytes of a place. -/
def State.placeFeet (s : State) (p : Place) (n : Nat) : List Foot :=
  match p with
  | .fabric a => s.fabricFeet s.cur a n
  | .berth b a => [.bank b (field a 15 0) n]
  | .mem _ pa _ => [.mem pa n]

/-- Bytes of a place in the issuing core's own berth. -/
def Place.own : Place → Nat → List Foot
  | .berth b a, n => [.bank b (field a 15 0) n]
  | _, _ => []

/-- The wait of R72 and R245 at a place. -/
def awaitPlace (p : Place) (n : Nat) : Exec Unit := do awaitStreams ((← get).placeFeet p n) (p.own n)

/-! ## Reading -/

/-- Passing the watermark check on bytes that copies have landed, under this envelope or an earlier one, acquires what landed
there (R264) (DEDUCED, log 35). -/
def State.landingAcquire (s : State) (c : CoreId) (b : BankId) (o n : Nat) : State :=
  if ((s.bank b).lastLanded :: (s.bank b).landed).any fun r => r.1 < o + n && o < r.2 then s.acquire c .part else s

/-- A read of the core's own berth (R300, R409, R426). -/
def loadBank (b : BankId) (addr : W64) (n : Nat) : Exec (List Byte) := do
  let s ← get
  let o := field addr 15 0
  passWait (s.readWait b o n) [.bank b o n] addr
  check (!(s.bank (s.coreView b)).error o n) 0x0D 1 addr
  set (s.landingAcquire s.cur b o n)
  return s.bankRead (s.coreView b) o n

/-- A line brought into the core's L1 from the execution point, unless a word of it is bad (R238, R388). -/
def State.fillL1 (s : State) (c : CoreId) (line uc : Nat) (dead : Bool) : State :=
  if (s.memError (64 * line) 64).isSome then s
  else
    s.updCore c (·.l1Fill { line := line, data := packBytes (s.memRead (64 * line) 64), uc := uc, dead := dead
                            comp := s.ownerComp (64 * line) })

/-- The request of a read that misses its home slice (R241). -/
def State.missOf (s : State) (r : LineReq) : Miss :=
  { line := r.pa / 64, rank := homeRank (r.pa / 64), comp := s.ownerComp r.pa, reqs := [r] }

/-- One who looks again asks for a line. -/
def State.lookFor (s : State) (pa : Nat) (who : Waiter) : Miss := s.missOf { who := who, pa := pa / 64 * 64 }

/-- The context waits with its state as it was before the instruction, but for a request sent and its wait. -/
def holdWith {α : Type} (s0 : State) (w : Wait) (f : State → State) : Exec α := do
  set (f (s0.updMe fun v => { v with wait := w }))
  hold

/-- A load or atomic that misses leaves for its home slice; the context waits for the answer (R240, R241). -/
def sendLine {α : Type} (s0 : State) (pa : Nat) (ea : W64) (uc : Nat) (dead : Bool) (k : FKind) (point : Bool) : Exec α := do
  let (id, s1) := s0.fresh
  let r : LineReq :=
    { who := .pipe s1.cur s1.curCtx, want := .value k point, id := id, fid := s1.me.fid, pa := pa, ea := ea, uc := uc, dead := dead }
  holdWith s1 (.line id) fun s => (s.sentTo s.cur (homeDie (pa / 64))).askMiss (s.missOf r)

/-- The core's own update-only line goes home before its access to the line, once its beats are carried and no earlier
request for the line waits (R239, R241, R278). -/
def sendFirst (c : CoreId) (line : Nat) : Exec Unit := do
  let s ← get
  if ((s.core c).updatesOn line).isEmpty then pure ()
  else do
    await (s.carriedTo c (homeDie line) && s.lineFree line)
    set (s.sendHome c line)

/-- A read of HBM: from L1 where it may be, else at the execution point, where the read recalls update-only lines and
counts (R238-R241, R254); one that misses leaves as the request `k`. `point` keeps it out of L1, `s0` is the state before
the instruction. -/
def loadHbm (s0 : State) (pa n : Nat) (ea : W64) (uc : Nat) (dead point : Bool) (k : FKind) : Exec (List Byte) := do
  let line := pa / 64
  sendFirst (← get).cur line
  let s ← get
  match if point then none else s.myCore.l1Find line with
  | some l => do
    check (!l.error (pa % 64) n) 0x0D 1 ea
    modify fun s => s.updCore s.cur (·.l1Hit line)
    return unpack l.data (pa % 64) n
  | none =>
    match s.memError pa n with
    | some (code, info) => trap code info ea
    | none =>
      await (s.reaches s.cur (homeDie line))
      if !s.l2Ready line then sendLine (s0.sendHome s0.cur line) pa ea uc dead k point
      else do
        await (s.recallable line)
        let t := (s.asked s.cur (homeDie line)).recall line
        set (((if point then t else t.fillL1 t.cur line uc dead)).l2Read line)
        return t.memRead pa n

/-- A fabric request leaves; the context waits for its return (R186, R248). -/
def sendFabric (s0 : State) (addr : W64) (d : SReg) (k : FKind) : Exec Unit := do
  let (id, s1) := s0.fresh
  let x := s1.me
  holdWith s1 (.fabric id) fun s =>
    { s with freqs := s.freqs ++
        [{ id := id, core := s.cur, ctx := s.curCtx, fid := x.fid, comp := x.compart, addr := addr, dest := d, kind := k }] }

/-- A read or AtomicOp of host memory leaves (R235, R270) (DESIGN CHOICE, log 17). -/
def sendHost (s0 : State) (pa size : Nat) (d : SReg) (k : FKind) : Exec Unit := do
  let (id, s1) := s0.fresh
  let x := s1.me
  await (s1.reaches s1.cur hostDie)
  holdWith s1 (.host id) fun s =>
    { s.asked s.cur hostDie with hreqs := s.hreqs ++
        [{ id := id, core := s.cur, ctx := s.curCtx, fid := x.fid, pa := pa, size := size, dest := d, kind := k }] }

/-- Value of a loaded little-endian item. -/
def loadValue (size : Nat) (signed : Bool) (data : List Byte) : W64 :=
  if signed then BitVec.ofInt 64 (sext (8 * size) (leNat data)) else w64 (leNat data)

/-- A load: its address checked, its bytes read where they live, the destination written (R247, R248). `k` is what it
asks of a fabric bank or of the host, `point` keeps it out of L1, `after` is the acquire of LDACQ. -/
def opLoad (d a : SReg) (disp : Int) (size : Nat) (signed : Bool) (uc : Nat) (dead point : Bool) (k : FKind)
    (after : Exec Unit) : Exec Unit := do
  directions [a] [d]
  let s0 ← get
  let v ← readS a
  match s0.me.wait with
  | .value w => do
    after
    finish d w
  | .failed code info va => trap code info va
  | .fabric _ | .host _ | .line _ => stall
  | _ => do
    let p ← locate v disp .load size
    awaitPlace p size
    match p with
    | .fabric addr => sendFabric s0 addr d k
    | .berth b addr => do
      let data ← loadBank b addr size
      after
      finish d (loadValue size signed data)
    | .mem _ pa ea =>
      if isHost pa then sendHost s0 pa size d k
      else do
        let data ← loadHbm s0 pa size ea uc dead point k
        after
        finish d (loadValue size signed data)

/-- A load of R247 other than LDACQ. -/
def plainLoad (d a : SReg) (i : LoadImm) (size : Nat) (signed : Bool) : Exec Unit :=
  opLoad d a i.disp.toInt size signed i.uc.val i.dead false (.load size signed) (pure ())

def execLdb (d a : SReg) (i : LoadImm) : State → Host.Outcome State Fault Refusal := issue (plainLoad d a i 1 true)
def execLdbn (d a : SReg) (i : LoadImm) : State → Host.Outcome State Fault Refusal := issue (plainLoad d a i 1 false)
def execLdh (d a : SReg) (i : LoadImm) : State → Host.Outcome State Fault Refusal := issue (plainLoad d a i 2 true)
def execLdhn (d a : SReg) (i : LoadImm) : State → Host.Outcome State Fault Refusal := issue (plainLoad d a i 2 false)
def execLdw (d a : SReg) (i : LoadImm) : State → Host.Outcome State Fault Refusal := issue (plainLoad d a i 4 true)
def execLdwn (d a : SReg) (i : LoadImm) : State → Host.Outcome State Fault Refusal := issue (plainLoad d a i 4 false)
def execLdd (d a : SReg) (i : LoadImm) : State → Host.Outcome State Fault Refusal := issue (plainLoad d a i 8 false)

/-- LDACQ: of scope .cluster or wider it reads at the execution point; then the acquire (R254, R259). -/
def opLdacq (d a : SReg) (i : SyncImm) : Exec Unit :=
  let size := if i.w64 then 8 else 4
  opLoad d a i.disp.toInt size false 0 false (i.scope != .core) (.acq size i.scope) (acquire i.scope)

def execLdacq (d a : SReg) (i : SyncImm) : State → Host.Outcome State Fault Refusal := issue (opLdacq d a i)

/-- PFU's fill of L1 from the home slice: at once where the line is there, else by a request that no one waits for (R240,
R241, R249). -/
def State.prefetch (s : State) (c : CoreId) (line uc : Nat) (dead : Bool) : State :=
  if ((s.core c).l1Find line).isSome || (s.memError (64 * line) 64).isSome then s
  else if s.l2Ready line && s.reaches c (homeDie line) && s.recallable line then
    (((s.asked c (homeDie line)).recall line).fillL1 c line uc dead).l2Read line
  else s.askMiss (s.missOf { who := .pipe c 0, want := .fill, pa := 64 * line, uc := uc, dead := dead })

/-- PFU on a translated page: dropped where the page allows no load or holds no HBM (R249). -/
def State.prefetchPage (s : State) (c : CoreId) (e : TlbEntry) (ea uc : Nat) (dead sv : Bool) (comp : Nat) : State :=
  let pa := e.pa + (ea - e.va)
  if (s.pageError e ea .load sv comp).isNone && isHbm pa && !e.peer then s.prefetch c (pa / 64) uc dead else s

/-- PFU (R249): dropped for a base that is not global, and where the translation or the page does not allow a load; it
waits neither for its walk nor for its fill. -/
def opPfu (a : SReg) (i : LoadImm) : Exec Unit := do
  directions [a] []
  let v ← readS a
  let s ← get
  let ea := (formed v i.disp.toInt).toNat
  if isFabric v || isLocal v then pure ()
  else
    match translate ea s with
    | .ok e t => set (t.prefetchPage t.cur e ea i.uc.val i.dead t.me.sv t.me.compart)
    | .error (.walk w) _ => set (s.askWalk { w with who := .pfu s.cur ea i.uc.val i.dead s.me.sv s.me.compart })
    | .error _ _ => pure ()
  complete

def execPfu (a : SReg) (i : LoadImm) : State → Host.Outcome State Fault Refusal := issue (opPfu a i)

/-! ## Writing -/

/-- A byte of memory with one nibble replaced, at its execution point. -/
def State.memNibble (s : State) (comp pa : Nat) (val : BitVec 4) (hi : Bool) : State :=
  let old := if isHbm pa then s.memByte pa else cellGet s.mem pa
  s.memPut comp pa (nibbleInto old hi val.toNat)

/-- What a store writes. -/
inductive Item where
  | bytes (data : List Byte)
  | nibble (val : BitVec 4) (hi : Bool)
  deriving DecidableEq, Repr

def Item.size : Item → Nat
  | .bytes d => d.length
  | .nibble _ _ => 1

def Item.kind : Item → WKind
  | .bytes d => .bytes d
  | .nibble v h => .nibble v h

/-- An item written into a bank. -/
def State.bankItem (s : State) (b : BankId) (o : Nat) (i : Item) : State :=
  match i with
  | .bytes d => s.bankWrite b o d
  | .nibble v h => s.bankWrite b o [nibbleInto (cellGet (s.bank b).bytes o) h v.toNat]

/-- An item written to HBM by a core: its own update-only line goes home first, then the bytes reach their execution
point and the core's clean copy of the line (R238, R239, R246). -/
def State.hbmItem (s : State) (c : CoreId) (pa : Nat) (i : Item) : State :=
  let s := (s.sendHome c (pa / 64)).sentTo c (homeDie (pa / 64))
  let comp := s.ownerComp pa
  match i with
  | .bytes d => (s.memWrite comp pa d).updCore c (·.l1Store pa d)
  | .nibble v h =>
    let t := s.memNibble comp pa v h
    t.updCore c fun k =>
      match k.l1Find (pa / 64) with
      | some l => k.l1Store pa [nibbleInto ((unpack l.data (pa % 64) 1).headD 0) h v.toNat]
      | none => k

/-- An item written to host memory: a posted write of the partition's function (R235). -/
def State.hostItem (s : State) (pa : Nat) (i : Item) : State :=
  match i with
  | .bytes d => s.memPuts 0 pa d
  | .nibble v h => s.memNibble 0 pa v h

/-- The roster entry an access to a peer window may use at the local port (R336, R430): valid, permitted, in size. -/
def State.rosterFor (s : State) (p pa : Nat) (wr : Bool) : Option Roster :=
  let r := (s.part p).roster.getD (pa / 2 ^ 46 % 32) {}
  if r.v && (if wr then r.w else r.rd) && pa % 2 ^ 46 < r.size * 65536 && !(s.port r.port).refuse then some r else none

/-- The intermediate address at the peer (R336). -/
def Roster.ia (r : Roster) (pa : Nat) : Nat := r.rbase * 65536 + pa % 2 ^ 46

/-- One more remote store of a core stands unacknowledged (R243). -/
def State.raiseUnacked (s : State) (c : CoreId) : State := s.updCore c fun k => { k with unacked := k.unacked + 1 }

/-- A store through a peer window (R335-R337, R430): refused at the local port, or sent on it and waiting for the peer's
answer; while the link is down it is queued. -/
def State.peerItem (s : State) (c : CoreId) (x p pa : Nat) (ea : W64) (i : Item) (rel : Bool) : State :=
  let s := s.raiseUnacked c
  match s.rosterFor p pa true with
  | none => { s with acks := s.acks ++ [{ core := c, ctx := x, addr := ea, refused := some 4 }] }
  | some r =>
    let s := s.asked c (peerDie r.port)
    let marked := rel || (s.ctx c x).relMark
    let out := match i with
      | .bytes d => Outside.peerWrite r.port r.modul r.rpart (r.ia pa) d marked
      | .nibble v h => Outside.peerNibble r.port r.modul r.rpart (r.ia pa) v h marked
    let s := s.updCtx c x fun v =>
      { v with ports := if v.ports.contains r.port then v.ports else v.ports ++ [r.port] }
    if (s.port r.port).up then
      { s with outside := s.outside ++ [out], acks := s.acks ++ [{ core := c, ctx := x, addr := ea, refused := none, peer := some r.port }] }
    else { s with acks := s.acks ++ [{ core := c, ctx := x, addr := ea, refused := none, peer := some r.port, queued := some out }] }

/-- The way from a core to the port of an access to a peer window is open (R16, R278). -/
def State.peerCarried (s : State) (c : CoreId) (p pa : Nat) : Bool :=
  match s.rosterFor p pa true with
  | some r => s.carriedTo c (peerDie r.port)
  | none => true

/-- The partition of the issuing core. -/
def State.myPart (s : State) : Nat := (s.partOfSite s.cur.siteId).getD 0

/-- A fabric write leaves the core (R243, R244) (DEDUCED, log 8). -/
def State.sendWrite (s : State) (c : CoreId) (x : Nat) (addr : W64) (k : WKind) : State :=
  let v := s.ctx c x
  { s.raiseUnacked c with fwrites := s.fwrites ++ [{ src := c, ctx := x, fid := v.fid, comp := v.compart, addr := addr, kind := k }] }

/-- An access to the HBM of a fenced die (R414). -/
def checkFenced (pa : Nat) (ea : W64) : Exec Unit := do
  let s ← get
  check (!(isHbm pa && (s.die (homeDie (pa / 64))).fenced)) 0x0D 2 ea

/-- The room for one more unacknowledged remote store (R243). -/
def awaitRoom : Exec Unit := do await ((← get).myCore.unacked < 256)

/-- A store takes effect at its place (R243-R246, R248, R301, R210) (DEDUCED, log 8). -/
def storeAt (p : Place) (i : Item) (rel : Bool) : Exec Unit := do
  awaitPlace p i.size
  match p with
  | .fabric addr => do
    awaitRoom
    modify fun s => s.sendWrite s.cur s.curCtx addr i.kind
  | .berth b addr => do
    let s ← get
    let o := field addr 15 0
    passWait (s.writeWait b o i.size) [.bank b o i.size] addr
    set (s.bankItem (s.coreView b) o i)
  | .mem e pa ea =>
    if e.peer then do
      awaitRoom
      let s ← get
      await (s.peerCarried s.cur s.myPart pa)
      set (s.peerItem s.cur s.curCtx s.myPart pa ea i rel)
    else if isHost pa then do
      let s ← get
      await (s.carriedTo s.cur hostDie)
      set ((s.sentTo s.cur hostDie).hostItem pa i)
    else do
      checkFenced pa ea
      let s ← get
      await (s.carriedTo s.cur (homeDie (pa / 64)) && s.takesWrite (pa / 64))
      set (s.hbmItem s.cur pa i)

/-- A store: address then data read, the checks, the release of STREL, the write (R67, R247, R248). -/
def opStore (d a : SReg) (disp : Int) (item : W64 → Item) (rel : Option Scope) : Exec Unit := do
  directions [a, d] []
  let v ← readS a
  let w ← readS d
  let p ← locate v disp .store (item w).size
  match rel with
  | some sc => release sc
  | none => pure ()
  storeAt p (item w) rel.isSome
  complete

/-- The low bytes of a register. -/
def lowBytes (n : Nat) (w : W64) : Item := .bytes (leBytes n w.toNat)

def execStb (d a : SReg) (disp : BitVec 22) : State → Host.Outcome State Fault Refusal :=
  issue (opStore d a disp.toInt (lowBytes 1) none)
def execSth (d a : SReg) (disp : BitVec 22) : State → Host.Outcome State Fault Refusal :=
  issue (opStore d a disp.toInt (lowBytes 2) none)
def execStw (d a : SReg) (disp : BitVec 22) : State → Host.Outcome State Fault Refusal :=
  issue (opStore d a disp.toInt (lowBytes 4) none)
def execStd (d a : SReg) (disp : BitVec 22) : State → Host.Outcome State Fault Refusal :=
  issue (opStore d a disp.toInt (lowBytes 8) none)
def execStrel (d a : SReg) (i : SyncImm) : State → Host.Outcome State Fault Refusal :=
  issue (opStore d a i.disp.toInt (lowBytes (if i.w64 then 8 else 4)) (some i.scope))
def execStnb (d a : SReg) (disp : BitVec 22) (hi : Bool) : State → Host.Outcome State Fault Refusal :=
  issue (opStore d a disp.toInt (fun w => .nibble (w.truncate 4) hi) none)

end Sys2Proof.Machine
end

