-- ==== Sys2Proof/Machine/Atomic.lean ====
section
/-! DEFINITION. Atomics, RED and the fences (R268-R276), and the report of a bank port (R426). -/
namespace Sys2Proof.Machine

/-! ## New values (R268) -/

/-- Memory value an atomic leaves, widths of 32 or 64 bits. -/
def atomNew (i : Instr) (w old b : Nat) : Nat :=
  match i with
  | .swap .. => b % 2 ^ w
  | .fadd .. => (old + b) % 2 ^ w
  | .fand .. => Nat.land old (b % 2 ^ w)
  | .for_ .. => Nat.lor old (b % 2 ^ w)
  | .fxor .. => Nat.xor old (b % 2 ^ w)
  | .fmin _ _ _ u _ =>
    let b := b % 2 ^ w
    if u then Nat.min old b else if sext w b < sext w old then b else old
  | .fmax _ _ _ u _ =>
    let b := b % 2 ^ w
    if u then Nat.max old b else if sext w old < sext w b then b else old
  | _ => old

/-- Memory value CAS leaves. -/
def casNew (w old b c : Nat) : Nat := if old = b % 2 ^ w then c % 2 ^ w else old

/-- Bytes of an atomic. -/
def atomSize (f : AtomFlags) : Nat := if f.w64 then 8 else 4

/-! ## What an access brings back and leaves, wherever it is made -/

/-- The value an access brings back, of the number that stood there (R247, R269). -/
def FKind.value (k : FKind) (old : Nat) : W64 :=
  match k with
  | .load n signed => loadValue n signed (leBytes n old)
  | _ => w64 old

/-- The number an atomic leaves. -/
def FKind.left (k : FKind) (old : Nat) : Option Nat :=
  match k with
  | .load .. | .acq .. => none
  | .cas f b c => some (casNew (8 * atomSize f) old b.toNat c.toNat)
  | .rmw i f b => some (atomNew i (8 * atomSize f) old b.toNat)

/-! ## Atomics (R269, R270) -/

/-- An atomic on the core's own berth as one access: it stalls as a load does and as a store into a protected row (DEDUCED, log 35). -/
def atomBank (b : BankId) (addr : W64) (n : Nat) (new : Nat → Nat) : Exec W64 := do
  let s ← get
  let o := field addr 15 0
  let v := s.coreView b
  passWait (s.writeWait b o n) [.bank b o n] addr
  check (!(s.bank v).error o n) 0x0D 1 addr
  let old := leNat (s.bankRead v o n)
  set ((s.landingAcquire s.cur b o n).bankWrite v o (leBytes n (new old)))
  return w64 old

/-- An atomic at the home slice (R261, R270): update-only lines merged, the core's own copy of the line dropped; one that
misses leaves as the request `k` (R241), with the state `back` where it waits. -/
def atomHbm (back : State) (pa n : Nat) (ea : W64) (new : Nat → Nat) (k : FKind) : Exec W64 := do
  let line := pa / 64
  sendFirst (← get).cur line
  let s ← get
  match s.memError pa n with
  | some (code, info) => trap code info ea
  | none =>
    await (s.reaches s.cur (homeDie line))
    if !s.l2Ready line then sendLine (back.sendHome back.cur line) pa ea 0 false k true
    else do
      await (s.recallable line)
      let t := (s.asked s.cur (homeDie line)).recall line
      let old := leNat (t.memRead pa n)
      set ((t.memWrite (t.ownerComp pa) pa (leBytes n (new old))).updCore t.cur (·.l1Drop line))
      return w64 old

/-- An atomic: operands, checks, release, the indivisible step, acquire (R269); `hostOk` marks the three that become
PCIe AtomicOps. -/
def opAtomic (d a b : SReg) (c : Option SReg) (f : AtomFlags) (new : Nat → Nat → Nat → Nat)
    (k : W64 → W64 → FKind) (hostOk : Bool) : Exec Unit := do
  directions ([a, b] ++ c.toList) [d]
  let s0 ← get
  let v ← readS a
  let vb ← readS b
  let vc ← match c with
    | some r => readS r
    | none => pure 0
  let done := fun (old : W64) => do
    if f.acq then acquire f.scope
    finish d old
  match s0.me.wait with
  | .value w => done w
  | .failed code info va => trap code info va
  | .fabric _ | .host _ | .line _ => stall
  | _ => do
    let n := atomSize f
    let p ← locate v 0 .atomic n
    match p with
    | .mem _ pa ea => check (!(isHost pa && !hostOk)) 0x06 8 ea
    | _ => pure ()
    if f.rel then release f.scope
    awaitPlace p n
    let back := (← get).updMe fun x => { x with q := s0.me.q }
    let step := fun old => new old vb.toNat vc.toNat
    match p with
    | .fabric addr => sendFabric back addr d (k vb vc)
    | .berth bk addr => done (← atomBank bk addr n step)
    | .mem _ pa ea =>
      if isHost pa then sendHost back pa n d (k vb vc)
      else done (← atomHbm back pa n ea step (k vb vc))

/-- A read-modify-write of major 0x0C other than CAS. -/
def opRmw (i : Instr) (d a b : SReg) (f : AtomFlags) (hostOk : Bool) : Exec Unit :=
  opAtomic d a b none f (fun old vb _ => atomNew i (8 * atomSize f) old vb) (fun vb _ => .rmw i f vb) hostOk

def execCas (d a b c : SReg) (f : AtomFlags) : State → Host.Outcome State Fault Refusal :=
  issue (opAtomic d a b (some c) f (casNew (8 * atomSize f)) (fun vb vc => .cas f vb vc) true)
def execSwap (d a b : SReg) (f : AtomFlags) : State → Host.Outcome State Fault Refusal :=
  issue (opRmw (.swap d a b f) d a b f true)
def execFadd (d a b : SReg) (f : AtomFlags) : State → Host.Outcome State Fault Refusal :=
  issue (opRmw (.fadd d a b f) d a b f true)
def execFand (d a b : SReg) (f : AtomFlags) : State → Host.Outcome State Fault Refusal :=
  issue (opRmw (.fand d a b f) d a b f false)
def execFor (d a b : SReg) (f : AtomFlags) : State → Host.Outcome State Fault Refusal :=
  issue (opRmw (.for_ d a b f) d a b f false)
def execFxor (d a b : SReg) (f : AtomFlags) : State → Host.Outcome State Fault Refusal :=
  issue (opRmw (.fxor d a b f) d a b f false)
def execFmin (d a b : SReg) (u : Bool) (f : AtomFlags) : State → Host.Outcome State Fault Refusal :=
  issue (opRmw (.fmin d a b u f) d a b f false)
def execFmax (d a b : SReg) (u : Bool) (f : AtomFlags) : State → Host.Outcome State Fault Refusal :=
  issue (opRmw (.fmax d a b u f) d a b f false)

/-! ## The report of a bank port (R384, R410, R426) -/

/-- HOME and BANK in the layout of BINFO (R196). -/
def State.bankName (s : State) (b : BankId) : Nat := s.logical b.siteId * 2 ^ 16 + b.num * 2 ^ 8

/-- A sub-byte message or a bank RED met an uncorrectable word: it is not applied, and the sender learns of it. -/
def State.reportPort (s : State) (b : BankId) (src : CoreId) (fid : Nat) (addr : W64) : State :=
  let n := (s.bank b).reports
  (s.updBank b fun k => { k with reports := n + 1 }).report src fid 0x0D 2 b.num addr.toNat
    [s.bankName b, field addr 15 0] n none (origin := some b.die)

/-! ## RED (R271, R272) -/

/-- Room for an update-only line of a core's L1: of a set whose 12 ways hold other such lines the oldest is evicted, and so
merged (R239) (DESIGN CHOICE, log 9). -/
def State.redRoom (s : State) (c : CoreId) (line : Nat) : State :=
  match (s.core c).redLines line with
  | old :: r => if 11 ≤ r.length && !(old :: r).contains line then s.sendHome c old else s
  | [] => s

/-- The lines that an update sends home before it is gathered: its own, where its word holds another kind, and the one
evicted for room. -/
def State.gatherSends (s : State) (c : CoreId) (u : Update) : List Nat :=
  (if (s.core c).updates.any fun v => v.addr / 8 = u.addr / 8 && (v.op ≠ u.op || v.w64 ≠ u.w64) then [u.addr / 64] else []) ++
    (match (s.core c).redLines (u.addr / 64) with
    | old :: r => if 11 ≤ r.length && !(old :: r).contains (u.addr / 64) then [old] else []
    | [] => [])

/-- An update entered into the core's update-only line of HBM: combined with one of the same operation and width, after
the line has gone home if its word holds another kind. -/
def State.gather (s : State) (c : CoreId) (u : Update) : State :=
  let other := (s.core c).updates.any fun v => v.addr / 8 = u.addr / 8 && (v.op ≠ u.op || v.w64 ≠ u.w64)
  let s := if other then s.sendHome c (u.addr / 64) else s
  let s := s.redRoom c (u.addr / 64)
  s.updCore c fun k =>
    let k := (k.l1Drop (u.addr / 64)).l1Cut (u.addr / 64) (11 - ((k.redLines (u.addr / 64)).filter (· ≠ u.addr / 64)).length)
    if k.updates.any (·.addr = u.addr) then
      { k with updates := k.updates.map fun v =>
          if v.addr = u.addr then { v with val := w64 (redApply u.op u.w64 v.val.toNat u.val.toNat) } else v }
    else { k with updates := k.updates ++ [u] }

/-- A RED update applied to a bank as one access. -/
def State.bankRed (s : State) (b : BankId) (o : Nat) (op : RedOp) (wide : Bool) (val : W64) : State :=
  let n := if wide then 8 else 4
  s.bankWrite b o (leBytes n (redApply op wide (leNat (s.bankRead b o n)) (val.toNat % 2 ^ (8 * n))))

/-- RED (R272). -/
def opRed (a b : SReg) (op : RedOp) (wide : Bool) : Exec Unit := do
  directions [a, b] []
  let v ← readS a
  let vb ← readS b
  let n := if wide then 8 else 4
  let val := w64 (vb.toNat % 2 ^ (8 * n))
  let p ← locate v 0 .red n
  match p with
  | .mem _ pa ea => check (!isHost pa) 0x06 8 ea
  | _ => pure ()
  awaitPlace p n
  match p with
  | .fabric addr => do
    awaitRoom
    modify fun s => s.sendWrite s.cur s.curCtx addr (.red op wide val)
  | .berth bk addr => do
    let s ← get
    let o := field addr 15 0
    passWait (s.writeWait bk o n) [.bank bk o n] addr
    let w := s.coreView bk
    set (if (s.bank w).error o n then s.reportPort bk s.cur s.me.fid addr else s.bankRed w o op wide val)
  | .mem _ pa ea => do
    checkFenced pa ea
    let s ← get
    let u : Update := { addr := pa, op := op, w64 := wide, val := val, fid := s.me.fid }
    await ((s.gatherSends s.cur u).all fun l => s.carriedTo s.cur (homeDie l) && s.lineFree l)
    set (s.gather s.cur u)
  complete

def execRed (a b : SReg) (op : RedOp) (wide : Bool) : State → Host.Outcome State Fault Refusal :=
  issue (opRed a b op wide)

/-! ## Fences (R273-R276, R403) -/

/-- A recorded refusal is reported as a precise delivery fault; entry into the trap clears the record. -/
def reportRefusals : Exec Unit := do
  let r := (← get).myCore.refusals
  check (r.count = 0) 0x0B r.info r.addr

/-- FENCE (R274, R403); an acquire waits for the context's earlier reads, which it may make acquires (R259, R260). Stores to a peer window that follow a FENCE.rel travel marked (R337). -/
def opFence (kind : FenceKind) (sc : Scope) : Exec Unit := do
  if kind != .acq then do
    release sc
    modify (·.updMe fun x => { x with relMark := true })
  reportRefusals
  if kind != .rel then do
    let s ← get
    await (!s.readsPend s.cur s.curCtx (s.me.num + 1))
    acquire sc
  complete

/-- SFENCE (R275, R403). -/
def opSfence : Exec Unit := do
  await ((← get).myCore.unacked = 0)
  reportRefusals
  complete

/-- IFENCE (R276): the context's earlier stores are at their execution points, the cluster's fetched lines go. -/
def opIfence : Exec Unit := do
  let s ← get
  await (s.streamsIdle s.cur s.curCtx && s.myCore.unacked = 0)
  modify fun s => s.updCluster s.cur.siteId fun k => { k with icache := [] }
  complete

def execFence (kind : FenceKind) (sc : Scope) : State → Host.Outcome State Fault Refusal := issue (opFence kind sc)
def execSfence : State → Host.Outcome State Fault Refusal := issue opSfence
def execIfence : State → Host.Outcome State Fault Refusal := issue opIfence

end Sys2Proof.Machine
end

