-- ==== Sys2Proof/Machine/Message.lean ====
section
/-! DEFINITION. Messages, counters and the start of firings (R34-R48, R125-R128, R356, R399-R402). -/
namespace Sys2Proof.Machine

/-! ## Handler entries (R38) -/

/-- The entry of a cluster's replica of the handler table (R39). -/
def State.entry (s : State) (n : SiteId) (h : Nat) : BitVec 128 := (s.cluster n).handlers.getD h 0

def entryPc (e : BitVec 128) : W64 := w64 (field e 63 0)
def entryReload (e : BitVec 128) : Nat := field e 79 64
def entrySends (e : BitVec 128) : Nat := field e 87 80
def entryPrio (e : BitVec 128) : Nat := field e 89 88
def entryComp (e : BitVec 128) : Nat := field e 95 90
def entryValid (e : BitVec 128) : Bool := bitOf e 96
def entryVersion (e : BitVec 128) : Nat := field e 104 97

/-! ## Firing events (R34, R399, R400) -/

/-- Messages that start nothing count in the launch's DISCARD (R333). -/
def State.discard (s : State) (n : SiteId) (k : Nat) : State :=
  match s.launchAt n with
  | some l => s.updLaunch l.id fun l => { l with discard := l.discard + k }
  | none => s

/-- What a firing event for handler h with these slots comes to: the handler, the stray handler with a code, or
nothing. -/
inductive Fire where
  | start (r : Ready)
  | stray (r : Ready) (code : Nat)
  | drop
  deriving DecidableEq, Repr

/-- A stray delivery of these slots. -/
def State.strayFire (s : State) (n : SiteId) (slots : BitVec 32) (code : Nat) : Fire :=
  let e := s.entry n 254
  if entryValid e then .stray { handler := 254, entry := e, slots := slots } code else .drop

/-- A firing event: an entry with VALID 0 sends pending slots to the stray handler (R399). -/
def State.fire (s : State) (n : SiteId) (h : Nat) (slots : BitVec 32) (code : Nat) : Fire :=
  let e := s.entry n h
  if entryValid e then .start { handler := h, entry := e, slots := slots }
  else if slots = 0 then .drop
  else s.strayFire n slots code

/-- A firing event needs a place of the ready queue (R34). -/
def Fire.needsPlace : Fire → Bool
  | .drop => false
  | _ => true

/-- The stray code written into H1 bits 39:32 of the inbox copies (R399). -/
def Core.markStray (k : Core) (slots : BitVec 32) (code : Nat) : Core :=
  { k with inbox := k.inbox.map fun e =>
      if bitOf slots e.1 then (e.1, { e.2 with msg := { e.2.msg with h1 := setField e.2.msg.h1 39 32 code } }) else e }

/-- A firing event takes effect: the firing joins the ready queue, or what it would have taken is discarded and
counted. -/
def State.doFire (s : State) (c : CoreId) (slots : BitVec 32) (f : Fire) : State :=
  match f with
  | .start r => s.updCore c fun k => { k with ready := k.ready ++ [r] }
  | .stray r code => s.updCore c fun k => { (k.markStray slots code) with ready := k.ready ++ [r] }
  | .drop => (s.freeSlots c (maskSlots slots)).discard c.siteId (if slots = 0 then 1 else (maskSlots slots).length)

/-- The ready queue has a place for a firing event (R34). -/
def Core.roomFor (k : Core) (f : Fire) : Bool := !f.needsPlace || k.ready.length < 64

/-- A counter falls to zero (R43, R128): its firing event, its pending slots handed over, its value reloaded. -/
def State.fall (s : State) (c : CoreId) (n : Nat) (code : Nat) : Fire × State :=
  let k := (s.core c).counter n
  let f := s.fire c.siteId k.handler.toNat k.pending code
  let t := s.updCore c (·.setCounter n
    { k with value := BitVec.ofNat 16 (entryReload (s.entry c.siteId k.handler.toNat)), pending := 0 })
  (f, t.doFire c k.pending f)

/-! ## Counters (R128, R401) -/

/-- The fall of a counter of the issuing core; a full ready queue stalls it (R34). -/
def fallNow (n : Nat) : Exec Unit := do
  let s ← get
  let (f, t) := s.fall s.cur n 3
  await (s.myCore.roomFor f)
  set t

def opCset (d a b : SReg) (n : Nat) : Exec Unit := do
  directions [a, b] [d]
  let va ← readS a
  let vb ← readS b
  let old := (← get).myCore.counter n
  modify fun s => s.updCore s.cur (·.setCounter n { old with value := va.truncate 16, handler := vb.truncate 8 })
  if (va.truncate 16 : BitVec 16) = 0 then fallNow n
  finish d (old.value.zeroExtend 64)

def opCadd (d a : SReg) (n : Nat) : Exec Unit := do
  directions [a] [d]
  let va ← readS a
  let old := (← get).myCore.counter n
  let v := (clampInt 0 65535 (old.value.toNat + va.toInt)).toNat
  modify fun s => s.updCore s.cur (·.setCounter n { old with value := BitVec.ofNat 16 v })
  if v = 0 && old.value ≠ 0 then fallNow n
  finish d (old.value.zeroExtend 64)

def opCrd (d : SReg) (n : Nat) : Exec Unit := do
  directions [] [d]
  let k := (← get).myCore.counter n
  finish d (w64 (k.value.toNat + k.handler.toNat * 2 ^ 16 + (maskSlots k.pending).length * 2 ^ 24))

def execCset (d a b : SReg) (ctr : Fin 64) : State → Host.Outcome State Fault Refusal := issue (opCset d a b ctr.val)
def execCadd (d a : SReg) (ctr : Fin 64) : State → Host.Outcome State Fault Refusal := issue (opCadd d a ctr.val)
def execCrd (d : SReg) (ctr : Fin 64) : State → Host.Outcome State Fault Refusal := issue (opCrd d ctr.val)

/-! ## SEND, SENDT, INB (R125-R127) -/

/-- Bytes of a bank from an offset, the offset wrapping within the bank (DESIGN CHOICE, log 16). -/
def State.bankWrap (s : State) (b : BankId) (o n : Nat) : List Byte :=
  let k := Nat.min n (65536 - o)
  s.bankRead b o k ++ s.bankRead b 0 (n - k)

/-- The 48 payload bytes read from the core's own berth (R125) (DESIGN CHOICE, log 16). -/
def readPayload (c : W64) : Exec (List Byte) := do
  let b ← openBerth (field c 18 16) c
  check (c.toNat % 16 = 0) 0x04 0 c
  let o := field c 15 0
  let k := Nat.min 48 (65536 - o)
  let feet := [Foot.bank b o k, .bank b 0 (48 - k)]
  awaitStreams feet feet
  let s ← get
  passWait (s.readWait b o k) [.bank b o k] c
  passWait (s.readWait b 0 (48 - k)) [.bank b 0 (48 - k)] c
  let v := s.bank (s.coreView b)
  check (!(v.error o k || (k < 48 && v.error 0 (48 - k)))) 0x0D 1 c
  set ((s.landingAcquire s.cur b o k).landingAcquire s.cur b 0 (48 - k))
  return s.bankWrap (s.coreView b) o 48

/-- The checks of the payload address, made before a SENDT tests for an entry (R125 checks 1 to 4) (DESIGN CHOICE, log 16). -/
def checkPayload (c : W64) : Exec Unit := do
  check (field c 63 28 = 0 && field c 27 19 = 0) 0x06 4 c
  let _ ← openBerth (field c 18 16) c
  check (c.toNat % 16 = 0) 0x04 0 c

/-- The firing may send merge messages: its launch has MERGE and it is no merge firing (R32). -/
def State.mayMerge (s : State) (n : SiteId) : Bool :=
  match s.spanAt n with
  | some p => match s.launch p.launch with
    | some l => l.desc.merge
    | none => false
  | none => false

/-- SENDs that running firings of the core have still to send (R46). -/
def Core.reserved (k : Core) : Nat :=
  (k.ctxs.filter (·.2.running)).foldl (fun n e => n + (e.2.sends - e.2.sent)) 0

/-- Free entries of the outbound queue (R46). -/
def Core.outFree (k : Core) : Nat := 32 - k.outq.length

/-- The message the issuing context sends (R40, R125). -/
def State.buildMsg (s : State) (va vb : W64) (f : SendFlags) (payload : List Byte) : Msg :=
  let own := s.logical s.cur.siteId
  { h0 := msgHead (field va 58 48) (field va 47 46) (field vb 7 0) (field vb 13 8)
        (2 * b2n f.merge + b2n f.direct) ||| w64 (own % 2048 * 2 ^ 40 + s.cur.core * 2 ^ 51)
    h1 := s.myCore.seqno.zeroExtend 64
    payload := payload }

/-- The message enters the outbound queue. A destination that names no core of the span is refused where it arrives
(R126); until then the message stands under the sender's own core. -/
def State.enqueue (s : State) (va : W64) (m : Msg) : State :=
  let c := s.cur
  let d := (s.fabricCore c.siteId (field va 58 48) (field va 47 46)).getD c
  s.updCore c fun k =>
    { k with seqno := k.seqno + 1
             outq := k.outq ++ [{ msg := m, src := some c, compart := s.me.compart, dest := d }] }

/-- The value that c will have when a and b have been read before it, looked at without a pop of theirs but from c's own
queue (R67, R125). -/
def peekPayload (a b c : SReg) : Exec W64 := do
  let s ← get
  [a, b].forM fun r => if r = c then do let _ ← readS r else pure ()
  let v ← readS c
  set s
  return v

/-- SEND and SENDT (R125): the checks, then a SENDT without a free entry answers 1 and pops nothing. -/
def opSend (d a b c : SReg) (f : SendFlags) (try_ : Bool) : Exec Unit := do
  directions ([a, b] ++ if f.zp then [] else [c]) [d]
  let s0 ← get
  if !f.zp then checkPayload (← peekPayload a b c)
  check (!f.merge || s0.mayMerge s0.cur.siteId) 0x0B 7
  check (try_ || s0.me.sent < s0.me.sends) 0x0B 5
  let k := s0.myCore
  if try_ && k.outFree ≤ k.reserved then finish d 1
  else do
    await (0 < k.outFree)
    let va ← readS a
    let vb ← readS b
    let vc ← if f.zp then pure 0 else readS c
    let pay ← if f.zp then pure (List.replicate 48 0) else readPayload vc
    modify fun s => s.enqueue va (s.buildMsg va vb f pay)
    if !try_ then modify (·.updMe fun v => { v with sent := v.sent + 1 })
    finish d (if try_ then 0 else k.seqno.zeroExtend 64)

def execSend (d a b c : SReg) (f : SendFlags) : State → Host.Outcome State Fault Refusal := issue (opSend d a b c f false)
def execSendt (d a b c : SReg) (f : SendFlags) : State → Host.Outcome State Fault Refusal := issue (opSend d a b c f true)

/-- Word w of a message (R127). -/
def Msg.word (m : Msg) (w : Nat) : W64 :=
  if w = 0 then m.h0 else if w = 1 then m.h1 else w64 (leNat ((m.payload.drop (8 * (w - 2))).take 8))

/-- INB (R127): slots outside the firing's mask read as zero. -/
def opInb (d a : SReg) (w : Nat) : Exec Unit := do
  directions [a] [d]
  let va ← readS a
  let s ← get
  let slot := va.toNat % 32
  check (!(bitOf s.me.slots slot && (s.myCore.inbox.find slot).any (·.bad))) 0x0D 1
  finish d <|
    if bitOf s.me.slots slot then
      match s.myCore.inbox.find slot with
      | some m => m.msg.word w
      | none => 0
    else 0

def execInb (d a : SReg) (w : Fin 8) : State → Host.Outcome State Fault Refusal := issue (opInb d a w.val)

/-! ## Arrival (R42-R45, R356, R399, R400) -/

def Msg.dclus (m : Msg) : Nat := field m.h0 10 0
def Msg.dcore (m : Msg) : Nat := field m.h0 12 11
def Msg.hidx (m : Msg) : Nat := field m.h0 23 16
def Msg.ctr (m : Msg) : Nat := field m.h0 29 24
def Msg.direct (m : Msg) : Bool := bitOf m.h0 32
def Msg.toMerge (m : Msg) : Bool := bitOf m.h0 33
def Msg.engine (m : Msg) : Bool := bitOf m.h0 34
def Msg.fault (m : Msg) : Bool := bitOf m.h0 35
def Msg.stop (m : Msg) : Bool := bitOf m.h0 36

/-- The lowest free inbox slot (R43). -/
def Core.freeSlot (k : Core) : Option Nat := firstBelow (fun i => (k.inbox.find i).isNone) 32

/-- A refusal recorded by a core: the first one's INFO and address, and the count (R403). -/
def State.recordRefusal (s : State) (c : CoreId) (info : Nat) (addr : W64) : State :=
  s.updCore c fun k =>
    { k with refusals :=
        if k.refusals.count = 0 then { count := 1, info := info, addr := addr }
        else { k.refusals with count := k.refusals.count + 1 } }

/-- The address a refused message is reported with (R403). -/
def Msg.refusedAt (m : Msg) : W64 := w64 (2 ^ 63 + m.dclus * 2 ^ 48 + m.dcore * 2 ^ 46)

/-- A fault report that finds entry 255 with VALID 0 (R400, R411). -/
def State.dropReport (s : State) (c : CoreId) (f : Flight) : State :=
  let s := s.discard c.siteId 1
  let cause := field (f.msg.word 2) 7 0
  let s := match s.launchAt c.siteId with
    | some l => s.updLaunch l.id fun l => { l with cause := l.cause.orElse fun _ => some cause }
    | none => s
  match f.report with
  | some (owner, id) => s.retireCopy owner id
  | none => s

/-- What an accepted message comes to before its slot is known: the counter it acts on, and its firing event with the
slot's bit given. -/
def State.arrivalFire (s : State) (c : CoreId) (f : Flight) (bit : BitVec 32) : Option Fire :=
  let n := c.siteId
  if f.msg.fault && !entryValid (s.entry n 255) then some .drop
  else if f.msg.direct then some (s.fire n f.msg.hidx bit (if f.merged then 4 else 1))
  else
    let k := (s.core c).counter f.msg.ctr
    if k.value = 0 then some (s.strayFire n bit 2)
    else if k.value = 1 then some (s.fire n k.handler.toNat (k.pending ||| bit) (if f.merged then 4 else 3))
    else none

/-- The handler a message is compared with under R356. -/
def State.comparedEntry (s : State) (c : CoreId) (f : Flight) : BitVec 128 :=
  let n := c.siteId
  let k := (s.core c).counter f.msg.ctr
  let h := if f.msg.direct then f.msg.hidx else k.handler.toNat
  let e := s.entry n h
  if entryValid e && (f.msg.direct || k.value ≠ 0) then e else s.entry n 254

/-- The message is refused at arrival: it names no core of the sender's span (R126), or a handler of another
compartment (R356). -/
def State.arrivalRefused (s : State) (c : CoreId) (f : Flight) : Option Nat :=
  match f.src with
  | some o =>
    if f.merged then none
    else if s.fabricCore o.siteId f.msg.dclus f.msg.dcore ≠ some c then some 2
    else
      let e := s.comparedEntry c f
      if entryValid e && entryComp e ≠ f.compart then some 3 else none
  | none => none

/-- The message waits at the port: no slot is free, or its firing event finds the ready queue full (R34, R45). A
message that would be discarded takes neither. -/
def State.arrivalWaits (s : State) (c : CoreId) (f : Flight) : Bool :=
  match s.arrivalFire c f 1 with
  | some .drop => false
  | some g => ((s.core c).freeSlot).isNone || !(s.core c).roomFor g
  | none => ((s.core c).freeSlot).isNone

/-- The message goes into the lowest free slot and acts on its counter or starts its handler (R43). -/
def State.accept (s : State) (c : CoreId) (f : Flight) : State :=
  let k := s.core c
  let i := k.freeSlot.getD 0
  let bit : BitVec 32 := 1 <<< i
  let put := fun (t : State) =>
    t.updCore c fun k => { k with inbox := k.inbox.put i { msg := f.msg, report := f.report, comp := f.compart } }
  let n := f.msg.ctr
  let v := k.counter n
  let s := s.wake c
  match s.arrivalFire c f bit with
  | some .drop =>
    if f.msg.fault then s.dropReport c f
    else if !f.msg.direct && v.value = 1 then
      -- the counter's other pending messages are discarded with it
      ((s.freeSlots c (maskSlots v.pending)).discard c.siteId ((maskSlots v.pending).length + 1)).updCore c
        (·.setCounter n { v with value := BitVec.ofNat 16 (entryReload (s.entry c.siteId v.handler.toNat)), pending := 0 })
    else s.discard c.siteId 1
  | some g =>
    if f.msg.direct || v.value = 0 then (put s).doFire c bit g
    else
      ((put s).updCore c (·.setCounter n
        { v with value := BitVec.ofNat 16 (entryReload (s.entry c.siteId v.handler.toNat)), pending := 0 })).doFire c
        (v.pending ||| bit) g
  | none => (put s).updCore c (·.setCounter n { v with value := v.value - 1, pending := v.pending ||| bit })

/-- A merge message on its way to the merge engine, whatever its destination field holds (R32). -/
def Flight.forMerge (f : Flight) : Bool := f.msg.toMerge && !f.merged

/-- The launch whose merge engine a core's merge messages go to. -/
def State.mergeLaunch (s : State) (o : CoreId) : Option Launch := (s.spanAt o.siteId).bind fun p => s.launch p.launch

/-- A merge message enters the merge engine (R32); one whose merge cluster is lost goes nowhere (R416). -/
def State.mergeAccept (s : State) (f : Flight) : State :=
  match f.src with
  | none => s
  | some o =>
    match s.spanAt o.siteId with
    | none => s
    | some p =>
      s.updLaunch p.launch fun l =>
        if l.merge.isNone then l
        else { l with mergeMsgs := l.mergeMsgs ++
                 [{ slice := p.slice, score := s.spanCoreNo o, msg := f.msg, comp := f.compart }] }

/-- A message that has left its source reaches its destination: the merge engine, a refusal, a wait at the port, or
the inbox. -/
def State.deliver (s : State) (c : CoreId) (f : Flight) : State :=
  if f.forMerge then s.mergeAccept f
  else
    match s.arrivalRefused c f with
    | some info =>
      match f.src with
      | some o => s.recordRefusal o info f.msg.refusedAt
      | none => s
    | none =>
      if s.arrivalWaits c f then
        s.updCore c fun k =>
          { k with portSince := if k.portq.isEmpty then s.cycle else k.portSince, portq := k.portq ++ [f] }
      else s.accept c f

/-- Two messages that keep their order: merge messages of one core (R32), or messages to one core that one source core
(R42), one channel (R307) or the merge engine sent. -/
def Flight.sameStream (a b : Flight) : Bool :=
  if a.forMerge || b.forMerge then a.forMerge && b.forMerge && a.src = b.src
  else
    a.dest = b.dest &&
      ((a.src.isSome && !a.merged && a.src = b.src && !b.merged) || (a.chan.isSome && a.chan = b.chan) || (a.merged && b.merged))

/-- An earlier message of the same stream is on its way or held at a port. -/
def blockedBy (f : Flight) (earlier : List Flight) : Bool := earlier.any fun g => g.sameStream f

/-- The die that a core's message goes to: the merge cluster's, or its destination's. -/
def State.toDie (s : State) (o : CoreId) (f : Flight) : Nat :=
  if f.forMerge then (((s.mergeLaunch o).bind (·.merge)).map (·.die)).getD o.die else f.dest.die

/-- A message of a core, or of its channel, can cross to a die that stands (R278, R414). -/
def State.crosses (s : State) (o : CoreId) (d : Nat) : Bool :=
  !(s.die d).fenced && (o.die = d || s.routed ((s.partOfSite o.siteId).getD 0) o.die d)

/-- The die that an engine's message sets out from: its own, its channel's core's, or the destination's (R307, R384). -/
def Flight.fromDie (f : Flight) : Nat := f.origin.getD ((f.chan.getD f.dest).die)

/-- An engine's message can cross to its core's die on the groups of the core's partition (R278). -/
def State.engineCrosses (s : State) (f : Flight) : Bool :=
  !(s.die f.dest.die).fenced &&
    (f.fromDie = f.dest.die || s.routed ((s.partOfSite f.dest.siteId).getD 0) f.fromDie f.dest.die)

/-- The message has crossed. -/
def State.engineSent (s : State) (f : Flight) : State :=
  if f.fromDie = f.dest.die then s else s.crossing ((s.partOfSite f.dest.siteId).getD 0) f.fromDie f.dest.die

/-- A stop token waits for every message on its way to the core or held at its port (R346). -/
def State.tokenWaits (s : State) (c : CoreId) (f : Flight) (i : Nat) : Bool :=
  f.msg.stop && ((s.engine.take i).any (·.dest = c) || !(s.core c).portq.isEmpty ||
    s.cores.any fun k => k.2.outq.any fun g => g.dest = c && !g.msg.toMerge)

/-- MESSAGE_ARRIVAL. -/
def execMessageArrival (c : CoreId) (src : MsgFrom) (s : State) : Host.Outcome State Fault Refusal :=
  match src with
  | .core o i =>
    match (s.core o).outq[i]? with
    | none => .next s
    | some f =>
      event (f.dest = c && s.active o && s.crosses o (s.toDie o f) && !blockedBy f ((s.core o).outq.take i)
          && !blockedBy f (s.core c).portq)
        (fun s => ((s.updCore o fun k => { k with outq := k.outq.eraseIdx i }).sentTo o (s.toDie o f)).deliver c f) s
  | .engine i =>
    match s.engine[i]? with
    | none => .next s
    | some f =>
      event (f.dest = c && s.engineCrosses f && !blockedBy f (s.engine.take i) && !blockedBy f (s.core c).portq &&
          !s.tokenWaits c f i)
        (fun s => ({ s with engine := s.engine.eraseIdx i }.engineSent f).deliver c f) s
  | .port i =>
    match (s.core c).portq[i]? with
    | none => .next s
    | some f =>
      event (s.active c && !blockedBy f ((s.core c).portq.take i) && !(f.saved && ((s.core c).portq.take i).any (·.saved)) &&
          !s.arrivalWaits c f)
        (fun s =>
          let t := s.updCore c fun k => { k with portq := k.portq.eraseIdx i, portSince := s.cycle }
          match t.arrivalRefused c f with
          | some info =>
            match f.src with
            | some o => t.recordRefusal o info f.msg.refusedAt
            | none => t
          | none => t.accept c f) s

/-! ## The start of a firing (R35, R46, R48) -/

/-- The firing that starts next: the oldest with PRIO bit 0, or the oldest. -/
def Core.nextReady (k : Core) : Option Nat :=
  match k.ready.findIdx? fun r => entryPrio r.entry % 2 = 1 with
  | some i => some i
  | none => if k.ready.isEmpty then none else some 0

/-- A free context (R48): of several, the lowest-numbered (DESIGN CHOICE, log 38). -/
def Core.freeCtx (k : Core) : Option Nat := firstBelow (fun x => !(k.ctx x).running) 4

/-- The context of a firing as it begins (R35, R380). -/
def beginFiring (r : Ready) (fid now : Nat) : Ctx :=
  { running := true, fid := fid, pc := entryPc r.entry
    x := [(1, r.slots.zeroExtend 64), (2, w64 r.handler)]
    status := statusAtStart r.handler, slots := r.slots, handler := r.handler
    prio := BitVec.ofNat 2 (entryPrio r.entry), version := BitVec.ofNat 8 (entryVersion r.entry)
    compart := entryComp r.entry, sends := entrySends r.entry, watch := now }

/-- The firing at the head of the ready queue takes a free context; its start is an acquire of scope .part (R265). -/
def State.startFiring (s : State) (c : CoreId) : State :=
  let k := s.core c
  match k.nextReady, k.freeCtx with
  | some i, some x =>
    match k.ready[i]? with
    | some r =>
      if entrySends r.entry + k.reserved ≤ k.outFree then
        { (s.setCore c { (k.setCtx x (beginFiring r s.fids s.cycle)) with ready := k.ready.eraseIdx i }).acquire c .part with
          fids := s.fids + 1 }
      else s
    | none => s
  | _, _ => s

/-- FIRING_START. -/
def execFiringStart (c : CoreId) : State → Host.Outcome State Fault Refusal := fun s =>
  event (s.active c) (·.startFiring c) s

/-- PORT_STALL_DISCARD (R404) holds: a message has waited 2^24 cycles at the port of a core without a firing. -/
def State.portStalled (s : State) (c : CoreId) : Bool :=
  let k := s.core c
  !k.portq.isEmpty && k.ready.isEmpty && !k.ctxs.any (·.2.running) && k.portSince + 2 ^ 24 ≤ s.cycle

end Sys2Proof.Machine
end

