-- ==== Sys2Proof/Machine/Fabric.lean ====
section
/-! DEFINITION. What travels on the fabric and between cache and memory: remote writes at a bank port (R243, R301,
R409, R440), fabric loads and atomics (R186, R270), host reads. -/
namespace Sys2Proof.Machine

/-! ## Resolution at the cluster port (R186) -/

/-- The bank a fabric address names at this moment, for an access by a core of the span. -/
def State.resolve (s : State) (src : CoreId) (a : W64) : Option BankId :=
  match s.fabricCore src.siteId (field a 58 48) (field a 47 46) with
  | some d => (s.core d).berth (field a 18 16)
  | none => none

/-- Two fabric addresses name one slot of one core. -/
def sameSlot (a b : W64) : Bool := field a 58 46 = field b 58 46 && field a 18 16 = field b 18 16

/-- Two fabric addresses go to one bank port: by name, or as the berth tables stand. -/
def State.samePort (s : State) (a : W64) (ca : CoreId) (b : W64) (cb : CoreId) : Bool :=
  sameSlot a b ||
    ((s.resolve ca a).isSome && s.resolve ca a = s.resolve cb b)

/-! ## Writes at a bank port (R440) -/

/-- The acknowledgement of a remote store sets out (R243). -/
def State.ackWrite (s : State) (w : FWrite) (refused : Option Nat) : State :=
  { s with acks := s.acks ++ [{ core := w.src, ctx := w.ctx, addr := w.addr, refused := refused }] }

/-- The outcome of a fabric load or atomic sets out for its context. -/
def State.respond (s : State) (r : FReq) (v : W64) (fault : Option (Nat × Nat)) : State :=
  { s with fresps := s.fresps ++ [{ req := r, value := v, fault := fault }] }

/-- The effect of a fabric access at its bank: the value and the state after it (R270). -/
def State.fabricAccess (s : State) (r : FReq) (b : BankId) : W64 × State :=
  let o := field r.addr 15 0
  let old := leNat (s.bankRead b o r.kind.size)
  (r.kind.value old, ((r.kind.left old).map fun new => s.bankWrite b o (leBytes r.kind.size new)).getD s)

/-- A fabric access takes effect at its bank, unless a word it reads is bad (R426), and its outcome sets out. -/
def State.accessBank (s : State) (r : FReq) (b : BankId) : State :=
  let o := field r.addr 15 0
  if (s.bank b).error o r.kind.size then s.respond r 0 (some (0x0D, 1))
  else
    let (v, t) := s.fabricAccess r b
    (t.landingAcquire r.core b o r.kind.size).respond r v none

/-- A write applied at its bank and acknowledged; a sub-byte message or RED on a bad word is not applied (R426). -/
def State.applyWrite (s : State) (b : BankId) (w : FWrite) : State :=
  let o := w.off
  match w.kind with
  | .bytes d => (s.bankWrite b o d).ackWrite w none
  | .nibble v h =>
    if (s.bank b).error o 1 then (s.reportPort b w.src w.fid w.addr).ackWrite w none
    else (s.bankWrite b o [nibbleInto (cellGet (s.bank b).bytes o) h v.toNat]).ackWrite w none
  | .red op wide v =>
    if (s.bank b).error o w.kind.size then (s.reportPort b w.src w.fid w.addr).ackWrite w none
    else (s.bankRed b o op wide v).ackWrite w none
  | .access r => s.accessBank r b

/-- What holds a write at the port, earlier held writes apart: an open region, copies accepted and matrix instructions issued
before it (R192, R210, R301). -/
def State.holdsWrite (s : State) (b : BankId) (w : FWrite) : Bool :=
  let k := s.bank b
  k.shadow.isSome || anyByte w.off w.kind.size (k.landingHeldBy w.order) || s.protectedBefore b w.off w.kind.size w.order

/-- Two writes share a byte. -/
def FWrite.shares (v w : FWrite) : Bool := v.covers w.off w.kind.size

/-- An arrival is refused at the port: to a store by its acknowledgement, to a fabric access by a fault (R420, R428). -/
def State.refuseWrite (s : State) (w : FWrite) (info code sub : Nat) : State :=
  match w.kind with
  | .access r => s.respond r 0 (some (code, sub))
  | _ => s.ackWrite w (some info)

/-- A fabric load waits at the port for the bytes it reads (R300). -/
def State.loadWaits (s : State) (b : BankId) (r : FReq) : Bool :=
  let o := field r.addr 15 0
  anyByte o r.kind.size (s.bank b).landingHeld || (s.bank b).held.any (·.covers o r.kind.size)

/-- A fabric load taken by the port: answered, or waiting there, bound to the bank (R186, R300). -/
def State.takeLoad (s : State) (b : BankId) (r : FReq) : State :=
  if s.loadWaits b r then { s with freqs := s.freqs ++ [{ r with bound := some b }] } else s.accessBank r b

/-- An arrival that the port takes: refused by the bank's tag or a frozen envelope, held in one of 64 places, or applied;
one that finds every place in use waits in the fabric before the port (R428, R409, R440). -/
def State.portWrite (s : State) (b : BankId) (w : FWrite) : State :=
  let k := s.bank b
  let isLoad := match w.kind with
    | .access r => !r.kind.writes
    | _ => false
  if !tagAllows w.comp k.tag then s.refuseWrite w 3 0x06 7
  else if anyByte w.off w.kind.size k.frozenHeld then s.refuseWrite w 6 0x08 0
  else if isLoad then (match w.kind with
    | .access r => s.takeLoad b r
    | _ => s)
  else if s.holdsWrite b w || k.held.any (·.shares w) then
    if k.held.length < 64 then s.updBank b fun k => { k with held := k.held ++ [w] }
    else s.updBank b fun k => { k with waiting := k.waiting ++ [w] }
  else s.applyWrite b w

/-- The die of the cluster port that a fabric address names. -/
def State.portDie (s : State) (src : CoreId) (a : W64) : Nat := ((s.fabricCore src.siteId (field a 58 48) (field a 47 46)).getD src).die

/-- The port before which an arrival for the same slot waits already: it holds every later one (R243, R440). -/
def State.behind (s : State) (w : FWrite) : Option BankId := (s.banks.find? fun e => e.2.waiting.any fun v => sameSlot v.addr w.addr).map (·.1)

/-- An arrival at the port of its bank: resolved when the port takes it, behind every arrival that waits there or for its
slot (R186, R440). -/
def State.writeArrives (s : State) (w : FWrite) : State :=
  match s.behind w with
  | some b => s.updBank b fun k => { k with waiting := k.waiting ++ [w] }
  | none =>
    match s.resolve w.src w.addr with
    | none => s.refuseWrite w 1 0x07 0
    | some b =>
      if (s.bank b).waiting.isEmpty then ({ s with ids := s.ids + 1 }.firstUse w.src b).portWrite b { w with order := s.ids }
      else s.updBank b fun k => { k with waiting := k.waiting ++ [w] }

/-- Arrivals that waited before a port, taken in order until one must wait again. -/
def State.takeWaiting (s : State) (b : BankId) : List FWrite → State
  | [] => s
  | w :: ws =>
    let t := s.writeArrives w
    if (t.bank b).waiting.isEmpty then t.takeWaiting b ws
    else t.updBank b fun k => { k with waiting := k.waiting ++ ws }

/-- The waiting arrivals of a port, taken again. -/
def State.readmit (s : State) (b : BankId) : State :=
  let ws := (s.bank b).waiting
  if ws.isEmpty then s else (s.updBank b fun k => { k with waiting := [] }).takeWaiting b ws

/-- REMOTE_WRITE_ARRIVAL: stores of one core to one port arrive in the order issued (R243); the acknowledgement's way back counts
with the store's (DESIGN CHOICE, log 18). -/
def execRemoteWriteArrival (i : Nat) (s : State) : Host.Outcome State Fault Refusal :=
  match s.fwrites[i]? with
  | none => .next s
  | some w =>
    event (!((s.fwrites.take i).any fun v => v.src = w.src && s.samePort v.addr v.src w.addr w.src) &&
        s.reaches w.src (s.portDie w.src w.addr))
      (fun s => ({ s with fwrites := s.fwrites.eraseIdx i }.asked w.src (s.portDie w.src w.addr)).writeArrives w) s

/-- A held write may be applied: nothing holds it and no earlier held write shares a byte with it, nor, of two that came back
from the shadow store, stands before it (R345). -/
def State.heldReady (s : State) (b : BankId) (i : Nat) (w : FWrite) : Bool :=
  !s.holdsWrite b w && !((s.bank b).held.take i).any fun v => v.shares w || (v.saved && w.saved)

/-- A held write leaves its place and is applied; what waited for the place goes on. -/
def State.applyAt (s : State) (b : BankId) (i : Nat) (w : FWrite) : State :=
  ((s.updBank b fun k => { k with held := k.held.eraseIdx i }).applyWrite b w).readmit b

/-- HELD_WRITE_APPLY. -/
def execHeldWriteApply (b : BankId) (i : Nat) (s : State) : Host.Outcome State Fault Refusal :=
  match (s.bank b).held[i]? with
  | none => .next s
  | some w => event (s.heldReady b i w) (·.applyAt b i w) s

/-- A held write that stands first and that nothing holds any more is applied. -/
def State.applyOne (s : State) (b : BankId) (w : FWrite) : State :=
  match (s.bank b).held.idxOf? w with
  | some i => if s.heldReady b i w then s.applyAt b i w else s
  | none => s

/-- Every held write that nothing holds any more is applied, in order: a clear finds it done (R197). -/
def State.applyReady (s : State) (b : BankId) : State := (s.bank b).held.foldl (fun t w => t.applyOne b w) s

/-- A held write that a bank's own copies and regions do not hold: it waits for matrix instructions, or for nothing. -/
def State.heldToApply (s : State) (b : BankId) : Bool :=
  (s.bank b).held.zipIdx.any fun e => s.heldReady b e.2 e.1 || s.protectedBefore b e.1.off e.1.kind.size e.1.order

/-- An acknowledgement reaches its core: the count falls, a refusal is recorded, a WFE may end (R243, R395, R403). -/
def State.ackArrives (s : State) (a : Ack) (peerRefused : Bool) : State :=
  let info := match a.refused with
    | some n => some n
    | none => if a.peer.isSome && peerRefused then some 4 else none
  let t := s.updCore a.core fun k => { k with unacked := k.unacked - 1 }
  let t := match info with
    | some n => t.recordRefusal a.core n a.addr
    | none => t
  if (t.core a.core).unacked = 0 then t.wake a.core else t

/-- STORE_ACK; `peerRefused` is the peer's answer to a peer store (R430). -/
def execStoreAck (i : Nat) (peerRefused : Bool) (s : State) : Host.Outcome State Fault Refusal :=
  match s.acks[i]? with
  | none => .next s
  | some a => event a.queued.isNone (fun s => { s with acks := s.acks.eraseIdx i }.ackArrives a peerRefused) s

/-! ## Fabric loads and atomics (R186, R270, R300) -/

/-- The fault that a load waiting at its port meets there: a frozen landing, a bad word. -/
def State.loadFault (s : State) (r : FReq) (b : BankId) : Option (Nat × Nat) :=
  let o := field r.addr 15 0
  if anyByte o r.kind.size (s.bank b).frozenHeld then some (0x08, 0)
  else if (s.bank b).st = .revoked then some (0x07, 0)
  else none

/-- A fabric access arrives like a write to its port, and a load that waits there is answered. -/
def State.accessArrives (s : State) (r : FReq) : State :=
  match r.bound with
  | none => s.writeArrives { src := r.core, ctx := r.ctx, fid := r.fid, comp := r.comp, addr := r.addr, kind := .access r }
  | some b =>
    match s.loadFault r b with
    | some f => s.respond r 0 (some f)
    | none => s.accessBank r b

/-- FABRIC_ACCESS_ARRIVAL: after the core's earlier stores to the port (R245, R253, R261). -/
def execFabricAccessArrival (i : Nat) (s : State) : Host.Outcome State Fault Refusal :=
  match s.freqs[i]? with
  | none => .next s
  | some r =>
    let go := match r.bound with
      | some b => !s.loadWaits b r || (s.loadFault r b).isSome
      | none =>
        !(s.fwrites.any fun w => w.src = r.core && s.samePort w.addr w.src r.addr r.core) &&
          s.reaches r.core (s.portDie r.core r.addr)
    let cross := fun (t : State) => if r.bound.isSome then t else t.asked r.core (s.portDie r.core r.addr)
    event go (fun s => (cross { s with freqs := s.freqs.eraseIdx i }).accessArrives r) s

/-- FABRIC_LOAD_RETURN: the value, or the fault, reaches the stalled context, whose instruction completes with it or
traps at its next turn (R248, R420). -/
def execFabricLoadReturn (i : Nat) (s : State) : Host.Outcome State Fault Refusal :=
  match s.fresps[i]? with
  | none => .next s
  | some p =>
    let out := match p.fault with
      | some (code, info) => Wait.failed code info p.req.addr
      | none => Wait.value p.value
    event true
      (fun s => { s with fresps := s.fresps.eraseIdx i }.settle p.req.core p.req.ctx p.req.fid (.fabric p.req.id) out) s

/-! ## Host memory (R235, R270) -/

/-- The host answers a read or an AtomicOp with the bytes that stood there; they are what its memory holds (DESIGN CHOICE, log 17). -/
def State.hostAnswers (s : State) (h : HReq) (data : List Byte) : State :=
  let s := s.memPuts 0 h.pa data
  let t := ((h.kind.left (leNat data)).map fun new => s.memPuts 0 h.pa (leBytes h.size new)).getD s
  t.settle h.core h.ctx h.fid (.host h.id) (.value (h.kind.value (leNat data)))

/-- HOST_READ_COMPLETION; the bytes are the host's. -/
def execHostReadCompletion (i : Nat) (data : List Byte) (s : State) : Host.Outcome State Fault Refusal :=
  match s.hreqs[i]? with
  | none => .next s
  | some h =>
    event (data.length = h.size) (fun s => { s with hreqs := s.hreqs.eraseIdx i }.hostAnswers h data) s

end Sys2Proof.Machine
end

