-- ==== Sys2Proof/Machine/Crypto.lean ====
section
/-! DEFINITION. SHA-256 (R361, R367), RSA-OAEP and RSASSA-PSS under it (R361, R366), AES-256-GCM with a 96-bit nonce (R363,
R366) and XTS-AES-256 (R357), over byte lists. -/
namespace Sys2Proof.Machine

/-- The number of a byte list, first byte highest. -/
def beNat (l : List Byte) : Nat := l.foldl (fun n b => 256 * n + b.toNat) 0

/-- n bytes of a number, highest first. -/
def beBytes (n v : Nat) : List Byte := (leBytes n v).reverse

/-- A byte list cut or filled with zeros to n bytes. -/
def fitTo (n : Nat) (l : List Byte) : List Byte := l.take n ++ List.replicate (n - l.length) 0

/-- A byte list in pieces of k bytes, at most n of them. -/
def chunks (k : Nat) : Nat → List Byte → List (List Byte)
  | 0, _ => []
  | n + 1, l => if l.isEmpty then [] else l.take k :: chunks k n (l.drop k)

/-- Two byte lists, byte by byte. -/
def xorBytes (a b : List Byte) : List Byte := List.zipWith (· ^^^ ·) a b

/-! ## SHA-256 -/

/-- The primes below a bound of at most 361. -/
def primesBelow (n : Nat) : List Nat :=
  (List.range n).filter fun p => 1 < p && (List.range 19).all fun d => d < 2 || p ≤ d || p % d ≠ 0

/-- The largest number with r in its bits above the low b, whose k-th power is at most n. -/
def rootBits (k n : Nat) : Nat → Nat → Nat
  | 0, r => r
  | b + 1, r => rootBits k n b (if (r + 2 ^ b) ^ k ≤ n then r + 2 ^ b else r)

/-- The first 32 bits of the fraction of a k-th root. -/
def rootFraction (k p : Nat) : W32 := BitVec.ofNat 32 (rootBits k (p * 2 ^ (32 * k)) 37 0)

/-- Constants of the rounds: from the cube roots of the first 64 primes. -/
def shaRounds : List W32 := (primesBelow 312).map (rootFraction 3)

/-- The hash value to begin with: from the square roots of the first eight primes. -/
def shaStart : List W32 := (primesBelow 20).map (rootFraction 2)

/-- The exclusive or of some rotations of a word. -/
def rotations (rs : List Nat) (x : W32) : W32 := rs.foldl (fun y r => y ^^^ x.rotateRight r) 0

/-- A word of the schedule from the 16 before it, the newest first. -/
def shaWord (l : List W32) : W32 :=
  let near := l.getD 1 0
  let far := l.getD 14 0
  (rotations [17, 19] near ^^^ near >>> 10) + (rotations [7, 18] far ^^^ far >>> 3) + l.getD 6 0 + l.getD 15 0

/-- The schedule grown by n words, the newest first. -/
def shaGrow : Nat → List W32 → List W32
  | 0, l => l
  | n + 1, l => shaGrow n (shaWord l :: l)

/-- A round: the working words as two halves of four, and the round's constant with the word of the schedule. -/
def shaTurn (h : List W32 × List W32) (k : W32) : List W32 × List W32 :=
  match h with
  | ([a, b, c, d], [e, f, g, i]) =>
    let u := i + k + rotations [6, 11, 25] e + (g ^^^ (e &&& (f ^^^ g)))
    let v := rotations [2, 13, 22] a + ((a &&& b) ||| (c &&& (a ||| b)))
    ([u + v, a, b, c], [d + u, e, f, g])
  | _ => h

/-- The hash value after one more block of 64 bytes. -/
def shaBlock (h : List W32) (b : List Byte) : List W32 :=
  let first := (chunks 4 16 b).map fun q => BitVec.ofNat 32 (beNat q)
  let ks := List.zipWith (fun k w => k + w) shaRounds (shaGrow 48 first.reverse).reverse
  let (x, y) := ks.foldl shaTurn (h.take 4, h.drop 4)
  List.zipWith (fun p q => p + q) h (x ++ y)

/-- The padded message. -/
def shaPad (l : List Byte) : List Byte :=
  l ++ [0x80] ++ List.replicate ((119 - l.length % 64) % 64) 0 ++ beBytes 8 (8 * l.length)

def sha256 (l : List Byte) : List Byte :=
  ((chunks 64 (l.length / 64 + 2) (shaPad l)).foldl shaBlock shaStart).flatMap fun w => beBytes 4 w.toNat

/-! ## RSA-3072 with SHA-256 (PKCS #1 v2.2; R361, R366) -/

/-- b^e modulo n, the low f bits of e. -/
def powMod (n : Nat) : Nat → Nat → Nat → Nat
  | 0, _, _ => 1 % n
  | f + 1, b, e =>
    let r := powMod n f (b * b % n) (e / 2)
    if e % 2 = 1 then b * r % n else r

/-- x and y with a·x + b·y the greatest common divisor of a and b; `f` bounds the divisions. -/
def bezout : Nat → Nat → Nat → Int × Int
  | 0, _, _ => (1, 0)
  | f + 1, a, b =>
    if b = 0 then (1, 0)
    else
      let (x, y) := bezout f b (a % b)
      (y, x - (a / b : Nat) * y)

/-- The exponent that undoes 65,537 under the modulus p·q. -/
def rsaPrivate (p q : Nat) : Nat :=
  let m := Nat.lcm (p - 1) (q - 1)
  ((bezout 6144 65537 m).1 % (m : Int)).toNat

/-- The private operation on a number. -/
def rsaApply (p q m : Nat) : Nat := powMod (p * q) 3072 m (rsaPrivate p q)

/-- MGF1: n bytes of mask from a seed. -/
def mgf1 (seed : List Byte) (n : Nat) : List Byte :=
  ((List.range (n / 32 + 1)).flatMap fun i => sha256 (seed ++ beBytes 4 i)).take n

/-- The message behind the padding of OAEP's data block: zeros and a one. -/
def oaepMessage : List Byte → Option (List Byte)
  | [] => none
  | b :: bs => if b = 0 then oaepMessage bs else if b = 1 then some bs else none

/-- RSA-OAEP decryption with an empty label. -/
def oaepUnwrap (p q : Nat) (c : List Byte) : Option (List Byte) :=
  if p * q ≤ beNat c then none
  else
    let em := beBytes 384 (rsaApply p q (beNat c))
    let masked := em.drop 33
    let seed := xorBytes ((em.drop 1).take 32) (mgf1 masked 32)
    let db := xorBytes masked (mgf1 seed 351)
    if em.headD 1 = 0 && db.take 32 = sha256 [] then oaepMessage (db.drop 32) else none

/-- RSASSA-PSS signature of a hash with a salt. -/
def pssSign (p q : Nat) (hash salt : List Byte) : List Byte :=
  let h := sha256 (List.replicate 8 0 ++ hash ++ salt)
  let db := List.replicate (350 - salt.length) 0 ++ [1] ++ salt
  let masked := xorBytes db (mgf1 h 351)
  let em := (masked.headD 0 &&& 0x7F) :: (masked.drop 1 ++ h ++ [0xBC])
  beBytes 384 (rsaApply p q (beNat em))

/-- A decoded signature of 384 bytes fits a hash, n bytes of it the salt: padding, separator, hash and trailer. -/
def pssFits (n : Nat) (hash em : List Byte) : Bool :=
  let h := (em.drop 351).take 32
  let masked := xorBytes (em.take 351) (mgf1 h 351)
  let db := (masked.headD 0 &&& 0x7F) :: masked.drop 1
  n ≤ 350 && !(em.headD 0).msb && em.drop 383 = [0xBC] && db.take (351 - n) = List.replicate (350 - n) 0 ++ [1] &&
    h = sha256 (List.replicate 8 0 ++ hash ++ db.drop (351 - n))

/-- RSASSA-PSS verification of a signature of a hash under a public key, the salt's length given. -/
def pssVerify (modulus exponent n : Nat) (hash sig : List Byte) : Bool :=
  beNat sig < modulus && pssFits n hash (beBytes 384 (powMod modulus 3072 (beNat sig) exponent))

/-! ## AES-256 -/

/-- Multiplication by x in GF(2^8). -/
def xtime (a : Byte) : Byte := (a <<< 1) ^^^ (if a.msb then 0x1B else 0)

/-- Multiplication in GF(2^8), the low n bits of a. -/
def gfMul : Nat → Byte → Byte → Byte
  | 0, _, _ => 0
  | n + 1, a, b => (if a.getLsbD 0 then b else 0) ^^^ gfMul n (a >>> 1) (xtime b)

def gfSq (a : Byte) : Byte := gfMul 8 a a

/-- The inverse in GF(2^8), a^254; 0 for 0. -/
def gfInv (a : Byte) : Byte :=
  let a2 := gfSq a
  let a4 := gfSq a2
  let a8 := gfSq a4
  let a16 := gfSq a8
  let a32 := gfSq a16
  let a64 := gfSq a32
  let a128 := gfSq a64
  [a4, a8, a16, a32, a64, a128].foldl (gfMul 8) a2

/-- The AES S-box. -/
def sbox (a : Byte) : Byte :=
  let b := gfInv a
  b ^^^ b.rotateLeft 1 ^^^ b.rotateLeft 2 ^^^ b.rotateLeft 3 ^^^ b.rotateLeft 4 ^^^ 0x63

/-- The key schedule, newest word first; `rc` is the round constant. -/
def aesExpand : Nat → Nat → Byte → List (List Byte) → List (List Byte)
  | 0, _, _, w => w
  | n + 1, i, rc, w =>
    let t := w.headD []
    let t' :=
      if i % 8 = 0 then xorBytes ((t.drop 1 ++ t.take 1).map sbox) [rc, 0, 0, 0]
      else if i % 8 = 4 then t.map sbox
      else t
    aesExpand n (i + 1) (if i % 8 = 0 then xtime rc else rc) (xorBytes (w.getD 7 []) t' :: w)

/-- The fifteen round keys. -/
def aesKeys (key : List Byte) : List (List Byte) :=
  chunks 16 15 (aesExpand 52 8 1 (chunks 4 8 (fitTo 32 key)).reverse).reverse.flatten

/-- The state's bytes stand column by column; row r moves r columns. -/
def shiftRows (s : List Byte) : List Byte := (List.range 16).map fun i => s.getD ((i + 4 * (i % 4)) % 16) 0

def mixColumn (c : List Byte) : List Byte :=
  let g := fun i => c.getD (i % 4) 0
  (List.range 4).map fun i => xtime (g i) ^^^ (xtime (g (i + 1)) ^^^ g (i + 1)) ^^^ g (i + 2) ^^^ g (i + 3)

def mixColumns (s : List Byte) : List Byte := (chunks 4 4 s).flatMap mixColumn

/-- The rounds after the first key addition. -/
def aesRounds : List (List Byte) → List Byte → List Byte
  | [], s => s
  | [k], s => xorBytes (shiftRows (s.map sbox)) k
  | k :: ks, s => aesRounds ks (xorBytes (mixColumns (shiftRows (s.map sbox))) k)

/-- One block under expanded keys. -/
def aesBlock (ks : List (List Byte)) (b : List Byte) : List Byte :=
  aesRounds (ks.drop 1) (xorBytes b (ks.headD []))

/-! ## GCM -/

/-- Multiplication in GF(2^128) as GCM numbers its bits: bit 0 is the highest of the first byte. -/
def ghMul : Nat → BitVec 128 → BitVec 128 → BitVec 128
  | 0, _, _ => 0
  | n + 1, x, v =>
    (if x.msb then v else 0) ^^^
      ghMul n (x <<< 1) ((v >>> 1) ^^^ (if v.getLsbD 0 then (0xE1 : BitVec 128) <<< 120 else 0))

/-- GHASH of blocks. -/
def ghash (h : BitVec 128) (blocks : List (List Byte)) : BitVec 128 :=
  blocks.foldl (fun y b => ghMul 128 (y ^^^ BitVec.ofNat 128 (beNat (fitTo 16 b))) h) 0

/-- Counter mode from counter value c onward. -/
def ctrMode (ks : List (List Byte)) (iv : List Byte) : Nat → List (List Byte) → List Byte
  | _, [] => []
  | c, b :: bs => xorBytes b (aesBlock ks (iv ++ beBytes 4 c)) ++ ctrMode ks iv (c + 1) bs

/-- The text under the key stream: encryption and decryption alike. -/
def gcmText (key iv text : List Byte) : List Byte := ctrMode (aesKeys key) iv 2 (chunks 16 text.length text)

/-- The tag of a ciphertext with its associated data. -/
def gcmTag (key iv aad ct : List Byte) : List Byte :=
  let ks := aesKeys key
  let h := BitVec.ofNat 128 (beNat (aesBlock ks (List.replicate 16 0)))
  let y := ghash h (chunks 16 aad.length aad ++ chunks 16 ct.length ct ++ [beBytes 8 (8 * aad.length) ++ beBytes 8 (8 * ct.length)])
  xorBytes (beBytes 16 y.toNat) (aesBlock ks (iv ++ [0, 0, 0, 1]))

/-! ## XTS-AES-256 (IEEE 1619; R357) -/

/-- The mask of the next block: multiplied by x in GF(2^128), byte 0 lowest. -/
def xtsNext (t : List Byte) : List Byte :=
  let v := BitVec.ofNat 128 (leNat t)
  leBytes 16 ((v <<< 1) ^^^ (if v.msb then (0x87 : BitVec 128) else 0)).toNat

/-- Blocks under a first key and the masks from one onward. -/
def xtsBlocks (ks : List (List Byte)) : List Byte → List (List Byte) → List Byte
  | _, [] => []
  | t, b :: bs => xorBytes (aesBlock ks (xorBytes b t)) t ++ xtsBlocks ks (xtsNext t) bs

/-- A data unit of whole blocks encrypted under a pair of keys, its number the tweak. -/
def xtsText (pair : List Byte) (unit : Nat) (text : List Byte) : List Byte :=
  let k := fitTo 64 pair
  xtsBlocks (aesKeys (k.take 32)) (aesBlock (aesKeys (k.drop 32)) (leBytes 16 unit)) (chunks 16 (text.length / 16) text)

end Sys2Proof.Machine
end

