-- ==== Sys2Proof/Machine/BankOps.lean ====
section
/-! DEFINITION. Banks, berths and hand-over (R181-R200), speculative regions (R192, R193, R425), tags on the way to and
from the pool (R355, R427). -/
namespace Sys2Proof.Machine

/-! ## Reach, pool, quota -/

/-- The bank may be berthed to a core of the site (R183). -/
def State.reach (s : State) (b : BankId) (n : SiteId) : Bool :=
  (b.siteId = n || b.siteId.adjacent n) && s.enabled b.siteId && s.enabled n

/-- The banks of a site. -/
def siteBanks (n : SiteId) : List BankId := (List.range 32).map fun i => ⟨n.die, n.site, i⟩

/-- The lowest-numbered free bank of a site. -/
def State.freeBank (s : State) (n : SiteId) : Option BankId := (siteBanks n).find? fun b => (s.bank b).st = .free

/-- Banks a span holds berthed or shadow (R184). -/
def State.bankCount (s : State) (n : SiteId) : Nat :=
  (s.banks.filter fun e => (s.spanSites n).contains e.1.siteId && (e.2.st = .berthed || e.2.st = .shadow)).length

/-- The span's QUOTA is full (R184). -/
def State.quotaFull (s : State) (n : SiteId) : Bool :=
  match s.launchAt n with
  | some l => l.desc.quota ≤ s.bankCount n
  | none => true

/-- A bank returns to its pool: cleared and tagged 0 if its tag was not 0, disabled if it is to be retired, and lost to
every launch (R355, R398, R427). -/
def State.toPool (s : State) (b : BankId) : State :=
  let s := if (s.bank b).tag ≠ 0 then s.bankClear b else s
  let s := if (s.bank b).retire then { s with recheck := true } else s
  s.updBank b fun k =>
    { k with st := if k.retire then .disabled else .free, tag := 0, shadow := none, rev := none, part := none }

/-! ## Waits (R188, R189, R209) -/

/-- An access to the bank that the core made before is not complete: a vector instruction the context forwarded, a
matrix instruction of any context of the core, or a scalar access of another context that has issued and waits; one that another
context has only forwarded is none (DEDUCED, log 40). -/
def State.bankBusy (s : State) (c : CoreId) (x : Nat) (b : BankId) : Bool :=
  let all := [Foot.bank b 0 65536]
  feetOverlap all (s.seqFeet c x ((s.ctx c x).num + 1)) ||
    (s.core c).slice.any (fun e => e.accesses && feetOverlap all e.feet) ||
    (s.core c).ctxs.any fun e => e.1 ≠ x && e.2.running && feetOverlap all e.2.touch

/-- An access of a berth's own core is not complete, for UNBERTH (R200). -/
def State.coreBusy (s : State) (k : CoreId) (b : BankId) : Bool :=
  if k = s.cur then s.bankBusy k s.curCtx b else (List.range 4).any fun x => s.bankBusy k x b

/-- A matrix instruction of some core that resolved the bank at issue has not consumed its operands (R209). -/
def State.mmaReads (s : State) (b : BankId) : Bool :=
  s.cores.any fun k => k.2.slice.any fun e => !e.cons && e.prot.any (·.1 = b)

/-- The wait of R188. -/
def awaitBank (b : BankId) : Exec Unit := do
  let s ← get
  await (!s.bankBusy s.cur s.curCtx b)

/-- The wait of R209. -/
def awaitReaders (b : BankId) : Exec Unit := do
  let s ← get
  await (!s.mmaReads b)

/-- Stores that the port resolved before a clear, or before the bank goes to the pool, have been applied (R197, R200). -/
def awaitPort (b : BankId) : Exec Unit := do
  awaitReaders b
  await (!(← get).heldToApply b)

/-- Some slot's bank, waited for. -/
def ownBerth (slot : Nat) : Exec (Option BankId) := do
  let s ← get
  match s.myCore.berth slot with
  | some b => do
    awaitBank b
    return some b
  | none => return none

/-! ## HAND (R188-R191, R195) -/

/-- The bank leaves one berth and stands in another at one moment; the receiver's first access through the slot acquires
(R189, R255). -/
def State.moveBank (s : State) (c : CoreId) (slot : Nat) (d : CoreId) (ts : Nat) (b : BankId) : State :=
  (s.updCore c (·.setBerth slot none)).updCore d fun k =>
    let k := k.setBerth ts (some b)
    { k with handed := ts :: k.handed }

/-- The status of a HAND, its checks in order (R195). -/
def State.handStatus (s : State) (b : Option BankId) (t : W64) : Nat :=
  match b with
  | none => 3
  | some b =>
    if (s.bank b).shadow.isSome then 4
    else
      match s.fabricCore s.cur.siteId (field t 58 48) (field t 47 46) with
      | none => 5
      | some d =>
        if !s.reach b d.siteId then 1
        else if ((s.core d).berth (field t 18 16)).isSome then 2
        else 0

def opHand (d a : SReg) (slot : Nat) : Exec Unit := do
  directions [a] [d]
  let t ← readS a
  let b ← ownBerth slot
  match b with
  | some b => await (!(← get).heldToApply b)
  | none => pure ()
  let s ← get
  let st := s.handStatus b t
  match b, s.fabricCore s.cur.siteId (field t 58 48) (field t 47 46) with
  | some b, some k => if st = 0 then set (s.moveBank s.cur slot k (field t 18 16) b)
  | _, _ => pure ()
  finish d (w64 st)

def execHand (d a : SReg) (slot : Fin 8) : State → Host.Outcome State Fault Refusal := issue (opHand d a slot.val)

/-! ## BINFO, WMRD (R196, R199) -/

/-- A bank's copies that wait behind its open envelope or for it. -/
def Bank.queued (k : Bank) : Bool := !k.waitingCopies.isEmpty

/-- The description of a berth (R196). -/
def State.binfo (s : State) (c : CoreId) (slot : Nat) : W64 :=
  match (s.core c).berth slot with
  | none => 0
  | some b =>
    let k := s.bank b
    w64 (s.bankName b + b2n k.queued * 2 ^ 7 + b2n k.wmFroz * 2 ^ 6 + b2n k.wmSusp * 2 ^ 5 + b2n k.wmOpen * 2 ^ 4 +
      b2n k.shadow.isSome * 2 ^ 3 + b2n (b.siteId ≠ c.siteId) * 2 ^ 2 + 1)

def opBinfo (d a : SReg) (rem : Bool) (slot : Nat) : Exec Unit := do
  directions (if rem then [a] else []) [d]
  let t ← if rem then readS a else pure 0
  let s ← get
  if rem then
    match s.fabricCore s.cur.siteId (field t 58 48) (field t 47 46) with
    | some k => finish d (s.binfo k (field t 18 16))
    | none => finish d (w64 (5 * 2 ^ 60))
  else finish d (s.binfo s.cur slot)

def execBinfo (d a : SReg) (rem : Bool) (slot : Fin 8) : State → Host.Outcome State Fault Refusal :=
  issue (opBinfo d a rem slot.val)

/-- One part of a watermark (R199). -/
def Bank.watermark (k : Bank) (part : Nat) : W64 :=
  match part with
  | 0 =>
    w64 (k.wmW + b2n k.wmOpen * 2 ^ 17 + b2n k.wmSusp * 2 ^ 18 + b2n k.wmFroz * 2 ^ 19 + k.wmChan * 2 ^ 20 +
      b2n k.queued * 2 ^ 22)
  | 1 => w64 (k.wmStart + k.wmEnd * 2 ^ 16)
  | _ => w64 k.wmId.toNat

/-- WMRD; a value that shows units below W acquires them (R385). -/
def opWmrd (d : SReg) (part slot : Nat) : Exec Unit := do
  directions [] [d]
  let s ← get
  match s.myCore.berth slot with
  | none => finish d 0
  | some b => do
    if part = 0 then acquire .part
    finish d ((s.bank b).watermark part)

def execWmrd (d : SReg) (part : Fin 3) (slot : Fin 8) : State → Host.Outcome State Fault Refusal :=
  issue (opWmrd d part.val slot.val)

/-! ## BCLR (R197) -/

/-- A copy is open on the bank or waits for it. -/
def Bank.busyCopies (k : Bank) : Bool := k.wmOpen || !k.queue.isEmpty

/-- BCLR; on a speculative berth, whose original it does not touch, it waits for no core's MMAs (DEDUCED, log 40). -/
def opBclr (d : SReg) (slot : Nat) : Exec Unit := do
  directions [] [d]
  match ← ownBerth slot with
  | none => finish d 3
  | some b => do
    let s ← get
    if (s.bank b).busyCopies then finish d 7
    else do
      if (s.bank b).shadow.isNone then awaitPort b
      modify fun s => s.bankClear (s.coreView b)
      finish d 0

def execBclr (d : SReg) (slot : Fin 8) : State → Host.Outcome State Fault Refusal := issue (opBclr d slot.val)

/-! ## Speculative regions (R192, R193, R198) -/

/-- The sites a shadow may come from: the core's own, then its mesh neighbours of the span in the order of R192. -/
def State.shadowSites (s : State) (n : SiteId) : List SiteId :=
  let near := (if n.x < 11 then [n.site + 1] else []) ++ (if 0 < n.x then [n.site - 1] else []) ++
    (if n.y < 10 then [n.site + 12] else []) ++ (if 0 < n.y then [n.site - 12] else [])
  n :: (near.map fun k => { n with site := k }).filter (s.spanSites n).contains

/-- The bank SPEC draws as shadow. -/
def State.shadowFor (s : State) (n : SiteId) : Option BankId := (s.shadowSites n).findSome? s.freeBank

/-- A region opens on a bank: the shadow takes its contents as they stand and its tag. -/
def State.openRegion (s : State) (b sh : BankId) : State :=
  let k := s.bank b
  let t := s.updBank sh fun v => { v with st := .shadow, bytes := k.bytes, bad := k.bad, tag := k.tag, part := k.part }
  t.updBank b fun v => { v with shadow := some sh }

def opSpec (d : SReg) (slot : Nat) : Exec Unit := do
  directions [] [d]
  match ← ownBerth slot with
  | none => finish d 3
  | some b => do
    let s ← get
    if (s.bank b).shadow.isSome then finish d 4
    else if (s.bank b).busyCopies then finish d 7
    else
      match s.shadowFor s.cur.siteId with
      | none => finish d 6
      | some sh =>
        if s.quotaFull s.cur.siteId then finish d 6
        else do
          set (s.openRegion b sh)
          finish d 0

def execSpec (d : SReg) (slot : Fin 8) : State → Host.Outcome State Fault Refusal := issue (opSpec d slot.val)

/-- The stores held at a bank's port are applied in arrival order, then those that waited behind them; those into the span of a
copy accepted in the region too, before it lands (R193) (DEDUCED, log 40). -/
def State.applyHeld (s : State) (b : BankId) : State :=
  let ws := (s.bank b).held
  (ws.foldl (fun t w => t.applyWrite b w) (s.updBank b fun k => { k with held := [] })).readmit b

/-- Copies into one bank land into another from now on, and loads that wait at its port read there. -/
def State.retarget (s : State) (a b : BankId) : State :=
  let one := fun (p : Copy) => if p.dst = some a then { p with dst := some b } else p
  { s with
    cores := s.cores.map fun e => (e.1, { e.2 with chan := { e.2.chan with places := e.2.chan.places.map one } })
    freqs := s.freqs.map fun r => if r.bound = some a then { r with bound := some b } else r }

/-- A region ends by SABORT: the shadow returns to the pool, the original keeps everything and takes the held stores;
waiting copies start (R193). -/
def State.abortRegion (s : State) (b : BankId) : State :=
  match (s.bank b).shadow with
  | none => s
  | some sh => (((s.updBank b fun k => { k with shadow := none }).toPool sh).applyHeld b).openEnvelope b

/-- A region ends by SCOMMIT: the berth names the shadow, which takes over the original's watermark, copies and held
stores; the original returns to the pool (R193), its watermark as after reset (DESIGN CHOICE, log 40). -/
def State.commitRegion (s : State) (c : CoreId) (slot : Nat) (b : BankId) : State :=
  match (s.bank b).shadow with
  | none => s
  | some sh =>
    let k := s.bank b
    let v := s.bank sh
    let s := s.setBank sh { k with st := .berthed, bytes := v.bytes, bad := v.bad, shadow := none, retire := v.retire
                                   reports := v.reports }
    let s := s.setBank b { bytes := k.bytes, bad := k.bad, tag := k.tag, retire := k.retire, reports := k.reports }
    (((s.retarget b sh).updCore c fun k => { k with berths := k.berths.put slot (some sh) }).toPool b |>.applyHeld sh).openEnvelope sh

/-- The common course of SCOMMIT and SABORT (R198). -/
def opEndRegion (d : SReg) (slot : Nat) (commit : Bool) : Exec Unit := do
  directions [] [d]
  match ← ownBerth slot with
  | none => finish d 3
  | some b => do
    let s ← get
    if (s.bank b).shadow.isNone then finish d 8
    else do
      awaitReaders b
      modify fun s => if commit then s.commitRegion s.cur slot b else s.abortRegion b
      finish d 0

def execScommit (d : SReg) (slot : Fin 8) : State → Host.Outcome State Fault Refusal :=
  issue (opEndRegion d slot.val true)
def execSabort (d : SReg) (slot : Fin 8) : State → Host.Outcome State Fault Refusal :=
  issue (opEndRegion d slot.val false)

/-! ## BERTH, UNBERTH (R200) -/

/-- A bank is berthed by a supervisor of compartment f: cleared when CLR asks for it or its tag changes (R355). -/
def State.berthBank (s : State) (d : CoreId) (slot : Nat) (b : BankId) (f : Nat) (clr : Bool) : State :=
  let s := if clr || (s.bank b).tag ≠ f then (s.applyReady b).bankClear b else s
  (s.updBank b fun k => { k with st := .berthed, tag := f, rev := none, part := s.partOfSite d.siteId }).updCore d
    (·.setBerth slot (some b))

/-- The bank an operand of BERTH names (R194), if its home is a cluster of the span. -/
def State.namedBank (s : State) (w : W64) : Option BankId :=
  match s.siteOfLogical s.cur.siteId (field w 26 16) with
  | some n => if (s.spanSites s.cur.siteId).contains n then some ⟨n.die, n.site, field w 12 8⟩ else none
  | none => none

def opBerth (d a b : SReg) (clr : Bool) : Exec Unit := do
  directions [a, b] [d]
  needSv
  let t ← readS a
  let w ← readS b
  let s ← get
  match s.fabricCore s.cur.siteId (field t 58 48) (field t 47 46), s.namedBank w with
  | some k, some bk => do
    check (s.reach bk k.siteId) 0x12
    let st := (s.bank bk).st
    if (st ≠ .free && st ≠ .revoked) || s.quotaFull s.cur.siteId then finish d 6
    else if ((s.core k).berth (field t 18 16)).isSome then finish d 2
    else do
      set (s.berthBank k (field t 18 16) bk s.me.compart clr)
      finish d 0
  | _, _ => finish d 5

def execBerth (d a b : SReg) (clr : Bool) : State → Host.Outcome State Fault Refusal := issue (opBerth d a b clr)

/-- UNBERTH waits for the accesses of the berth's own core (R200). -/
def opUnberth (d a : SReg) (clr : Bool) : Exec Unit := do
  directions [a] [d]
  needSv
  let t ← readS a
  let s ← get
  match s.fabricCore s.cur.siteId (field t 58 48) (field t 47 46) with
  | none => finish d 5
  | some k =>
    match (s.core k).berth (field t 18 16) with
    | none => finish d 3
    | some b =>
      if (s.bank b).shadow.isSome then finish d 4
      else if (s.bank b).busyCopies then finish d 7
      else do
        await (!s.coreBusy k b)
        awaitPort b
        let s := if clr then s.bankClear b else s
        set ((s.toPool b).updCore k (·.setBerth (field t 18 16) none))
        finish d 0

def execUnberth (d a : SReg) (clr : Bool) : State → Host.Outcome State Fault Refusal := issue (opUnberth d a clr)

end Sys2Proof.Machine
end

