-- ==== Sys2Proof/Machine/Control.lean ====
section
/-! DEFINITION. Branches, jumps, LOOP and END (R107-R111), gangs, ALIGN and the span barrier (R52-R56, R112-R115). -/
namespace Sys2Proof.Machine

/-! ## Targets (R63) -/

/-- The target of a branch: lines from the branch's own line, then the slot. -/
def brPc (pc : W64) (t : BrTarget) : W64 :=
  ((pc >>> 6) + t.loff.signExtend 64) <<< 6 ||| w64 t.tslot.val

/-- The target of J and JAL. -/
def jPc (pc : W64) (t : JTarget) : W64 :=
  ((pc >>> 6) + t.loff.signExtend 64) <<< 6 ||| w64 t.tslot.val

/-! ## Branches (R107) -/

/-- A branch on two sources, read and popped whether or not it is taken. -/
def opBranch (a b : SReg) (t : BrTarget) (cond : W64 → W64 → Bool) : Exec Unit := do
  directions [a, b] []
  let pc := (← get).me.pc
  let va ← readS a
  let vb ← readS b
  if cond va vb then jump (brPc pc t) else complete

/-- A branch on one source. -/
def opBranch1 (a : SReg) (t : BrTarget) (cond : W64 → Bool) : Exec Unit := do
  directions [a] []
  let pc := (← get).me.pc
  let va ← readS a
  if cond va then jump (brPc pc t) else complete

def execBeq (a b : SReg) (t : BrTarget) : State → Host.Outcome State Fault Refusal :=
  issue (opBranch a b t fun x y => x = y)
def execBne (a b : SReg) (t : BrTarget) : State → Host.Outcome State Fault Refusal :=
  issue (opBranch a b t fun x y => x ≠ y)
def execBlt (a b : SReg) (t : BrTarget) : State → Host.Outcome State Fault Refusal :=
  issue (opBranch a b t fun x y => x.slt y)
def execBge (a b : SReg) (t : BrTarget) : State → Host.Outcome State Fault Refusal :=
  issue (opBranch a b t fun x y => !x.slt y)
def execBltn (a b : SReg) (t : BrTarget) : State → Host.Outcome State Fault Refusal :=
  issue (opBranch a b t fun x y => x.ult y)
def execBgen (a b : SReg) (t : BrTarget) : State → Host.Outcome State Fault Refusal :=
  issue (opBranch a b t fun x y => !x.ult y)
def execBz (a : SReg) (t : BrTarget) : State → Host.Outcome State Fault Refusal :=
  issue (opBranch1 a t fun x => x = 0)
def execBnz (a : SReg) (t : BrTarget) : State → Host.Outcome State Fault Refusal :=
  issue (opBranch1 a t fun x => x ≠ 0)

/-! ## Jumps and LOOP (R108-R110) -/

/-- J (R108). -/
def opJ (t : JTarget) : Exec Unit := do
  let pc := (← get).me.pc
  jump (jPc pc t)

/-- JAL: the link is the next PC (R108). -/
def opJal (d : SReg) (t : JTarget) : Exec Unit := do
  directions [] [d]
  let x := (← get).me
  writeS d x.next
  jump (jPc x.pc t)

/-- JR (R109). -/
def opJr (d : SReg) : Exec Unit := do
  directions [d] []
  let t ← readS d
  jump t

/-- JALR reads its target before it writes its link (R109). -/
def opJalr (d a : SReg) : Exec Unit := do
  directions [a] [d]
  let x := (← get).me
  let t ← readS a
  writeS d x.next
  jump t

/-- LOOP (R110). -/
def opLoop (a : SReg) (t : BrTarget) : Exec Unit := do
  directions [a] [a]
  let pc := (← get).me.pc
  let v ← readS a
  writeS a (v - 1)
  if v - 1 ≠ 0 then jump (brPc pc t) else complete

def execJ (t : JTarget) : State → Host.Outcome State Fault Refusal := issue (opJ t)
def execJal (d : SReg) (t : JTarget) : State → Host.Outcome State Fault Refusal := issue (opJal d t)
def execJr (d : SReg) : State → Host.Outcome State Fault Refusal := issue (opJr d)
def execJalr (d a : SReg) : State → Host.Outcome State Fault Refusal := issue (opJalr d a)
def execLoop (a : SReg) (t : BrTarget) : State → Host.Outcome State Fault Refusal := issue (opLoop a t)

/-! ## Gangs (R52-R54) -/

/-- The context leads its core's gang. -/
def State.leads (s : State) (c : CoreId) (x : Nat) : Bool :=
  match (s.core c).gang with
  | some g => g.members.head? = some (c, x)
  | none => false

/-- The core's ganged context follows another's stream. -/
def State.follows (s : State) (c : CoreId) (x : Nat) : Bool :=
  match (s.core c).gang with
  | some g => g.members.contains (c, x) && g.members.head? != some (c, x)
  | none => false

/-- The member contexts of the gang of a core, in gang order. -/
def State.gangOf (s : State) (c : CoreId) : List (CoreId × Nat) :=
  match (s.core c).gang with
  | some g => g.members
  | none => []

/-- The cores of a gang of 2^log that a core belongs to, in gang order (R52, R53). -/
def gangCores (log : Nat) (c : CoreId) : List CoreId :=
  match log with
  | 1 => if c.core < 2 then [{ c with core := 0 }, { c with core := 1 }] else [{ c with core := 2 }, { c with core := 3 }]
  | 2 => c.siteId.cores
  | _ =>
    let n := c.siteId
    if n.x % 2 = 0 then n.cores ++ n.partner.cores else n.partner.cores ++ n.cores

/-- The context of a core that waits at a GANG, with its log size. -/
def Core.gangWait (k : Core) : Option (Nat × Nat) :=
  k.ctxs.findSome? fun e =>
    match e.2.running, e.2.wait with
    | true, .gang l => some (e.1, l)
    | _, _ => none

/-- Cores whose waiting GANG of another size overlaps the group of core c (R112). -/
def State.gangClash (s : State) (c : CoreId) (log : Nat) : List (CoreId × Nat) :=
  let mine := gangCores log c
  let near := (gangCores 3 c)
  near.filterMap fun d =>
    match (s.core d).gangWait with
    | some (x, l) => if l ≠ log && (gangCores l d).any mine.contains then some (d, x) else none
    | none => none

/-- The joint-refused trap of a GANG at its own instruction (R112). -/
def State.refuseGang (s : State) (m : CoreId × Nat) : State :=
  let pc := (s.ctx m.1 m.2).pc
  s.raise m.1 m.2 { code := 0x0C, info := 1, stream := 0, epc := pc, xpc := pc, va := 0, order := 0 }

/-- The gang forms: every member leaves its GANG, the followers at the leader's place and all with one instruction
number (R52). -/
def State.formGang (s : State) (log : Nat) (members : List (CoreId × Nat)) : State :=
  match members with
  | [] => s
  | l :: _ =>
    let lead := s.ctx l.1 l.2
    let num := (members.map fun m => (s.ctx m.1 m.2).num).foldl Nat.max 0
    members.foldl (fun t m =>
      t.updCore m.1 fun k =>
        { k.updCtx m.2 (fun v =>
            { ((v.goto s.cycle lead.next).setGanged true) with num := num + 1, heads := lead.heads }) with
          gang := some { log := log, members := members } }) s

/-- GANG (R112): the refusals, then the wait, then the gang when every core of the group waits. -/
def State.gang (s : State) (log : Nat) : State :=
  let k := s.myCore
  let c := s.cur
  match s.me.wait with
  | .gang _ => s.stallMe
  | _ =>
    if k.gang.isSome || k.gangWait.isSome then s.refuseGang (c, s.curCtx)
    else if log = 3 && !(s.enabled c.siteId.partner && (s.spanSites c.siteId).contains c.siteId.partner) then
      s.refuseGang (c, s.curCtx)
    else
      match s.gangClash c log with
      | [] =>
        let t := s.updMe fun v => { v with wait := .gang log, stalled := true }
        let group := (gangCores log c).map fun d => (d, ((t.core d).gangWait))
        if group.all fun e => (e.2.map (·.2)) = some log then
          t.formGang log (group.map fun e => (e.1, (e.2.map (·.1)).getD 0))
        else t
      | others => others.foldl State.refuseGang (s.refuseGang (c, s.curCtx))

/-- GANG n, its s4 field 1 to 3. -/
def execGang (log : Fin 3) : State → Host.Outcome State Fault Refusal := event true (·.gang (log.val + 1))

/-- UNGANG (R54, R113): the leader's instruction takes every member out of the gang at the next instruction; outside a
gang it has no effect. -/
def State.ungang (s : State) : State :=
  if s.leads s.cur s.curCtx then
    let ms := s.gangOf s.cur
    let pc := s.me.next
    let heads := s.me.heads
    let t := (s.disband s.cur).jump pc
    ms.foldl (fun t m => t.updCtx m.1 m.2 fun v => { v with pc := pc, heads := heads }) t
  else s.jump s.me.next

def execUngang : State → Host.Outcome State Fault Refusal := event true State.ungang

/-! ## ALIGN (R56) -/

/-- The cores that an ALIGN has seen at its PC while it waits. -/
def Wait.seen : Wait → List Nat
  | .align _ l => l
  | _ => []

/-- Every other core of the cluster that holds a running firing has reached the PC in some context: it stands there, was
seen there since the ALIGN issued, or is a member of the issuing context's gang. -/
def State.aligned (s : State) (c : CoreId) (pc : W64) (seen : List Nat) : Bool :=
  c.siteId.cores.all fun d =>
    d = c || !((s.core d).ctxs.any (·.2.running)) || seen.contains d.core ||
      (s.me.ganged && ((s.core c).gang.map (·.members.any (·.1 = d))).getD false) ||
      (s.core d).ctxs.any fun e => e.2.running && e.2.pc = pc

/-- A core that executes ALIGN is seen at its PC by the cluster's other cores that wait there. -/
def State.showAlign (s : State) (c : CoreId) (pc : W64) : State :=
  (c.siteId.cores.filter (· ≠ c)).foldl (fun t d =>
    t.updCore d fun k =>
      { k with ctxs := k.ctxs.map fun e =>
          match e.2.wait with
          | .align since seen =>
            if e.2.pc = pc && !seen.contains c.core then (e.1, { e.2 with wait := .align since (c.core :: seen) }) else e
          | _ => e }) s

/-- ALIGN: the wait ends when the cluster is aligned, after 64 cycles, or by ALIGN_TIMEOUT. -/
def opAlign : Exec Unit := do
  modify fun s => s.showAlign s.cur s.me.pc
  let s ← get
  let x := s.me
  if s.aligned s.cur x.pc x.wait.seen then complete
  else
    match x.wait with
    | .woken => complete
    | .align t _ => if t + 64 ≤ s.cycle then complete else hold
    | _ => do
      modify (·.updMe fun v => { v with wait := .align s.cycle [] })
      hold

def execAlign : State → Host.Outcome State Fault Refusal := issue opAlign

/-- ALIGN_TIMEOUT (R56): 64 cycles after the ALIGN issued its wait ends. -/
def execAlignTimeout (c : CoreId) (x : Nat) (s : State) : Host.Outcome State Fault Refusal :=
  match (s.ctx c x).wait with
  | .align t _ => event (t + 64 ≤ s.cycle) (·.updCtx c x fun v => { v with wait := .woken }) s
  | _ => .next s

/-! ## SBAR (R115) -/

/-- Every core of the span has made its k-th arrival. -/
def State.episodeDone (s : State) (c : CoreId) (idx k : Nat) : Bool :=
  (s.spanCores c.siteId).all fun d => k ≤ (s.core d).sbar.getD idx 0

/-- The die of a span's first cluster, where its barriers are counted: an arrival and its answer cross to it (R115, R278)
(DESIGN CHOICE, log 18). -/
def State.spanDie (s : State) (c : CoreId) : Nat := ((s.spanCore c.siteId 0).getD c).die

/-- The end of an episode: the acquire, and the episode's number written. -/
def leaveBarrier (d : SReg) (k : Nat) : Exec Unit := do
  acquire .part
  finish d (w64 k)

/-- SBAR: the release, one arrival, the wait for the episode, the acquire. In a gang every member has arrived before one
goes on (DEDUCED, log 33). -/
def opSbar (d : SReg) (idx : Nat) : Exec Unit := do
  directions [] [d]
  match (← get).me.wait with
  | .sbar _ k => do
    await ((← get).episodeDone (← get).cur idx k)
    leaveBarrier d k
  | _ => do
    release .part
    let d0 := (← get).spanDie (← get).cur
    await ((← get).reaches (← get).cur d0)
    modify fun s => s.asked s.cur d0
    let k := (← get).myCore.sbar.getD idx 0 + 1
    modify fun s => s.updCore s.cur fun c => { c with sbar := c.sbar.put idx k }
    if !(← get).me.ganged && (← get).episodeDone (← get).cur idx k && (← get).canWrite d then leaveBarrier d k
    else do
      modify (·.updMe fun v => { v with wait := .sbar idx k })
      hold

def execSbar (d : SReg) (idx : Fin 4) : State → Host.Outcome State Fault Refusal := issue (opSbar d idx.val)

/-! ## END (R111) -/

/-- The firing of a context ends: normally, or as a fatal trap with the CAUSE that stands when its handler runs
(R378). -/
def State.endOne (s : State) (m : CoreId × Nat) : State :=
  let v := s.ctx m.1 m.2
  let t := s.dissolve m.1 m.2
  if v.th then t.fatalEnd m.1 m.2 v.cause v.epc v.faultva else t.endFiring m.1 m.2

/-- A matrix instruction of the slice leaves it: its effect is done (R204). -/
def State.retireHead (s : State) (c : CoreId) (e : MEntry) : State :=
  s.updCore c fun k =>
    let k := { k with slice := k.slice.filter (·.order ≠ e.order) }
    k.updCtx e.ctx fun v =>
      if v.fid = e.fid then { v with done := v.done + 1, consumed := if e.cons then v.consumed else v.consumed + 1, watch := s.cycle }
      else v

/-- A barrier of the joint row completes (R213): the MJOIN of each core that waits at it is done, and its contexts are
joined or not. -/
def State.passBarrier (s : State) (n : SiteId) (j : JoinSt) (after : JoinSt) : State :=
  n.cores.foldl (fun t d =>
    (t.core d).ctxs.foldl (fun t e =>
      if e.2.join = j then
        let t := t.updCtx d e.1 fun v => { v with join := after }
        match (t.core d).slice.find? fun m => m.ctx = e.1 && m.begun && m.instr = .mjoin with
        | some m => t.retireHead d m
        | none => t
      else t) t) s

/-- The four members leave the joint row. -/
def State.leaveRow (s : State) (n : SiteId) : State := s.passBarrier n .leaving .no

/-- The four cores of a cluster each have a context at the same barrier of the joint row (R213). -/
def State.atBarrier (s : State) (n : SiteId) (j : JoinSt) : Bool :=
  n.cores.all fun d => (s.core d).ctxs.any fun e => e.2.join = j

/-- A gang's member has nothing left that END waits for: its streams are idle and it stands in no joint row, or it runs a
trap handler (R111, R215, R378). -/
def State.mayEnd (s : State) (m : CoreId × Nat) : Bool :=
  (s.ctx m.1 m.2).th || s.streamsIdle m.1 m.2 && (s.ctx m.1 m.2).join = .no

/-- END waits for work of its firing. -/
def State.awaitEnd (s : State) : State := s.updMe fun v => { v with wait := .ending, stalled := true, touch := [] }

/-- The end of END: a gang's follower has done its part; its leader ends every member's firing, once each may end. -/
def State.endNow (s : State) : State :=
  if s.follows s.cur s.curCtx then s.jump s.me.pc
  else if s.leads s.cur s.curCtx then
    (if (s.gangOf s.cur).all s.mayEnd then (s.gangOf s.cur).foldl State.endOne (s.disband s.cur) else s.awaitEnd)
  else s.endOne (s.cur, s.curCtx)

/-- END of a context that is joined, or that the barrier holds: it acts as the leaving MJOIN of its row, which a trap of
another member may dissolve meanwhile (R215). -/
def State.endJoined (s : State) : State :=
  if s.me.refuse then (s.updMe fun v => { v with refuse := false }).raiseInt 0x0C 4 0
  else
    let t := s.updMe fun v => { v with join := if v.join = .joined then .leaving else v.join, wait := .leaving, stalled := true, touch := [] }
    if t.me.join ≠ .leaving then t.endNow
    else if t.atBarrier t.cur.siteId .leaving then (t.leaveRow t.cur.siteId).endNow
    else t

/-- END (R111, R215, R378): in a trap handler it ends the firing at once; else it waits for both streams, and a joined
context then leaves its row. -/
def State.endInstr (s : State) : State :=
  if s.me.th then s.endNow
  else if !s.streamsIdle s.cur s.curCtx then s.awaitEnd
  else if s.me.join = .joined || s.me.wait = .leaving then s.endJoined
  else s.endNow

end Sys2Proof.Machine
end

