-- ==== Sys2Proof/Machine/Vector.lean ====
section
/-! DEFINITION. Forwarding of vector instructions into the sequencer (R70, R75, R158-R160): the checks of the integer
pipeline, the operands read then, the entry appended. What an entry does is the sequencer's (Sequencer.lean). -/
namespace Sys2Proof.Machine

/-- A vector instruction's source pops q4-q7, against the direction (R75). -/
def SReg.badVecSource : SReg → Bool
  | .q n => 4 ≤ n.val
  | _ => false

/-- A vector instruction's destination pushes a queue other than q4 and q5 (R75). -/
def SReg.badVecDest : SReg → Bool
  | .q n => n.val < 4 || 6 ≤ n.val
  | _ => false

/-- A retained instruction is completed and in no body of a pending VLOOP (R158). -/
def Ctx.overwritable (x : Ctx) (v : VInstr) : Bool :=
  !x.seq.any fun e => e.v.num = v.num || e.body.any (·.num = v.num)

/-- The sequencer has room for one more forwarded instruction, retained or not (R70, R158). -/
def Ctx.seqRoom (x : Ctx) (retained : Bool) : Bool :=
  x.seq.length < 16 &&
    (!retained || match x.hist[15]? with
      | some v => x.overwritable v
      | none => true)

/-- The scalar operand of a vector instruction as forwarding reads it: x and k now, a queue later (R70). -/
def State.operandNow (s : State) (r : Option SReg) : Option W64 :=
  match r with
  | some (.x n) => some (s.me.xreg n.val)
  | some (.k n) => some (s.myCore.kreg n.val)
  | _ => none

/-- The members of the gang the issuing context stands in. -/
def State.myGang (s : State) : List (CoreId × Nat) :=
  if s.me.ganged then (match s.myCore.gang with
    | some g => g.members
    | none => []) else []

/-- The instruction as forwarded now. -/
def State.capture (s : State) (i : Instr) : VInstr :=
  { instr := i, pc := s.me.pc, num := s.me.num, order := s.ids, sval := s.operandNow (vecSource i)
    rndctl := s.me.rndctl, gang := s.myGang }

/-- The K instructions retained last, oldest first. -/
def Ctx.retained (x : Ctx) (k : Nat) : List VInstr := (x.hist.take k).reverse

/-- The body of a VLOOP forwarded now (R159): the K instructions retained last, which every member of the gang repeats
together where all of them retain the same ones, and each alone otherwise (DEDUCED, log 33). -/
def State.loopBody (s : State) (k : Nat) : List VInstr :=
  let body := s.me.retained k
  let same := s.myGang.all fun m => ((s.ctx m.1 m.2).retained k).map (·.instr) = body.map (·.instr)
  body.map fun v => { v with gang := if same then s.myGang else [] }

/-- The operand that forwarding captures stands in an uncorrectable row (R70, R388). -/
def State.badOperand (s : State) : Option SReg → Bool
  | some (.q _) => false
  | some r => s.badReg r
  | none => false

/-- The checks of forwarding (R70, R75, R388). -/
def forwardChecks (i : Instr) : Exec Unit := do
  check (!(vecSource i).any SReg.badVecSource) 0x0A 1
  check (!(vecDest i).any SReg.badVecDest) 0x0A 2
  check (!(← get).badOperand (vecSource i)) 0x0D 1

/-- A vector instruction is forwarded and retained. -/
def forward (i : Instr) : Exec Unit := do
  forwardChecks i
  let s ← get
  await (s.me.seqRoom true && !s.handWaits s.cur s.curCtx)
  let v := s.capture i
  set (s.fresh.2.updMe fun x => { x with seq := x.seq ++ [{ v := v }], hist := (v :: x.hist).take 16 })
  complete

/-- VLOOP: its body is the K instructions retained most recently before it (R159); fewer than K retained is an illegal
instruction, INFO 7 (DEDUCED, log 21). -/
def forwardLoop (a : SReg) (k : Fin 16) : Exec Unit := do
  check (k.val + 1 ≤ (← get).me.hist.length) 0x01 7
  forwardChecks (.vloop a k)
  let s ← get
  await (s.me.seqRoom false && !s.handWaits s.cur s.curCtx)
  let e : SeqEntry := { v := s.capture (.vloop a k), body := s.loopBody (k.val + 1) }
  set (s.fresh.2.updMe fun x => { x with seq := x.seq ++ [e] })
  complete

/-- VSYNC: every forwarded instruction has completed, those a trap holds among them (R160, R375). -/
def opVsync : Exec Unit := do
  await ((← get).me.seq = [])
  complete

/-! ## The instructions (R135-R161): each is forwarded as it stands -/

def execVadd (d a : VReg) (b : VSrc) (m : SrcMod) (p : PReg) (r : RndSat) : State → Host.Outcome State Fault Refusal :=
  issue (forward (.vadd d a b m p r))
def execVsub (d a : VReg) (b : VSrc) (m : SrcMod) (p : PReg) (r : RndSat) : State → Host.Outcome State Fault Refusal :=
  issue (forward (.vsub d a b m p r))
def execVmul (d a : VReg) (b : VSrc) (m : SrcMod) (p : PReg) (r : RndSat) : State → Host.Outcome State Fault Refusal :=
  issue (forward (.vmul d a b m p r))
def execVfma (d a : VReg) (b : VSrc) (c : VReg) (m : SrcMod) (p : PReg) (r : RndSat) :
    State → Host.Outcome State Fault Refusal := issue (forward (.vfma d a b c m p r))
def execVfms (d a : VReg) (b : VSrc) (c : VReg) (m : SrcMod) (p : PReg) (r : RndSat) :
    State → Host.Outcome State Fault Refusal := issue (forward (.vfms d a b c m p r))
def execVfnma (d a : VReg) (b : VSrc) (c : VReg) (m : SrcMod) (p : PReg) (r : RndSat) :
    State → Host.Outcome State Fault Refusal := issue (forward (.vfnma d a b c m p r))
def execVmin (d a : VReg) (b : VSrc) (m : SrcMod) (p : PReg) : State → Host.Outcome State Fault Refusal :=
  issue (forward (.vmin d a b m p))
def execVmax (d a : VReg) (b : VSrc) (m : SrcMod) (p : PReg) : State → Host.Outcome State Fault Refusal :=
  issue (forward (.vmax d a b m p))
def execVabs (d a : VReg) (m : SrcMod) (p : PReg) : State → Host.Outcome State Fault Refusal :=
  issue (forward (.vabs d a m p))
def execVneg (d a : VReg) (m : SrcMod) (p : PReg) : State → Host.Outcome State Fault Refusal :=
  issue (forward (.vneg d a m p))
def execVdiv (d a : VReg) (b : VSrc) (m : SrcMod) (p : PReg) (r : RndSat) : State → Host.Outcome State Fault Refusal :=
  issue (forward (.vdiv d a b m p r))
def execViadd (d a : VReg) (b : VSrc) (m : SrcMod) (p : PReg) (t : IntSat) : State → Host.Outcome State Fault Refusal :=
  issue (forward (.viadd d a b m p t))
def execVisub (d a : VReg) (b : VSrc) (m : SrcMod) (p : PReg) (t : IntSat) : State → Host.Outcome State Fault Refusal :=
  issue (forward (.visub d a b m p t))
def execVimul (d a : VReg) (b : VSrc) (m : SrcMod) (p : PReg) (t : IntSat) : State → Host.Outcome State Fault Refusal :=
  issue (forward (.vimul d a b m p t))
def execVimulh (d a : VReg) (b : VSrc) (m : SrcMod) (p : PReg) (u : Bool) : State → Host.Outcome State Fault Refusal :=
  issue (forward (.vimulh d a b m p u))
def execVimin (d a : VReg) (b : VSrc) (m : SrcMod) (p : PReg) (u : Bool) : State → Host.Outcome State Fault Refusal :=
  issue (forward (.vimin d a b m p u))
def execVimax (d a : VReg) (b : VSrc) (m : SrcMod) (p : PReg) (u : Bool) : State → Host.Outcome State Fault Refusal :=
  issue (forward (.vimax d a b m p u))
def execVisat (d a : VReg) (m : SrcMod) (p : PReg) (w : NarrowInt) : State → Host.Outcome State Fault Refusal :=
  issue (forward (.visat d a m p w))
def execVand (d a : VReg) (b : VSrc) (m : SrcMod) (p : PReg) : State → Host.Outcome State Fault Refusal :=
  issue (forward (.vand d a b m p))
def execVor (d a : VReg) (b : VSrc) (m : SrcMod) (p : PReg) : State → Host.Outcome State Fault Refusal :=
  issue (forward (.vor d a b m p))
def execVxor (d a : VReg) (b : VSrc) (m : SrcMod) (p : PReg) : State → Host.Outcome State Fault Refusal :=
  issue (forward (.vxor d a b m p))
def execVshl (d a : VReg) (b : VSrc) (m : SrcMod) (p : PReg) : State → Host.Outcome State Fault Refusal :=
  issue (forward (.vshl d a b m p))
def execVshr (d a : VReg) (b : VSrc) (m : SrcMod) (p : PReg) : State → Host.Outcome State Fault Refusal :=
  issue (forward (.vshr d a b m p))
def execVsra (d a : VReg) (b : VSrc) (m : SrcMod) (p : PReg) : State → Host.Outcome State Fault Refusal :=
  issue (forward (.vsra d a b m p))
def execVcmp (d : PReg) (a : VReg) (b : VSrc) (m : SrcMod) (p : PReg) (cc : CmpCC) (ty : CmpTy) :
    State → Host.Outcome State Fault Refusal := issue (forward (.vcmp d a b m p cc ty))
def execVsel (d a : VReg) (b : VSrc) (m : SrcMod) (p : PReg) : State → Host.Outcome State Fault Refusal :=
  issue (forward (.vsel d a b m p))
def execVmov (d a : VReg) (m : SrcMod) (p : PReg) : State → Host.Outcome State Fault Refusal :=
  issue (forward (.vmov d a m p))
def execVbcast (d : VReg) (a : SReg) (p : PReg) : State → Host.Outcome State Fault Refusal :=
  issue (forward (.vbcast d a p))
def execViota (d : VReg) (a : SReg) (step : BitVec 7) (p : PReg) : State → Host.Outcome State Fault Refusal :=
  issue (forward (.viota d a step p))
def execVext (d : SReg) (a : VReg) (b : SReg) (m : SrcMod) (sx : Bool) : State → Host.Outcome State Fault Refusal :=
  issue (forward (.vext d a b m sx))
def execVxl (d a b : VReg) (c : PReg) (m : SrcMod) (p : PReg) : State → Host.Outcome State Fault Refusal :=
  issue (forward (.vxl d a b c m p))
def execVperm (d a b c : VReg) (m : SrcMod) (p : PReg) : State → Host.Outcome State Fault Refusal :=
  issue (forward (.vperm d a b c m p))
def execVred (d : SReg) (a : VReg) (m : SrcMod) (p : PReg) (op : VRedOp) : State → Host.Outcome State Fault Refusal :=
  issue (forward (.vred d a m p op))
def execVcvt (d a : VReg) (outTy frm : CvtTy) (m : SrcMod) (p : PReg) (r : RndSat) :
    State → Host.Outcome State Fault Refusal := issue (forward (.vcvt d a outTy frm m p r))
def execVrcp (d a : VReg) (m : SrcMod) (p : PReg) : State → Host.Outcome State Fault Refusal :=
  issue (forward (.vrcp d a m p))
def execVrsq (d a : VReg) (m : SrcMod) (p : PReg) : State → Host.Outcome State Fault Refusal :=
  issue (forward (.vrsq d a m p))
def execVexp2 (d a : VReg) (m : SrcMod) (p : PReg) : State → Host.Outcome State Fault Refusal :=
  issue (forward (.vexp2 d a m p))
def execVlog2 (d a : VReg) (m : SrcMod) (p : PReg) : State → Host.Outcome State Fault Refusal :=
  issue (forward (.vlog2 d a m p))
def execVsin (d a : VReg) (m : SrcMod) (p : PReg) : State → Host.Outcome State Fault Refusal :=
  issue (forward (.vsin d a m p))
def execVcos (d a : VReg) (m : SrcMod) (p : PReg) : State → Host.Outcome State Fault Refusal :=
  issue (forward (.vcos d a m p))
def execVtanh (d a : VReg) (m : SrcMod) (p : PReg) : State → Host.Outcome State Fault Refusal :=
  issue (forward (.vtanh d a m p))
def execVerf (d a : VReg) (m : SrcMod) (p : PReg) : State → Host.Outcome State Fault Refusal :=
  issue (forward (.verf d a m p))
def execVld (d : VReg) (a : SReg) (i : VMemImm) : State → Host.Outcome State Fault Refusal := issue (forward (.vld d a i))
def execVst (d : VReg) (a : SReg) (i : VMemImm) : State → Host.Outcome State Fault Refusal := issue (forward (.vst d a i))
def execVldg (d : VReg) (a : SReg) (b : VReg) (m : SrcMod) (i : GatherImm) : State → Host.Outcome State Fault Refusal :=
  issue (forward (.vldg d a b m i))
def execVstg (d : VReg) (a : SReg) (b : VReg) (m : SrcMod) (i : GatherImm) : State → Host.Outcome State Fault Refusal :=
  issue (forward (.vstg d a b m i))
def execVloop (a : SReg) (k : Fin 16) : State → Host.Outcome State Fault Refusal := issue (forwardLoop a k)
def execVsync : State → Host.Outcome State Fault Refusal := issue opVsync
def execPand (d a b : PReg) : State → Host.Outcome State Fault Refusal := issue (forward (.pand d a b))
def execPor (d a b : PReg) : State → Host.Outcome State Fault Refusal := issue (forward (.por d a b))
def execPxor (d a b : PReg) : State → Host.Outcome State Fault Refusal := issue (forward (.pxor d a b))
def execPnot (d a : PReg) : State → Host.Outcome State Fault Refusal := issue (forward (.pnot d a))
def execPcnt (d : SReg) (a : PReg) : State → Host.Outcome State Fault Refusal := issue (forward (.pcnt d a))
def execPfirst (d : SReg) (a : PReg) : State → Host.Outcome State Fault Refusal := issue (forward (.pfirst d a))

end Sys2Proof.Machine
end

