-- ==== Sys2Proof/Machine/Sequencer.lean ====
section
/-! DEFINITION. SEQUENCER_EXECUTION: what a forwarded vector instruction does (R50, R51, R69, R129-R162), alone or over
the lanes of a gang, one instruction a step. -/
namespace Sys2Proof.Machine

/-! ## Operands and results -/

/-- The scalar operand of the member's instruction: captured, or popped now (R70, R74). -/
def operand (v : VInstr) : Exec W64 :=
  match v.sval, vecSource v.instr with
  | some w, _ => pure w
  | none, some r => readS r
  | none, none => pure 0

/-- Lanes chosen by a mask, the old ones elsewhere. -/
def blend (old new : List W32) (mask : List Bool) : List W32 :=
  (List.range 16).map fun i => if mask.getD i false then new.getD i 0 else old.getD i 0

/-- Active lanes of a destination register written in every member; one written whole is good again (R388). -/
def State.writeV (s : State) (ms : List Member) (d : VReg) (vals : List W32) (mask : List Bool) : State :=
  (ms.zipIdx).foldl (fun t e =>
    let m := e.1
    let t := t.updCtx m.core m.ctx fun x =>
      { x with v := x.v.put d.val (blend (x.vreg d.val) (share vals e.2) (share mask e.2))
               bad := if (List.range 16).all fun i => (share mask e.2).getD i false then x.bad.filter (· ≠ .v d.val) else x.bad }
    t.updCore m.core (·.touchV m.ctx d.val)) s

/-- A predicate written in every member, its own 16 lanes; p0 is never written. -/
def State.writeP (s : State) (ms : List Member) (d : PReg) (lanes : List Bool) : State :=
  (ms.zipIdx).foldl (fun t e =>
    t.updCtx e.1.core e.1.ctx fun x =>
      let bits := share lanes e.2
      { x with p := x.p.put d.val (BitVec.ofNat 16 ((List.range 16).foldl (fun n i => n + b2n (bits.getD i false) * 2 ^ i) 0))
               bad := x.bad.filter (· ≠ .p d.val) })
    s

/-- The registers an instruction reads, for their placement. -/
def State.readVs (s : State) (ms : List Member) (rs : List VReg) : State :=
  ms.foldl (fun t m => t.updCore m.core fun k => rs.foldl (fun k r => k.readV m.ctx r.val) k) s

/-- An element-wise instruction's effect, the scalars of the members given. -/
def State.runLanes (s : State) (ms : List Member) (sv : List W64) (g : LaneFn) : State :=
  let a := srcA s ms g.a g.m
  let b := match g.b with
    | some b => srcB s ms sv b g.m
    | none => []
  let c := match g.c with
    | some r => gangV s ms r
    | none => []
  let ctl := ms.flatMap fun m => List.replicate 16 m.v.rndctl
  let vals := (List.range a.length).map fun i => g.f (ctl.getD i 1) (a.getD i 0) (b.getD i 0) (c.getD i 0)
  s.writeV ms g.d vals (gangP s ms g.p)

/-! ## Cross-lane instructions (R139-R145, R161, R162) -/

/-- One level of VRED's tree: neighbouring pairs (R144). -/
def pairUp (f : W32 → W32 → W32) : List W32 → List W32
  | x :: y :: t => f x y :: pairUp f t
  | l => l

/-- VRED's tree over up to 128 lanes. -/
def redTree (f : W32 → W32 → W32) : Nat → List W32 → W32
  | 0, l => l.getD 0 0
  | n + 1, l => redTree f n (pairUp f l)

/-- Operation, identity and sign extension of VRED (R144); its sums saturate where RNDCTL says so (R133). -/
def redOf (ctl : W64) : VRedOp → (W32 → W32 → W32) × W32 × Bool
  | .addI => (fun x y => x + y, 0, true)
  | .addF => (laneAdd .rne (rndctlSat ctl), 0x80000000, false)
  | .minI => (intMin false, 0x7FFFFFFF, true)
  | .maxI => (intMax false, 0x80000000, true)
  | .minN => (intMin true, 0xFFFFFFFF, false)
  | .maxN => (intMax true, 0, false)
  | .minF => (laneMinMax false, 0x7F800000, false)
  | .maxF => (laneMinMax true, 0xFF800000, false)
  | .and => (fun x y => x &&& y, 0xFFFFFFFF, false)
  | .or => (fun x y => x ||| y, 0, false)
  | .xor => (fun x y => x ^^^ y, 0, false)

def extend (signed : Bool) (w : W32) : W64 := if signed then w.signExtend 64 else w.zeroExtend 64

/-- A value pushed into a queue of every member; a full one stalls the sequencer (R74). -/
def pushAll (ms : List Member) (d : SReg) (vals : List W64) : Exec Unit :=
  (ms.zip vals).forM fun e => asCtx e.1.core e.1.ctx (writeS d e.2)

/-- The conversion of one member's lanes, its draws in ascending lane order (R146, R149). -/
def convertLanes (tb : Tables) (outTy frm : CvtTy) (mode : RMode) (sat : Bool) :
    List (W32 × Bool) → W32 → List W32 × W32
  | [], seed => ([], seed)
  | (v, act) :: t, seed =>
    let seed' := if act && mode = .sr && srTarget outTy then lfsr seed else seed
    let (ws, last) := convertLanes tb outTy frm mode sat t seed'
    ((if act then BitVec.ofNat 32 (convertLane tb outTy frm mode sat seed'.toNat v.toNat) else v) :: ws, last)

/-- VCVT in one member (R145). -/
def State.cvtMember (s : State) (m : Member) (d : VReg) (a : List W32) (outTy frm : CvtTy) (p : PReg) (r : RndSat) : State :=
  let k := s.core m.core
  let (mode, sat) := RndSat.inForce r m.v.rndctl
  let act := predLanes ((s.ctx m.core m.ctx).pred p.val)
  let (ws, seed) := convertLanes k.tables outTy frm mode sat (a.zip act) k.seed
  (s.updCore m.core fun k => { k with seed := seed }).writeV [m] d ws act

/-- The instructions that touch no memory; VEXT pushes the lane that the leader's b names into every member's queue
(R162) (DEDUCED, log 33). -/
def crossLanes (i : Instr) (ms : List Member) (sv : List W64) : Exec Unit := do
  let s ← get
  let l := 16 * ms.length
  match i with
  | .vsel d a b m p =>
    let va := srcA s ms a m
    let vb := srcB s ms sv b m
    let ps := gangP s ms p
    let vals := (List.range l).map fun i => if ps.getD i false then va.getD i 0 else vb.getD i 0
    set (s.writeV ms d vals (List.replicate l true))
  | .vcmp d a b m p cc ty =>
    let va := srcA s ms a m
    let vb := srcB s ms sv b m
    let ps := gangP s ms p
    set (s.writeP ms d
      ((List.range l).map fun i => ps.getD i false && laneCmp cc ty (va.getD i 0) (vb.getD i 0)))
  | .vbcast d _ p =>
    set (s.writeV ms d (sv.flatMap fun w => List.replicate 16 (w.truncate 32)) (gangP s ms p))
  | .viota d _ st p =>
    let vals := (List.range l).map fun i =>
      BitVec.ofInt 32 ((sv.getD (i / 16) 0).toInt + i * st.toInt)
    set (s.writeV ms d vals (gangP s ms p))
  | .vext d a _ m sx =>
    let va := applyMod m (gangV s ms a)
    pushAll ms d (ms.map fun _ => extend sx (va.getD ((sv.headD 0).toNat % 128 % l) 0))
  | .vxl d a b c m p =>
    let va := srcA s ms a m
    let vb := srcB s ms sv (.v b) m
    let ps := gangP s ms p
    let rcv := (List.range l).map fun i =>
      ps.getD i false && (vb.getD i 0).toNat < l && ps.getD (vb.getD i 0).toNat false
    let vals := (List.range l).map fun i =>
      if rcv.getD i false then va.getD (vb.getD i 0).toNat 0 else va.getD i 0
    set ((s.writeV ms d vals (List.replicate l true)).writeP ms c rcv)
  | .vperm d a b c m p =>
    let va := srcA s ms a m
    let vb := srcB s ms sv (.v b) m
    let table := va ++ gangV s ms c
    let vals := (List.range l).map fun i => table.getD ((vb.getD i 0).toNat % (2 * l)) 0
    set (s.writeV ms d vals (gangP s ms p))
  | .vred d a m p op =>
    let va := srcA s ms a m
    let ps := gangP s ms p
    pushAll ms d (ms.map fun e =>
      let (f, unit, sx) := redOf e.v.rndctl op
      extend sx (redTree f 7 ((List.range l).map fun i => if ps.getD i false then va.getD i 0 else unit)))
  | .vcvt d a outTy frm m p r =>
    let va := srcA s ms a m
    set ((ms.zipIdx).foldl (fun t e => t.cvtMember e.1 d (share va e.2) outTy frm p r) s)
  | .pand d a b => set (s.writeP ms d (((gangP s ms a).zip (gangP s ms b)).map fun e => e.1 && e.2))
  | .por d a b => set (s.writeP ms d (((gangP s ms a).zip (gangP s ms b)).map fun e => e.1 || e.2))
  | .pxor d a b => set (s.writeP ms d (((gangP s ms a).zip (gangP s ms b)).map fun e => e.1 != e.2))
  | .pnot d a => set (s.writeP ms d ((gangP s ms a).map (!·)))
  | .pcnt d a => pushAll ms d (ms.map fun _ => w64 ((gangP s ms a).countP id))
  | .pfirst d a => pushAll ms d (ms.map fun _ => w64 (((gangP s ms a).findIdx? id).getD l))
  | _ => pure ()

/-- A register that the instruction reads in a member stands in an uncorrectable row (R388). -/
def State.badMember (s : State) (i : Instr) (m : Member) : Bool :=
  let bad := (s.ctx m.core m.ctx).bad
  (vecReads i).1.any (fun r => bad.contains (.v r.val)) || (vecReads i).2.any fun p => p.val ≠ 0 && bad.contains (.p p.val)

/-- The instructions that touch no memory, over all members at once: every source is read before anything is written
(R129, R162). -/
def runPlain (i : Instr) (ms : List Member) : Exec Unit := do
  let sv ← ms.mapM fun m => asCtx m.core m.ctx (operand m.v)
  modify (·.readVs ms (vecReads i).1)
  match laneFn i with
  | some g => modify fun s => s.runLanes ms sv g
  | none => crossLanes i ms sv

/-! ## Local vector memory (R152-R155) -/

/-- Earlier matrix instructions of the context have made their accesses to these bytes, and the core's own stores in
the fabric have reached them (R72, R245). -/
def awaitMatrix (num : Nat) (f : List Foot) : Exec Unit := do
  let s ← get
  await (!feetOverlap f (s.sliceFeet s.cur s.curCtx num) && !f.any (s.ownStoreFlies s.cur))

/-- The checks of R153; the bank, the window and the address as formed. -/
def vectorBase (base : W64) (i : VMemImm) : Exec (BankId × Window × W64) := do
  let a := dispOff base i.disp.toInt
  check (field base 63 32 = 0 && field base 27 19 = 0) 0x06 4 a
  match windowOf (field base 31 28) with
  | none => trap 0x06 4 a
  | some w => do
    let b ← openBerth (field base 18 16) a
    check (basePos (field base 15 0) i % nibbles w false = 0) 0x04 0 a
    return (b, w, a)

/-- The worst of the waits of some bytes. -/
def allWaits (f : Nat × Nat → BankWait) (l : List (Nat × Nat)) : BankWait :=
  if l.any fun e => f e = .frozen then .frozen else if l.any fun e => f e = .held then .held else .clear

/-- VLD and VST of the executing member; FAULTVA of their traps is the base plus DISP, and all lanes make their accesses in one
step, the elements being unordered among themselves (R251) (DESIGN CHOICE, log 37). -/
def localVector (v : VInstr) (store : Bool) (d : VReg) (i : VMemImm) : Exec Unit := do
  let base ← operand v
  let (b, w, a) ← vectorBase base i
  let s ← get
  let me : Member := { core := s.cur, ctx := s.curCtx, v := v }
  let act := activeLanes (s.me.pred i.pred.val)
  let nb := nibbles w false
  let off := field base 15 0
  let pos := fun l => lanePos off i nb l
  let places := act.map fun l => (pos l / 2, elemBytes nb)
  awaitMatrix v.num (places.map fun e => Foot.bank b e.1 e.2)
  let cv := s.coreView b
  if store then do
    passWait (allWaits (fun e => s.writeWaitAt b e.1 e.2 v.order) places) [] a
    let mode := rndctlMode v.rndctl
    let sat := rndctlSat v.rndctl
    let lanes := s.me.vreg d.val
    set (act.foldl (fun t l =>
      let (r, t) := if drawsFor w mode then t.drawSr t.cur else (0, t)
      t.putElement cv nb (pos l) (narrow (t.core t.cur).tables w mode sat r (lanes.getD l 0))) (s.readVs [me] [d]))
  else do
    passWait (allWaits (fun e => s.readWait b e.1 e.2) places) [] a
    check (!places.any fun e => (s.bank cv).error e.1 e.2) 0x0D 1 a
    let vals := (List.range 16).map fun l =>
      if act.contains l then widen s.myCore.tables w (elementAt (s.bankRead cv) nb (pos l)) else 0
    let t := places.foldl (fun t e => t.landingAcquire t.cur b e.1 e.2) s
    set (t.writeV [me] d vals (predLanes (s.me.pred i.pred.val)))

/-! ## Gathers and scatters (R156, R157) -/

/-- The bytes of a gathered element: through L1 if the line is there, else at its home slice, where a line that misses is
asked for (R157, R241). -/
def gatherRead (pa n va : Nat) : Exec (List Byte) := do
  let line := pa / 64
  if isHbm pa then sendFirst (← get).cur line
  let s ← get
  match if isHbm pa then s.myCore.l1Find line else none with
  | some l => do
    check (!l.error (pa % 64) n) 0x0D 1 (w64 va)
    set (s.updCore s.cur (·.l1Hit line))
    return unpack l.data (pa % 64) n
  | none =>
    match s.memError pa n with
    | some (code, info) => trap code info (w64 va)
    | none =>
      await (s.reaches s.cur (dieOf pa))
      if !isHbm pa then do
        set (s.asked s.cur hostDie)
        return cellRead s.mem pa n
      else if s.l2Ready line then do
        await (s.recallable line)
        let t := (s.asked s.cur (homeDie line)).recall line
        set ((t.fillL1 t.cur line 0 false).l2Read line)
        return t.memRead pa n
      else if s.me.seqFail = some (0x0D, 3) then trap 0x0D 3 (w64 va)
      else throw (.miss (s.lookFor pa (.seq s.cur s.curCtx)))

/-- A lane's page, checked (R156). -/
def gatherPage (va : Nat) (k : AccKind) : Exec (TlbEntry × Nat) := do
  let e ← translateSeq va
  let s ← get
  match s.pageError e va k s.me.sv s.me.compart with
  | some (code, info) => trap code info (w64 va)
  | none => return (e, e.pa + (va - e.va))

/-- VLDG and VSTG of the executing member, its offsets given. Of several lanes that fail one check, or whose pages fail, the
lowest is reported; all lanes make their accesses in one step (R251) (DESIGN CHOICE, log 37). -/
def globalVector (v : VInstr) (store : Bool) (d : VReg) (offs : List W32) (g : GatherImm) : Exec Unit := do
  let base ← operand v
  let s ← get
  let me : Member := { core := s.cur, ctx := s.curCtx, v := v }
  let p := s.me.pred g.pred.val
  let nb := nibbles g.elt false
  let n := elemBytes nb
  let lanes := (activeLanes p).map fun l => (l, gatherAddr base (offs.getD l 0) g.sh.val (nb = 1))
  match lanes.find? fun e => 2 ^ 57 ≤ e.2.1 with
  | some e => trap 0x05 1 (w64 e.2.1)
  | none => pure ()
  match lanes.find? fun e => e.2.1 % n ≠ 0 with
  | some e => trap 0x04 0 (w64 e.2.1)
  | none => pure ()
  let pages ← lanes.mapM fun e => gatherPage e.2.1 (if store then .store else .load)
  let all := lanes.zip pages
  let mode := rndctlMode v.rndctl
  let sat := rndctlSat v.rndctl
  if store then do
    await ((s.myCore.unacked + (all.filter fun e => e.2.1.peer).length) ≤ 256)
    all.forM fun e => if e.2.1.peer then pure () else checkFenced e.2.2 (w64 e.1.2.1)
    await (all.all fun e =>
      if e.2.1.peer then s.peerCarried s.cur s.myPart e.2.2
      else s.carriedTo s.cur (dieOf e.2.2) && (!isHbm e.2.2 || s.takesWrite (e.2.2 / 64)))
    let src := s.me.vreg d.val
    set (all.foldl (fun t e =>
      let (r, t) := if drawsFor g.elt mode then t.drawSr t.cur else (0, t)
      let x := narrow (t.core t.cur).tables g.elt mode sat r (src.getD e.1.1 0)
      let item := if nb = 1 then Item.nibble (BitVec.ofNat 4 x) (!e.1.2.2) else Item.bytes (leBytes n x)
      if e.2.1.peer then t.peerItem t.cur t.curCtx t.myPart e.2.2 (w64 e.1.2.1) item false
      else if isHost e.2.2 then (t.sentTo t.cur hostDie).hostItem e.2.2 item
      else t.hbmItem t.cur e.2.2 item) (s.readVs [me] [d]))
  else do
    let vals ← (List.range 16).mapM fun l => do
      match all.find? fun e => e.1.1 = l with
      | none => return (0 : W32)
      | some e => do
        let raw := leNat (← gatherRead e.2.2 n e.1.2.1)
        let x := if nb = 1 then (if e.1.2.2 then raw % 16 else raw / 16) else raw
        return widen s.myCore.tables g.elt x
    modify fun t => t.writeV [me] d vals (predLanes p)

/-! ## One instruction of the sequencer -/

/-- The entry's instruction that executes next: a VLOOP's body member, which stands where the VLOOP stands in the
program, or the instruction itself. -/
def SeqEntry.now (e : SeqEntry) : VInstr :=
  match e.loop with
  | some l =>
    match e.body[l.pos]? with
    | some v => { v with num := e.v.num, order := e.v.order }
    | none => e.v
  | none => e.v

/-- The entry after its instruction has executed: none when it is done. -/
def SeqEntry.step (e : SeqEntry) : Option SeqEntry :=
  match e.loop with
  | none => none
  | some l =>
    if l.pos + 1 < e.body.length then some { e with loop := some { l with pos := l.pos + 1 }, offs := [] }
    else if l.left ≤ 1 then none
    else some { e with loop := some { left := l.left - 1, pos := 0 }, offs := [] }

/-- The context's oldest entry moves on; the watchdog counts from now. -/
def Ctx.seqStep (x : Ctx) (now : Nat) : Ctx :=
  match x.seq with
  | [] => x
  | e :: t => { x with seq := e.step.toList ++ t, watch := now, seqFail := none }

/-- A VLOOP begins: its count is taken, and nothing repeats when it is 0 (R159); in a gang the leader's count decides for
every member (DEDUCED, log 33). -/
def startLoop (ms : List Member) : Exec Unit := do
  let ns ← ms.mapM fun m => asCtx m.core m.ctx (operand m.v)
  let n := field (ns.headD 0) 31 0
  modify fun s => ms.foldl (fun t m =>
    t.updCtx m.core m.ctx fun x =>
      match x.seq with
      | [] => x
      | e :: r =>
        if n = 0 then { x with seq := r, watch := s.cycle }
        else { x with seq := { e with loop := some { left := n, pos := 0 } } :: r, watch := s.cycle }) s

/-- A memory instruction in one member: it completes, waits, or traps in that member's context (R377). -/
def State.memMember (s : State) (m : Member) (eff : Exec Unit) : State :=
  match asCtx m.core m.ctx eff s with
  | .ok _ t => t.updCtx m.core m.ctx (·.seqStep t.cycle)
  | .error (.trap code info va) _ => s.raiseStream m.core m.ctx 1 code info m.v.pc va
  | .error (.walk w) _ => s.askWalk w
  | .error (.miss r) _ => s.askMiss r
  | .error _ _ => s

/-- Vector instructions of the context forwarded after a DTLD wait for the table (R227). -/
def State.tablePending (s : State) (m : Member) : Bool :=
  (s.core m.core).slice.any fun e =>
    e.ctx = m.ctx && e.num < m.v.num && (match e.instr with
      | .dtld .. => true
      | _ => false)

/-- A memory instruction executes on each member alone, but for a gang's modified offsets, which are taken over the gang
lanes first (R156, R162). -/
def SeqEntry.aloneNow (e : SeqEntry) : Bool :=
  match e.now.instr with
  | .vld .. | .vst .. => true
  | .vldg _ _ _ m _ | .vstg _ _ _ m _ => m.cls = .none || !e.offs.isEmpty
  | _ => false

/-- The members that execute the oldest entry of a context together: the context alone, or its gang when the context
leads it and every member stands at the same instruction. -/
def State.seqMembers (s : State) (c : CoreId) (x : Nat) : List Member :=
  match (s.ctx c x).seq with
  | [] => []
  | e :: _ =>
    let g := e.now.gang
    if g.isEmpty || (e.loop.isSome || e.body.isEmpty) && e.aloneNow then [{ core := c, ctx := x, v := e.now }]
    else if g.head? ≠ some (c, x) then []
    else
      let ms := g.filterMap fun m =>
        match (s.ctx m.1 m.2).seq with
        | f :: _ =>
          if f.v.num = e.v.num && f.loop = e.loop && f.now.gang = g then some { core := m.1, ctx := m.2, v := f.now }
          else none
        | [] => none
      if ms.length = g.length then ms else []

/-- The offsets of a gang's gather kept with each member's entry. -/
def State.keepOffsets (s : State) (ms : List Member) (offs : List W32) : State :=
  (ms.zipIdx).foldl (fun t e =>
    t.updCtx e.1.core e.1.ctx fun x =>
      match x.seq with
      | [] => x
      | f :: r => { x with seq := { f with offs := share offs e.2 } :: r }) s

/-- VLDG and VSTG of the members: each alone, once the offsets of a modified gang gather stand with its entry. The offsets are
read where they are taken (R51). -/
def State.gatherEntry (s : State) (ms : List Member) (e : SeqEntry) (store : Bool) (d b : VReg) (m : SrcMod)
    (g : GatherImm) : State :=
  if ms.length ≤ 1 then
    ms.foldl (fun t r =>
      t.memMember r (do
        if e.offs.isEmpty then modify (·.readVs [r] [b])
        globalVector r.v store d (if e.offs.isEmpty then gatherOffsets s [r] b m else e.offs) g)) s
  else (s.readVs ms [b]).keepOffsets ms (gatherOffsets s ms b m)

/-- An instruction of the members together: it completes, waits, or traps in the member that met the error. -/
def State.runTogether (s : State) (ms : List Member) (eff : Exec Unit) : State :=
  match eff s with
  | .ok _ t => t
  | .error (.trap code info va) t =>
    match ms.find? fun m => m.core = t.cur && m.ctx = t.curCtx with
    | some m => s.raiseStream m.core m.ctx 1 code info m.v.pc va
    | none => s
  | .error _ _ => s

/-- The instruction of the members executes; members whose registers it cannot read trap in its place (R388). -/
def State.runEntry (s : State) (ms : List Member) (e : SeqEntry) : State :=
  let plain := s.runTogether ms
  let bad := ms.filter (s.badMember e.now.instr)
  if !e.body.isEmpty && e.loop.isNone then plain (startLoop ms)
  else if !bad.isEmpty then bad.foldl (fun t m => t.raiseStream m.core m.ctx 1 0x0D 1 m.v.pc 0) s
  else
    match e.now.instr with
    | .vld d _ im => ms.foldl (fun t m => t.memMember m (localVector m.v false d im)) s
    | .vst d _ im => ms.foldl (fun t m => t.memMember m (localVector m.v true d im)) s
    | .vldg d _ b m g => s.gatherEntry ms e false d b m g
    | .vstg d _ b m g => s.gatherEntry ms e true d b m g
    | i =>
      plain (do
        runPlain i ms
        modify fun s => ms.foldl (fun t m => t.updCtx m.core m.ctx (·.seqStep s.cycle)) s)

/-- The sequencer of a context may run: no trap of the context waits or is being handled (R76, R375). -/
def Ctx.seqRuns (x : Ctx) : Bool := x.running && x.trapPend.isNone && !x.th

/-- SEQUENCER_EXECUTION: the oldest entry of a running context, or of the gang it leads, executes one instruction. -/
def execSequencerExecution (c : CoreId) (x : Nat) (s : State) : Host.Outcome State Fault Refusal :=
  let ms := s.seqMembers c x
  let ready := ms.all fun m => (s.ctx m.core m.ctx).seqRuns && s.active m.core && !s.tablePending m
  event (!ms.isEmpty && ready)
    (fun s =>
      match (s.ctx c x).seq with
      | [] => s
      | e :: _ => s.runEntry ms e) s

end Sys2Proof.Machine
end

