-- ==== Sys2Proof/Machine/Matrix.lean ====
section
/-! DEFINITION. The matrix slice and the joint row (R201-R227): the issue of matrix instructions, what each does when
the slice executes it, one K-group of an MMA a step, and the barrier and pairing of the joint row. -/
namespace Sys2Proof

/-- K of an MMA (R221). -/
def MmaImm.k (i : MmaImm) : Nat := i.km1.val + 1

end Sys2Proof

namespace Sys2Proof.Machine

/-! ## Layout of operands (R206, R208) -/

/-- The swizzle with chunk 2^c bytes and row shift s. -/
def swizzle (c s o : Nat) : Nat := Nat.xor o ((o / 2 ^ s % 2 ^ (9 - c)) * 2 ^ c)

/-- How an operand's 32 vectors lie in its bank: pitch in bytes, nibbles per element, its swizzle if it has one. -/
structure Layout where
  off   : Nat
  pitch : Nat
  nb    : Nat
  swiz  : Option (Nat × Nat) := none
  deriving DecidableEq, Repr

/-- Nibble position of element k of vector r before the swizzle. -/
def Layout.pos (l : Layout) (r k : Nat) : Nat := (2 * l.off + 2 * r * l.pitch + k * l.nb) % 131072

/-- A byte offset as the bank holds it. -/
def Layout.place (l : Layout) (o : Nat) : Nat :=
  match l.swiz with
  | some (c, s) => swizzle c s (o % 65536)
  | none => o % 65536

/-- Nibble position of an element in the bank. -/
def Layout.at (l : Layout) (r k : Nat) : Nat :=
  let q := l.pos r k
  2 * l.place (q / 2) + q % 2

/-- Byte ranges of [lo, lo + n) cut at multiples of 16, as the bank holds them; a piece never wraps, and a swizzle moves
it whole. -/
def Layout.pieces (l : Layout) (lo n : Nat) : List (Nat × Nat) :=
  (List.range (n / 16 + 2)).filterMap fun i =>
    let a := Nat.max lo ((lo / 16 + i) * 16)
    let e := Nat.min (lo + n) ((lo / 16 + i + 1) * 16)
    if a < e then some (l.place a, e - a) else none

/-- The bytes of elements k0 .. k1 - 1 of all 32 vectors. -/
def Layout.span (l : Layout) (k0 k1 : Nat) : List (Nat × Nat) :=
  (List.range 32).flatMap fun r =>
    let q := 2 * l.off + 2 * r * l.pitch + k0 * l.nb
    l.pieces (q / 2) ((q + (k1 - k0) * l.nb + 1) / 2 - q / 2)

/-- Bytes that follow one another and wrap in the bank. -/
def flatBytes (off n : Nat) : List (Nat × Nat) := ({ off := off, pitch := 0, nb := 2 } : Layout).pieces off n

/-- Ranges of one bank as footprints, and as protected rows. -/
def feetOf (b : BankId) (l : List (Nat × Nat)) : List Foot := l.map fun p => .bank b p.1 p.2
def rowsOf (b : BankId) (l : List (Nat × Nat)) : List (BankId × Nat) := (l.map fun p => (b, p.1 / 64)).eraseDups

/-- Layout of a tile in MLOAD and MSTORE (R206, R219). -/
def tileLayout (m : MOp) (w : Window) (i : MMemImm) : Layout :=
  { off := m.off, pitch := 16 * i.pitch.val, nb := nibbles w i.f64 }

/-- Swizzle of an MMA operand. -/
def mmaSwizzle (on : Bool) (i : MmaImm) : Option (Nat × Nat) := if on then some (i.swc.val + 4, i.sws.val + 9) else none

/-- Windows of an operand; checkaddr admits 0 to 10 only. -/
def MOp.window (m : MOp) : Window := (windowOf m.win).getD .raw

def layoutA (m : MOp) (i : MmaImm) : Layout :=
  { off := m.off, pitch := 16 * i.pa.val, nb := nibbles m.window i.f64, swiz := mmaSwizzle i.swa i }
def layoutB (m : MOp) (i : MmaImm) : Layout :=
  { off := m.off, pitch := 16 * i.pb.val, nb := nibbles m.window i.f64, swiz := mmaSwizzle i.swb i }

/-! ## Pairings (R207) -/

inductive WinClass where
  | raw | half | small | int
  deriving DecidableEq, Repr

def winClass (w : Window) : WinClass :=
  match w with
  | .raw => .raw
  | .bf16 | .f16 => .half
  | .e4m3 | .e5m2 | .e2m1 | .dt0 | .dt1 => .small
  | .i8 | .n8 | .i4 => .int

/-- The group size of a pairing; none for one that R207 does not list. -/
def pairing (a b : Window) (f64 : Bool) : Option Nat :=
  match winClass a, winClass b, f64 with
  | .raw, .raw, true => some 1
  | .raw, .raw, false => some 4
  | .half, .half, false => some 8
  | .half, .small, false => some 8
  | .small, .half, false => some 8
  | .small, .small, false => some 16
  | .int, .int, false => some 16
  | _, _, _ => none

def ceilDiv (n d : Nat) : Nat := (n + d - 1) / d

/-- A scale source applies to an operand of windows 1 to 3 (R211). -/
def scaled (w : Window) : Bool := w = .e4m3 || w = .e5m2 || w = .e2m1

/-! ## Issue: operands (R203, R205) -/

/-- A scalar source of the slice names no queue register. -/
def matSources (l : List SReg) : Exec Unit := check (!l.any SReg.isQueue) 0x0A 1

/-- A status destination pushes q6 or q7 or is x0 (R203). -/
def matStatus : SReg → Exec Unit
  | .q n => check (6 ≤ n.val) 0x0A 2
  | _ => pure ()

/-- The core whose berth a fabric address of a matrix instruction names (R205). -/
def checkFabric (v : W64) : Exec CoreId := do
  let s ← get
  let n := s.cur.siteId
  check (field v 62 59 ≤ 10 && field v 45 19 = 0) 0x06 4 v
  check (field v 58 48 = s.logical n) 0x06 5 v
  match s.fabricCore n (field v 58 48) (field v 47 46) with
  | none => trap 0x06 5 v
  | some d => return d

/-- checkaddr (R205): FAULTVA is the address. -/
def checkAddr (v : W64) : Exec MOp := do
  if isFabric v then do
    let d ← checkFabric v
    let s ← get
    match (s.core d).berth (field v 18 16) with
    | none => trap 0x07 0 v
    | some b => do
      check (tagAllows s.me.compart (s.bank b).tag) 0x06 7 v
      return { bank := b, off := field v 15 0, win := field v 62 59, addr := v }
  else do
    check (field v 63 32 = 0 && field v 31 28 ≤ 10 && field v 27 19 = 0) 0x06 4 v
    let b ← berthOf (field v 18 16) v
    return { bank := b, off := field v 15 0, win := field v 31 28, addr := v }

/-- The place of an MSTORE and the bank that its address names now: through a fabric address each element is resolved at
the port, which finds an empty berth or another compartment's tag (R420, R428). -/
def checkStore (v : W64) : Exec (MOp × Option BankId) := do
  if isFabric v then do
    let d ← checkFabric v
    let b := ((← get).core d).berth (field v 18 16)
    return ({ bank := b.getD ⟨d.die, d.site, 0⟩, off := field v 15 0, win := field v 62 59, addr := v }, b)
  else do
    let m ← checkAddr v
    return (m, some m.bank)

/-- The tile a matrix instruction writes or reads in a trap handler and outside one (R202). -/
def tileCheck (d : TileCode) (writes : Bool) : Exec Unit := do
  let th := (← get).me.th
  check (if th then d.val = 4 || !writes else d.val ≠ 4) 0x01 6

/-- An element lies on its own boundary (R206). -/
def alignCheck (m : MOp) (nb : Nat) : Exec Unit := check ((2 * m.off) % nb = 0) 0x04 0 m.addr

/-- The joint-refused trap that another member's trap left behind (R215), taken by the next matrix instruction: by this
one when none of the context stands before it in the slice. -/
def refuseCheck : Exec Unit := do
  let s ← get
  check (!(s.me.refuse && !s.myCore.slice.any fun e => e.ctx = s.curCtx && !e.held)) 0x0C 4

/-! ## Issue: the slice's buffer (R203, R204) -/

/-- A store of the core through a fabric address is in the fabric or at a port on its way to a byte. -/
def State.storeFlies (s : State) (c : CoreId) (f : Foot) : Bool :=
  match f with
  | .bank b lo n => (s.fwrites ++ (s.bank b).waiting).any fun w => w.src = c && s.resolve w.src w.addr = some b && w.covers lo n
  | _ => false

/-- An MSTORE through a fabric address. -/
def MEntry.storesAway (e : MEntry) : Bool :=
  match e.instr with
  | .mstore .. => (e.opA.map fun m => isFabric m.addr).getD false
  | _ => false

/-- Accesses that stand before a matrix instruction are made before it issues: the context's vector accesses, the core's
stores through the fabric, an MSTORE through the fabric ahead of it in the slice (R72, R210, R220). -/
def awaitBefore (f : List Foot) : Exec Unit := do
  let s ← get
  let ahead := s.myCore.slice.filter fun e => !e.held && e.storesAway
  await (!feetOverlap f (s.seqFeet s.cur s.curCtx (s.me.num + 1)) && !f.any (s.storeFlies s.cur) &&
    !feetOverlap f (ahead.flatMap (·.feet)))

/-- The instruction as it issues, its operands not yet given. -/
def State.entryOf (s : State) (i : Instr) : MEntry :=
  { ctx := s.curCtx, instr := i, pc := s.me.pc, num := s.me.num, fid := s.me.fid, comp := s.me.compart
    rndctl := s.me.rndctl }

/-- The slice holds 8 instructions that are not done; those a trap holds aside are not in it. -/
def awaitSlice : Exec Unit := do
  await (((← get).myCore.slice.filter (!·.held)).length < 8)

/-- The instruction enters the slice and counts as issued. -/
def enterSlice (e : MEntry) : Exec Unit := do
  awaitSlice
  awaitHanded
  let (id, s) := (← get).fresh
  set ((s.updCore s.cur fun k => { k with slice := k.slice ++ [{ e with order := id }] }).updMe fun v =>
    { v with issued := v.issued + 1 })
  complete

/-! ## Issue: each instruction -/

def opMzero (d : TileCode) : Exec Unit := do
  refuseCheck
  tileCheck d true
  enterSlice ((← get).entryOf (.mzero d))

def opMload (d : TileCode) (a : SReg) (i : MMemImm) : Exec Unit := do
  refuseCheck
  matSources [a]
  let m ← checkAddr (← readS a)
  tileCheck d true
  check (!i.f64 || m.window = .raw) 0x01 7
  let l := tileLayout m m.window i
  alignCheck m l.nb
  let bytes := l.span 0 32
  awaitBefore (feetOf m.bank bytes)
  enterSlice { (← get).entryOf (.mload d a i) with opA := some m, feet := feetOf m.bank bytes, prot := rowsOf m.bank bytes }

/-- Rounding fields that an MSTORE through a window admits (R220). -/
def mstoreRounds (w : Window) (r : RndSat) : Bool :=
  (r.rnd != .sr || scaled w || winClass w = .half) &&
    !((w = .dt0 || w = .dt1) && !((r.rnd = .ctl || r.rnd = .rne) && !r.sat))

def opMstore (d : TileCode) (a : SReg) (i : MMemImm) (r : RndSat) : Exec Unit := do
  refuseCheck
  matSources [a]
  let (m, b) ← checkStore (← readS a)
  tileCheck d false
  check (!i.f64 || m.window = .raw) 0x01 7
  check (mstoreRounds m.window r) 0x01 7
  let l := tileLayout m m.window i
  alignCheck m l.nb
  let feet := (b.map fun b => feetOf b (l.span 0 32)).getD []
  awaitBefore feet
  enterSlice { (← get).entryOf (.mstore d a i r) with opA := some m, feet := feet }

/-- The stream position that an MMA's issue counts its entries from, and the MMAs ahead that read on from there (R210):
the last MSTREAM ahead in the slice, or the stream as it stands. -/
def Core.streamAhead (k : Core) (n : Fin 4) : Option (W64 × List MEntry) :=
  let names := fun (e : MEntry) =>
    match e.instr with
    | .mma _ _ _ i => decide (i.ss = some n)
    | _ => false
  let start := k.streams.getD n.val {}
  (k.slice.filter (!·.held)).foldl (fun acc e =>
    match e.instr with
    | .mstream _ m clr => if m = n then (if clr then none else some (e.addr, [])) else acc
    | _ => if names e then acc.map (fun q => (q.1, q.2 ++ [e])) else acc)
    (if start.live then some (start.addr, []) else none)

/-- K-groups of an MMA of the slice that are not decided. -/
def MEntry.undecided (e : MEntry) : Nat :=
  match e.instr, e.opA, e.opB with
  | .mma _ _ _ i, some a, some b => ceilDiv i.k ((pairing a.window b.window i.f64).getD 16) - e.group
  | _, _, _ => 0

/-- The context stands joined where this instruction issues: as it stands now, and as the MJOINs ahead change it. -/
def State.joinedAtIssue (s : State) : Bool :=
  let base := s.me.join = .joined || s.me.join = .leaving
  let n := (s.myCore.slice.filter fun e => e.ctx = s.curCtx && !e.held && e.instr = .mjoin).length
  base != (n % 2 = 1)

/-- A scale source as an MMA takes it (R211): its operand, if it applies, and the source advanced. -/
def takeScale (src : Option W64) (w : Window) (i : MmaImm) : Exec (Option MOp × Option W64) := do
  match i.sc && scaled w, src with
  | true, some v => do
    let m ← checkAddr v
    return (some m, some (setField v 15 0 (m.off + 32 * ceilDiv i.k 32)))
  | _, _ => return (none, src)

/-- Bytes of the scales of an operand. -/
def scaleBytes (m : Option MOp) (i : MmaImm) : List (BankId × List (Nat × Nat)) :=
  match m with
  | some m => [(m.bank, flatBytes m.off (32 * ceilDiv i.k 32))]
  | none => []

def opMma (d : TileCode) (a b : SReg) (i : MmaImm) : Exec Unit := do
  refuseCheck
  matSources [a, b]
  let ma ← checkAddr (← readS a)
  let mb ← checkAddr (← readS b)
  tileCheck d true
  match pairing ma.window mb.window i.f64 with
  | none => trap 0x01 7
  | some g => do
    let la := layoutA ma i
    let lb := layoutB mb i
    alignCheck ma la.nb
    alignCheck mb lb.nb
    let x := (← get).me
    let (sa, nextA) ← takeScale x.scaleA ma.window i
    let (sb, nextB) ← takeScale x.scaleB mb.window i
    let s ← get
    let ahead := i.ss.bind s.myCore.streamAhead
    let skip ← match ahead with
      | some (v, _) => do
        let m ← checkAddr v
        pure (some m)
      | none => pure none
    let skipBytes := match ahead, skip with
      | some (_, es), some m =>
        [(m.bank, flatBytes m.off (2 * (ceilDiv i.k g + (es.map (·.undecided)).foldl (· + ·) 0)))]
      | _, _ => []
    let reads := [(ma.bank, la.span 0 i.k), (mb.bank, lb.span 0 i.k)] ++ scaleBytes sa i ++ scaleBytes sb i ++ skipBytes
    let feet := reads.flatMap fun r => feetOf r.1 r.2
    awaitBefore feet
    awaitSlice
    modify (·.updMe fun v => { v with scaleA := nextA, scaleB := nextB })
    enterSlice
      { s.entryOf (.mma d a b i) with
        opA := some ma, opB := some mb, scA := sa, scB := sb, skip := skip, feet := feet
        prot := reads.flatMap fun r => rowsOf r.1 r.2, paired := s.joinedAtIssue }

/-- Another context of the core is joined, waits at a barrier or has an MJOIN in the slice (R213). -/
def State.rowTaken (s : State) : Bool :=
  s.myCore.ctxs.any (fun e => e.1 ≠ s.curCtx && e.2.join ≠ .no) ||
    s.myCore.slice.any fun e => e.ctx ≠ s.curCtx && e.instr = .mjoin

def opMjoin : Exec Unit := do
  refuseCheck
  let s ← get
  check (!s.me.th && !s.rowTaken) 0x0C 2
  enterSlice (s.entryOf .mjoin)

/-- MWAIT (R224). -/
def opMwait (done : Bool) : Exec Unit := do
  refuseCheck
  let x := (← get).me
  await ((if done then x.done else x.consumed) = x.issued)
  complete

/-- MSTAT (R224). -/
def opMstat (d : SReg) : Exec Unit := do
  refuseCheck
  matStatus d
  let x := (← get).me
  finish d (w64 (x.done.toNat + x.consumed.toNat * 2 ^ 16 + x.issued.toNat * 2 ^ 32 + b2n (x.join ≠ .no) * 2 ^ 48))

/-- The window bits of an address of either form. -/
def windowBits (v : W64) : Nat := if isFabric v then field v 62 59 else field v 31 28

/-- A source that names a berth of the issuing core is checked when it is named as well (R420). -/
def checkOwn (use : Bool) (v : W64) : Exec Unit := do
  if use && !isFabric v then do
    let _ ← checkAddr v
  pure ()

/-- MSCALE sets the sources at its issue (R225). -/
def opMscale (a b : SReg) (ea eb : Bool) : Exec Unit := do
  refuseCheck
  matSources [a, b]
  let va ← readS a
  let vb ← readS b
  check (!ea || windowBits va = 0) 0x06 4 va
  checkOwn ea va
  check (!eb || windowBits vb = 0) 0x06 4 vb
  checkOwn eb vb
  awaitSlice
  modify (·.updMe fun v => { v with scaleA := if ea then some va else none, scaleB := if eb then some vb else none })
  enterSlice ((← get).entryOf (.mscale a b ea eb))

/-- MSTREAM (R226). -/
def opMstream (a : SReg) (n : Fin 4) (clr : Bool) : Exec Unit := do
  refuseCheck
  matSources [a]
  let v ← readS a
  if !clr then do
    check (field v 63 19 = 0) 0x06 4 v
    checkOwn true v
    check (v.toNat % 2 = 0) 0x04 0 v
  enterSlice { (← get).entryOf (.mstream a n clr) with addr := v }

/-- DTLD (R227). -/
def opDtld (d a : SReg) (t : Bool) : Exec Unit := do
  refuseCheck
  matSources [a]
  matStatus d
  let m ← checkAddr (← readS a)
  check (m.win = 0) 0x06 4 m.addr
  check (m.off % 4 = 0) 0x04 0 m.addr
  let bytes := flatBytes m.off 512
  awaitBefore (feetOf m.bank bytes)
  enterSlice { (← get).entryOf (.dtld d a t) with opA := some m, feet := feetOf m.bank bytes, prot := rowsOf m.bank bytes }

def execMzero (d : TileCode) : State → Host.Outcome State Fault Refusal := issue (opMzero d)
def execMload (d : TileCode) (a : SReg) (i : MMemImm) : State → Host.Outcome State Fault Refusal := issue (opMload d a i)
def execMstore (d : TileCode) (a : SReg) (i : MMemImm) (r : RndSat) : State → Host.Outcome State Fault Refusal :=
  issue (opMstore d a i r)
def execMma (d : TileCode) (a b : SReg) (i : MmaImm) : State → Host.Outcome State Fault Refusal := issue (opMma d a b i)
def execMjoin : State → Host.Outcome State Fault Refusal := issue opMjoin
def execMwait (done : Bool) : State → Host.Outcome State Fault Refusal := issue (opMwait done)
def execMstat (d : SReg) : State → Host.Outcome State Fault Refusal := issue (opMstat d)
def execMscale (a b : SReg) (ea eb : Bool) : State → Host.Outcome State Fault Refusal := issue (opMscale a b ea eb)
def execMstream (a : SReg) (s : Fin 4) (clr : Bool) : State → Host.Outcome State Fault Refusal :=
  issue (opMstream a s clr)
def execDtld (d a : SReg) (t : Bool) : State → Host.Outcome State Fault Refusal := issue (opDtld d a t)

/-! ## In the slice: reading operands (R209, R210, R300) -/

/-- An operand through a fabric address is read from the original of a speculative region, one through a local address
from the core's own view (R209). -/
def State.operandBank (s : State) (m : MOp) : BankId := if isFabric m.addr then m.bank else s.coreView m.bank

/-- A copy open at the issue still holds one of the bytes. -/
def State.tideHolds (s : State) (e : MEntry) (m : MOp) (o n : Nat) : Bool :=
  (s.bank m.bank).wmOrder < e.order && anyByte o n (s.bank m.bank).inEnvelope

/-- A write resolved before the issue is still held at the port of the bank; one that a speculative region holds counts for
an operand read through the region only where it is the core's own (R192, R245). -/
def State.earlierHeld (s : State) (e : MEntry) (m : MOp) (o n : Nat) : Bool :=
  let k := s.bank m.bank
  k.held.any fun w => w.order < e.order && w.covers o n && (isFabric m.addr || k.shadow.isNone || w.src = s.cur)

/-- The address of an operand's byte. -/
def MOp.byteAddr (m : MOp) (o : Nat) : W64 := setField m.addr 15 0 o

/-- One range of an operand may be read: no copy open at the issue holds it, no write resolved before the issue waits
at the port, no word is bad (R210, R300, R409, R426). Passing acquires what landed there (R264). -/
def guardRead (e : MEntry) (m : MOp) (r : Nat × Nat) : Exec Unit := do
  let s ← get
  check (!(s.tideHolds e m r.1 r.2 && (s.bank m.bank).wmFroz)) 0x08 0 (m.byteAddr r.1)
  await (!s.tideHolds e m r.1 r.2 && !s.earlierHeld e m r.1 r.2)
  check (!(s.bank (s.operandBank m)).error r.1 r.2) 0x0D 1 (m.byteAddr r.1)
  set ((s.firstUse s.cur m.bank).landingAcquire s.cur m.bank r.1 r.2)

def State.mread (s : State) (m : MOp) (o n : Nat) : List Byte := s.bankRead (s.operandBank m) o n

/-! ## In the slice: progress -/

/-- An entry of a core's slice changed. -/
def State.updEntry (s : State) (c : CoreId) (order : Nat) (f : MEntry → MEntry) : State :=
  s.updCore c fun k => { k with slice := k.slice.map fun e => if e.order = order then f e else e }

/-- The firing that issued the entry still stands in its context. -/
def State.ownsEntry (s : State) (c : CoreId) (e : MEntry) : Bool :=
  (s.ctx c e.ctx).running && (s.ctx c e.ctx).fid = e.fid

/-- CONSUMED counts the entry (R204). -/
def State.consume (s : State) (c : CoreId) (e : MEntry) : State :=
  let t := s.updEntry c e.order fun e => { e with cons := true }
  if s.ownsEntry c e && !e.cons then t.updCtx c e.ctx fun v => { v with consumed := v.consumed + 1, watch := s.cycle }
  else t

/-- The entry is a reader of memory: it is consumed when its reads are done. -/
def MEntry.reads (e : MEntry) : Bool :=
  match e.instr with
  | .mload .. => true
  | .mma .. => true
  | .dtld .. => true
  | _ => false

/-- The slice begins an instruction; one that reads no memory is consumed at once (R204), an MJOIN comes to its
barrier (R213). -/
def State.beginEntry (s : State) (c : CoreId) (e : MEntry) : State :=
  let t := s.updEntry c e.order fun e => { e with begun := true }
  let t := if e.reads then t else t.consume c e
  if e.instr = .mjoin then
    t.updCtx c e.ctx fun v => { v with join := if v.join = .joined then .leaving else .joining }
  else t

/-- An instruction of the slice faults: it is held and its context traps (R376). -/
def State.sliceTrap (s : State) (c : CoreId) (e : MEntry) (code info : Nat) (va : W64) : State :=
  (s.updEntry c e.order fun e => { e with begun := false }).raiseStream c e.ctx 2 code info e.pc va

/-! ## In the slice: tiles (R201) -/

def Tile.at (t : Tile) (m n : Nat) : W32 := t.getD (32 * m + n) 0

/-- A tile from its elements, those that are +0 unlisted. -/
def tileOf (f : Nat → Nat → W32) : Tile :=
  (List.range 1024).filterMap fun i =>
    let v := f (i / 32) (i % 32)
    if v = 0 then none else some (i, v)

def Core.tile (k : Core) (d : Nat) : Tile := k.tiles.getD d []
def Core.setTile (k : Core) (d : Nat) (t : Tile) : Core :=
  { k with tiles := k.tiles.put d t, bad := k.bad.filter (· ≠ .tile d) }

/-- The tiles that an instruction of the slice reads hold no uncorrectable row; one that does traps it (R388). -/
def soundTiles (d : Nat) (f64 : Bool) : Exec Unit := do
  let k := (← get).myCore
  check (!(k.bad.contains (.tile d) || f64 && k.bad.contains (.tile (d + 1)))) 0x0D 1

/-- Element of a tile or, with F64, of a tile pair. -/
def Core.element (k : Core) (d : Nat) (f64 : Bool) (m n : Nat) : Nat :=
  ((k.tile d).at m n).toNat + (if f64 then ((k.tile (d + 1)).at m n).toNat * 2 ^ 32 else 0)

/-- A tile or a tile pair set from its elements. -/
def Core.setElements (k : Core) (d : Nat) (f64 : Bool) (f : Nat → Nat → Nat) : Core :=
  let k1 := k.setTile d (tileOf fun m n => BitVec.ofNat 32 (f m n))
  if f64 then k1.setTile (d + 1) (tileOf fun m n => BitVec.ofNat 32 (f m n / 2 ^ 32)) else k1

/-- An element of MLOAD: bits for RAW, else the exact binary32 value (R220). -/
def loadElement (tb : Tables) (w : Window) (raw : Nat) : Nat :=
  if w = .raw then raw else convertLane tb .f32 (windowTy w) .rne false 0 raw

/-- MLOAD's effect. -/
def doMload (e : MEntry) (d : TileCode) (i : MMemImm) (m : MOp) : Exec Unit := do
  let l := tileLayout m m.window i
  (l.span 0 32).forM (guardRead e m)
  let s ← get
  let tb := s.myCore.tables
  let t := s.updCore s.cur fun k =>
    k.setElements d.val i.f64 fun r n => loadElement tb m.window (elementAt (s.mread m) l.nb (l.at r n))
  set (t.consume s.cur e)

/-- One element of MSTORE as its window holds it, with its draw (R220). -/
def storeElement (e : MEntry) (d : TileCode) (i : MMemImm) (r : RndSat) (w : Window) (n : Nat) : Exec Nat := do
  let s ← get
  let k := s.myCore
  let v := k.element d.val i.f64 (n / 32) (n % 32)
  if w = .raw then return v
  else do
    let (mode, sat) := RndSat.inForce r e.rndctl
    if drawsFor w mode then do
      let (x, t) := s.drawSr s.cur
      set t
      return convertLane k.tables (windowTy w) .f32 mode sat x v
    else return convertLane k.tables (windowTy w) .f32 mode sat 0 v

/-- A write by the slice waits behind a landing, a held write, and rows that earlier matrix instructions protect
(R301, R210); into a frozen range it traps (R409). -/
def guardWrite (e : MEntry) (m : MOp) (r : Nat × Nat) : Exec Unit := do
  let s ← get
  let k := s.bank m.bank
  check (!anyByte r.1 r.2 k.frozenHeld) 0x08 0 (m.byteAddr r.1)
  await (!anyByte r.1 r.2 k.landingHeld && !k.portHeld s.cur r.1 r.2 && !s.protectedBefore m.bank r.1 r.2 e.order)
  set (s.firstUse s.cur m.bank)

/-- MSTORE into the core's own berth. -/
def storeHome (e : MEntry) (d : TileCode) (i : MMemImm) (r : RndSat) (m : MOp) : Exec Unit := do
  let l := tileLayout m m.window i
  soundTiles d.val i.f64
  (l.span 0 32).forM (guardWrite e m)
  (List.range 1024).forM fun n => do
    let x ← storeElement e d i r m.window n
    modify fun s => s.putElement (s.coreView m.bank) l.nb (l.at (n / 32) (n % 32)) x
  modify fun s => s.retireHead s.cur e

/-- MSTORE through a fabric address: as many elements as may be unacknowledged leave as remote stores (R220, R243). -/
def storeAway (e : MEntry) (d : TileCode) (i : MMemImm) (r : RndSat) (m : MOp) : Exec Unit := do
  let l := tileLayout m m.window i
  soundTiles d.val i.f64
  let room := Nat.min (256 - (← get).myCore.unacked) (1024 - e.group)
  await (0 < room)
  (List.range room).forM fun j => do
    let n := e.group + j
    let x ← storeElement e d i r m.window n
    let q := l.at (n / 32) (n % 32)
    let kind := if l.nb = 1 then WKind.nibble (BitVec.ofNat 4 x) (q % 2 = 1) else .bytes (leBytes (l.nb / 2) x)
    modify fun s =>
      { s.raiseUnacked s.cur with fwrites := s.fwrites ++
          [{ src := s.cur, ctx := e.ctx, fid := e.fid, comp := e.comp, addr := m.byteAddr (q / 2), kind := kind }] }
  if e.group + room = 1024 then modify fun s => s.retireHead s.cur e
  else modify fun s => s.updEntry s.cur e.order fun e => { e with group := e.group + room }

/-! ## In the slice: MMA (R175-R178, R211, R212, R222) -/

/-- Where a stream's next entry stands: in the bank that the MMA's issue resolved, or, where another MSTREAM has since set the
stream to another slot, behind the core's own berth at this moment (R212) (DEDUCED, log 40). -/
def streamPlace (e : MEntry) (t : Stream) : Exec MOp := do
  let slot := field t.addr 18 16
  match e.skip.filter fun m => field m.addr 18 16 = slot with
  | some m => return { m with off := field t.addr 15 0, addr := t.addr }
  | none => do
    let b ← berthOf slot t.addr
    return { bank := b, off := field t.addr 15 0, win := 0, addr := t.addr }

/-- One decision of a skip stream (R212). -/
def nextGroup (e : MEntry) (n : Nat) : Exec Bool := do
  let s ← get
  let t := s.myCore.streams.getD n {}
  let put := fun (t : Stream) => modify fun s : State => s.updCore s.cur fun k => { k with streams := k.streams.put n t }
  let use := fun (t : Stream) =>
    if 0 < t.skip then do
      put { t with skip := t.skip - 1 }
      return false
    else do
      put { t with keep := t.keep - 1 }
      return true
  if !t.live then return true
  else if 0 < t.skip || 0 < t.keep then use t
  else do
    let m ← streamPlace e t
    guardRead e m (m.off, 2)
    let x := leNat ((← get).mread m m.off 2)
    let t := { t with addr := setField t.addr 15 0 (m.off + 2) }
    if x = 0 then do
      put { t with live := false }
      return true
    else use { t with skip := x / 256, keep := x % 256 }

/-- The exact value of an operand element. -/
def elemVal (tb : Tables) (w : Window) (wide : Bool) (raw : Nat) : FVal :=
  if wide then f64.decode raw else readAs tb (cvtClass (windowTy w)) raw

/-- The value of a block scale (R165). -/
def scaleVal (n : Nat) : FVal := if n = 0xFF then .nan else .fin false 1 ((n : Int) - 127)

/-- The vectors r = 0 .. 31 of elements k0 .. k1 - 1 of an operand, scaled. -/
def State.groupVals (s : State) (tb : Tables) (m : MOp) (l : Layout) (wide : Bool) (sc : Option MOp) (k0 k1 : Nat) :
    List (List FVal) :=
  (List.range 32).map fun r =>
    let f := match sc with
      | some q => scaleVal (leNat (s.mread q ((q.off + 32 * (k0 / 32) + r) % 65536) 1))
      | none => .fin false 1 0
    (List.range (k1 - k0)).map fun j =>
      (elemVal tb m.window wide (elementAt (s.mread m) l.nb (l.at r (k0 + j)))).mul f

/-- A product of integers has no −0 (R166). -/
def FVal.integral : FVal → FVal
  | .fin _ 0 _ => .fin false 0 0
  | v => v

/-- The exact sum of a group's products, of integers or of floating-point elements (R175, R176). -/
def groupSum (int : Bool) (a b : List FVal) : FVal :=
  match (List.zipWith FVal.mul a b).map fun p => if int then p.integral else p with
  | [] => .fin false 0 0
  | p :: ps => ps.foldl (FVal.add .rne) p

/-- An accumulator after one group: two roundings to nearest (R175), or one step of a binary64 chain (R178). -/
def accumulate (wide int : Bool) (acc : Nat) (a b : List FVal) : Nat :=
  if wide then f64.round .rne false (FVal.add .rne (groupSum false a b) (f64.decode acc))
  else
    let s := f32.round .rne false (groupSum int a b)
    f32.round .rne false (FVal.add .rne (f32.decode acc) (f32.decode s))

/-- One K-group of an MMA: its decision, the guarded reads, the accumulation of all 1,024 elements. -/
def doGroup (e : MEntry) (d : TileCode) (i : MmaImm) (ma mb : MOp) (g : Nat) : Exec Unit := do
  let k0 := e.group * g
  let k1 := Nat.min (k0 + g) i.k
  let keep ← match i.ss with
    | some n => nextGroup e n.val
    | none => pure true
  if keep then do
    let la := layoutA ma i
    let lb := layoutB mb i
    soundTiles d.val i.f64
    (la.span k0 k1).forM (guardRead e ma)
    (lb.span k0 k1).forM (guardRead e mb)
    let block := 32 * (k0 / 32)
    match e.scA with
    | some q => (flatBytes (q.off + block) 32).forM (guardRead e q)
    | none => pure ()
    match e.scB with
    | some q => (flatBytes (q.off + block) 32).forM (guardRead e q)
    | none => pure ()
    let s ← get
    let k := s.myCore
    let va := s.groupVals k.tables ma la i.f64 e.scA k0 k1
    let vb := s.groupVals k.tables mb lb i.f64 e.scB k0 k1
    set (s.updCore s.cur fun k =>
      k.setElements d.val i.f64 fun m n => accumulate i.f64 (winClass ma.window = .int) (k.element d.val i.f64 m n) (va.getD m []) (vb.getD n []))
  modify fun s => s.updEntry s.cur e.order fun e => { e with group := e.group + 1 }
  if i.k ≤ k1 then modify fun s => s.consume s.cur e

/-! ## In the slice: the other instructions -/

/-- DTLD's table words and status (R227). -/
def tableEntries (s : State) (m : MOp) : List (BitVec 19) :=
  (List.range 128).map fun c => BitVec.ofNat 19 (leNat (s.mread m ((m.off + 4 * c) % 65536) 4))

def tableStatus (l : List (BitVec 19)) : Nat :=
  if l.any fun w => bitOf w 18 || field w 17 10 = 0xFF then 1
  else if (l.zip (l.drop 1)).any fun p => !(dt19.decode p.1.toNat).lt (dt19.decode p.2.toNat) then 2
  else 0

/-- DTLD: after the vector instructions forwarded before it, at one moment. -/
def doDtld (e : MEntry) (d : SReg) (t : Bool) (m : MOp) : Exec Unit := do
  (flatBytes m.off 512).forM (guardRead e m)
  let s ← get
  let mine := s.ownsEntry s.cur e
  await (!(mine && s.me.seq.any fun v => v.v.num < e.num))
  let l := tableEntries s m
  let tab : Tab Nat (BitVec 19) := (List.range 128).zip l
  modify fun s => s.updCore s.cur fun k => if t then { k with dt1 := tab } else { k with dt0 := tab }
  if mine then writeS d (w64 (tableStatus l))
  modify fun s => s.consume s.cur e

/-- MSTREAM (R226). -/
def doMstream (e : MEntry) (n : Fin 4) (clr : Bool) : Exec Unit :=
  modify fun s =>
    (s.updCore s.cur fun k =>
      { k with streams := k.streams.put n.val (if clr then {} else { live := true, addr := e.addr }) }).retireHead s.cur e

/-- An MJOIN at its barrier (R213): it waits for the four cores; one whose row has dissolved under it is done. -/
def doMjoin (e : MEntry) : Exec Unit := do
  let s ← get
  let n := s.cur.siteId
  let done := fun (j after : JoinSt) => do
    await (s.atBarrier n j)
    set (s.passBarrier n j after)
  match (s.ctx s.cur e.ctx).join with
  | .joining => done .joining .joined
  | .leaving => done .leaving .no
  | _ => modify fun s => s.retireHead s.cur e

/-- What the slice does for an instruction that it has begun. -/
def doEntry (e : MEntry) : Exec Unit := do
  match e.instr, e.opA, e.opB with
  | .mzero d, _, _ => modify fun s => (s.updCore s.cur (·.setTile d.val [])).retireHead s.cur e
  | .mload d _ i, some m, _ => doMload e d i m
  | .mstore d _ i r, some m, _ => if isFabric m.addr then storeAway e d i r m else storeHome e d i r m
  | .mma d _ _ i, some ma, some mb => doGroup e d i ma mb ((pairing ma.window mb.window i.f64).getD 16)
  | .dtld d _ t, some m, _ => doDtld e d t m
  | .mstream _ n clr, _, _ => doMstream e n clr
  | .mjoin, _, _ => doMjoin e
  | _, _, _ => modify fun s => s.retireHead s.cur e

/-! ## The joint row: pairing (R214) -/

/-- The instruction that a slice executes next: those a trap holds aside are passed. -/
def Core.sliceHead (k : Core) : Option MEntry := k.slice.find? (!·.held)

/-- What the A side of paired MMAs must have in common. -/
structure SideA where
  bank  : BankId
  off   : Nat
  win   : Nat
  k     : Nat
  pitch : Nat
  swiz  : Option (Nat × Nat)
  f64   : Bool
  sc    : Bool
  scale : Option (BankId × Nat)
  deriving DecidableEq, Repr

def MEntry.sideA (e : MEntry) : Option SideA :=
  match e.instr, e.opA with
  | .mma _ _ _ i, some m =>
    some { bank := m.bank, off := m.off, win := m.win, k := i.k, pitch := i.pa.val, swiz := mmaSwizzle i.swa i
           f64 := i.f64, sc := i.sc, scale := e.scA.map fun q => (q.bank, q.off) }
  | _, _ => none

/-- The paired MMA a core's slice has reached, its context joined. -/
def State.pairHead (s : State) (c : CoreId) : Option MEntry :=
  match (s.core c).sliceHead with
  | some e =>
    if e.paired && !e.begun && s.ownsEntry c e && (s.ctx c e.ctx).join = .joined && s.active c then some e else none
  | none => none

/-- A slice has reached a paired MMA: alone it waits; with the other three the MMAs begin, or all four members take the
joint-refused trap and the row dissolves. One whose context has left the row is refused. -/
def State.pairMma (s : State) (c : CoreId) (e : MEntry) : State :=
  if (s.ctx c e.ctx).join ≠ .joined then s.sliceTrap c e 0x0C 4 0
  else
    let heads := c.siteId.cores.filterMap fun d => (s.pairHead d).map fun h => (d, h)
    if heads.length ≠ 4 then s
    else
      let sides := heads.map fun h => h.2.sideA
      if sides.all (fun x => x == sides.headD none) then heads.foldl (fun t h => t.beginEntry h.1 h.2) s
      else
        let t := heads.foldl (fun t h => t.updCtx h.1 h.2.ctx fun v => { v with join := .no }) s
        heads.foldl (fun t h => t.sliceTrap h.1 h.2 0x0C 3 0) t

/-! ## MATRIX_SLICE_EXECUTION -/

/-- One step of a slice's first instruction. -/
def State.sliceStep (s : State) (c : CoreId) : State :=
  match (s.core c).sliceHead with
  | none => s
  | some e =>
    let v := s.ctx c e.ctx
    let mine := s.ownsEntry c e
    if mine && v.refuse && (!e.begun || e.instr = .mjoin) then s.sliceTrap c e 0x0C 4 0
    else if e.paired && !e.begun then s.pairMma c e
    else if !e.begun then s.beginEntry c e
    else if e.reads && e.cons then s.retireHead c e
    else
      match asCtx c e.ctx (doEntry e) s with
      | .ok _ t => t
      | .error (.trap code info va) _ =>
        if !mine then s.retireHead c e
        else if v.trapPend.isSome then s
        else s.sliceTrap c e code info va
      | .error _ _ => s

end Sys2Proof.Machine
end

