-- ==== Sys2Proof/Machine/System.lean ====
section
/-! DEFINITION. System registers and the instructions of major 0x23 (R379-R395), trap entry, fatal traps and revocation
(R373, R378, R423, R424), the watchdog (R405). -/
namespace Sys2Proof.Machine

/-! ## System registers (R379) -/

/-- The gang member number of a context, 0 outside a gang. -/
def State.memberNo (s : State) (c : CoreId) (x : Nat) : Nat := (s.gangOf c).idxOf (c, x)

/-- CORECOORD (R382). -/
def State.corecoord (s : State) (c : CoreId) : W64 :=
  let n := c.siteId
  w64 (c.core + n.x * 2 ^ 2 + n.y * 2 ^ 6 + c.die * 2 ^ 10 + s.spanCluster n * 2 ^ 24 + s.spanCoreNo c * 2 ^ 34 +
    s.logical n * 2 ^ 46)

/-- LANEID (R382). -/
def State.laneid (s : State) (c : CoreId) (x : Nat) : W64 :=
  if (s.ctx c x).ganged then
    w64 (16 * s.memberNo c x + (((s.core c).gang.map (·.log)).getD 0) * 2 ^ 8)
  else 0

/-- THERM (R370). -/
def Die.therm (d : Die) : W64 :=
  w64 (d.allow.toNat + d.temp.toNat * 2 ^ 32 + b2n d.hot0 * 2 ^ 40 + b2n d.hot1 * 2 ^ 41)

/-- XDONE of a channel (R297). -/
def Channel.xdone (h : Channel) : W64 := w64 (h.done.toNat + h.next.toNat * 2 ^ 32)

/-- The channel a register number 0x18-0x1B names, of the issuing core's cluster. -/
def State.xdoneChannel (s : State) (reg : Nat) : Channel := (s.core { s.cur with core := reg - 0x18 }).chan

/-- The value of a system register for the issuing context. -/
def State.sysValue (s : State) (reg : Nat) : W64 :=
  let v := s.me
  let k := s.myCore
  match reg with
  | 0x00 => v.status
  | 0x01 => v.epc
  | 0x02 => v.xpc
  | 0x03 => v.cause
  | 0x04 => v.faultva
  | 0x05 => k.tvec
  | 0x10 => s.corecoord s.cur
  | 0x11 => s.laneid s.cur s.curCtx
  | 0x12 => v.rndctl
  | 0x13 => k.seed.zeroExtend 64
  | 0x14 => w64 s.cycle
  | 0x15 => (s.die s.cur.die).therm
  | 0x1C => w64 v.compart
  | 0x1D => w64 (s.worldOf s.myPart)
  | 0x1E => k.ptbase
  | n => if n ≤ 0x09 then v.tscr.getD (n - 6) 0 else if 0x18 ≤ n && n ≤ 0x1B then (s.xdoneChannel n).xdone else 0

/-- A register that a user may neither read nor write (DEDUCED, log 21). -/
def sysNeedsSv (reg : Nat) : Bool := (1 ≤ reg && reg ≤ 9) || reg = 0x1E

/-- PTBASE as a write leaves it (R232): its reserved bits stay 0. -/
def ptbaseWrite (w : W64) : W64 := w64 (field w 51 12 * 2 ^ 12 + field w 0 0)

/-- The writable fields of a register take a value (R379). -/
def State.sysWrite (s : State) (reg : Nat) (w : W64) : State :=
  match reg with
  | 0x00 => s.updMe (·.setDz (bitOf w 0))
  | 0x02 => s.updMe fun v => { v with xpc := w }
  | 0x05 => s.updCore s.cur fun k => { k with tvec := w }
  | 0x12 => s.updMe fun v => { v with rndctl := rndctlWrite v.rndctl w }
  | 0x13 => s.updCore s.cur fun k => { k with seed := if (w.truncate 32 : W32) = 0 then 1 else w.truncate 32 }
  | 0x1E => s.updCore s.cur fun k => { k with ptbase := ptbaseWrite w }
  | n => if 6 ≤ n && n ≤ 9 then s.updMe fun v => { v with tscr := v.tscr.put (n - 6) w } else s

/-- The privilege of a register, and SEED's wait for the sequencer (R174). -/
def sysAccess (reg : Nat) : Exec Unit := do
  if sysNeedsSv reg then needSv
  if reg = 0x13 then await ((← get).me.seq = [])

/-- SYSR; an XDONE that shows a completed copy acquires it (R297, R385). -/
def opSysr (d : SReg) (reg : Nat) : Exec Unit := do
  directions [] [d]
  sysAccess reg
  let s ← get
  if 0x18 ≤ reg && reg ≤ 0x1B && (s.xdoneChannel reg).passed then acquire .part
  finish d (s.sysValue reg)

/-- SYSW: the old value to d, then the new one into the register. -/
def opSysw (d a : SReg) (reg : Nat) : Exec Unit := do
  directions [a] [d]
  sysAccess reg
  let w ← readS a
  let s ← get
  writeS d (s.sysValue reg)
  modify fun s => s.sysWrite reg w
  complete

def execSysr (d : SReg) (reg : Fin 256) : State → Host.Outcome State Fault Refusal := issue (opSysr d reg.val)
def execSysw (d a : SReg) (reg : Fin 256) : State → Host.Outcome State Fault Refusal := issue (opSysw d a reg.val)

/-! ## TRAP, SRET (R391, R392) -/

/-- TRAP: a breakpoint whose XPC is the next PC. Nothing it would pop is popped. -/
def execTrap (a : SReg) (code : Fin 16) (s : State) : Host.Outcome State Fault Refusal :=
  let value : Exec W64 := do
    directions [a] []
    readS a
  match value s with
  | .ok v _ =>
    .next (s.raise s.cur s.curCtx
      { code := 0x11, info := code.val, stream := 0, epc := s.me.pc, xpc := s.me.next, va := v, order := 0 })
  | .error e _ => issue (throw e) s

/-- SRET. -/
def opSret : Exec Unit := do
  let s ← get
  check s.me.th 0x03
  set (s.updCore s.cur fun k => k.leaveTrap s.curCtx s.cycle)

def execSret : State → Host.Outcome State Fault Refusal := issue opSret

/-! ## TLBI (R394) -/

/-- A cached translation that a TLBI drops: of the partition, and for the 64 KiB page unless all go. -/
def TlbEntry.dropped (e : TlbEntry) (p : Nat) (page : Option Nat) : Bool :=
  e.part = p && (match page with
    | none => true
    | some a => e.va < a / 65536 * 65536 + 65536 && a / 65536 * 65536 < e.va + e.size)

/-- Every TLB of the module drops a partition's translations, and walks in flight install none (R394). -/
def State.tlbDrop (s : State) (p : Nat) (page : Option Nat) : State :=
  let keep := fun (l : List TlbEntry) => l.filter fun e => !e.dropped p page
  { s with
    cores := s.cores.map fun e => (e.1, { e.2 with tlb := keep e.2.tlb })
    clusters := s.clusters.map fun e => (e.1, { e.2 with tlb := keep e.2.tlb })
    dies := s.dies.map fun e =>
      (e.1, { e.2 with
        tlb := keep e.2.tlb
        walks := e.2.walks.filter fun w =>
          !(w.part = p && (match page with
            | none => true
            | some a => w.va = a / 65536 * 65536)) }) }

/-- An instruction that stores to memory. -/
def storesMem : Instr → Bool
  | .vst .. | .vstg .. | .mstore .. => true
  | _ => false

/-- The context's earlier stores have reached their execution points: no store waits in its sequencer or in the slice, and the
core's remote stores have been acknowledged. -/
def State.storesReached (s : State) (c : CoreId) (x : Nat) : Bool :=
  !(s.ctx c x).seq.any (fun e => storesMem e.v.instr || e.body.any fun v => storesMem v.instr) &&
    !(s.core c).slice.any (fun e => e.ctx = x && storesMem e.instr) && (s.core c).unacked = 0

/-- TLBI waits until the context's earlier stores have reached their execution points. -/
def opTlbi (a : SReg) (all : Bool) : Exec Unit := do
  directions [a] []
  needSv
  let v ← readS a
  let s ← get
  await (s.storesReached s.cur s.curCtx)
  modify fun s => s.tlbDrop s.myPart (if all then none else some v.toNat)
  complete

def execTlbi (a : SReg) (all : Bool) : State → Host.Outcome State Fault Refusal := issue (opTlbi a all)

/-! ## WFE (R395) -/

/-- WFE: it stalls until an event of R395 ends its wait, or 4,096 cycles have passed. -/
def opWfe : Exec Unit := do
  let s ← get
  match s.me.wait with
  | .woken => complete
  | .wfe t => if t + 4096 ≤ s.cycle then complete else stall
  | _ => do
    modify (·.updMe fun v => { v with wait := .wfe s.cycle })
    hold

def execWfe : State → Host.Outcome State Fault Refusal := issue opWfe

/-- WFE_TIMEOUT. -/
def execWfeTimeout (c : CoreId) (x : Nat) (s : State) : Host.Outcome State Fault Refusal :=
  match (s.ctx c x).wait with
  | .wfe t => event (t + 4096 ≤ s.cycle) (·.updCtx c x fun v => { v with wait := .woken }) s
  | _ => .next s

/-! ## TRAP_ENTRY (R373, R374, R378) -/

/-- The trap of a context is the oldest that waits on its core. -/
def Core.firstTrap (k : Core) (t : TrapInfo) : Bool :=
  k.ctxs.all fun e =>
    match e.2.trapPend with
    | some u => t.order ≤ u.order
    | none => true

/-- A waiting trap is taken: the handler is entered, or the firing ends by a fatal trap. -/
def State.takeTrap (s : State) (c : CoreId) (x : Nat) (t : TrapInfo) : State :=
  let k := s.core c
  if k.fatal x then s.fatalEnd c x (causeWord t.code t.stream t.info) t.epc t.va else s.setCore c (k.enterTrap x t s.cycle)

/-- TRAP_ENTRY: in the order in which the contexts trapped, once no other context of the core runs a handler; a trap
inside the running handler waits for none. -/
def execTrapEntry (c : CoreId) (x : Nat) (s : State) : Host.Outcome State Fault Refusal :=
  match (s.ctx c x).trapPend with
  | none => .next s
  | some t => event (s.active c && !(s.core c).otherHandler x && ((s.ctx c x).th || (s.core c).firstTrap t)) (·.takeTrap c x t) s

/-! ## The stop of an instruction (R340), WATCHDOG (R405) -/

/-- The wait of a context as a stop leaves it (R340): a wait that is saved stays, an answer already there stays, the
rest is abandoned. -/
def Wait.stopped : Wait → Wait
  | .sbar i k => .sbar i k
  | .ending => .ending
  | .leaving => .leaving
  | .value v => .value v
  | .woken => .woken
  | .wfe _ => .woken
  | .trap => .trap
  | _ => .none

/-- The writes of a bank's port less the fabric atomic of a number. -/
def Bank.withoutAccess (b : Bank) (id : Nat) : Bank :=
  let keep := fun (w : FWrite) =>
    match w.kind with
    | .access r => r.id ≠ id
    | _ => true
  { b with held := b.held.filter keep, waiting := b.waiting.filter keep }

/-- What a stop makes of an access under way: an atomic that has reached its bank brings its value back at once; a load, or
an access that has not reached its execution point, is abandoned with its request (R340) (DEDUCED, log 25). -/
def State.stopAccess (s : State) (w : Wait) : Wait × State :=
  match w with
  | .fabric id =>
    let back := s.fresps.find? fun r => r.req.id = id
    let t := { s with
      freqs := s.freqs.filter (·.id ≠ id), fresps := s.fresps.filter (·.req.id ≠ id)
      banks := s.banks.map fun e => (e.1, e.2.withoutAccess id) }
    match back with
    | some r => (if r.req.kind.writes && r.fault.isNone then .value r.value else .none, t)
    | none => (.none, t)
  | .host id => (.none, { s with hreqs := s.hreqs.filter (·.id ≠ id) })
  | .line id => (.none, s.withoutReqs fun r => r.id = id && r.want ≠ .look && r.want ≠ .fill)
  | w => (w.stopped, s)

/-- A load or atomic under way is abandoned as at a stop, or has its value where it has taken effect (R340). -/
def State.abandonAccess (s : State) (c : CoreId) (x : Nat) : State :=
  match (s.ctx c x).wait with
  | .fabric _ | .host _ | .line _ =>
    let (w, t) := s.stopAccess (s.ctx c x).wait
    t.updCtx c x fun v => { v with wait := w }
  | _ => s

/-- The watchdog's trap at the instruction where the integer pipeline stands. -/
def State.watchdog (s : State) (c : CoreId) (x : Nat) : State :=
  let t := s.abandonAccess c x
  let pc := (t.ctx c x).pc
  t.raise c x { code := 0x0E, info := 1, stream := 0, epc := pc, xpc := pc, va := 0, order := 0 }

/-- WATCHDOG: 2^24 cycles without progress. -/
def execWatchdog (c : CoreId) (x : Nat) (s : State) : Host.Outcome State Fault Refusal :=
  let v := s.ctx c x
  event (v.running && v.trapPend.isNone && s.active c && v.watch + 2 ^ 24 ≤ s.cycle) (·.watchdog c x) s

/-! ## REVOCATION (R423, R424) -/

/-- The banks in the berths of a core, with their slots. -/
def Core.berthed (k : Core) : List (Nat × BankId) :=
  (List.range 8).filterMap fun i => (k.berth i).map fun b => (i, b)

/-- Accesses to the core's banks that revocation waits for have completed. -/
def State.revocable (s : State) (c : CoreId) : Bool :=
  (s.core c).berthed.all fun e =>
    !((List.range 4).any fun x => s.bankBusy c x e.2) && !s.mmaReads e.2

/-- One bank leaves its berth for the revoked list; a region open on it ends as SABORT does. -/
def State.revokeBank (s : State) (c : CoreId) (slot : Nat) (b : BankId) (cause : W64) : State :=
  let s := match (s.bank b).shadow with
    | some sh => s.bankClear sh
    | none => s
  let t := (s.abortRegion b).updBank b fun k =>
    { k with st := .revoked, rev := some { cause := cause, score := s.spanCoreNo c, slot := slot } }
  t.updCore c (·.setBerth slot none)

/-- The moment R of the core's oldest pending revocation, and its report. -/
def State.revoke (s : State) (c : CoreId) : State :=
  match (s.core c).rev with
  | [] => s
  | r :: rest =>
    let banks := (s.core c).berthed
    let mask := banks.foldl (fun n e => n + 2 ^ e.1) 0
    let t := banks.foldl (fun t e => t.revokeBank c e.1 e.2 r.cause) (s.updCore c fun k => { k with rev := rest })
    if r.report then
      let n := (t.core c).fatals
      (t.updCore c fun k => { k with fatals := n + 1 }).report c 0 (field r.cause 7 0) 6 (s.spanCoreNo c) r.epc.toNat
        [r.cause.toNat, r.va.toNat, r.handler + r.version.toNat * 2 ^ 8] n none mask
    else t

def execRevocation (c : CoreId) (s : State) : Host.Outcome State Fault Refusal := event (s.revocable c) (·.revoke c) s

end Sys2Proof.Machine
end

