-- ==== Sys2Proof/Machine/Copy.lean ====
section
/-! DEFINITION. The copy channel (R289-R314, R360): acceptance of a request, landing one unit, suspension, completion,
freezing. -/
namespace Sys2Proof.Machine

/-! ## Transfer IDs (R296) -/

/-- a is before b. -/
def idBefore (a b : BitVec 32) : Bool := 1 ≤ (b - a).toNat && (b - a).toNat < 2 ^ 31

/-- An accepted copy that is not complete (R311). -/
def Channel.outstanding (h : Channel) (id : BitVec 32) : Option Copy :=
  if idBefore id h.next && !idBefore id h.done then h.copy id else none

/-! ## The request (R292-R295, R310) -/

/-- The fields of W3 keep their conditions (R294). -/
def Copy.fieldsOk (p : Copy) : Bool :=
  p.mkind ≠ 3 && p.swc - 4 ≤ 4 && p.sws - 9 ≤ 6 && (p.swz || (p.swc = 4 && p.sws = 9)) && (p.mkind = 1 || p.ctr = 0) &&
    (p.mkind ≠ 0 || p.mdest = 0) && (!p.dead || p.uc ≠ 0)

/-- The limits of R295 and R310, the destination's form given. -/
def Copy.limitsOk (p : Copy) (bankDest : Bool) : Bool :=
  let n := p.planes * p.rows
  let lo := if bankDest then field p.w1 15 0 else p.w1.toNat
  let last := lo + (n - 1) * p.dp + p.rb - 1
  (n ≤ 1 || p.rb ≤ p.dp) && (if bankDest then last < 65536 else last < 2 ^ 57) && (!p.swz || bankDest) &&
    (p.uc = 0 || !bankDest)

/-- An address of a request, its form checked (R292). -/
def copyAddr (v : W64) : Exec Unit := do
  if isFabric v then do
    check (field v 62 59 ≤ 10 && field v 45 19 = 0) 0x06 4 v
    let s ← get
    check (s.fabricCore s.cur.siteId (field v 58 48) (field v 47 46)).isSome 0x06 5 v
  else if isLocal v then check (field v 31 28 ≤ 10 && field v 27 19 = 0) 0x06 4 v
  else check (field v 63 57 = 0) 0x05 1 v

/-- The tag of a bank that an address of a request names in the core's own berth table (R355); an empty berth is found
later, with the others (R310) (DEDUCED, log 21). -/
def copyTag (v : W64) : Exec Unit := do
  let s ← get
  if isLocal v then
    match s.myCore.berth (field v 18 16) with
    | some b => check (tagAllows s.me.compart (s.bank b).tag) 0x06 7 v
    | none => pure ()

/-- The bank an address of a request names, none for a global one; `tagged` asks for the tag of R355. -/
def copyBank (v : W64) (tagged : Bool) : Exec (Option BankId) := do
  let s ← get
  let named : Option (Option BankId) :=
    if isFabric v then some (s.resolve s.cur v)
    else if isLocal v then some (s.myCore.berth (field v 18 16))
    else none
  match named with
  | none => return none
  | some none => trap 0x07 0 v
  | some (some b) => do
    check (!tagged || tagAllows s.me.compart (s.bank b).tag) 0x06 7 v
    return some b

/-- Bytes a request moves. -/
def Copy.count (p : Copy) : Nat := p.rb * p.rows * p.planes

/-- The world of the issuing core's partition. -/
def State.myWorld (s : State) : Option World := s.lantern.worlds.find? (·.part = s.myPart)

def State.sluice (s : State) (n : Nat) : Sluice := ((s.myWorld.map fun w => w.sluices.getD n {}).getD {})

/-- Acceptance through a sluice (R360, R431): the checks, then the deduction; FROM and TO for the channel. -/
def takeSluice (p : Copy) : Exec (Nat × Nat) := do
  let s ← get
  let q := s.sluice p.sluice
  let f := s.me.compart
  check (f = q.frm || f = q.into || f = 63) 0x0F 1
  match p.src with
  | some b => check ((s.bank b).tag = q.frm) 0x0F 2 p.w0
  | none => pure ()
  match p.dst with
  | some b => check ((s.bank b).tag = q.into) 0x0F 2 p.w1
  | none => pure ()
  check (p.count ≤ q.allow.toNat) 0x0F 3
  let left := { q with allow := BitVec.ofNat 48 (q.allow.toNat - p.count) }
  let part := s.myPart
  modify fun s => s.updLantern fun l =>
    { l with worlds := l.worlds.map fun w => if w.part = part then { w with sluices := w.sluices.put p.sluice left } else w }
  return (q.frm, q.into)

/-- A request takes its place in the channel and in its bank's queue (R290, R296, R299, R303). -/
def State.acceptCopy (s : State) (c : CoreId) (p : Copy) : State :=
  let t := s.updCore c fun k => { k with chan := { k.chan with next := k.chan.next + 1, places := k.chan.places ++ [p] } }
  match p.dst with
  | some b =>
    let (n, t) := t.fresh
    let q : QCopy := { core := c, id := p.id, start := p.start, stop := p.stopAt, order := n }
    (t.updBank b fun k => { k with queue := k.queue ++ [q] }).openEnvelope b
  | none => t

/-- Copies of a bank's queue. -/
def State.queueFull (s : State) (b : Option BankId) : Bool :=
  match b with
  | some b => 8 ≤ (s.bank b).queue.length
  | none => false

/-- CPYQ and CPYQT (R310) (DEDUCED, log 21). -/
def opCpyq (n : Nat) (try_ : Bool) : Exec Unit := do
  let s ← get
  let x := s.me
  check (!(List.range 4).any fun j => x.bad.contains (.x (n + j))) 0x0D 1
  let p : Copy := { id := s.myCore.chan.next, w0 := x.xreg n, w1 := x.xreg (n + 1), w2 := x.xreg (n + 2)
                    w3 := x.xreg (n + 3), sv := x.sv, compart := x.compart, fid := x.fid }
  check p.fieldsOk 0x01 7
  copyAddr p.w0
  copyAddr p.w1
  if p.sluice = 0 then do
    copyTag p.w0
    copyTag p.w1
  check (p.w0.toNat % 4 = 0) 0x04 0 p.w0
  check (p.w1.toNat % 4 = 0) 0x04 0 p.w1
  check (p.limitsOk (isFabric p.w1 || isLocal p.w1)) 0x01 7
  check (p.mkind = 0 || p.mdest < s.spanCoreCount s.cur.siteId) 0x06 5
  let src ← copyBank p.w0 (p.sluice = 0)
  let dst ← copyBank p.w1 (p.sluice = 0)
  let full := 4 ≤ s.myCore.chan.places.length
  if try_ && full then finish (.x (Fin.ofNat 32 n)) 0x8000000000000001
  else if try_ && s.queueFull dst then finish (.x (Fin.ofNat 32 n)) 0x8000000000000002
  else do
    await (!full && !s.queueFull dst)
    release .part
    let p := { p with src := src, dst := dst }
    let (f, t) ← if p.sluice = 0 then pure (0, 0) else takeSluice p
    modify fun s => s.acceptCopy s.cur { p with sfrom := f, sto := t }
    finish (.x (Fin.ofNat 32 n)) (p.id.zeroExtend 64)

def execCpyq (d : Fin 28) : State → Host.Outcome State Fault Refusal := issue (opCpyq (d.val + 1) false)
def execCpyqt (d : Fin 28) : State → Host.Outcome State Fault Refusal := issue (opCpyq (d.val + 1) true)

/-! ## Suspension (R306, R312) -/

/-- The copy's envelope is the one open on its bank. -/
def State.headOpen (s : State) (c : CoreId) (p : Copy) : Bool :=
  match p.dst with
  | some b => (s.bank b).wmOpen && ((s.bank b).queue.head?.map fun q => (q.core, q.id)) = some (c, p.id)
  | none => true

/-- The SUSPENDED flag of the watermark follows a copy whose envelope is open. -/
def State.markSuspended (s : State) (c : CoreId) (p : Copy) (v : Bool) : State :=
  match p.dst with
  | some b => if s.headOpen c p then s.updBank b fun k => { k with wmSusp := v } else s
  | none => s

/-- A copy stops where it stands; `pre` marks the stop of a pre-emption. -/
def State.suspendCopy (s : State) (c : CoreId) (p : Copy) (pre : Bool) : State :=
  let stop := fun (q : Copy) => { q with st := CopySt.suspended, stop := false, preempt := pre }
  let leave := fun (h : Channel) => { h.updCopy p.id stop with taken := if h.taken = some p.id then none else h.taken }
  ((s.updCore c fun k => { k with chan := leave k.chan }).tellStop c p.id 0).markSuspended c p true

/-- A suspended copy may land on: it is LANDING again if bytes of it have landed, though the channel lands another (DEDUCED,
log 40). -/
def State.resumeCopy (s : State) (c : CoreId) (p : Copy) : State :=
  (s.updCopy c p.id fun q => { q with st := if q.began then .landing else .waiting, preempt := false }).markSuspended c p false

/-! ## Landing (R291, R298-R302, R304, R305) -/

/-- The bytes of a unit the copy covers: destination and source position. -/
def Copy.moves (p : Copy) (u : Nat) : List (Nat × Nat) :=
  (List.range p.unit).filterMap fun i => (p.sourceOf (u + i)).map fun sa => (u + i, sa)

/-- Moves cut into the reads they take: bytes that follow one another in one 64-byte block of the source. -/
def readsOf : List (Nat × Nat) → List (List (Nat × Nat))
  | [] => []
  | m :: ms =>
    match readsOf ms with
    | (n :: g) :: gs => if m.2 + 1 = n.2 && m.2 / 64 = n.2 / 64 then (m :: n :: g) :: gs else [m] :: (n :: g) :: gs
    | gs => [m] :: gs

/-- What a copy may do with a global page: permissions (R233), the device's area (R235), owner and leaf (R353), compartments
(R354) or the sluice's (R360). -/
def State.copyPage (s : State) (p : Copy) (e : TlbEntry) (va : Nat) (write : Bool) : Option TransErr :=
  if (if write then !e.w else !e.rd) || (e.sv && !p.sv) then some (0x06, 1)
  else if !e.peer && isDeviceTop (e.pa + (va - e.va)) then some (0x06, 3)
  else
    match s.effective e va with
    | none => some (0x06, 2)
    | some q =>
      if p.sluice ≠ 0 then (if q = (if write then p.sto else p.sfrom) then none else some (0x0F, 4))
      else if compartmentAllows p.compart q (if write then .store else .load) then none
      else some (0x06, 2)

/-- A global byte as the channel reaches it: its page translated, by a walk where no TLB holds it (R234), and checked; its
physical address. -/
def copyPlace (c : CoreId) (p : Copy) (va : Nat) (write : Bool) : Exec (TlbEntry × Nat) := do
  let e ← translateAs c (.copy c p.id) 0 p.fail va
  let s ← get
  match s.copyPage p e va write with
  | some (code, info) => trap code info (w64 va)
  | none => return (e, e.pa + (va - e.va))

/-- The core's partition. -/
def State.partOf (s : State) (c : CoreId) : Nat := (s.partOfSite c.siteId).getD 0

/-- The roster entry that carries a copy's access to a peer: a port out of training stalls the copy, a refusal freezes
it (R430). -/
def copyPeer (c : CoreId) (pa va : Nat) (write : Bool) : Exec Roster := do
  let s ← get
  match s.rosterFor (s.partOf c) pa write with
  | none => trap 0x0B 4 (w64 va)
  | some r => do
    await (s.port r.port).up
    return r

/-- The next free value (DESIGN CHOICE, log 12). -/
def drawFree : Exec Nat := do
  let s ← get
  set { s with draws := s.draws + 1 }
  return Config.draw s.draws

/-- A copy's access leaves on a port, and the peer answers: what it answers the spec leaves to the peer (R336, R430) (DESIGN
CHOICE, log 12). -/
def askPeer (o : Outside) (va : Nat) : Exec Unit := do
  modify fun s => { s with outside := s.outside ++ [o] }
  check ((← drawFree) % 2 = 0) 0x0B 4 (w64 va)

/-- A range of a copy's own bank in its own envelope or span (R304). -/
def State.ownSpan (s : State) (c : CoreId) (p : Copy) (b : BankId) (o : Nat) : Bool :=
  p.dst = some b &&
    (if s.headOpen c p then (s.bank b).inEnvelope o
     else (s.bank b).queue.any fun q => q.core = c && q.id = p.id && q.start ≤ o && o < q.stop)

/-- The place of a copy in its bank's queue. -/
def State.placeOf (s : State) (c : CoreId) (p : Copy) (b : BankId) : Option QCopy :=
  (s.bank b).queue.find? fun q => q.core = c && q.id = p.id

/-- Held writes that stand behind a copy into their own bank: those its span holds, and those that share a byte with one of
them. -/
def State.behindCopy (s : State) (c : CoreId) (p : Copy) (b : BankId) : List FWrite :=
  match s.placeOf c p b with
  | none => []
  | some q =>
    (s.bank b).held.foldl (fun l w =>
      if (q.order < w.order && anyByte w.off w.kind.size (s.ownSpan c p b)) || l.any (·.shares w) then l ++ [w] else l) []

/-- A source byte in a bank: outside the held range of the bank's other copies and of writes held at its port for another
reason than this copy, its word not bad (R304, R409, R426). The source of a speculative region is its original, as for an access
through a fabric address (DEDUCED, log 40). -/
def copyBankByte (c : CoreId) (p : Copy) (b : BankId) (o : Nat) : Exec Byte := do
  let s ← get
  let k := s.bank b
  let va := setField p.w0 15 0 o
  let env := k.inEnvelope o && !s.ownSpan c p b o
  let queued := k.waitingCopies.any fun q => !(q.core = c && q.id = p.id) && q.start ≤ o && o < q.stop
  let behind := s.behindCopy c p b
  check (!((env || queued) && k.wmFroz && k.wmOpen)) 0x08 0 va
  await (!env && !queued && !k.held.any fun w => w.covers o 1 && !behind.contains w)
  check (!k.error o 1) 0x0D 1 va
  return cellGet k.bytes o

/-- Bytes of one line of HBM, read by one read request at its home slice (R240, R254): a line that misses is asked for
(R241), a request lost in the overflow queue freezes the copy (R407). -/
def copyLine (c : CoreId) (p : Copy) (pa n va : Nat) : Exec (List Byte) := do
  let s ← get
  await (s.reaches c (homeDie (pa / 64)))
  if !s.l2Ready (pa / 64) then
    if p.fail = some (0x0D, 3) then trap 0x0D 3 (w64 va)
    else throw (.miss (s.lookFor pa (.copy c p.id)))
  else do
    await (s.recallable (pa / 64))
    let (data, t) := (s.asked c (homeDie (pa / 64))).sliceRead pa n
    set t
    return data

/-- Source bytes in global memory that one read brings: at their execution point, in host memory, or at a peer, whose bytes
are free (DESIGN CHOICE, log 12). -/
def copyMem (c : CoreId) (p : Copy) (va n : Nat) : Exec (List Byte) := do
  let (e, pa) ← copyPlace c p va false
  if e.peer then do
    let r ← copyPeer c pa va false
    askPeer (.peerRead r.port r.modul r.rpart (r.ia pa) n) va
    (List.range n).mapM fun _ => do return BitVec.ofNat 8 (← drawFree)
  else do
    let s ← get
    match s.memError pa n with
    | some (code, info) => trap code info (w64 va)
    | none =>
      if isHbm pa then copyLine c p pa n va
      else do
        await (s.reaches c hostDie)
        set (s.asked c hostDie)
        return s.memRead pa n

/-- The bytes of one read, with their destination positions. -/
def copyRead (c : CoreId) (p : Copy) (g : List (Nat × Nat)) : Exec (List (Nat × Byte)) := do
  match p.src with
  | some b => do
    let s ← get
    await (s.reaches c b.die)
    set (s.asked c b.die)
    g.mapM fun m => do return (m.1, ← copyBankByte c p b m.2)
  | none => do
    let data ← copyMem c p ((g.map (·.2)).headD 0) g.length
    return (g.map (·.1)).zip data

/-- The words that a list of written bytes covers whole. -/
def coversWord (l : List (Nat × Byte)) (w : Nat) : Bool := (List.range 8).all fun i => l.any fun e => e.1 = 8 * w + i

/-- A unit written into a bank (R298); words written whole lose their errors (R388). -/
def State.bankPutMany (s : State) (b : BankId) (l : List (Nat × Byte)) : State :=
  s.updBank b fun k =>
    { k with bytes := l.foldl (fun m e => cellPut m e.1 e.2) k.bytes, bad := k.bad.filter fun w => !coversWord l w }

/-- Bank offset of a destination position (R298). -/
def Copy.placeAt (p : Copy) (da : Nat) : Nat := if p.swz then swizzle p.swc p.sws da else da

/-- A write resolved before the copy's acceptance still stands at the port before a byte: the copy overwrites it (R301). -/
def State.heldBefore (s : State) (c : CoreId) (p : Copy) (b : BankId) (o : Nat) : Bool :=
  (s.placeOf c p b).any fun q => (s.bank b).held.any fun w => w.order < q.order && w.covers o 1

/-- The unit written into its bank, behind the rows that earlier matrix instructions protect (R210) and the writes resolved
before the copy (R301); W rises. -/
def landBank (c : CoreId) (p : Copy) (b : BankId) (u : Nat) (l : List (Nat × Byte)) : Exec Unit := do
  let s ← get
  await (s.carriedTo c b.die && !l.any fun e =>
    s.protectedBefore b (p.placeAt e.1) 1 (s.bank b).wmOrder || s.heldBefore c p b (p.placeAt e.1))
  set (((s.sentTo c b.die).bankPutMany b (l.map fun e => (p.placeAt e.1, e.2))).updBank b fun k => { k with wmW := u + p.unit })

/-- Bytes of a unit written to HBM or host memory (R305): a line keeps the use count asked for. -/
def State.copyPut (s : State) (c : CoreId) (p : Copy) (l : List (Nat × Byte)) : State :=
  let put := fun (s : State) (e : Nat × Byte) =>
    let comp := s.ownerComp e.1
    let t := s.memPut comp e.1 e.2
    if isHbm e.1 && p.uc ≠ 0 then t.updL2 (e.1 / 64) comp fun l => { l with uc := p.uc, dead := p.dead } else t
  let t := match l with
    | e :: _ => s.sentTo c (dieOf e.1)
    | [] => s
  let t := l.foldl put t
  { t with bad := t.bad.filter fun w => !coversWord l w }

/-- The unit written to global memory (R298, R305): a unit lies in one page, and is one write there or at a peer. -/
def landMem (c : CoreId) (p : Copy) (l : List (Nat × Byte)) : Exec Unit := do
  match l with
  | [] => pure ()
  | e :: _ => do
    let (g, pa) ← copyPlace c p e.1 true
    let at_ := fun (x : Nat) => pa + (x - e.1)
    if g.peer then do
      let r ← copyPeer c pa e.1 true
      askPeer (.peerUnit r.port r.modul r.rpart (l.map fun x => (r.ia (at_ x.1), x.2))) e.1
    else do
      let s ← get
      check (!(isHbm pa && (s.die (homeDie (pa / 64))).fenced)) 0x0D 2 (w64 e.1)
      await (s.carriedTo c (dieOf pa) && (!isHbm pa || s.takesWrite (pa / 64)))
      set (s.copyPut c p (l.map fun x => (at_ x.1, x.2)))

/-- One unit read and landed, and the copy's progress. -/
def landUnit (c : CoreId) (p : Copy) : Exec Unit := do
  let u := p.nextUnit
  let l ← (readsOf (p.moves u)).mapM (copyRead c p)
  match p.dst with
  | some b => landBank c p b u l.flatten
  | none => landMem c p l.flatten
  modify fun s => s.updCopy c p.id fun q => { q with began := true, prog := u + p.unit - p.start, fail := none }

/-- The copy that the channel lands (R291): the one it has taken, while that is LANDING, or else the oldest that it may
take. -/
def State.landable (s : State) (c : CoreId) : Option Copy :=
  let h := (s.core c).chan
  (h.places.find? fun p => h.taken = some p.id && p.st = .landing).orElse fun _ =>
    h.places.find? fun p => (p.st = .waiting || p.st = .landing) && s.headOpen c p

/-- The channel takes a copy: from here it is LANDING (R289). -/
def State.takeCopy (s : State) (c : CoreId) (p : Copy) : State :=
  s.updCore c fun k =>
    { k with chan := { k.chan.updCopy p.id (fun q => { q with st := .landing }) with taken := some p.id } }

/-- The next unit of a copy that has landed something would begin another 512-byte block. -/
def Copy.atBlock (p : Copy) : Bool := p.began && (p.pos - 1) / 512 < p.nextUnit / 512

/-- A copy stops for CPYS: one that has landed something stands at the boundary it came to, past the gap before it (R306). -/
def State.stopCopy (s : State) (c : CoreId) (p : Copy) : State :=
  let w := ((p.pos - 1) / 512 + 1) * 512
  let t := if p.atBlock then
      let t := s.updCopy c p.id fun q => { q with prog := w - p.start }
      match p.dst with
      | some b => t.updBank b fun k => { k with wmW := w }
      | none => t
    else s
  t.suspendCopy c p false

/-- A stop of CPYS takes hold where the next unit would begin another 512-byte block (R306). -/
def State.stopAfter (s : State) (c : CoreId) (p : Copy) : State :=
  match s.copy c p.id with
  | some q => if q.stop && q.atBlock then s.stopCopy c q else s
  | none => s

/-- One landing unit: it lands, it waits, asks for a line or a translation, or the copy is frozen (R408); what has left for a
peer has left. -/
def State.land (s : State) (c : CoreId) (p : Copy) : State :=
  match landUnit c p s with
  | .ok _ t =>
    match t.copy c p.id with
    | some q => if q.ended then t.landed c q else t.stopAfter c q
    | none => t
  | .error (.trap code info va) t => { s with outside := t.outside, draws := t.draws }.freezeCopy c p code info va
  | .error (.walk w) _ => s.askWalk w
  | .error (.miss m) _ => s.askMiss m
  | .error _ _ => s

/-- LANDING_UNIT; a copy that lands goes on after its core has stopped until the exchange suspends it (R341). -/
def execLandingUnit (c : CoreId) (s : State) : Host.Outcome State Fault Refusal :=
  match s.landable c with
  | some p => event (s.active c || ((s.core c).stopped && !(s.die c.die).fenced && p.st = .landing)) (fun s => (s.takeCopy c p).land c { p with st := .landing }) s
  | none => .next s

/-- COPY_COMPLETION (R307): the landed copies whose elders are complete. -/
def execCopyCompletion (c : CoreId) : State → Host.Outcome State Fault Refusal := event true (·.complete c)

/-! ## CPYS, CPYR, CPYW, CPYST (R311-R314) -/

/-- Status of a CPYS that need not wait. -/
def Copy.stopStatus (p : Copy) : Option Nat :=
  match p.st with
  | .suspended => some 2
  | .frozen => some 3
  | .landed => some 4
  | _ => none

/-- CPYS: a copy that waits, or has landed up to a 512-byte boundary, stops at once; another is waited for, and its stop brings
the status. -/
def opCpys (d a : SReg) : Exec Unit := do
  directions [a] [d]
  let s0 ← get
  let id : BitVec 32 := (← readS a).truncate 32
  match s0.me.wait with
  | .value w => finish d w
  | .stopping _ => stall
  | _ =>
    match s0.myCore.chan.outstanding id with
    | none => finish d 1
    | some q =>
      match q.stopStatus with
      | some n => finish d (w64 n)
      | none =>
        if q.st = .waiting || q.atBlock then do
          modify fun s => s.stopCopy s.cur q
          finish d 0
        else holdWith s0 (.stopping id) fun s => s.updCopy s.cur id fun q => { q with stop := true }

def opCpyr (d a : SReg) : Exec Unit := do
  directions [a] [d]
  let id : BitVec 32 := (← readS a).truncate 32
  match (← get).myCore.chan.outstanding id with
  | none => finish d 1
  | some q =>
    if q.st ≠ .suspended then finish d 5
    else do
      modify fun s => s.resumeCopy s.cur q
      finish d 0

/-- The copies that a copy waits for: itself, and those ahead of it in its bank's queue, which a landed copy has left. -/
def State.aheadOf (s : State) (p : Copy) (c : CoreId) : List Copy :=
  match p.dst with
  | none => [p]
  | some b =>
    let q := (s.bank b).queue
    let own := fun (e : QCopy) => e.core = c && e.id = p.id
    p :: if q.any own then (q.takeWhile fun e => !own e).filterMap fun e => s.copy e.core e.id else []

/-- What CPYW reports of the copies it waits behind: 3 where one is frozen (R409), else 2 where one is suspended (R313)
(DEDUCED, log 40). -/
def State.copyBlock (s : State) (c : CoreId) (id : BitVec 32) : Option Nat :=
  let l := ((s.core c).chan.places.filter fun p => p.id = id || idBefore p.id id).flatMap fun p => s.aheadOf p c
  if l.any fun p => p.st = .frozen then some 3 else if l.any fun p => p.st = .suspended then some 2 else none

def opCpyw (d a : SReg) : Exec Unit := do
  directions [a] [d]
  let id : BitVec 32 := (← readS a).truncate 32
  let s ← get
  let h := s.myCore.chan
  if !idBefore id h.next then finish d 1
  else if idBefore id h.done then do
    acquire .part
    finish d 0
  else
    match s.copyBlock s.cur id with
    | some n => finish d (w64 n)
    | none => stall

/-- The state code of R289. -/
def CopySt.code : CopySt → Nat
  | .waiting => 1
  | .landing => 2
  | .suspended => 3
  | .frozen => 4
  | .landed => 5

/-- PART 1: the progress of a copy the channel holds; one into a bank whose envelope is closed shows END once it has landed, and
START before it opens or once it was retired frozen (DEDUCED, log 40). -/
def State.copyProgress (s : State) (c : CoreId) (p : Copy) : Nat :=
  match p.dst with
  | none => p.pos
  | some b => if s.headOpen c p then (s.bank b).wmW else if p.ended then p.stopAt else p.start

/-- The parts of CPYST (R314). -/
def State.copyStatus (s : State) (c : CoreId) (id : BitVec 32) (part : Nat) : W64 :=
  let h := (s.core c).chan
  match part with
  | 0 =>
    if !idBefore id h.next then 7
    else
      match h.copy id with
      | some p => w64 (p.st.code + 8 * b2n p.dst.isNone)
      | none => 0
  | 1 =>
    if !idBefore id h.next then 0
    else
      match h.copy id with
      | some p => w64 (s.copyProgress c p)
      | none => 0
  | 2 => h.xdone
  | _ => h.record.getD 0 0

def opCpyst (d a : SReg) (part : Nat) : Exec Unit := do
  directions [a] [d]
  let id : BitVec 32 := (← readS a).truncate 32
  let s ← get
  finish d (s.copyStatus s.cur id part)

def execCpys (d a : SReg) : State → Host.Outcome State Fault Refusal := issue (opCpys d a)
def execCpyr (d a : SReg) : State → Host.Outcome State Fault Refusal := issue (opCpyr d a)
def execCpyw (d a : SReg) : State → Host.Outcome State Fault Refusal := issue (opCpyw d a)
def execCpyst (d a : SReg) (part : Fin 4) : State → Host.Outcome State Fault Refusal := issue (opCpyst d a part.val)

end Sys2Proof.Machine
end

