-- ==== Sys2Proof/Machine/HostBase.lean ====
section
/-! DEFINITION. What every agent uses to tell the host: MSI-X vectors (R334) and FNERR (R417). -/
namespace Sys2Proof.Machine

/-! ## MSI-X (R327, R334): 65 entries of two 8-byte words, masking and pending bits as PCIe lays down -/

/-- Vectors of a function (R327). -/
def msixCount : Nat := 65

/-- A word of the MSI-X table; a vector's mask bit is set until the host clears it (DESIGN CHOICE, log 3). -/
def Func.msixWord (f : Func) (w : Nat) : W64 := f.msix.getD w (if w % 2 = 1 then 0x100000000 else 0)

/-- The vector is masked. -/
def Func.masked (f : Func) (vec : Nat) : Bool := bitOf (f.msixWord (2 * vec + 1)) 32

/-- An MSI-X message leaves the module. -/
def State.sendMsix (s : State) (fn vec : Nat) : State := { s with outside := s.outside ++ [.msix fn vec] }

/-- A vector is signalled: its message leaves, or its pending bit is set while it is masked; a vector without an entry
signals nothing. -/
def State.signal (s : State) (fn vec : Nat) : State :=
  if msixCount ≤ vec then s
  else if (s.func fn).masked vec then s.updFunc fn fun f => { f with pba := vec :: f.pba.filter (· ≠ vec) }
  else s.sendMsix fn vec

/-- Vector 64 of the physical function and of a partition's function. -/
def State.signalPart (s : State) (p : Nat) : State :=
  let f := (s.part p).func
  let t := s.signal 0 64
  if f = 0 then t else t.signal f 64

/-- Vector 64 of every function (R414): the physical one alone before START. -/
def State.signalAll (s : State) : State :=
  (List.range (if s.lantern.started then 128 else 1)).foldl (fun t f => t.signal f 64) s

/-! ## FNERR (R417) -/

/-- FNERR of a code, queue and argument (DEDUCED, log 28). -/
def fnerrWord (code queue arg : Nat) : W64 := w64 (arg % 2 ^ 32 * 2 ^ 32 + queue * 2 ^ 18 + code * 2 ^ 8 + 1)

/-- An error of a function: it is recorded and signalled, or only counted while another stands. -/
def State.fnError (s : State) (fn code queue arg : Nat) : State :=
  if bitOf (s.func fn).fnerr 0 then s.updFunc fn fun f => { f with errs := f.errs + 1 }
  else (s.updFunc fn fun f => { f with errs := f.errs + 1, fnerr := fnerrWord code queue arg }).signal fn 64

/-! ## Lantern's answers (R365) -/

/-- A command has run: RESULT is set and BUSY cleared. -/
def State.answer (s : State) (r : Nat) : State := s.updLantern fun l => { l with result := r, cmd := none, cargs := [] }

/-! ## The functions and partitions -/

/-- The partition bound to a function by a defined record (R328). -/
def State.partOfFunc (s : State) (fn : Nat) : Option Nat :=
  (List.range 128).find? fun p => (s.part p).defined && (s.part p).func = fn

/-- Spans of a partition's running context that stand on the module. -/
def State.runningSpans (s : State) (p : Nat) : List Span :=
  s.spans.filter fun q => q.part = p && !q.saved && (s.part p).ctx = some q.ctx

/-- Core 0 of a span (R384). -/
def Span.core0 (q : Span) : Option CoreId := q.sites.head?.map fun n => ⟨n.die, n.site, 0⟩

/-- A report of a port of a die to every span of a partition's running context (R412, R430). -/
def State.reportSpans (s : State) (p cause source detail addr : Nat) (words : List Nat) (seq : BitVec 32) (die : Nat) : State :=
  (s.runningSpans p).foldl (fun t q =>
    match q.core0 with
    | some c => t.report c 0 cause source detail addr words seq none (origin := some die)
    | none => t) s

end Sys2Proof.Machine
end

