-- ==== Sys2Proof/Machine/Strait.lean ====
section
/-! DEFINITION. Straits and lane turns (R277-R288), lost lane groups (R412, R413). -/
namespace Sys2Proof.Machine

/-! ## Groups of a partition -/

/-- The direction a group points to, or turns toward (DEDUCED, log 24). -/
def LaneSt.final : LaneSt → Bool
  | .toLo => true
  | .toHi => false
  | .turning lo _ => lo

/-- Groups of a strait with their numbers. -/
def Strait.groups (t : Strait) : List (Nat × Lane) := (List.range t.lanes.length).zip t.lanes

/-- Groups allotted to a partition. -/
def Strait.mine (t : Strait) (p : Nat) : List (Nat × Lane) := t.groups.filter (·.2.owner = some p)

/-- The allotment A (R279). -/
def Strait.allot (t : Strait) (p : Nat) : Nat := (t.mine p).length

/-- The split: groups toward lo, a turning group counted where it turns (R277, R282) (DEDUCED, log 24). -/
def Strait.split (t : Strait) (p : Nat) : Nat := ((t.mine p).filter (·.2.dir.final)).length

/-- The least split of an allotment (R279, R412). -/
def splitFloor (a : Nat) : Nat := if 8 ≤ a then 4 else a / 2

/-- A target within the limits in force. -/
def clampSplit (a n : Nat) : Nat := Nat.min (Nat.max n (splitFloor a)) (a - splitFloor a)

def Strait.updLane (t : Strait) (g : Nat) (f : Lane → Lane) : Strait := { t with lanes := updAt t.lanes g f }

/-- A group turns at a boundary (R283). -/
def Strait.turnGroup (t : Strait) (g : Nat) (lo : Bool) (now : Nat) : Strait :=
  t.updLane g fun l => { l with dir := .turning lo now }

/-- A group carries its new direction. -/
def LaneSt.settled : LaneSt → LaneSt
  | .turning true _ => .toLo
  | .turning false _ => .toHi
  | d => d

/-- A group whose drain and slack have ended at the latest (R283). -/
def LaneSt.due (d : LaneSt) (now after : Nat) : Bool :=
  match d with
  | .turning _ since => since + after ≤ now
  | _ => false

/-- Every group that carries its new direction by now at the latest. -/
def Strait.settle (t : Strait) (now : Nat) : Strait :=
  { t with lanes := t.lanes.map fun l => if l.dir.due now 120 then { l with dir := l.dir.settled } else l }

/-- The lowest-numbered group of a partition that points a way and has not turned in this window. -/
def Strait.lowest (t : Strait) (p : Nat) (lo : Bool) : Option Nat :=
  ((t.mine p).find? fun g => g.2.dir = if lo then .toLo else .toHi).map (·.1)

/-- One group of a partition turns toward lo or away from it, the lowest-numbered that can. -/
def Strait.turnOne (t : Strait) (p : Nat) (lo : Bool) (now : Nat) : Option Strait :=
  (t.lowest p !lo).map fun g => t.turnGroup g lo now

/-! ## A window boundary (R279, R282, R412) -/

/-- The initial split of an allotment takes effect, within its floor: its lowest-numbered groups point toward lo. -/
def Strait.setInitial (t : Strait) (p split now : Nat) : Strait :=
  let gs := (t.mine p).map (·.1)
  let split := clampSplit gs.length split
  ((List.range gs.length).zip gs).foldl (fun t g =>
    let lo := decide (g.1 < split)
    match t.lanes[g.2]? with
    | some l => if l.dir.final = lo then t else t.turnGroup g.2 lo now
    | none => t) t

/-- Groups turned until the split stands at a number: at most one allotment's worth. -/
def Strait.driveSplit (t : Strait) (p goal now : Nat) : Nat → Strait × Nat
  | 0 => (t, 0)
  | n + 1 =>
    if t.split p = goal then (t, 0)
    else
      match t.turnOne p (t.split p < goal) now with
      | some u =>
        let (v, k) := Strait.driveSplit u p goal now n
        (v, k + 1)
      | none => (t, 0)

/-- The repair of a partition's floor after it lost a group of a direction, and the moves it took (R412). -/
def Strait.repair (t : Strait) (p : Nat) (lostLo : Bool) (now : Nat) : Strait × Nat :=
  let a := t.allot p
  if 8 ≤ a then
    if (if lostLo then t.split p else a - t.split p) < 4 then
      match t.turnOne p lostLo now with
      | some u => (u, 1)
      | none => (t, 0)
    else (t, 0)
  else t.driveSplit p ((a + 1) / 2) now 8

/-- The next partition with a need after a number, in ascending order, wrapping. -/
def nextNeed (needs : List (Nat × Int)) (after : Option Nat) : Option (Nat × Int) :=
  let open_ := sortBy (·.1) (needs.filter (·.2 ≠ 0))
  match after with
  | none => open_.head?
  | some a => (open_.find? (a < ·.1)).orElse fun _ => open_.head?

/-- The moves of a window (R282): at most `left`, one at a time to each partition that still needs one, and the partition that
received the first. A partition whose groups of a direction all turn already gets none and uses up none (DEDUCED, log 24);
`fuel` bounds the scan. -/
def Strait.moves (t : Strait) (needs : List (Nat × Int)) (after : Option Nat) (now left : Nat) (first : Option Nat) :
    (fuel : Nat) → Strait × Option Nat
  | 0 => (t, first)
  | n + 1 =>
    if left = 0 then (t, first)
    else
      match nextNeed needs after with
      | none => (t, first)
      | some (p, k) =>
        match t.turnOne p (0 < k) now with
        | some u =>
          u.moves (needs.map fun e => if e.1 = p then (p, if 0 < k then k - 1 else k + 1) else e) (some p) now (left - 1)
            (first.orElse fun _ => some p) n
        | none => t.moves (needs.map fun e => if e.1 = p then (p, 0) else e) (some p) now left first n

/-- A lost group leaves its allotment; the partition it belonged to and its direction (DEDUCED, log 24). -/
def Strait.lose (t : Strait) (g : Nat) : Strait × Option (Nat × Bool) :=
  match t.lanes[g]? with
  | none => (t, none)
  | some l =>
    (t.updLane g fun l => { l with owner := none, lost := true, retire := false }, l.owner.map fun p => (p, l.dir.final))

/-- The report of a lost group (R410, R412): its cause code is not stated (DESIGN CHOICE, log 12). -/
def State.reportGroup (s : State) (n g p : Nat) : State :=
  let t := s.strait n
  let cause := Config.draw s.draws % 256
  let s := { s with draws := s.draws + 1 }.updStrait n fun t => { t with reports := t.reports + 1 }
  (s.reportSpans p cause 5 0 0 [n, g, t.allot p, t.split p] t.reports (straitDies n).1).signalPart p

/-- The groups that retire at this boundary leave, each with its repair and its report; the moves they took. -/
def State.loseGroups (s : State) (n now : Nat) : List Nat → Nat → State × Nat
  | [], k => (s, k)
  | g :: gs, k =>
    let (t, own) := (s.strait n).lose g
    match own with
    | none => (s.updStrait n fun _ => t).loseGroups n now gs k
    | some (p, lo) =>
      let (u, j) := t.repair p lo now
      ((s.updStrait n fun _ => u).reportGroup n g p).loseGroups n now gs (k + j)

/-- One strait at a boundary (DEDUCED, log 24). -/
def State.windowAt (s : State) (now n : Nat) : State :=
  let s := s.updStrait n fun t =>
    let u := t.initial.foldl (fun u e => u.setInitial e.1 e.2 now) (t.settle now)
    { u with initial := [] }
  let gone := ((s.strait n).groups.filter (·.2.retire)).map (·.1)
  let (s, used) := s.loseGroups n now gone 0
  s.updStrait n fun t =>
    let pend := t.pending.map fun e => (e.1, clampSplit (t.allot e.1) e.2)
    let needs := pend.map fun e => (e.1, (e.2 : Int) - t.split e.1)
    let (u, first) := t.moves needs t.start now (8 - used) none (8 + needs.length)
    { u with pending := pend.filter fun e => u.split e.1 ≠ e.2, start := first.orElse fun _ => t.start }

/-- The next turn window of every strait (R280). -/
def State.turnWindow (s : State) : State :=
  let now := 1000 * (s.windows + 1)
  { (List.range 10).foldl (fun t n => t.windowAt now n) s with windows := s.windows + 1 }

/-- TURN_WINDOW: at a whole microsecond of module reference time. -/
def execTurnWindow : State → Host.Outcome State Fault Refusal := fun s =>
  event (1000 * (s.windows + 1) ≤ s.rtime) (·.turnWindow) s

/-- Every window whose boundary lies behind. -/
def State.windowsNow (s : State) : State :=
  (List.range (s.rtime / 1000 - s.windows)).foldl (fun t _ => t.turnWindow) s

/-- GROUP_TURN_COMPLETE: drain is at most 40 ns and slack 80 ns (R283). -/
def execGroupTurnComplete (n g : Nat) (s : State) : Host.Outcome State Fault Refusal :=
  match (s.strait n).lanes[g]? with
  | none => .next s
  | some l =>
    event (l.dir.due s.rtime 80) (fun s => s.updStrait n fun t => t.updLane g fun l => { l with dir := l.dir.settled }) s

/-! ## TURN, TURNQ, THRD (R286-R288, R413) -/

/-- An inbound count seen from a die is counted toward lo (R277). -/
def canonical (n d a k : Nat) : Nat := if d = (straitDies n).1 then k else a - k

/-- The die is an end of the strait. -/
def endOf (n d : Nat) : Bool := d = (straitDies n).1 || d = (straitDies n).2

/-- A target is accepted: it replaces the partition's pending one; one that is met already leaves none (R281). -/
def Strait.accept (t : Strait) (p target : Nat) : Strait :=
  { t with pending := if target = t.split p then t.pending.del p else t.pending.put p target }

/-- The status of a TURN, and the target it sends to the arbiter (R286, R413). -/
def State.turnStatus (s : State) (n d p k : Nat) : Nat × Option Nat :=
  let a := (s.strait n).allot p
  if !endOf n d then (2, none)
  else if a = 0 then (3, none)
  else if a < 8 then (4, none)
  else
    let t := clampSplit a k
    (if t = k then 0 else 1, some (canonical n d a t))

/-- The count of a TURN: in a gang every member's request carries the leader's (R286) (DEDUCED, log 33). -/
def turnCount (a : SReg) : Exec W64 := do
  let s ← get
  let v ← readS a
  match (s.myGang.head?) with
  | some l => if l = (s.cur, s.curCtx) then return v else asPeek l.1 l.2 a
  | none => return v

def opTurn (d a : SReg) (n : Nat) : Exec Unit := do
  directions [a] [d]
  let k := (← turnCount a).toNat % 64
  modify (·.windowsNow)
  let s ← get
  let (st, target) := s.turnStatus n s.cur.die s.myPart k
  match target with
  | some t => set (s.updStrait n fun u => u.accept s.myPart t)
  | none => pure ()
  finish d (w64 st)

/-- Beats of a partition in a direction since its allotment was made: the sum over its transfers (R288) (DESIGN CHOICE, log 18). -/
def Strait.beats (t : Strait) (n p : Nat) (lo : Bool) : Nat :=
  (List.range (t.xfers.getD (p, lo) 0)).foldl (fun k i => k + Config.beats (n + 10 * (p + 128 * b2n lo)) i) 0

/-- The state of a strait as a partition sees it from a die (R287). -/
def State.turnState (s : State) (n d p : Nat) : W64 :=
  let t := (s.strait n).settle s.rtime
  let a := t.allot p
  if !endOf n d then 2
  else if a = 0 then 3
  else
    let gs := t.mine p
    let lo := (gs.filter (·.2.dir = .toLo)).length
    let hi := (gs.filter (·.2.dir = .toHi)).length
    let (inb, outb) := if d = (straitDies n).1 then (lo, hi) else (hi, lo)
    let pend := t.pending.find p
    w64 (a * 2 ^ 7 + inb * 2 ^ 13 + outb * 2 ^ 19 + (a - lo - hi) * 2 ^ 25 +
      (match pend with
        | some k => canonical n d a k * 2 ^ 31 + 2 ^ 37
        | none => 0))

def opTurnq (d : SReg) (n : Nat) : Exec Unit := do
  directions [] [d]
  modify (·.windowsNow)
  let s ← get
  finish d (s.turnState n s.cur.die s.myPart)

/-- THRD (R288). -/
def opThrd (d : SReg) (n part : Nat) : Exec Unit := do
  directions [] [d]
  modify (·.windowsNow)
  let s ← get
  if part = 2 then finish d (w64 s.windows)
  else if !endOf n s.cur.die || (s.strait n).allot s.myPart = 0 then finish d 0
  else finish d (w64 ((s.strait n).beats n s.myPart ((s.cur.die = (straitDies n).1) != (part = 1))))

def execTurn (d a : SReg) (strait : Fin 10) : State → Host.Outcome State Fault Refusal := issue (opTurn d a strait.val)
def execTurnq (d : SReg) (strait : Fin 10) : State → Host.Outcome State Fault Refusal := issue (opTurnq d strait.val)
def execThrd (d : SReg) (strait : Fin 10) (part : Fin 3) : State → Host.Outcome State Fault Refusal :=
  issue (opThrd d strait.val part.val)

end Sys2Proof.Machine
end

