-- ==== Sys2Proof/Machine/Seal.lean ====
section
/-! DEFINITION. Sealed contexts (R362-R364, R437, R438): SEAL, UNSEAL, SLUICE. -/
namespace Sys2Proof.Machine

/-! ## Worlds -/

/-- The world of the issuing core's partition changed by a function. -/
def State.updMyWorld (s : State) (f : World → World) : State :=
  let p := s.myPart
  s.updLantern fun l => { l with worlds := l.worlds.map fun w => if w.part = p then f w else w }

/-- The key of a save context (R363): Lantern drew the world's evidence key pair and then its 64 save keys. -/
def World.saveKey (w : World) (ctx : Nat) : List Byte := fitTo 32 (Config.key (w.key + 1 + ctx))

def World.counter (w : World) (ctx : Nat) : W64 := w.counters.getD ctx 0

/-- Compartment 63 of a world and no gang, or a privilege trap (R362). -/
def needWorld : Exec World := do
  let s ← get
  check (s.me.compart = 63 && !s.me.ganged) 0x03
  match s.myWorld with
  | some w => return w
  | none => trap 0x03

/-! ## The image (R363) -/

/-- Bytes of the plaintext. -/
def SealImm.bytes (i : SealImm) : Nat := (if i.vr then 4096 else 0) + 1024 * i.len.val

/-- The header: MAGIC, WORLD, CTX, VR with LEN, counter. -/
def sealHeader (world : Nat) (i : SealImm) (n : W64) : List Byte :=
  leBytes 4 0x4C414553 ++ leBytes 2 world ++ leBytes 1 i.ctx.val ++ leBytes 1 (b2n i.vr * 128 + i.len.val) ++
    leBytes 8 n.toNat ++ List.replicate 48 0

def sealNonce (world ctx : Nat) (n : W64) : List Byte := leBytes 2 world ++ leBytes 1 ctx ++ [0] ++ leBytes 8 n.toNat

/-- The pages of an image: where each piece of it stands in host memory, its number of bytes (DEDUCED, log 22). -/
def imagePages (a : Nat) : Nat → Nat → Exec (List (Nat × Nat))
  | 0, _ => return []
  | _ + 1, 0 => return []
  | f + 1, n => do
    let k := Nat.min n (65536 - a % 65536)
    let e ← translate a
    let pa := e.pa + (a - e.va)
    check (!e.peer && isHost pa) 0x06 9 (w64 a)
    let rest ← imagePages (a + k) f (n - k)
    return (pa, k) :: rest

/-- The checks of a (R363): read as a global address, no permission of its pages looked at (R429); at most 69,712 bytes lie on
three pages (DEDUCED, log 22). -/
def checkImage (a : W64) (i : SealImm) : Exec (List (Nat × Nat)) := do
  let l ← imagePages a.toNat 3 (80 + SealImm.bytes i)
  check (a.toNat % 64 = 0) 0x04 0 a
  return l

/-- The checks of b (R363) (DEDUCED, log 22). -/
def checkSealBank (b : W64) (i : SealImm) : Exec (Option (BankId × Nat)) := do
  if i.len.val = 0 then return none
  else do
    check (isLocal b && field b 31 28 = 0 && field b 27 19 = 0) 0x06 4 b
    let k ← openBerth (field b 18 16) b
    let o := field b 15 0
    check (o % 64 = 0) 0x04 0 b
    check (o + 1024 * i.len.val ≤ 65536) 0x06 4 b
    return some (k, o)

/-- Vector registers v0-v63 of the issuing context, unbound ones as zero. -/
def Ctx.vectorBytes (x : Ctx) : List Byte := (List.range 64).flatMap fun r => (x.vreg r).flatMap fun w => leBytes 4 w.toNat

/-- Bytes written to host memory, page by page. -/
def State.writePages (s : State) : List (Nat × Nat) → List Byte → State
  | [], _ => s
  | (pa, k) :: ps, data => (s.memWrite 0 pa (data.take k)).writePages ps (data.drop k)

/-- Bytes read from host memory, page by page. -/
def State.readPages (s : State) (l : List (Nat × Nat)) : List Byte := l.flatMap fun e => s.memRead e.1 e.2

/-- The bank bytes of a SEAL, read as a local load reads them (R300, R409, R426). -/
def sealBankRead (b : W64) (o : Option (BankId × Nat)) (n : Nat) : Exec (List Byte) := do
  match o with
  | none => return []
  | some (k, o) => do
    awaitStreams [.bank k o n] [.bank k o n]
    let s ← get
    passWait (s.readWait k o n) [.bank k o n] b
    check (!(s.bank (s.coreView k)).error o n) 0x0D 1 b
    set (s.landingAcquire s.cur k o n)
    return s.bankRead (s.coreView k) o n

/-- The vector registers that an image takes stand in no uncorrectable row (R388) (DEDUCED, log 36). -/
def soundVectors : Exec Unit := do
  let x := (← get).me
  check (!(List.range 64).any fun r => x.bad.contains (.v r)) 0x0D 1

/-- Every vector register of the issuing context is read (R51). -/
def State.readAllV (s : State) : State := (List.range 64).foldl (fun t r => t.updCore t.cur (·.readV t.curCtx r)) s

/-- SEAL; its image crosses the straits to the host interface (R278) (DEDUCED, log 22). -/
def opSeal (d a b : SReg) (i : SealImm) : Exec Unit := do
  directions ([a] ++ if i.len.val = 0 then [] else [b]) [d]
  let w ← needWorld
  let va ← readS a
  let vb ← if i.len.val = 0 then pure 0 else readS b
  let pages ← checkImage va i
  let bank ← checkSealBank vb i
  release .sys
  if i.vr then soundVectors
  let bytes ← sealBankRead vb bank (1024 * i.len.val)
  let old := w.counter i.ctx.val
  check (old ≠ BitVec.allOnes 64) 0x10 0 va
  let n := old + 1
  if i.vr then modify State.readAllV
  let s ← get
  await (s.carriedTo s.cur hostDie)
  let pt := (if i.vr then s.me.vectorBytes else []) ++ bytes
  let hdr := sealHeader w.num i n
  let key := w.saveKey i.ctx.val
  let iv := sealNonce w.num i.ctx.val n
  let ct := gcmText key iv pt
  modify fun s =>
    ((s.sentTo s.cur hostDie).writePages pages (hdr ++ ct ++ gcmTag key iv hdr ct)).updMyWorld fun w => { w with counters := w.counters.put i.ctx.val n }
  finish d n

/-- All 64 vector registers of the issuing context take an image's bytes and are bound (R50). -/
def State.restoreVectors (s : State) (bytes : List Byte) : State :=
  (List.range 64).foldl (fun t r =>
    let reg := (List.range 16).map fun l => BitVec.ofNat 32 (leNat ((bytes.drop (64 * r + 4 * l)).take 4))
    (t.updMe fun x => { x with v := x.v.put r reg, bad := x.bad.filter (· ≠ .v r) }).updCore t.cur (·.touchV t.curCtx r)) s

/-- The image is accepted: header, counter and tag in this order (R437). -/
def sealAccepted (w : World) (i : SealImm) (img : List Byte) : Bool :=
  let n := w.counter i.ctx.val
  let hdr := img.take 64
  let ct := (img.drop 64).take (SealImm.bytes i)
  hdr.take 8 = (sealHeader w.num i n).take 8 && leNat ((hdr.drop 8).take 8) = n.toNat &&
    gcmTag (w.saveKey i.ctx.val) (sealNonce w.num i.ctx.val n) hdr ct = (img.drop (64 + SealImm.bytes i)).take 16

/-- UNSEAL (DEDUCED, log 22). -/
def opUnseal (d a b : SReg) (i : SealImm) : Exec Unit := do
  directions ([a] ++ if i.len.val = 0 then [] else [b]) [d]
  let w ← needWorld
  let va ← readS a
  let vb ← if i.len.val = 0 then pure 0 else readS b
  let pages ← checkImage va i
  let bank ← checkSealBank vb i
  let s ← get
  await (s.me.seq = [] && s.reaches s.cur hostDie)
  let img := s.readPages pages
  set (s.asked s.cur hostDie)
  acquire .sys
  check (sealAccepted w i img) 0x10 0 va
  let n := w.counter i.ctx.val
  let pt := gcmText (w.saveKey i.ctx.val) (sealNonce w.num i.ctx.val n) ((img.drop 64).take (SealImm.bytes i))
  match bank with
  | some (k, o) => do
    awaitStreams [.bank k o (1024 * i.len.val)] [.bank k o (1024 * i.len.val)]
    let s ← get
    passWait (s.writeWait k o (1024 * i.len.val)) [.bank k o (1024 * i.len.val)] vb
    set (s.bankWrite (s.coreView k) o (pt.drop (if i.vr then 4096 else 0)))
  | none => pure ()
  if i.vr then modify (·.restoreVectors pt)
  finish d n

def execSeal (d a b : SReg) (i : SealImm) : State → Host.Outcome State Fault Refusal := issue (opSeal d a b i)
def execUnseal (d a b : SReg) (i : SealImm) : State → Host.Outcome State Fault Refusal := issue (opUnseal d a b i)

/-! ## SLUICE (R364) -/

def opSluice (d a b : SReg) (idx : Nat) : Exec Unit := do
  directions [a, b] [d]
  let w ← needWorld
  let va ← readS a
  let vb ← readS b
  let f := field va 5 0
  let t := field va 13 8
  check (f ≠ 0 && f ≠ 63 && t ≠ 0 && t ≠ 63 && f ≠ t) 0x0F 5
  let old := (w.sluices.getD idx {}).allow
  modify (·.updMyWorld fun w => { w with sluices := w.sluices.put idx { frm := f, into := t, allow := vb.truncate 48 } })
  finish d (old.zeroExtend 64)

/-- SLUICE idx, 1-15; the constructor holds the index less 1. -/
def execSluice (d a b : SReg) (idx : Fin 15) : State → Host.Outcome State Fault Refusal := issue (opSluice d a b (idx.val + 1))

end Sys2Proof.Machine
end

