-- ==== Sys2Proof/Machine/Launch.lean ====
section
/-! DEFINITION. Launches and slices as the distributors keep them: the master's accesses to memory (R315, R318), the
descriptor (R24, R25), the cut into slices (R26), the start message (R27), completion and refusal (R31, R333, R398),
the clearing and the discard of a slice (R30, R349). -/
namespace Sys2Proof.Machine

/-! ## The master's accesses (R315, R318, R325) -/

/-- A partition's accesses by the master start on its die (R278, R324). -/
def State.masterVia (s : State) (p : Nat) : Via := some (p, s.master.getD hostDie)

/-- Where a global address of a partition stands for the master: translated under S1ROOT and S2ROOT, on a page that
allows what is asked; no peer window and no byte of the device's own (DEDUCED, log 30). -/
def State.masterPage (p : Nat) (rd w : Bool) (va : Nat) (s : State) : Option Nat × State :=
  let root := (s.part p).s1root
  if va / 2 ^ 57 ≠ 0 || !bitOf root 0 then (none, s)
  else
    match walkBoth (s.masterVia p) (s.part p).s2root root p va s with
    | .error _ t => (none, t)
    | .ok e t =>
      let pa := e.pa + (va - e.va)
      (if e.peer || (rd && !e.rd) || (w && !e.w) || isDeviceTop pa then none else some pa, t)

/-- The pieces of a range that lie in one 64 KiB page each, found page by page, with the traces of the walks: physical address
and length; `f` bounds their number. -/
def pagePieces (page : Nat → State → Option Nat × State) : Nat → Nat → Nat → State → Option (List (Nat × Nat)) × State
  | _, _, 0, s => (some [], s)
  | 0, _, _, s => (none, s)
  | f + 1, va, n, s =>
    let k := Nat.min n (65536 - va % 65536)
    match page va s with
    | (none, t) => (none, t)
    | (some pa, t) =>
      match pagePieces page f (va + k) (n - k) t with
      | (some l, u) => (some ((pa, k) :: l), u)
      | (none, u) => (none, u)

/-- A range cut at the boundaries of lines; `f` bounds the number of cuts. -/
def linePieces : Nat → Nat → Nat → List (Nat × Nat)
  | 0, _, _ => []
  | f + 1, pa, n => if n = 0 then [] else let k := Nat.min n (64 - pa % 64); (pa, k) :: linePieces f (pa + k) (n - k)

/-- The lines of some pieces. -/
def lineCuts (l : List (Nat × Nat)) : List (Nat × Nat) := l.flatMap fun e => linePieces (e.2 / 64 + 2) e.1 e.2

/-- Bytes of some pieces read at their execution points, each line by one read request of its slice (R240, R241, R254), an
error among them given as none. -/
def State.piecesRead (s : State) (v : Via) (l : List (Nat × Nat)) : Option (List Byte) × State :=
  if l.any fun e => (s.memError e.1 e.2).isSome then (none, s)
  else
    let (b, t) := (lineCuts l).foldl (fun a e => let (d, t) := a.2.readFrom v e.1 e.2; (a.1 ++ d, t)) ([], s)
    (some b, t)

/-- Bytes of one line written at their execution point, once their way is open and the slice takes them (R241, R278). -/
def State.lineWrite (s : State) (v : Via) (pa : Nat) (data : List Byte) : State :=
  let t := if s.viaCarries v (dieOf pa) && (!isHbm pa || s.takesWrite (pa / 64)) then s else s.miss (pa / 64)
  (t.viaSent v (dieOf pa)).memWrite (t.ownerComp pa) pa data

/-- Bytes written over some pieces; a location on a fenced die takes none (R414). -/
def State.piecesWrite (s : State) (v : Via) (l : List (Nat × Nat)) (data : List Byte) : Option State :=
  if l.any fun e => isHbm e.1 && (s.die (homeDie (e.1 / 64))).fenced then none
  else some ((lineCuts l).foldl (fun a e => (a.1.lineWrite v e.1 (a.2.take e.2), a.2.drop e.2)) (s, data)).1

/-- Bytes of a partition's global memory read by a distributor (DEDUCED, log 30). -/
def State.masterRead (s : State) (p va n : Nat) : Option (List Byte) × State :=
  match pagePieces (State.masterPage p true false) (n / 65536 + 2) va n s with
  | (some l, t) => t.piecesRead (s.masterVia p) l
  | (none, t) => (none, t)

/-- Bytes written by the master, nothing where a page does not allow it (DEDUCED, log 30). -/
def State.masterWrite (s : State) (p va : Nat) (data : List Byte) : State :=
  match pagePieces (State.masterPage p false true) (data.length / 65536 + 2) va data.length s with
  | (some l, t) => (t.piecesWrite (s.masterVia p) l data).getD t
  | (none, t) => t

/-! ## The descriptor (R24, R25) -/

/-- A little-endian field of a byte list. -/
def fieldAt (b : List Byte) (o n : Nat) : Nat := leNat ((b.drop o).take n)

/-- The fields of a descriptor. -/
def parseDesc (b : List Byte) : Desc :=
  let ctl := fieldAt b 0x1C 4
  let sp := fieldAt b 0x2C 4
  { table := w64 (fieldAt b 0 8), done := w64 (fieldAt b 8 8)
    ext := [fieldAt b 0x10 4, fieldAt b 0x14 4, fieldAt b 0x18 4]
    slsz := [fieldAt b 0x20 4, fieldAt b 0x24 4, fieldAt b 0x28 4]
    nwait := bits ctl 7 3, merge := bits ctl 6 1 = 1, reissue := bits ctl 5 1 = 1, prio := bits ctl 2 2, dims := bits ctl 0 2
    dies := bits sp 8 4, h := bits sp 4 4, w := bits sp 0 4, quota := fieldAt b 0x30 2
    args := (b.drop 0x40).take 16
    waits := (List.range 4).map fun i => (w64 (fieldAt b (0x60 + 16 * i) 8), w64 (fieldAt b (0x68 + 16 * i) 8)) }

/-- Slices of a dimension (R26); a dimension at or above DIMS has one. -/
def Desc.cuts (d : Desc) (i : Nat) : Nat :=
  if i < d.dims then (d.ext.getD i 0 + 1 + d.slsz.getD i 0) / (d.slsz.getD i 0 + 1) else 1

/-- The number of slices. -/
def Desc.slices (d : Desc) : Nat := d.cuts 0 * d.cuts 1 * d.cuts 2

/-- The shape is one of R28. -/
def Desc.shapeOk (d : Desc) : Bool :=
  if d.dies = 0 then 1 ≤ d.w && d.w ≤ 12 && 1 ≤ d.h && d.h ≤ 11 && d.w * d.h ≤ 128
  else (d.dies = 1 || d.dies = 2 || d.dies = 4 || d.dies = 8) && d.w = 0 && d.h = 0

/-- Clusters of the span counted from the descriptor alone. -/
def Desc.size (d : Desc) : Nat := if d.dies = 0 then d.w * d.h else 128 * d.dies

/-- The reserved fields of a descriptor are zero. -/
def descReserved (b : List Byte) : Bool :=
  let ctl := fieldAt b 0x1C 4
  bits ctl 10 22 = 0 && bits ctl 4 1 = 0 && bits (fieldAt b 0x2C 4) 12 20 = 0 && fieldAt b 0x32 2 = 0 &&
    fieldAt b 0x34 12 = 0 && fieldAt b 0x50 16 = 0 && fieldAt b 0xA0 32 = 0

/-- The descriptor is valid (R25). -/
def descOk (b : List Byte) : Bool :=
  let d := parseDesc b
  descReserved b && 1 ≤ d.dims && d.nwait ≤ 4 && d.shapeOk && d.quota ≤ 32 * d.size &&
    ((d.waits.take d.nwait).all fun w => w.1.toNat % 8 = 0) && d.slices ≤ 2 ^ 40

/-! ## The handler table (R38, R432) -/

/-- The entries of a handler table (DEDUCED, log 29): reserved bits are not looked at, SENDS and RELOAD taken as they stand
(DESIGN CHOICE, log 38). -/
def parseTable (b : List Byte) : Tab Nat (BitVec 128) :=
  ((List.range 256).map fun i => (i, BitVec.ofNat 128 (fieldAt b (16 * i) 16))).filter (·.2 ≠ 0)

/-- The compartment that the valid entries of a table name, none when they name more than one or one not in use
(R432). -/
def State.tableComp (s : State) (p : Nat) (t : Tab Nat (BitVec 128)) : Option Nat :=
  let cs := ((t.filter (entryValid ·.2)).map (entryComp ·.2)).eraseDups
  let used := fun c => c = 0 || ((s.lantern.worlds.find? (·.part = p)).map fun w => (w.comps.find c).isSome).getD false
  match cs with
  | [] => some 0
  | [c] => if used c then some c else none
  | _ => none

/-- The compartment of a launch: what its first placement attempt found, or what its table names now. -/
def State.launchComp (s : State) (l : Launch) : Option Nat × State :=
  let va := l.desc.table.toNat
  if l.tried then (some l.compart, s)
  else if va % 4096 ≠ 0 then (none, s)
  else
    match s.masterRead l.part va 4096 with
    | (some b, t) => (t.tableComp l.part (parseTable b), t)
    | (none, t) => (none, t)

/-! ## Slices (R26, R27) -/

/-- Origin and clipped size of a slice in a dimension, its index along it given. -/
def Desc.extent (d : Desc) (i j : Nat) : Nat × Nat :=
  if i < d.dims then
    let size := d.slsz.getD i 0 + 1
    let o := j * size
    (o, Nat.min (o + size) (d.ext.getD i 0 + 1) - o)
  else (0, 1)

/-- The three indices of a slice number, dimension 0 fastest. -/
def Desc.index (d : Desc) (n : Nat) : List Nat :=
  [n % d.cuts 0, n / d.cuts 0 % d.cuts 1, n / (d.cuts 0 * d.cuts 1)]

/-- The start payload of a slice (R27); a clipped size of 2^32 indices, which its 32-bit field cannot hold, is stored modulo
2^32 (DESIGN CHOICE, log 38). -/
def Desc.startPayload (d : Desc) (n : Nat) : List Byte :=
  let e := (d.index n).zipIdx.map fun j => d.extent j.2 j.1
  (e.flatMap fun x => leBytes 4 x.1) ++ (e.flatMap fun x => leBytes 4 x.2) ++ leBytes 8 n ++ fitTo 16 d.args

/-- A device message to handler 0 with a slice's payload; FLAGS and START KIND given (R27, R346, R348). -/
def State.startMsg (s : State) (c : CoreId) (l : Launch) (n flags kind seq : Nat) : Flight :=
  { msg := { h0 := msgHead (s.logical c.siteId) c.core 0 0 flags, h1 := w64 (seq % 2 ^ 32 + kind * 2 ^ 40)
             payload := l.desc.startPayload n }
    src := none, compart := l.compart, dest := c }

/-! ## Completion records (R31, R333, R334, R398) -/

/-- The 64 bytes of a record (DEDUCED, log 23). -/
def recordBytes (status cause entry slices discard tstart tend preempt : Nat) : List Byte :=
  leBytes 4 status ++ leBytes 4 cause ++ leBytes 8 entry ++ leBytes 8 slices ++ leBytes 8 discard ++ leBytes 8 tstart ++
    leBytes 8 tend ++ leBytes 4 preempt ++ List.replicate 12 0

/-- The record of a launch and its interrupt; none when DONE is 0, and nothing written where DONE does not translate to
a page that allows stores (DEDUCED, log 23). -/
def State.writeRecord (s : State) (l : Launch) (bytes : List Byte) : State :=
  if l.desc.done = 0 then s
  else
    let t := s.masterWrite l.part l.desc.done.toNat bytes
    let f := (t.part l.part).func
    let q := t.queue f l.queue
    if q.irq then t.signal f q.vec else t

/-- STATUS of a launch that ends (R333, R416) (DEDUCED, log 23). -/
def Launch.status (l : Launch) : Nat := if l.lost then 3 else if l.cause.isSome then 2 else 1

/-- The record as it stands at a time; one of a refused launch bears the time of its refusal (R333, R398). -/
def Launch.record (l : Launch) (now : Nat) : List Byte :=
  match l.refusedAt with
  | some t => recordBytes 2 (l.cause.getD 0) l.entry.toNat 0 0 t t 0
  | none => recordBytes l.status (l.cause.getD 0) l.entry.toNat l.doneCnt l.discard l.tstart now l.preempt

/-- A launch leaves the active set. -/
def State.dropLaunch (s : State) (id : Nat) : State := { s with launches := s.launches.filter (·.id ≠ id) }

/-! ## Saved images (R342, R435) -/

/-- Images of the shadow store go; launches of their partitions that waited for units may try again. -/
def State.dropImages (s : State) (gone : Image → Bool) : State :=
  let ps := (s.images.filter gone).map (·.part)
  { s with
    images := s.images.filter fun i => !gone i
    launches := s.launches.map fun l => if ps.contains l.part then { l with units := false } else l }

/-! ## The end of a slice (R30, R349, R355, R424, R425) -/

/-- What a core keeps from one slice to the next: its caches, its counts of reports and SEED. -/
def Core.fresh (k : Core) : Core :=
  { tlb := k.tlb, l1 := k.l1, fatals := k.fatals, seed := k.seed, unacked := k.unacked, chan := { reports := k.chan.reports } }

/-- A bank leaves a slice: out of every berth, its region aborted, cleared if its tag or the revocation asks for it, its
watermark as after reset (R199). -/
def State.freeAtEnd (s : State) (b : BankId) (clear : Bool) : State :=
  let s := s.abortRegion b
  let st := (s.bank b).st
  if st = .disabled then s
  else
    let s := if clear || st = .revoked then s.bankClear b else s
    let s := if st = .free then s else s.toPool b
    s.updBank b fun k =>
      { st := k.st, bytes := k.bytes, bad := k.bad, tag := k.tag, retire := k.retire, reports := k.reports }

/-- Every acknowledgement on its way to some cores has come. -/
def State.absorbAcks (s : State) (cs : List CoreId) : State :=
  (s.acks.filter fun a => cs.contains a.core).foldl (fun t a => t.ackArrives a false)
    { s with acks := s.acks.filter fun a => !cs.contains a.core }

/-- Every region that is open on the banks of some clusters ends as by SABORT, and the stores it held are acknowledged (R425)
(DEDUCED, log 25). -/
def State.endRegions (s : State) (sites : List SiteId) : State :=
  ((sites.flatMap siteBanks).foldl (fun t b => t.abortRegion b) s).absorbAcks (sites.flatMap (·.cores))

/-- The banks of a span's clusters, the originals before the shadows. -/
def State.endBanks (s : State) (sites : List SiteId) (clear : Bool) : State :=
  (sites.flatMap siteBanks).foldl (fun t b => t.freeAtEnd b clear) (s.endRegions sites)

/-- Every core of some clusters as at a slice's end. -/
def State.endCores (s : State) (sites : List SiteId) : State :=
  (sites.flatMap (·.cores)).foldl (fun t c => t.updCore c Core.fresh) s

/-- Traffic of some cores taken out of the fabric: fabric writes and requests, acknowledgements, engine messages to
them and from their channels, walks and requests for lines. -/
def State.dropTraffic (s : State) (cs : List CoreId) : State :=
  let s := s.withoutReqs fun r => r.who.core.any cs.contains
  { s with
    fwrites := s.fwrites.filter fun w => !cs.contains w.src
    acks := s.acks.filter fun a => !cs.contains a.core
    freqs := s.freqs.filter fun r => !cs.contains r.core
    fresps := s.fresps.filter fun r => !cs.contains r.req.core
    hreqs := s.hreqs.filter fun r => !cs.contains r.core
    engine := s.engine.filter fun f => !cs.contains f.dest
    dies := s.dies.map fun e => (e.1, { e.2 with walks := e.2.walks.filter fun w => !cs.contains w.core }) }

/-- The discard of a slice on a span (R349): its update-only lines reach their slices, everything else of it goes. -/
def State.discardSpan (s : State) (q : Span) : State :=
  let cs := q.sites.flatMap (·.cores)
  let t := cs.foldl (fun t c => t.sendAllHome c) s
  let t := (t.dropTraffic cs).endCores q.sites
  let t := cs.foldl (fun t c => t.updCore c fun k => { k with unacked := 0 }) t
  let t := t.endBanks q.sites true
  let t := { t with spans := t.spans.filter (·.id ≠ q.id) }.dropImages fun i => i.span = some q.id
  t.updLaunch q.launch fun l => { l with mergeMsgs := l.mergeMsgs.filter (·.slice ≠ q.slice) }

/-- The slice of a discarded span becomes unplaced again, with one restart more (R349, R416). -/
def State.unplace (s : State) (q : Span) : State :=
  s.updLaunch q.launch fun l =>
    { l with back := l.back ++ [q.slice], restarts := l.restarts.put q.slice (l.restarts.getD q.slice 0 + 1) }

/-- A saved span is discarded: only its image and its record go. -/
def State.discardSaved (s : State) (q : Span) : State :=
  ({ s with spans := s.spans.filter (·.id ≠ q.id) }.dropImages fun i => i.span = some q.id).updLaunch q.launch fun l =>
    { l with mergeMsgs := l.mergeMsgs.filter (·.slice ≠ q.slice) }

/-- A span discarded where it is. -/
def State.dropSpan (s : State) (q : Span) : State := if q.saved then s.discardSaved q else s.discardSpan q

/-- The merge cluster of a launch is cleared and released (R31, R32). -/
def State.dropMerge (s : State) (l : Launch) : State :=
  let mine := fun (i : Image) => i.span.isNone && decide (i.launch = l.id)
  let gone := s.dropImages mine
  match l.merge with
  | none => gone
  | some n =>
    if s.mergeSaved l then gone.updLaunch l.id fun l => { l with merge := none }
    else
    let t := n.cores.foldl (fun t c => t.sendAllHome c) s
    let t := (t.dropTraffic n.cores).endCores [n]
    let t := t.endBanks [n] false
    (t.dropImages mine).updLaunch l.id fun l => { l with merge := none }

/-! ## The end of a launch -/

/-- Nothing of a merge core runs or is on its way to it, and its writes have been acknowledged (R31, R32). -/
def State.mergeQuiet (s : State) (l : Launch) : Bool :=
  match l.merge with
  | none => true
  | some n =>
    let c : CoreId := ⟨n.die, n.site, 0⟩
    let k := s.core c
    !k.ctxs.any (·.2.running) && k.ready.isEmpty && k.portq.isEmpty && k.outq.isEmpty && k.rev.isEmpty && s.storesDone c &&
      k.chan.places.isEmpty && !s.engine.any (·.dest = c)

/-- The launch places no further slice. -/
def Launch.over (l : Launch) : Bool := l.stop || l.lost

/-- A slice is still to be placed. -/
def Launch.unplaced (l : Launch) : Bool := !l.over && (!l.back.isEmpty || l.next < l.slices)

/-- Slices that are complete and whose merge messages are all delivered are passed over. -/
def mergeSkip (l : Launch) : Nat → Launch
  | 0 => l
  | n + 1 =>
    if l.done.contains l.mergeNext && !l.mergeMsgs.any fun m => m.slice = l.mergeNext then
      mergeSkip { l with mergeNext := l.mergeNext + 1, done := l.done.erase l.mergeNext } n
    else l

/-- The next merge message: of the lowest slice, once it is complete, of the lowest sender, the earliest. -/
def Launch.nextMerge (l : Launch) : Option Nat :=
  if l.done.contains l.mergeNext then
    let ms := ((List.range l.mergeMsgs.length).zip l.mergeMsgs).filter fun e => e.2.slice = l.mergeNext
    (minBy (fun e => e.2.score * 2 ^ 32 + e.1) ms).map (·.1)
  else none

/-- The launch is complete, or ended early with its running slices finished (R31, R398, R416). -/
def State.launchDone (s : State) (l : Launch) : Bool :=
  !(s.spans.any (·.launch = l.id)) && !l.unplaced && s.mergeQuiet l && !(s.images.any (·.launch = l.id)) &&
    (if l.over then (mergeSkip l l.done.length).nextMerge.isNone else l.doneCnt = l.slices && l.mergeMsgs.isEmpty)

/-- A master stands and no election is under way (R415). -/
def State.masterUp (s : State) : Bool := s.powered && s.master.isSome && s.election.isNone

/-- A launch that is complete writes its record and leaves; while there is no master it waits for the new one (R415), and while
lines that the master's walk reads are on their way to their slices it waits for them: MERGE_DELIVERY tries it again (R241)
(DESIGN CHOICE, log 13). -/
def State.finishLaunch (s : State) (id : Nat) : State :=
  match s.launch id with
  | none => s
  | some l => if s.masterUp && s.launchDone l then s.orAsk (((s.dropMerge l).writeRecord l (l.record s.now)).dropLaunch id) else s

/-- A launch is refused (R398): it places nothing, and its record is written by the master there is (R415). -/
def State.refuseLaunch (s : State) (l : Launch) (cause : Nat) : State :=
  let l := { l with stop := true, cause := some cause, refusedAt := some s.now }
  State.finishLaunch { s with launches := s.launches.filter (·.id ≠ l.id) ++ [l] } l.id

/-- A launch ends early with a cause, unless an earlier one stands. -/
def State.stopLaunch (s : State) (id cause : Nat) : State :=
  (s.updLaunch id fun l => { l with stop := true, cause := l.cause.orElse fun _ => some cause }).finishLaunch id

/-- END ends its firing; a merge firing's end may complete its launch (R31, R111). -/
def State.endFinish (s : State) : State :=
  let t := s.endInstr
  if t.me.stalled then t
  else
    match t.mergeAt s.cur.siteId with
    | some l => t.finishLaunch l.id
    | none => t

def execEnd : State → Host.Outcome State Fault Refusal := event true State.endFinish

/-! ## A partition fails (R389, R414, R436) -/

/-- Every span of some launches is dropped and every such launch ends with a cause. -/
def State.failLaunches (s : State) (ls : List Launch) (cause : Nat) : State :=
  ls.foldl (fun t l =>
    let t := (t.spans.filter (·.launch = l.id)).foldl (fun t q => t.dropSpan q) t
    match t.launch l.id with
    | none => t
    | some l =>
      ((t.dropMerge l).updLaunch l.id fun l => { l with stop := true, lost := false, cause := some cause, mergeMsgs := [] }).finishLaunch
        l.id) s

/-- Every context of a partition is stopped and discarded, no slice is placed again (R389). -/
def State.failPart (s : State) (p : Nat) : State :=
  let t := s.failLaunches (s.launches.filter (·.part = p)) 0x0D
  (t.updPart p fun k => { k with pre := none }).signalPart p

end Sys2Proof.Machine
end

