-- ==== Sys2Proof/Machine/Preempt.lean ====
section
/-! DEFINITION. Pre-emption and context exchange (R323, R326, R338-R350, R434-R436). -/
namespace Sys2Proof.Machine

/-! ## What a pre-emption covers (R339) -/

/-- The merge clusters of a partition's running context that stand on the module. -/
def State.runningMerges (s : State) (p : Nat) : List Launch :=
  s.launches.filter fun l => l.part = p && some l.ctx = (s.part p).ctx && l.merge.isSome

/-- The spans covered: those of an urgent slice, or all of the running context. -/
def State.coveredSpans (s : State) (p : Nat) (r : PreReq) : List Span :=
  match r.why with
  | .urgentSlice .. => (s.runningSpans p).filter fun q => r.spans.contains q.id
  | _ => s.runningSpans p

/-- The merge clusters covered: none for an urgent slice (R323) or a checkpoint (R349). -/
def State.coveredMerges (s : State) (p : Nat) (r : PreReq) : List Launch :=
  match r.why, r.mode with
  | .urgentSlice .., _ => []
  | _, .checkpoint => []
  | _, _ => s.runningMerges p

def State.coveredSites (s : State) (p : Nat) (r : PreReq) : List SiteId :=
  (s.coveredSpans p r).flatMap (·.sites) ++ (s.coveredMerges p r).filterMap (·.merge)

def State.coveredCores (s : State) (p : Nat) (r : PreReq) : List CoreId := (s.coveredSites p r).flatMap (·.cores)

/-! ## Units of the shadow store (R344, R434) -/

/-- A bank of R342. -/
def Bank.saved (b : Bank) : Bool := b.st = .berthed || b.st = .shadow || b.st = .revoked

/-- Units of an image on a cluster: 4, and one for each bank of R342 at home there; a drain saves no shadow. -/
def State.unitsOn (s : State) (n : SiteId) (drained : Bool) : Nat :=
  4 + ((siteBanks n).filter fun b => (s.bank b).saved && !(drained && (s.bank b).st = .shadow)).length

/-- Units that saved images hold on a cluster. -/
def State.unitsHeld (s : State) (n : SiteId) : Nat := (s.images.map fun i => i.units.getD n 0).sum

/-- The images that come in with a context: those no urgent slice holds (R323). -/
def State.incoming (s : State) (p ctx : Nat) : List Image :=
  s.images.filter fun i => i.part = p && i.ctx = ctx && i.urgent.isNone

/-- A save of some clusters fits, the incoming images given (R434). -/
def State.fits (s : State) (sites : List SiteId) (inn : List Image) (drained : Bool) : Bool :=
  sites.all fun n => s.unitsHeld n + s.unitsOn n drained ≤ 48 + (inn.map fun i => i.units.getD n 0).sum

/-! ## The next context (R326) -/

/-- A queue of the context has an entry to take. -/
def State.hasEntry (s : State) (p ctx : Nat) : Bool :=
  (List.range 64).any fun q =>
    let k := s.queue (s.part p).func q
    k.ctx = ctx && k.log2n ≠ 0 && k.tail ≠ k.head

/-- The context has an entry to take or an active launch. -/
def State.ctxBusy (s : State) (p ctx : Nat) : Bool :=
  s.hasEntry p ctx || s.launches.any fun l => l.part = p && l.ctx = ctx

/-- The context after the running one in ascending order, wrapping, that is busy; none when no other is. -/
def State.nextCtx (s : State) (p : Nat) : Option Nat :=
  let k := s.part p
  let c := k.ctx.getD 0
  ((List.range (k.nctx - 1)).map fun i => (c + 1 + i) % k.nctx).find? fun x => s.ctxBusy p x

/-- The context that a pre-emption brings in. -/
def State.comingCtx (s : State) (p : Nat) (w : PreWhy) : Option Nat :=
  match w with
  | .tslice => s.nextCtx p
  | .urgentCtx c _ => some c
  | _ => none

/-- The images that come in with the context a pre-emption brings in. -/
def State.comingImages (s : State) (p : Nat) (c : Option Nat) : List Image := (c.map fun c => s.incoming p c).getD []

/-! ## Requests (R338) -/

/-- The shadow stores have been initialised (R368). -/
def State.shadowReady (s : State) : Bool := s.lantern.started

/-- The mode of a request: SLMODE's for a time slice and HALT, immediate for urgent work; checkpoint while a shadow
store has not been initialised (R338). -/
def State.preMode (s : State) (p : Nat) (w : PreWhy) : PreMode :=
  if !s.shadowReady then .checkpoint
  else
    match w with
    | .chkpt => .checkpoint
    | .tslice | .halt => if (s.part p).slmode then .drain else .immediate
    | _ => .immediate

/-- A pre-emption is asked for, unless one is under way; `told` if FNERR has told of it already (R435). -/
def State.askPre (s : State) (p : Nat) (w : PreWhy) (spans : List Nat) (told : Bool := false) : State :=
  if (s.part p).pre.isSome then s
  else s.updPart p fun k => { k with pre := some { mode := s.preMode p w, why := w, spans := spans, told := told } }

/-- A pre-emption of the whole running context keeps the partition from placing work; one that waits for room does not,
unless it is a drain (R346), and one of some spans for an urgent slice never does (R321). -/
def Part.held (k : Part) : Bool :=
  match k.pre with
  | some r =>
    (match r.why with
      | .urgentSlice .. => false
      | _ => r.retry = 0 || r.tokens)
  | none => false

/-- TSLICE_EXPIRY (R326): the turn ends; with no other context to bring in, another turn begins. -/
def execTsliceExpiry (p : Nat) (s : State) : Host.Outcome State Fault Refusal :=
  let k := s.part p
  event (k.run = .running && k.ctx.isSome && k.pre.isNone && k.turnAt + 1000 * k.tslice ≤ s.now)
    (fun s => if (s.nextCtx p).isSome then s.askPre p .tslice [] else s.updPart p fun k => { k with turnAt := s.now }) s

/-! ## The stop (R339-R341) -/

/-- A context stops at an instruction boundary, with what it waited for and what a trap holds of a wait; from here its
watchdog counts nothing (R405). -/
def State.stopCtx (s : State) (c : CoreId) (x : Nat) : State :=
  let (w, t) := s.stopAccess (s.ctx c x).wait
  let (h, u) := t.stopAccess (s.ctx c x).heldWait
  u.updCtx c x fun v =>
    { v with wait := w, heldWait := h, watch := s.cycle - v.watch, walkFail := none, seqFail := none, touch := [] }

/-- Every landing copy of a channel is suspended by pre-emption (R341). -/
def State.stopCopies (s : State) (c : CoreId) : State :=
  (s.core c).chan.places.foldl (fun t p =>
    if p.st = .landing then t.suspendCopy c p true else t.updCopy c p.id fun q => { q with stop := false }) s

/-- A core stops: its contexts, its L1 lines and walks dropped. -/
def State.stopCore (s : State) (c : CoreId) : State :=
  let t := ((s.core c).ctxs.map (·.1)).foldl (fun t x => t.stopCtx c x) s
  let t := t.updCore c fun k => { k with l1 := [], stopped := true }
  t.updDie c.die fun d => { d with walks := d.walks.filter (·.core ≠ c) }

/-- The engines of a stopped core come to rest: its copies are suspended, its update-only lines merged (R341). -/
def State.restCore (s : State) (c : CoreId) : State := (s.stopCopies c).sendAllHome c

/-- The update-only lines of a core have their way home (R239, R241, R278). -/
def State.homeward (s : State) (c : CoreId) : Bool :=
  (s.core c).updates.all fun u => s.carriedTo c (homeDie (u.addr / 64)) && s.lineFree (u.addr / 64)

/-- Matrix instructions that complete before the stop once the slice has begun them (R340). -/
def finishes : Instr → Bool
  | .mzero .. | .mload .. | .mstore .. | .mscale .. | .mstream .. | .dtld .. => true
  | _ => false

/-- The slice of a stopped core still completes an instruction (R340). -/
def State.sliceFinishes (s : State) (c : CoreId) : Bool :=
  (s.core c).stopped && !(s.die c.die).fenced && (match (s.core c).sliceHead with
    | some e => e.begun && finishes e.instr
    | none => false)

/-- No remote store of the core can be acknowledged while the module rests: each is held at a port. -/
def State.storesStand (s : State) (c : CoreId) : Bool :=
  !s.acks.any (·.core = c) && !s.fwrites.any (·.src = c) &&
    !s.banks.any fun e => e.2.held.zipIdx.any fun w => w.1.src = c && s.heldReady e.1 w.2 w.1

/-- The slice has come to rest: what it has begun is done, is an MMA or an MJOIN, stands behind a held range, a protected
row or the sequencer with none of its effect made, cannot send on an MSTORE whose stores are all held at ports, or would fault
behind another trap of its context (R340, R374) (DEDUCED, log 25). -/
def State.sliceRests (s : State) (c : CoreId) : Bool :=
  !s.sliceFinishes c || (match (s.core c).sliceHead with
    | some e =>
      (match asCtx c e.ctx (doEntry e) s with
        | .error .stall _ => e.group = 0 || s.storesStand c
        | .error (.trap ..) _ => s.ownsEntry c e && (s.ctx c e.ctx).trapPend.isSome
        | _ => false)
    | none => true)

/-- MATRIX_SLICE_EXECUTION: a running core's slice, or a stopped one's that still completes an instruction. -/
def execMatrixSliceExecution (c : CoreId) (s : State) : Host.Outcome State Fault Refusal :=
  event (s.active c || s.sliceFinishes c) (·.sliceStep c) s

/-- One pre-emption more of a launch's span (R338). -/
def State.countPre (s : State) (qs : List Span) : State :=
  qs.foldl (fun t q => t.updLaunch q.launch fun l => { l with preempt := l.preempt + 1 }) s

/-- FNERR code 6 of a partition in the PF and its function (R433, R435). -/
def State.tellUnfit (s : State) (p : Nat) : State :=
  let f := (s.part p).func
  let t := s.fnError 0 6 0 p
  if f = 0 then t else t.fnError f 6 0 p

/-- An urgent launch waits for units of the shadow store; FNERR has told of it. -/
def State.awaitUnits (s : State) (id : Nat) : State := s.updLaunch id fun l => { l with told := true, units := true }

/-- The course of a pre-emption that does not fit (R435). -/
def State.unfit (s : State) (p : Nat) (r : PreReq) : State :=
  let t := if r.told || (r.why = .tslice && (s.part p).sliceTold) then s else s.tellUnfit p
  let t := match r.why with
    | .urgentSlice l _ => t.awaitUnits l
    | .urgentCtx _ l => t.awaitUnits l
    | _ => t
  match r.why, r.tokens with
  | .tslice, false => t.updPart p fun k => { k with pre := none, turnAt := s.now, sliceTold := true }
  | .tslice, true => t.updPart p fun k => { k with pre := some { r with told := true, retry := s.now + 200000 } }
  | .halt, false => t.updPart p fun k => { k with pre := some { r with told := true, retry := s.now + 1000000 } }
  | .halt, true => t.updPart p fun k => { k with pre := some { r with told := true, retry := s.now + 200000 } }
  | _, _ => t.updPart p fun k => { k with pre := none }

/-- The stop command reaches every covered core (R339), if the images fit (R434); a checkpoint needs no room. -/
def State.preStop (s : State) (p : Nat) (r : PreReq) : State :=
  let c := s.comingCtx p r.why
  if r.why = .tslice && c.isNone && !r.tokens then s.updPart p fun k => { k with pre := none, turnAt := s.now, sliceTold := false }
  else if r.mode ≠ .checkpoint && !s.fits (s.coveredSites p r) (s.comingImages p c) false then s.unfit p r
  else
    let t := (s.coveredCores p r).foldl (fun t c => t.stopCore c) s
    (t.countPre (s.coveredSpans p r)).updPart p fun k =>
      { k with pre := some { r with stopped := true, coming := c, spans := (s.coveredSpans p r).map (·.id) } }

/-- PREEMPT_STOP. -/
def execPreemptStop (p : Nat) (s : State) : Host.Outcome State Fault Refusal :=
  match (s.part p).pre with
  | none => .next s
  | some r => event (r.mode ≠ .drain && !r.stopped && r.retry = 0 && (s.coveredSpans p r).all (·.started)) (·.preStop p r) s

/-- PREEMPT_RETRY (R435): the next attempt's time has come. -/
def execPreemptRetry (p : Nat) (s : State) : Host.Outcome State Fault Refusal :=
  match (s.part p).pre with
  | none => .next s
  | some r => event (r.retry ≠ 0 && r.retry ≤ s.now) (·.updPart p fun k => { k with pre := some { r with retry := 0 } }) s

/-! ## Saving and restoring (R342-R345, R347) -/

/-- Traffic of some cores is at rest: what they sent and what was sent to them by engines has arrived, and the revocations
of their banks have come to their moments (R341, R423). -/
def State.atRest (s : State) (cs : List CoreId) : Bool :=
  !s.fwrites.any (fun w => cs.contains w.src) && !s.acks.any (fun a => cs.contains a.core) &&
    !s.freqs.any (fun r => cs.contains r.core) && !s.fresps.any (fun r => cs.contains r.req.core) &&
    !s.hreqs.any (fun r => cs.contains r.core) && !s.engine.any (fun f => cs.contains f.dest) &&
    cs.all fun c => (s.core c).rev.isEmpty

/-- What an immediate pre-emption saves of a core: the rows of R342's table, and nothing else (DEDUCED, log 25). -/
def Core.saved (k : Core) : Core :=
  { ctxs := k.ctxs, k := k.k, ready := k.ready, inbox := k.inbox, ctrs := k.ctrs, outq := k.outq
    portq := k.portq.map fun f => { f with saved := true }
    bad := k.bad, seqno := k.seqno, unacked := k.unacked, refusals := k.refusals, sbar := k.sbar, gang := k.gang, ptbase := k.ptbase
    tvec := k.tvec, seed := k.seed, berths := k.berths, handed := k.handed, tiles := k.tiles, streams := k.streams
    dt0 := k.dt0, dt1 := k.dt1, slice := k.slice, vplace := k.vplace
    chan := { k.chan with reports := 0 } }

/-- What a drain keeps of a core (R347); the rest is as at slice start (DEDUCED, log 25). -/
def Core.drained (k : Core) : Core :=
  { k := k.k, bad := k.bad, seed := k.seed, berths := k.berths, tiles := k.tiles, streams := k.streams, dt0 := k.dt0, dt1 := k.dt1
    inbox := k.inbox, ctrs := k.ctrs, seqno := k.seqno, chan := { next := k.chan.next, done := k.chan.done, passed := k.chan.passed } }

/-- The saved banks of a cluster. -/
def State.savedBanks (s : State) (sites : List SiteId) : Tab BankId Bank :=
  ((sites.flatMap siteBanks).filter fun b => (s.bank b).saved).map fun b =>
    (b, { s.bank b with held := (s.bank b).held.map fun w => { w with saved := true } })

/-- The image of some clusters: a span's or a merge cluster's (DEDUCED, log 25). -/
def State.image (s : State) (p ctx launch : Nat) (span : Option Nat) (sites : List SiteId) (drained : Bool)
    (urgent : Option (Nat × Nat)) : Image :=
  { part := p, ctx := ctx, span := span, launch := launch, drained := drained, urgent := urgent
    cores := (sites.flatMap (·.cores)).map fun c => (c, if drained then (s.core c).drained else (s.core c).saved)
    banks := s.savedBanks sites
    tables := sites.map fun n => (n, (s.cluster n).handlers)
    units := sites.map fun n => (n, s.unitsOn n drained) }

/-- A bank whose contents went to the shadow store is free; a tagged one is cleared (R355) (DEDUCED, log 25). -/
def State.vacate (s : State) (b : BankId) : State :=
  let s := if (s.bank b).tag ≠ 0 then s.bankClear b else s
  let s := if (s.bank b).retire then { s with recheck := true } else s
  s.updBank b fun k =>
    { st := if k.retire then .disabled else .free, bytes := k.bytes, bad := k.bad, retire := k.retire, reports := k.reports }

/-- An image leaves its clusters for the shadow store. -/
def State.saveImage (s : State) (i : Image) : State :=
  let t := (i.banks.map (·.1)).foldl (fun t b => t.vacate b) s
  let t := (i.cores.map (·.1)).foldl (fun t c => t.updCore c Core.fresh) t
  { t with images := t.images ++ [i] }

/-- The images of what a pre-emption covers. -/
def State.takeImages (s : State) (p : Nat) (r : PreReq) (drained : Bool) : List Image :=
  let ctx := (s.part p).ctx.getD 0
  let urgent := match r.why with
    | .urgentSlice l n => some (l, n)
    | _ => none
  (s.coveredSpans p r).map (fun q => s.image p ctx q.launch (some q.id) q.sites drained urgent) ++
    (s.coveredMerges p r).map fun l => s.image p ctx l.id none l.merge.toList drained urgent

/-- Covered spans and merge clusters saved. -/
def State.saveAll (s : State) (p : Nat) (r : PreReq) (drained : Bool) : State :=
  let is := s.takeImages p r drained
  let ids := (s.coveredSpans p r).map (·.id)
  let t := is.foldl State.saveImage s
  { t with spans := t.spans.map fun q => if ids.contains q.id then { q with saved := true } else q }

/-- Free banks of a partition's clusters are cleared at an exchange of contexts (R342). -/
def State.clearFree (s : State) (p : Nat) : State :=
  ((s.part p).clusters.flatMap siteBanks).foldl (fun t b => if (t.bank b).st = .free then t.bankClear b else t) s

/-- A core as a resume leaves it (R345): what was not saved stands as the module has it, and watchdogs go on from their saved
counts. -/
def Core.resumed (k old : Core) (now : Nat) : Core :=
  { k with
    ctxs := k.ctxs.map fun e => (e.1, { e.2 with watch := now - e.2.watch })
    tlb := old.tlb, last := old.last, fatals := old.fatals, portSince := now
    chan := { k.chan with reports := old.chan.reports } }

/-- Copies that a pre-emption suspended land on. -/
def State.resumeCopies (s : State) (c : CoreId) : State :=
  (s.core c).chan.places.foldl (fun t p => if p.preempt then t.resumeCopy c p else t) s

/-- PTBASE and TVEC of a core as at slice start; reserved bits of S1ROOT reach no register (R4, R325, R383). -/
def State.rootOf (s : State) (c : CoreId) (k : Core) : Core :=
  let e := s.entry c.siteId 255
  { k with ptbase := ptbaseWrite (s.part ((s.partOfSite c.siteId).getD 0)).s1root, tvec := if entryValid e then entryPc e else 0 }

/-- The start message of a resumption after a drain: it takes the lowest free slot, and waits for one at the port (R348,
R45) (DEDUCED, log 25). -/
def State.resumeMsg (s : State) (i : Image) : State :=
  match s.launch i.launch with
  | none => s
  | some l =>
    match i.span with
    | some id =>
      match s.span id with
      | some q =>
        (q.sites.flatMap (·.cores)).foldl (fun t c => t.deliver c (t.startMsg c l q.slice 0x05 1 (q.drains + 1)))
          (s.updSpan id fun q => { q with drains := q.drains + 1 })
      | none => s
    | none =>
      match l.merge with
      | some n =>
        let c : CoreId := ⟨n.die, n.site, 0⟩
        (s.updLaunch l.id fun l => { l with drains := l.drains + 1 }).deliver c (s.startMsg c l 0 0x05 1 (l.drains + 1))
      | none => s

/-- An image comes back to its clusters (R345, R348). -/
def State.restoreImage (s : State) (i : Image) : State :=
  let t := i.banks.foldl (fun t e => t.updBank e.1 fun old =>
    { e.2 with retire := e.2.retire || old.retire || old.st = .disabled, reports := old.reports }) s
  let t := i.tables.foldl (fun t e => t.updCluster e.1 fun k => { k with handlers := e.2 }) t
  let t := i.cores.foldl (fun t e => t.updCore e.1 fun old =>
    e.2.resumed old t.cycle) t
  let t := { t.dropImages (fun j => decide (j = i)) with
    spans := t.spans.map fun q => if some q.id = i.span then { q with saved := false } else q }
  if i.drained then
    let t := (i.cores.map (·.1)).foldl (fun t c => t.updCore c fun k => t.rootOf c k) t
    t.resumeMsg i
  else (i.cores.map (·.1)).foldl (fun t c => t.resumeCopies c) t

/-- An incoming context with an error in an image fails (R436). -/
def State.failCtx (s : State) (p ctx : Nat) : State :=
  (s.failLaunches (s.launches.filter fun l => l.part = p && l.ctx = ctx) 0x0D).signalPart p

def Die.inRefresh (d : Die) (odd : Bool) : Bool := if odd then d.refresh1 else d.refresh0

/-- A partition holds a channel of a stack. -/
def Part.holdsStack (k : Part) (st : Nat) : Bool := (List.range 32).any fun i => bitOf k.channels (32 * st + i)

/-- A stack of a partition's channels is in self-refresh: its work is not placed (R369). -/
def State.stackSleeps (s : State) (p : Nat) : Bool :=
  (List.range 16).any fun st => (s.part p).holdsStack st && (s.die (st / 2)).inRefresh (st % 2 = 1)

/-- An image's work may be placed: its partition's stacks and its clusters have power (R369). -/
def State.canReturn (s : State) (i : Image) : Bool := !s.stackSleeps i.part && i.units.all fun e => !(s.cluster e.1).gated

/-- The incoming images take their places, unless one of them is bad; those that may not be placed yet stay saved until the
master resumes them (R369). -/
def State.restoreAll (s : State) (p ctx : Nat) : State :=
  let is := (s.incoming p ctx).filter s.canReturn
  if is.any (·.bad) then s.failCtx p ctx else is.foldl State.restoreImage s

/-! ## Splits across an exchange (R350) -/

/-- The split of a partition record stands under context number 4. -/
def recordCtx : Nat := 4

/-- The outgoing context's target, or its split, on every strait where the partition holds groups. -/
def State.saveSplits (s : State) (p ctx : Nat) : State :=
  let s := s.windowsNow
  (List.range 10).foldl (fun t n =>
    let k := t.strait n
    if k.allot p = 0 then t
    else t.updPart p fun q => { q with splits := q.splits.put (n, ctx) ((k.pending.find p).getD (k.split p)) }) s

/-- The incoming context's target becomes pending. -/
def State.loadSplits (s : State) (p ctx : Nat) : State :=
  let s := s.windowsNow
  (List.range 10).foldl (fun t n =>
    if (t.strait n).allot p = 0 then t
    else
      match ((t.part p).splits.find (n, ctx)).orElse fun _ => (t.part p).splits.find (n, recordCtx) with
      | some k => t.updStrait n fun u => u.accept p (clampSplit (u.allot p) k)
      | none => t) s

/-! ## The exchange (R343) -/

/-- A context is brought in, its turn beginning now; its urgent launches need call for it no more (R326). -/
def State.bringIn (s : State) (p ctx : Nat) : State :=
  let s := s.updPart p fun k => { k with ctx := some ctx, turnAt := s.now, pre := none, sliceTold := false }
  let s := { s with launches := s.launches.map fun (l : Launch) => if l.part = p && l.ctx = ctx then { l with calls := false } else l }
  (s.restoreAll p ctx).loadSplits p ctx

/-- PRCMD reads 0 once a HALT of the partition has taken effect (R325). -/
def State.haltDone (s : State) (p : Nat) : State :=
  if field s.prcmd 6 0 = p && field s.prcmd 9 8 = 3 then { s with prcmd := 0 } else s

/-- What follows a save: the context counted with it (R434), no context, or the urgent slice's turn. Without another context
the same one goes on, with the target it had. -/
def State.afterSave (s : State) (p : Nat) (r : PreReq) : State :=
  let cur := (s.part p).ctx.getD 0
  match r.why with
  | .halt =>
    (((s.saveSplits p cur).clearFree p).updPart p fun k =>
      { k with ctx := none, haltCtx := cur, run := .halted, pre := none }).haltDone p
  | .urgentSlice .. => s.updPart p fun k => { k with pre := none }
  | _ =>
    let t := s.saveSplits p cur
    match r.coming with
    | some c => (if c = cur then t else t.clearFree p).bringIn p c
    | none => t.bringIn p cur

/-- CONTEXT_EXCHANGE: once every covered core has stopped and the fabric is at rest, engines and lines come to rest and the images
are saved (R341, R343). -/
def execContextExchange (p : Nat) (s : State) : Host.Outcome State Fault Refusal :=
  match (s.part p).pre with
  | none => .next s
  | some r =>
    let cs := s.coveredCores p r
    event (r.mode = .immediate && r.stopped && s.atRest cs && cs.all fun c => s.sliceRests c && s.homeward c)
      (fun s => ((cs.foldl State.restCore s).saveAll p r false).afterSave p r) s

/-! ## Drain (R346-R348) -/

/-- The cores that a stop token goes to: every core of the spans, core 0 of merge clusters (DEDUCED, log 25). -/
def State.sendTokens (s : State) (p : Nat) (r : PreReq) : State :=
  let t := (s.coveredSpans p r).foldl (fun t q =>
    match t.launch q.launch with
    | some l => (q.sites.flatMap (·.cores)).foldl (fun t c => t.sendEngine (t.startMsg c l q.slice 0x15 0 q.drains)) t
    | none => t) s
  (s.coveredMerges p r).foldl (fun t l =>
    match l.merge with
    | some n => t.sendEngine (t.startMsg ⟨n.die, n.site, 0⟩ l 0 0x15 0 l.drains)
    | none => t) t

/-- DRAIN_START. -/
def execDrainStart (p : Nat) (s : State) : Host.Outcome State Fault Refusal :=
  match (s.part p).pre with
  | none => .next s
  | some r =>
    event (r.mode = .drain && !r.tokens && r.retry = 0 && (s.coveredSpans p r).all (·.started))
      (fun s => (s.sendTokens p r).updPart p fun k => { k with pre := some { r with tokens := true, since := s.now } }) s

/-- Slots of the inbox that hold messages pending on counters. -/
def Core.pendingSlots (k : Core) : BitVec 32 := k.ctrs.foldl (fun m e => m ||| e.2.pending) 0

/-- The conditions of R30 on a core. -/
def State.coreRests (s : State) (c : CoreId) : Bool :=
  let k := s.core c
  !k.ctxs.any (·.2.running) && k.ready.isEmpty && k.outq.isEmpty && k.portq.isEmpty && k.chan.places.isEmpty &&
    (k.inbox.all fun e => bitOf k.pendingSlots e.1) && !s.engine.any (·.dest = c)

/-- The core's remote stores have been acknowledged, but for those that an open region holds until it ends with the slice or the
drain, and its revocations are done (R256, R341, R423, R425). -/
def State.storesRest (s : State) (c : CoreId) : Bool :=
  s.storesDone c && (s.core c).rev.isEmpty && !s.fwrites.any fun w => w.src = c

/-- A drained context is saved, its open regions aborted (R425), or goes on with a start message where its images do not fit
(R435) (DEDUCED, log 25). -/
def State.drainSave (s : State) (p : Nat) (r : PreReq) : State :=
  let c := s.comingCtx p r.why
  let sites := s.coveredSites p r
  if s.fits sites (s.comingImages p c) true then
    let s := s.endRegions sites
    let s := (s.coveredCores p r).foldl (fun t c => t.sendAllHome c) s
    ((s.countPre (s.coveredSpans p r)).saveAll p r true).afterSave p { r with coming := c }
  else
    let is := s.takeImages p r true
    let t := is.foldl (fun t i => t.resumeMsg i) (if r.told || (r.why = .tslice && (s.part p).sliceTold) then s else s.tellUnfit p)
    match r.why with
    | .halt => t.updPart p fun k => { k with pre := some { mode := .drain, why := .halt, told := true, retry := s.now + 1000000 } }
    | _ => t.updPart p fun k => { k with pre := none, turnAt := s.now, sliceTold := true }

/-- DRAIN_COMPLETE. -/
def execDrainComplete (p : Nat) (s : State) : Host.Outcome State Fault Refusal :=
  match (s.part p).pre with
  | none => .next s
  | some r =>
    event (r.mode = .drain && r.tokens && (s.coveredCores p r).all fun c => s.coreRests c && s.storesRest c && s.homeward c)
      (·.drainSave p r) s

/-- DRAIN_OVERRUN (R347): from here the pre-emption is immediate. -/
def execDrainOverrun (p : Nat) (s : State) : Host.Outcome State Fault Refusal :=
  match (s.part p).pre with
  | none => .next s
  | some r =>
    event (r.mode = .drain && r.tokens && r.since + 200000 ≤ s.now && !(s.coveredCores p r).all s.coreRests)
      (·.updPart p fun k => { k with pre := some { r with mode := .immediate } }) s

/-! ## Checkpoint (R349) -/

/-- The covered slices are discarded and become unplaced. -/
def State.checkpoint (s : State) (p : Nat) (r : PreReq) : State :=
  let t := (s.coveredSpans p r).foldl (fun t q => (t.discardSpan q).unplace q) s
  let t := t.updPart p fun k => { k with pre := none }
  match r.why with
  | .chkpt => if t.lantern.cmd = some 0x22 then t.answer 0 else t
  | .urgentSlice .. => t
  | w => t.afterSave p { r with why := w }

/-- CHECKPOINT_DISCARD. -/
def execCheckpointDiscard (p : Nat) (s : State) : Host.Outcome State Fault Refusal :=
  match (s.part p).pre with
  | none => .next s
  | some r =>
    event (r.mode = .checkpoint && r.stopped && (s.coveredCores p r).all s.sliceRests) (·.checkpoint p r) s

end Sys2Proof.Machine
end

