-- ==== Sys2Proof/Machine/Lantern.lean ====
section
/-! DEFINITION. Lantern (R351, R357, R358, R361, R365-R371, R429, R431, R439): bring-up, world commands, power states,
evidence, the state summary. -/
namespace Sys2Proof.Machine

/-! ## Mailbox commands (R365) -/


/-- An argument of the running command. -/
def State.arg (s : State) (n : Nat) : W64 := s.lantern.cargs.getD n 0
def State.argN (s : State) (n : Nat) : Nat := (s.arg n).toNat

/-- What a command comes to: its result, and the state it leaves. -/
abbrev Answer := Nat × State

/-- A running command takes effect; a code of 0x10-0x22 before START is out of order (R365). -/
def command (code : Nat) (f : State → Answer) (s : State) : Host.Outcome State Fault Refusal :=
  eventReading (s.powered && s.lantern.cmd = some code)
    (fun s =>
      if 0x10 ≤ code && !s.lantern.started then s.answer 5
      else
        let (r, t) := f s
        t.answer r) s

/-- A POWER of a kind (R369) (DEDUCED, log 26). -/
def powerKind (kind : Nat) (f : State → Answer) (s : State) : Host.Outcome State Fault Refusal :=
  if s.argN 0 = kind then command 0x20 f s else .next s

/-- A command that changes something only if its condition holds (DEDUCED, log 26). -/
def cond (c : Bool) (s t : State) : Answer := if c then (0, t) else (3, s)

/-- A host physical address as the device addresses it (R235). -/
def hostPa (a : Nat) : Nat := 2 ^ 51 + a % 2 ^ 51

/-! ## Bring-up (R367, R368) -/

/-- Lantern as power leaves it, the keys of this boot drawn: the key pair of pages with no world, and one key for each stack's
link (R357, R359, R368); the number of keys ever drawn is the model's own (DESIGN CHOICE, log 10). -/
def bootLantern (drawn : Nat) : Lantern := { bootKey := drawn, keys := drawn + 17 }

/-- POWER_UP: the module as power leaves it; whose turn it is and what left the module are no state of it (DEDUCED, log 1). -/
def execPowerUp (s : State) : Host.Outcome State Fault Refusal :=
  event (!s.powered) (fun s =>
    { State.reset with mem := s.mem, turns := s.turns, outside := s.outside, draws := s.draws, lantern := bootLantern s.lantern.keys }) s

/-- POWER_OFF: nothing on the module is kept (R18); host memory is not on the module. -/
def execPowerOff (s : State) : Host.Outcome State Fault Refusal :=
  event s.powered (fun s =>
    { State.reset with powered := false, turns := s.turns, outside := s.outside, draws := s.draws
                       mem := s.mem.filter (fun e => 2 ^ 51 ≤ e.1), lantern := { keys := s.lantern.keys } }) s

/-- The header of a firmware image is well-formed and its length is the one given (R367). -/
def imageOk (b : List Byte) : Bool :=
  fieldAt b 0 4 = 0x4D57465A && 1 ≤ fieldAt b 4 2 && fieldAt b 4 2 ≤ 8 && fieldAt b 6 2 = 0 && fieldAt b 0x10 48 = 0 &&
    1 ≤ fieldAt b 0x0C 4 && fieldAt b 0x0C 4 ≤ 2 ^ 24 && b.length = 448 + fieldAt b 0x0C 4

/-- The image's signature verifies under the key in the boot ROM (R367). -/
def imageVerified (b : List Byte) : Bool :=
  pssVerify Config.romKey.1 Config.romKey.2 Config.romSalt (sha256 (b.take 64 ++ b.drop 448)) ((b.drop 64).take 384)

def Lantern.has (l : Lantern) (target : Nat) : Bool := l.images.any (·.target = target)

/-- An image installed, behind the others in load order. -/
def Lantern.install (l : Lantern) (b : List Byte) : Lantern :=
  let t := fieldAt b 4 2
  { l with images := l.images.filter (·.target ≠ t) ++ [{ target := t, version := fieldAt b 8 4, bytes := b }] }

/-- LOAD (DEDUCED, log 26). -/
def State.load (s : State) : Answer :=
  let n := s.argN 1
  if s.lantern.started then (5, s)
  else if 448 + 2 ^ 24 < n then (2, s)
  else
    let b := s.memRead (hostPa (s.argN 0)) n
    if !imageOk b then (2, s)
    else if decide (fieldAt b 4 2 = 1) = s.lantern.has 1 then (5, s)
    else if !imageVerified b then (1, s)
    else (0, s.updLantern (·.install b))

def execLoad : State → Host.Outcome State Fault Refusal := command 0x01 State.load

/-- The lowest-numbered healthy die (R324, R415). -/
def State.lowestDie (s : State) : Option Nat := (List.range 8).find? fun d => !(s.die d).fenced

/-- START (DEDUCED, log 26). -/
def State.start (s : State) : Answer :=
  if s.lantern.started then (5, s)
  else cond ((List.range 7).all fun i => s.lantern.has (i + 2)) s
    { s.updLantern (fun l => { l with started := true }) with master := s.lowestDie }

def execStart : State → Host.Outcome State Fault Refusal := command 0x02 State.start

/-! ## World commands (R357, R366) -/

/-- The arguments' common rules: partition, world, compartment range, the reserved ones from a number on. -/
def State.worldArgs (s : State) (lo hi reserved : Nat) : Bool :=
  let c := field (s.arg 1) 13 8
  s.argN 0 < 128 && 1 ≤ field (s.arg 1) 7 0 && field (s.arg 1) 63 14 = 0 && lo ≤ c && c ≤ hi &&
    (List.range (6 - reserved)).all fun i => s.arg (reserved + i) = 0

/-- The world that ARG0 and ARG1 name. -/
def State.argWorld (s : State) : Option World :=
  s.lantern.worlds.find? fun w => w.part = s.argN 0 && w.num = field (s.arg 1) 7 0

def State.argComp (s : State) : Nat := field (s.arg 1) 13 8

/-- A compartment of the named world is in use. -/
def State.compInUse (s : State) : Bool := (s.argWorld.map fun w => (w.comps.find s.argComp).isSome).getD false

def State.updWorld (s : State) (part num : Nat) (f : World → World) : State :=
  s.updLantern fun l => { l with worlds := l.worlds.map fun w => if w.part = part && w.num = num then f w else w }

/-- A measurement at ADD or CREATE (R361). -/
def measZero : List Byte := List.replicate 32 0

/-- REPLY of a CREATE: modulus and exponent of the evidence key (R366). -/
def createReply (key : Nat) : List Byte := beBytes 384 ((Config.primes key).1 * (Config.primes key).2) ++ leBytes 4 65537

/-- CREATE: Lantern draws the evidence key pair, 64 save keys and the key of compartment 63; the partition has no world and
the world no other partition (R351). -/
def State.create (s : State) : Answer :=
  if !s.worldArgs 0 0 2 then (2, s)
  else
    let p := s.argN 0
    let k := s.lantern.keys
    cond (!s.lantern.worlds.any fun w => w.part = p || w.num = field (s.arg 1) 7 0) s
      (s.updLantern fun l =>
        { l with
          worlds := l.worlds ++ [{ num := field (s.arg 1) 7 0, part := p, comps := [(63, { meas := measZero, key := k + 65 })], key := k }]
          keys := k + 66, reply := createReply k })

/-- ADD. -/
def State.addComp (s : State) : Answer :=
  if !s.worldArgs 1 62 2 then (2, s)
  else
    let k := s.lantern.keys
    cond (s.argWorld.isSome && !s.compInUse) s
      ((s.updWorld (s.argN 0) (field (s.arg 1) 7 0) fun w =>
        { w with comps := w.comps.put s.argComp { meas := measZero, key := k } }).updLantern fun l => { l with keys := k + 1 })

def execCreate : State → Host.Outcome State Fault Refusal := command 0x10 State.create
def execAddCommand : State → Host.Outcome State Fault Refusal := command 0x11 State.addComp

/-- The physical page of an intermediate address that a world may own: HBM outside the device's top 1 MiB; no peer window, and
nothing above (R231, R335). -/
def State.worldPage (p : Nat) (s : State) (ia : Nat) : Option Nat × State :=
  if 2 ^ 51 ≤ ia then (none, s)
  else
    match walk2 none (s.part p).s2root ia s with
    | .ok l t =>
      let pa := l.addr + ia % l.size
      (if isHbm pa && !isDeviceTop pa then some pa else none, t)
    | .error _ t => (none, t)

/-- The pages of several addresses, in their order. -/
def State.worldPages (p : Nat) : State → List Nat → List (Option Nat) × State
  | s, [] => ([], s)
  | s, ia :: l =>
    let (o, t) := s.worldPage p ia
    let (os, u) := State.worldPages p t l
    (o :: os, u)

/-- The owner entry of a page written (R353). -/
def State.setOwner (s : State) (pa world comp : Nat) : State :=
  { s with mem := cellWrite s.mem (ownerAddr pa) (leBytes 2 (world * 256 + comp)) }

/-- The key pair of a line of HBM: its owner compartment's, or the boot's where its page has no world (R357). -/
def State.lineKey (s : State) (line : Nat) : Nat :=
  let o := s.ownerEntry (64 * line)
  ((s.lantern.worlds.find? (·.num = o / 256)).bind fun w => (w.comps.find (o % 64)).map (·.key)).getD s.lantern.bootKey

/-- What a stack holds of a line: its bytes under XTS-AES-256, PA bits 51:6 the tweak (R357); whoever reads through the base die
sees the bytes themselves (log 39). -/
def State.storedLine (s : State) (line : Nat) : List Byte :=
  xtsText (Config.key (s.lineKey line)) line ((List.range 64).map fun i => cellGet s.mem (64 * line + i))

/-- A page of zeros: its L2 lines and its listed bytes go, and its errors. -/
def State.zeroPage (s : State) (pa : Nat) : State :=
  let t := s.updDie (homeDie (pa / 64)) fun d => { d with l2 := d.l2.filter fun l => l.line / 1024 ≠ pa / 65536 }
  { t with mem := t.mem.filter fun e => e.1 / 65536 ≠ pa / 65536, bad := t.bad.filter fun w => w / 8192 ≠ pa / 65536 }

/-- A measurement extended by one page (R361). -/
def measExtend (meas : List Byte) (ia : Nat) (page : List Byte) : List Byte := sha256 (meas ++ leBytes 8 ia ++ sha256 page)

/-- A firing runs on a core of the partition's clusters. -/
def State.partRuns (s : State) (p : Nat) : Bool :=
  ((s.part p).clusters.flatMap (·.cores)).any fun c => (s.core c).ctxs.any (·.2.running)

/-- One page given to a compartment, zeroed and measured if that is asked for (DEDUCED, log 26). -/
def State.assignPage (s : State) (ia pa : Nat) (measure : Bool) : State :=
  let w := field (s.arg 1) 7 0
  let t := (s.zeroPage pa).setOwner pa w s.argComp
  if measure then
    t.updWorld (s.argN 0) w fun x =>
      { x with comps := x.comps.map fun e => if e.1 = s.argComp then (e.1, { e.2 with meas := measExtend e.2.meas ia (List.replicate 65536 0) }) else e }
  else t

/-- ASSIGN. -/
def State.assign (s : State) : Answer :=
  let ia := s.argN 2
  let len := s.argN 3
  if !s.worldArgs 1 63 5 || ia % 65536 ≠ 0 || len = 0 || len % 65536 ≠ 0 || field (s.arg 4) 63 1 ≠ 0 then (2, s)
  else
    let p := s.argN 0
    let ias := (List.range (len / 65536)).map fun i => ia + 65536 * i
    let (pas, s) := State.worldPages p s ias
    let free := fun (o : Option Nat) => (o.map fun pa => decide (s.ownerEntry pa / 256 = 0)).getD false
    cond (s.compInUse && !s.partRuns p && pas.all free) s
      (((ias.zip pas).foldl (fun t e => t.assignPage e.1 (e.2.getD 0) (bitOf (s.arg 4) 0)) s).tlbDrop p none)

def execAssign : State → Host.Outcome State Fault Refusal := command 0x12 State.assign

/-- The plaintext of an import block: its key unwrapped under the world's evidence key, its tag verified (R366). -/
def importPlain (key : Nat) (aad b : List Byte) : Option (List Byte) :=
  match oaepUnwrap (Config.primes key).1 (Config.primes key).2 (b.take 384) with
  | none => none
  | some k =>
    let iv := (b.drop 0x180).take 12
    let n := fieldAt b 0x18C 4
    let ct := (b.drop 0x190).take n
    if k.length = 32 && gcmTag k iv aad ct = (b.drop (0x190 + n)).take 16 then some (gcmText k iv ct) else none

/-- IMPORT. -/
def State.import (s : State) : Answer :=
  let ia := s.argN 4
  let len := s.argN 3
  if !s.worldArgs 1 63 5 || s.argN 2 % 64 ≠ 0 || ia % 65536 ≠ 0 then (2, s)
  else
    let num := field (s.arg 1) 7 0
    let (page, s) := s.worldPage (s.argN 0) ia
    match s.argWorld, page with
    | some w, some pa =>
      if s.ownerEntry pa ≠ num * 256 + s.argComp || !s.compInUse then (3, s)
      else if len < 0x1A1 || 0x1A0 + 65536 < len then (2, s)
      else
        let b := s.memRead (hostPa (s.argN 2)) len
        if len ≠ 0x1A0 + fieldAt b 0x18C 4 then (2, s)
        else
          match importPlain w.key (leBytes 2 num ++ leBytes 1 s.argComp ++ leBytes 8 ia) b with
          | none => (1, s)
          | some pt => (0, (s.piecesWrite none [(pa, pt.length)] pt).getD s)
    | _, _ => (3, s)

def execImportCmd : State → Host.Outcome State Fault Refusal := command 0x13 State.import

/-! ### DEPART (R358, R429, R431) -/

/-- The compartments that depart: one, or all of the world for 63. -/
def departs (c d : Nat) : Bool := if c = 63 then d ≠ 0 else d = c

/-- Some firing of departing compartments runs, or is held, running or ready, in a saved image (R431). -/
def State.departRuns (s : State) (p c : Nat) : Bool :=
  let live := fun (k : Core) => k.ctxs.any fun e => e.2.running && departs c e.2.compart
  ((s.part p).clusters.flatMap (·.cores)).any (fun n => live (s.core n)) ||
    s.images.any fun i => i.part = p && i.cores.any fun e => live e.2 || e.2.ready.any fun r => departs c (entryComp r.entry)

/-- Global addresses of a copy's side, the first and last byte of each row. -/
def Copy.globals (p : Copy) : List Nat :=
  let rows := List.range (p.planes * p.rows)
  let src := rows.map fun r => p.w0.toNat + r / p.rows * p.ps + r % p.rows * p.ss
  let dst := rows.map fun r => p.first + r * p.dp
  ((if p.src.isSome then [] else src) ++ if p.dst.isSome then [] else dst).flatMap fun a => [a, a + p.rb - 1]

/-- Where a global address of a saved core's copy stands: under the root saved with it. -/
def State.walkSaved (s : State) (p : Nat) (k : Core) (va : Nat) : Except TransErr TlbEntry :=
  if bitOf k.ptbase 0 && va / 2 ^ 57 = 0 then s.walk k.ptbase p va else .error (0x05, 5)

/-- A copy's source or destination lies in a page or bank of departing compartments, its translations and its banks' tags
given. -/
def State.copyIn (s : State) (place : Nat → Except TransErr TlbEntry) (p : Copy) (tag : BankId → Nat) (c : Nat) : Bool :=
  let bank := fun (b : Option BankId) => (b.map fun b => departs c (tag b)).getD false
  let page := fun va =>
    match place va with
    | .ok e => (s.effective e va).any fun k => departs c k
    | .error _ => false
  bank p.src || bank p.dst || p.globals.any page

/-- A copy of departing compartments is outstanding on a channel of the partition, on the module or in a saved image. -/
def State.departCopies (s : State) (p c : Nat) : Bool :=
  ((s.part p).clusters.flatMap (·.cores)).any (fun n => (s.core n).chan.places.any fun q => s.copyIn (s.translateNow n) q (fun b => (s.bank b).tag) c) ||
    s.images.any fun i =>
      i.part = p && i.cores.any fun e => e.2.chan.places.any fun q => s.copyIn (s.walkSaved p e.2) q (fun b => (i.banks.getD b (s.bank b)).tag) c

/-- Pages whose owner entry names a departing compartment of a world, found among the listed bytes of the owner map. -/
def State.ownedPages (s : State) (world c : Nat) : List Nat :=
  let place := fun (a : Nat) =>
    if isHbm a && 2 ^ 31 - 2 ^ 20 ≤ a % 2 ^ 31 && a % 2 ^ 31 < 2 ^ 31 - 2 ^ 20 + 65536 then
      some (a / 2 ^ 31 * 2 ^ 31 + (a % 2 ^ 31 - (2 ^ 31 - 2 ^ 20)) / 2 * 65536)
    else none
  ((s.mem.filterMap fun e => place e.1).eraseDups).filter fun pa =>
    s.ownerEntry pa / 256 = world && departs c (s.ownerEntry pa % 64)

/-- A bank with its rows cleared and tag 0. -/
def Bank.cleared (b : Bank) : Bank := { b with bytes := [], bad := [], tag := 0 }

/-- Rows tagged with departing compartments cleared in the partition's cores, banks and caches, and in the units of its saved
images: a core's units carry the compartment of its launch, a bank's unit the bank's tag (DEDUCED, log 26). -/
def State.flashClear (s : State) (p c : Nat) : State :=
  let mine := fun (n : SiteId) => (s.part p).clusters.contains n
  let wipe := fun (m : InSlot) => if departs c m.comp then { m with msg := { h0 := 0, h1 := 0, payload := List.replicate 48 0 } } else m
  let core := fun (k : Core) =>
    { k with
      l1 := k.l1.filter (fun l => !departs c l.comp), inbox := k.inbox.map fun e => (e.1, wipe e.2)
      updates := k.updates.filter fun u => !departs c (s.ownerComp u.addr) }
  let bank := fun (b : Bank) => if departs c b.tag then b.cleared else b
  let units := fun (i : Image) (k : Core) => if departs c (((s.launch i.launch).map (·.compart)).getD 0) then {} else core k
  { s with
    cores := s.cores.map fun e => if mine e.1.siteId then (e.1, core e.2) else e
    banks := s.banks.map fun e => if mine e.1.siteId then (e.1, bank e.2) else e
    images := s.images.map fun i =>
      if i.part = p then { i with cores := i.cores.map fun e => (e.1, units i e.2), banks := i.banks.map fun e => (e.1, bank e.2) } else i }

/-- L2 lines of some pages dropped without write-back, the pages zeroed and unowned. -/
def State.freePages (s : State) (l : List Nat) : State := l.foldl (fun t pa => (t.zeroPage pa).setOwner pa 0 0) s

/-- A sluice that names a departed compartment closes (R431). -/
def Sluice.after (q : Sluice) (c : Nat) : Sluice := if departs c q.frm || departs c q.into then {} else q

/-- DEPART. -/
def State.depart (s : State) : Answer :=
  let p := s.argN 0
  let c := s.argComp
  if !s.worldArgs 1 63 2 then (2, s)
  else
    match s.argWorld with
    | none => (3, s)
    | some w =>
      let t := ((s.flashClear p c).freePages (s.ownedPages w.num c)).tlbDrop p none
      let u := if c = 63 then t.updLantern fun l => { l with worlds := l.worlds.filter fun x => !(x.part = p && x.num = w.num) }
        else t.updWorld p w.num fun x =>
          { x with comps := x.comps.del c, sluices := x.sluices.map fun e => (e.1, e.2.after c) }
      cond (s.compInUse && !s.departRuns p c && !s.departCopies p c) s u

def execDepart : State → Host.Outcome State Fault Refusal := command 0x14 State.depart

/-! ## Evidence (R361, R439) -/

/-- The compartments of the active launches of a partition's running context. -/
def State.compsRunning (s : State) (p : Nat) : List Nat × State :=
  (s.launches.filter fun l => l.part = p && some l.ctx = (s.part p).ctx).foldl (fun a l =>
    let (c, t) := a.2.launchComp l
    (a.1 ++ c.toList, t)) ([], s)

/-- STATE of an evidence record, the compartments of the active launches given; HALT has been received as soon as PRCMD holds it. -/
def State.evidenceState (s : State) (p c : Nat) (comps : List Nat) : Nat :=
  let k := s.part p
  let halting := (k.pre.map fun r => decide (r.why = .halt)).getD false || field s.prcmd 6 0 = p && field s.prcmd 9 8 = 3
  if (k.clusters.all fun n => (s.cluster n).gated) || !(s.func k.func).d0 then 3
  else if k.run ≠ .running || halting then 2
  else if !comps.any fun d => if c = 0xFF then d ≠ 0 else d = c then 1
  else 0

/-- The measurement of a compartment, or of the whole world: those of its compartments in ascending order. -/
def World.measure (w : World) (c : Nat) : List Byte :=
  if c = 0xFF then sha256 ((List.range 64).flatMap fun i => ((w.comps.find i).map (·.meas)).getD [])
  else ((w.comps.find c).map (·.meas)).getD measZero

/-- The signed part of a record (DEDUCED, log 26). -/
def State.evidenceBody (s : State) (w : World) (c : Nat) (comps : List Nat) : List Byte :=
  let nonce := (List.range 4).flatMap fun i => leBytes 8 (s.argN (2 + i))
  leBytes 4 1 ++ leBytes 2 w.num ++ leBytes 1 c ++ leBytes 1 (s.evidenceState w.part c comps) ++ nonce ++ w.measure c ++
    sha256 (s.lantern.images.flatMap (·.bytes)) ++
    sha256 ((List.range 64).flatMap fun i => leBytes 8 (w.counter i).toNat) ++ leBytes 8 s.now ++ List.replicate 112 0

/-- EVIDENCE. -/
def State.evidence (s : State) : Answer :=
  let c := s.argN 1
  match s.lantern.worlds.find? fun w => w.num = s.argN 0 with
  | none => (3, s)
  | some w =>
    let (comps, s) := s.compsRunning w.part
    let body := s.evidenceBody w c comps
    let salt := (Config.salt s.draws).take 350
    cond (c = 0xFF || (w.comps.find c).isSome) s
      ({ s with draws := s.draws + 1 }.updLantern fun l =>
        { l with reply := body ++ pssSign (Config.primes w.key).1 (Config.primes w.key).2 (sha256 body) salt })

def execEvidence : State → Host.Outcome State Fault Refusal := command 0x18 State.evidence

/-! ## Power states (R369) -/

def execClockStep : State → Host.Outcome State Fault Refusal :=
  powerKind 1 fun s => cond (s.argN 1 < 8 && s.argN 2 < 4) s (s.updDie (s.argN 1) fun d => { d with clock := s.argN 2 })

/-- The site ARG1 of a cluster gate names. -/
def State.argSite (s : State) : SiteId := ⟨s.argN 1 / 132, s.argN 1 % 132⟩

/-- A partition whose context runs names the site (R369). -/
def State.runningNames (s : State) (n : SiteId) : Bool := s.parts.any fun e => e.2.run = .running && e.2.clusters.contains n

/-- A gated cluster's cores, L1 and banks lose power; ungated, every bank row reads zero. A cluster that has power keeps it. -/
def State.gate (s : State) (n : SiteId) (on : Bool) : State :=
  if on then s.updCluster n fun k => { k with gated := true }
  else if !(s.cluster n).gated then s
  else
    let t := (siteBanks n).foldl (fun t b => t.updBank b fun k => { st := k.st, retire := k.retire, reports := k.reports }) s
    (n.cores.foldl (fun t c => t.updCore c fun k => { fatals := k.fatals }) t).updCluster n fun k => { retiring := k.retiring }

def execClusterGate : State → Host.Outcome State Fault Refusal :=
  powerKind 2 fun s =>
    let n := s.argSite
    let held := (s.spanAt n).isSome || (s.mergeAt n).isSome || s.runningNames n
    cond (s.argN 1 < 1056 && s.argN 2 < 2 && (s.argN 2 = 0 || !held)) s (s.gate n (s.argN 2 = 1))

/-- A stack's refresh state. -/
def Die.setRefresh (d : Die) (odd on : Bool) : Die := if odd then { d with refresh1 := on } else { d with refresh0 := on }


def execHbmSelfRefresh : State → Host.Outcome State Fault Refusal :=
  powerKind 3 fun s =>
    let st := s.argN 1
    let busy := s.parts.any fun e => e.2.run = .running && e.2.holdsStack st
    let lines := ((s.die (st / 2)).l2.map (·.line)).filter fun l => l / 2 ^ 30 = st
    let t := if s.argN 2 = 1 then lines.foldl State.writeBack s else s
    cond (st < 16 && s.argN 2 < 2 && (s.argN 2 = 0 || !busy)) s
      (t.updDie (st / 2) fun d => d.setRefresh (st % 2 = 1) (s.argN 2 = 1))

def execStraitIdle : State → Host.Outcome State Fault Refusal :=
  powerKind 4 fun s =>
    let n := s.argN 1 / 32
    let g := s.argN 1 % 32
    let free := ((s.strait n).lanes[g]?.map fun l => l.owner.isNone).getD false
    cond (n < 10 && s.argN 2 < 2 && free) s (s.updStrait n fun t => t.updLane g fun l => { l with idle := s.argN 2 = 1 })

def execAllowance : State → Host.Outcome State Fault Refusal :=
  powerKind 5 fun s =>
    let d := s.argN 1
    let w := s.argN 2
    let sum := ((List.range 8).map fun e => if e = d then w else (s.die e).allow.toNat).sum
    cond (d < 8 && 50 ≤ w && w ≤ 1000 && sum ≤ 4000) s (s.updDie d fun k => { k with allow := BitVec.ofNat 16 w })

/-- FAULTWIN (R386) (DEDUCED, log 26). -/
def execFaultwin : State → Host.Outcome State Fault Refusal :=
  command 0x21 fun s =>
    let t := s.argN 0
    let n := s.argN 1
    cond (1 ≤ t && t ≤ 10000000 && 1 ≤ n && n ≤ 65535) s (s.updLantern fun l => { l with window := t, thresh := n })

/-- CHKPT: the running context is pre-empted in checkpoint mode (R338), once no other pre-emption of it is under way; the
command is done when its slices are discarded (R349). -/
def execChkpt (s : State) : Host.Outcome State Fault Refusal :=
  let p := s.argN 0
  event (s.powered && s.lantern.cmd = some 0x22)
    (fun s =>
      if !s.lantern.started then s.answer 5
      else if !(p < 128 && (s.part p).ctx.isSome) then s.answer 3
      else s.askPre p .chkpt []) s

/-! ## The state summary (R371) -/

/-- An optional number: 0 for none, else one more than it. -/
def optNat (o : Option Nat) : Nat := (o.map (· + 1)).getD 0

/-- Section 1: the 128 partitions. -/
def State.sumParts (s : State) : List Nat :=
  (List.range 128).flatMap fun p =>
    let k := s.part p
    [b2n k.defined, k.func, k.nctx, optNat k.ctx, optNat ((s.lantern.worlds.find? (·.part = p)).map (·.num))
    , if field s.prcmd 6 0 = p then field s.prcmd 9 8 else 0]

/-- Section 2: the enabled queues. -/
def State.sumQueues (s : State) : List Nat :=
  (s.queues.filter fun e => e.2.log2n ≠ 0).flatMap fun e =>
    [optNat (s.partOfFunc e.1.1), e.1.2, e.2.log2n, e.2.head.toNat, e.2.tail.toNat, e.2.ctx]

/-- Section 3: the active launches. -/
def State.sumLaunches (s : State) : List Nat :=
  s.launches.flatMap fun l => [l.part, l.entry.toNat, l.prio, l.next - l.back.length, l.doneCnt, l.preempt]

/-- A window has begun since the counts were last restarted. -/
def State.windowPassed (s : State) : Bool :=
  let t := 1000 * s.lantern.window
  s.lantern.began < s.now / t * t

/-- Counts restart. -/
def State.restartCounts (s : State) : State := s.updLantern fun l => { l with counts := [], began := s.now }

/-- The counts of the window that stands now. -/
def State.countsNow (s : State) : State := if s.windowPassed then s.restartCounts else s

/-- A counted source of errors. -/
def sourceNats : ErrSource → List Nat
  | .site n => [0, n.die, n.site, 0]
  | .bank b => [1, b.die, b.site, b.num]
  | .group n g => [2, n, g, 0]
  | .row st r => [3, st, r, 0]

/-- Section 4: the sources, their events in the window and their retirement (R386), and the errors of each function (R417). -/
def State.sumFaults (s : State) : List Nat :=
  let l := s.lantern
  ((l.counts.map (·.1) ++ l.retired).eraseDups.flatMap fun e => sourceNats e ++ [l.counts.getD e 0, b2n (l.retired.contains e)]) ++
    (List.range 128).flatMap fun f => [4, f, (s.func f).errs, 0, 0, 0]

/-- Section 5: the installed images. -/
def State.sumFirmware (s : State) : List Nat :=
  (s.lantern.images.flatMap fun i => [i.target, i.version]) ++ [b2n s.lantern.started]

/-- Section 6: power, sites and slice map of the dies (R10, R237). -/
def State.sumPower (s : State) : List Nat :=
  (List.range 8).flatMap fun d =>
    let k := s.die d
    let sites := fun (f : SiteId → Bool) => let l := (allSites d).filter f; l.length :: l.map (·.site)
    [k.clock, k.temp.toNat, b2n k.hot0, b2n k.hot1, k.allow.toNat] ++ sites (fun n => (s.cluster n).gated) ++ sites s.enabled ++
      sites (fun n => s.siteSt n = .disabled) ++ (List.range 128).map (s.sliceOf d) ++ [b2n k.refresh0, b2n k.refresh1] ++
      if d = 0 then (List.range 10).flatMap fun n => (s.strait n).lanes.map fun g => b2n g.idle else []

/-- Section 7: each strait and partition. -/
def State.sumStraits (s : State) : List Nat :=
  (List.range 10).flatMap fun n => (List.range 128).flatMap fun p =>
    let t := s.strait n
    [t.allot p, t.split p, optNat (t.pending.find p)]

/-- Section 8: fenced dies and the master. -/
def State.sumFences (s : State) : List Nat :=
  (List.range 8).map (fun d => b2n (s.die d).fenced) ++ [optNat s.master]

/-- The contents of the eight sections, all of one moment. -/
def State.sections (s : State) : List (List Nat) :=
  [s.sumParts, s.sumQueues, s.sumLaunches, s.sumFaults, s.sumFirmware, s.sumPower, s.sumStraits, s.sumFences]

/-- The record: header, the sections in ascending type one behind the other, zeros; in which bytes a section holds its
content the spec does not say, and more than the buffer holds is cut (DESIGN CHOICE, log 12). -/
def State.summary (s : State) : List Byte :=
  let secs := s.sections.zipIdx.map fun e => Config.sectionBytes (e.2 + 1) e.1
  let starts := (List.range 8).map fun i => Nat.min (64 + ((secs.take i).map (·.length)).sum) (2 ^ 20)
  let body := secs.flatten.take (2 ^ 20 - 64)
  leBytes 4 0x53535A51 ++ leBytes 4 (64 + body.length) ++ leBytes 8 s.now ++ leBytes 8 s.now ++
    (starts.flatMap fun o => leBytes 4 o) ++ List.replicate 8 0 ++ body ++ List.replicate (2 ^ 20 - 64 - body.length) 0

/-- STATE_SUMMARY: turn windows and counts brought to the moment, the record is written, GO cleared and vector 64 of the physical
function signalled. -/
def execStateSummary (s : State) : Host.Outcome State Fault Refusal :=
  event (s.powered && s.lantern.sumGo)
    (fun s =>
      let s := s.windowsNow.countsNow
      ((s.memWrite 0 (hostPa s.lantern.sumAddr.toNat) s.summary).updLantern fun l => { l with sumGo := false }).signal 0 64) s

end Sys2Proof.Machine
end

