-- ==== Sys2Proof/Machine/HostIf.lean ====
section
/-! DEFINITION. The host interface: BAR0 registers (R315, R327, R328, R365, R371, R417), notify pages (R331, R332), BAR2
(R329, R330, R418), partition records and their operations (R325, R433). -/
namespace Sys2Proof.Machine

/-! ## Functions (R17, R368) -/

/-- The function is presented to the host: the physical one alone until START has enabled SR-IOV, then all 127 virtual ones
(DESIGN CHOICE, log 38). -/
def State.funcPresent (s : State) (fn : Nat) : Bool := s.powered && (fn = 0 || (s.lantern.started && fn < 128))

/-! ## Queue registers (R315) -/

/-- QCTL of a queue. -/
def Queue.qctl (k : Queue) : W64 :=
  w64 (k.head.toNat * 2 ^ 32 + b2n k.irq * 2 ^ 25 + k.vec % 128 * 2 ^ 18 + k.ctx % 4 * 2 ^ 16 + k.log2n % 32)

/-- A write to QCTL: IRQ, VEC and CTX at once; LOG2N while the queue is disabled or to disable it. A LOG2N above 16 names
no ring and is not taken (DESIGN CHOICE, log 19). Enabling sets HEAD and the tail to 0. -/
def Queue.write (k : Queue) (v : W64) : Queue :=
  let n := field v 4 0
  let k := { k with irq := bitOf v 25, vec := field v 24 18, ctx := field v 17 16 }
  if n = 0 then { k with log2n := 0 }
  else if k.log2n = 0 && n ≤ 16 then { k with log2n := n, head := 0, tail := 0 }
  else k

def State.qctlWrite (s : State) (fn q : Nat) (v : W64) : State :=
  if s.funcPresent fn && q < 64 then s.updQueue fn q (·.write v) else s

/-- QCTL_WRITE. -/
def execQctlWrite (func q : Nat) (v : W64) : State → Host.Outcome State Fault Refusal := event true (·.qctlWrite func q v)

/-! ## Notify pages (R331, R332) -/

/-- The tail set by a notify that is no further ahead than 2^31 - 1. -/
def Queue.setTail (k : Queue) (tail : BitVec 32) : Queue := if (tail - k.tail).toNat < 2 ^ 31 then { k with tail := tail } else k

/-- A notify that is no further ahead has its effect; one further ahead is ignored whole (R331). -/
def Queue.notified (k : Queue) (tail : BitVec 32) : Queue :=
  if (tail - k.tail).toNat < 2 ^ 31 then { k with tail := tail, sealed := none } else k

/-- COUNT has reached SEQ. -/
def Func.reached (f : Func) (seq : BitVec 32) : Bool := (f.count - seq).toNat < 2 ^ 31

def State.plainNotify (s : State) (fn q : Nat) (v : W64) : State :=
  if s.funcPresent fn && q < 64 then s.updQueue fn q (·.notified (v.truncate 32)) else s

/-- A sealed notify replaces a waiting one; it takes effect at once when COUNT has reached its SEQ. TAIL is looked at when the
notify takes effect (DEDUCED, log 28). -/
def State.sealedNotify (s : State) (fn q : Nat) (v : W64) : State :=
  let seq := BitVec.ofNat 32 (field v 63 32)
  let tail : BitVec 32 := v.truncate 32
  if s.funcPresent fn && q < 64 then
    s.updQueue fn q fun k =>
      if (s.func fn).reached seq then k.notified tail else { k with sealed := some (tail, seq, s.now) }
  else s

/-- PLAIN_NOTIFY and SEALED_NOTIFY. -/
def execPlainNotify (func q : Nat) (v : W64) : State → Host.Outcome State Fault Refusal := event true (·.plainNotify func q v)
def execSealedNotify (func q : Nat) (v : W64) : State → Host.Outcome State Fault Refusal := event true (·.sealedNotify func q v)

/-- SEALED_NOTIFY_EFFECT. -/
def execSealedNotifyEffect (func q : Nat) (s : State) : Host.Outcome State Fault Refusal :=
  match (s.queue func q).sealed with
  | none => .next s
  | some (tail, seq, _) =>
    event ((s.func func).reached seq) (·.updQueue func q fun k => { k.setTail tail with sealed := none }) s

/-- NOTIFY_TIMEOUT (R418). -/
def execNotifyTimeout (func q : Nat) (s : State) : Host.Outcome State Fault Refusal :=
  match (s.queue func q).sealed with
  | none => .next s
  | some (tail, seq, since) =>
    event (!(s.func func).reached seq && since + 1000000 ≤ s.now)
      (fun s => (s.updQueue func q fun k => { k with sealed := none }).fnError func 3 q tail.toNat) s

/-! ## The other registers (R327, R328, R365, R371, R417) -/

/-- A word of the MSI-X table is written; a vector whose mask bit is cleared sends its pending message (R334). -/
def State.msixWrite (s : State) (fn w : Nat) (v : W64) : State :=
  let t := s.updFunc fn fun f => { f with msix := f.msix.put w (if w % 2 = 1 then v &&& 0x1FFFFFFFF else v &&& ~~~3) }
  let vec := w / 2
  if !(t.func fn).masked vec && (t.func fn).pba.contains vec then
    (t.updFunc fn fun f => { f with pba := f.pba.filter (· ≠ vec) }).sendMsix fn vec
  else t

/-- The codes of R365 (DEDUCED, log 26). -/
def knownCommand (c : Nat) : Bool := [0x01, 0x02, 0x10, 0x11, 0x12, 0x13, 0x14, 0x18, 0x20, 0x21, 0x22].contains c

/-- A write to MBCMD: it starts a command with the arguments as they stand. A code that is not one, and a POWER of no
kind, are answered at once; a code of 0x10-0x22 before START is out of order. -/
def State.mailbox (s : State) (code : Nat) : State :=
  let l := s.lantern
  if l.cmd.isSome then s
  else if 0x10 ≤ code && code ≤ 0x22 && !l.started then s.answer 5
  else if !knownCommand code then s.answer 4
  else if code = 0x20 && !(1 ≤ (l.args.getD 0 0).toNat && (l.args.getD 0 0).toNat ≤ 5) then s.answer 3
  else s.updLantern fun l => { l with cmd := some code, cargs := (List.range 6).map fun i => l.args.getD i 0 }

/-- A write to the state-summary register (R371). -/
def State.summaryWrite (s : State) (v : W64) : State :=
  if s.lantern.sumGo then s
  else s.updLantern fun l => { l with sumAddr := w64 (field v 51 6 * 64), sumGo := bitOf v 0 }

/-- A write of the function page at an offset (R315, R328, R329, R417) (DEDUCED, log 27). -/
def State.pageWrite (s : State) (fn off : Nat) (v : W64) : State :=
  if off = 0x018 then s.updFunc fn fun f => { f with wbase := w64 (field v 51 36 * 2 ^ 36) }
  else if off = 0x020 then s.updFunc fn fun f => if bitOf v 0 then { f with fnerr := f.fnerr &&& ~~~1 } else f
  else if 0x0800 ≤ off && off < 0x0C00 then
    let q := (off - 0x0800) / 16
    if off % 16 = 8 then s.qctlWrite fn q v
    else s.updQueue fn q fun k => if k.log2n = 0 then { k with qbase := w64 (field v 56 8 * 256) } else k
  else s

/-- A write of the physical function's own range (R325, R327, R365, R371). -/
def State.pfWrite (s : State) (off : Nat) (v : W64) : State :=
  if off = 0x80000 then { s with prbase := w64 (field v 51 10 * 1024) }
  else if off = 0x80008 then { s with prcmd := w64 (field v 6 0 + field v 9 8 * 256) }
  else if off = 0x80010 then s.summaryWrite v
  else if off = 0x81000 then s.mailbox (field v 7 0)
  else if 0x81010 ≤ off && off < 0x81040 then s.updLantern fun l => { l with args := l.args.put ((off - 0x81010) / 8) v }
  else s

/-- An 8-byte write to BAR0 of a function; reserved ranges and read-only registers ignore it (R327) (DESIGN CHOICE, log 19). -/
def State.barWrite (s : State) (fn off : Nat) (v : W64) : State :=
  if !s.funcPresent fn || off % 8 ≠ 0 then s
  else if off < 0x1000 then s.pageWrite fn off v
  else if off < 0x2000 then (if (off - 0x1000) / 8 < 2 * msixCount then s.msixWrite fn ((off - 0x1000) / 8) v else s)
  else if off < 0x40000 then s
  else if off < 0x80000 then
    let q := (off - 0x40000) / 0x1000
    if off % 0x1000 = 0 then s.plainNotify fn q v else if off % 0x1000 = 8 then s.sealedNotify fn q v else s
  else if fn = 0 then s.pfWrite off v
  else s

/-- REGISTER_WRITE. -/
def execRegisterWrite (func off : Nat) (v : W64) : State → Host.Outcome State Fault Refusal := event true (·.barWrite func off v)

/-- FNINFO (R328). -/
def State.fninfo (s : State) (fn : Nat) : W64 :=
  match s.partOfFunc fn with
  | some p => w64 (p * 2 ^ 8 + 2 ^ 7 + fn)
  | none => w64 fn

/-- Eight bytes of BAR0 of a function as a read returns them (R315, R327, R328, R331, R365, R371, R417). -/
def State.barRead (s : State) (fn off : Nat) : W64 :=
  let f := s.func fn
  if !s.funcPresent fn then 0
  else if off = 0x000 then s.fninfo fn
  else if off = 0x008 then f.count.zeroExtend 64
  else if off = 0x010 then w64 s.now
  else if off = 0x018 then f.wbase
  else if off = 0x020 then f.fnerr
  else if 0x0800 ≤ off && off < 0x0C00 then
    let k := s.queue fn ((off - 0x0800) / 16)
    if off % 16 = 8 then k.qctl else k.qbase
  else if 0x1000 ≤ off && off < 0x1000 + 16 * msixCount then f.msixWord ((off - 0x1000) / 8)
  else if 0x2000 ≤ off && off < 0x2010 then
    w64 (((List.range 64).map fun i => if f.pba.contains (8 * (off - 0x2000) + i) then 2 ^ i else 0).sum)
  else if 0x40000 ≤ off && off < 0x80000 then
    (if off % 0x1000 = 0x10 then (s.queue fn ((off - 0x40000) / 0x1000)).head.zeroExtend 64 else 0)
  else if fn ≠ 0 then 0
  else if off = 0x80000 then s.prbase
  else if off = 0x80008 then s.prcmd
  else if off = 0x80010 then s.lantern.sumAddr ||| w64 (b2n s.lantern.sumGo)
  else if off = 0x81008 then w64 (s.lantern.result * 256 + b2n s.lantern.cmd.isSome)
  else if 0x81010 ≤ off && off < 0x81040 then s.lantern.args.getD ((off - 0x81010) / 8) 0
  else if 0x81040 ≤ off && off < 0x82000 then w64 (leNat ((s.lantern.reply.drop (off - 0x81040)).take 8))
  else 0

/-! ## BAR2 (R329, R330, R418) -/

/-- An address that BAR2 may reach: HBM outside the device's top 1 MiB of a channel, or host memory (DESIGN CHOICE, log 19). -/
def reachable (pa : Nat) : Bool := (isHbm pa && !isDeviceTop pa) || isHost pa

/-- A function's accesses start on the host interface's die, over its partition's groups (R278) (DESIGN CHOICE, log 18). -/
def State.bar2Via (s : State) (fn : Nat) : Via := if fn = 0 then none else (s.partOfFunc fn).map fun p => (p, hostDie)

/-- Where an offset of a function's BAR2 stands: physical in the physical function, through the bound partition's stage 2
in a virtual one (DESIGN CHOICE, log 19). -/
def State.bar2Page (fn : Nat) (rd w : Bool) (off : Nat) (s : State) : Option Nat × State :=
  let a := field (s.func fn).wbase 51 36 * 2 ^ 36 + off
  if fn = 0 then (if reachable a then some a else none, s)
  else
    match s.partOfFunc fn with
    | none => (none, s)
    | some p =>
      if a / 2 ^ 51 = 1 then (none, s)
      else
        match walk2 (s.bar2Via fn) (s.part p).s2root a s with
        | .error _ t => (none, t)
        | .ok l t =>
          let pa := l.addr + a % l.size
          (if reachable pa && (!rd || l.rd) && (!w || l.w) then some pa else none, t)

def State.bar2Pieces (s : State) (fn off n : Nat) (rd w : Bool) : Option (List (Nat × Nat)) × State :=
  pagePieces (State.bar2Page fn rd w) (n / 65536 + 2) off n s

/-- A BAR2 access that translates to nothing (R418). -/
def State.bar2Error (s : State) (fn off : Nat) : State := s.fnError fn 4 0 (off / 16)

/-- BAR2_WRITE: COUNT rises by the payload, and the write takes effect behind those before it. -/
def State.bar2Write (s : State) (fn off : Nat) (data : List Byte) : State :=
  let s := s.updFunc fn fun f => { f with count := f.count + BitVec.ofNat 32 data.length }
  match s.bar2Pieces fn off data.length false true with
  | (none, t) => t.bar2Error fn off
  | (some l, t) => (t.piecesWrite (s.bar2Via fn) l data).getD t

def execBar2Write (func off : Nat) (data : List Byte) (s : State) : Host.Outcome State Fault Refusal :=
  eventReading (s.funcPresent func && off + data.length ≤ 2 ^ 36) (·.bar2Write func off data) s

def State.readDone (s : State) (fn off : Nat) (data : Option (List Byte)) : State :=
  { s with outside := s.outside ++ [.readData fn off data] }

/-- BAR2_READ: the bytes at their execution points; a read that translates to nothing, or meets an error (DESIGN CHOICE, log 19), completes
with Unsupported Request. -/
def State.bar2Read (s : State) (fn off n : Nat) : State :=
  match s.bar2Pieces fn off n true false with
  | (none, t) => (t.bar2Error fn off).readDone fn off none
  | (some l, t) =>
    let (b, u) := t.piecesRead (s.bar2Via fn) l
    u.readDone fn off b

def execBar2Read (func off len : Nat) (s : State) : Host.Outcome State Fault Refusal :=
  eventReading (s.funcPresent func && off + len ≤ 2 ^ 36) (·.bar2Read func off len) s

/-! ## Partition records (R325, R433) -/

/-- Physical bytes of a record. -/
def State.recordBytes (s : State) (p n : Nat) : List Byte := s.memRead (s.prbase.toNat + 1024 * p) n

/-- Cluster sites of a CLUSTERS field, in the order of logical numbers (R229). -/
def recordSites (b : List Byte) : List SiteId :=
  (List.range 8).flatMap fun d =>
    let m := fieldAt b (0x020 + 32 * d) 32
    (allSites d).filter fun n => m / 2 ^ n.site % 2 = 1

/-- Group mask of a strait. -/
def recordMask (b : List Byte) (n : Nat) : Nat := fieldAt b (0x170 + 8 * n) 4

/-- Roster entries (R336). -/
def recordRoster (b : List Byte) : List Roster :=
  (List.range 32).map fun i =>
    let e := fieldAt b (0x200 + 16 * i) 16
    { modul := bits e 112 16, rpart := bits e 105 7, port := bits e 101 4, rd := bits e 100 1 = 1, w := bits e 99 1 = 1
      v := bits e 98 1 = 1, size := bits e 52 30, rbase := bits e 16 36 }

/-- What a defined record names, to be named by no other. -/
structure Claim where
  sites    : List SiteId
  channels : Nat
  groups   : List Nat
  deriving DecidableEq, Repr

def recordClaim (b : List Byte) : Claim :=
  { sites := recordSites b, channels := fieldAt b 0x120 64, groups := (List.range 10).map (recordMask b) }

/-- Bit i of a mask. -/
def maskBit (m i : Nat) : Bool := m / 2 ^ i % 2 = 1

/-- What a partition holds already (DEDUCED, log 27). -/
def State.heldClaim (s : State) (p : Nat) : Claim :=
  { sites := (s.part p).clusters, channels := (s.part p).channels.toNat
    groups := (List.range 10).map fun n => (((s.strait n).mine p).map fun g => 2 ^ g.1).sum }

/-- Two claims name one thing. -/
def Claim.meets (a b : Claim) : Bool :=
  a.sites.any b.sites.contains || (List.range 512).any (fun i => maskBit a.channels i && maskBit b.channels i) ||
    (List.range 10).any fun n => (List.range 32).any fun i => maskBit (a.groups.getD n 0) i && maskBit (b.groups.getD n 0) i

/-- Another defined record, as it stands in memory or as it was applied, names one of the claim's clusters, channels or
groups (R433) (DEDUCED, log 27). -/
def State.claimMeets (s : State) (p : Nat) (c : Claim) : Bool :=
  (List.range 128).any fun q =>
    q ≠ p && ((fieldAt (s.recordBytes q 8) 0 1 % 2 = 1 && c.meets (recordClaim (s.recordBytes q 1024))) ||
      ((s.part q).defined && c.meets (s.heldClaim q)))

/-- What an APPLY takes at once (DEDUCED, log 27). -/
def Part.applyNow (k : Part) (b : List Byte) : Part :=
  let ctl := fieldAt b 0x010 8
  { k with
    defined := fieldAt b 0 1 % 2 = 1, s2root := w64 (fieldAt b 0 8), s1root := w64 (fieldAt b 8 8)
    func := bits ctl 0 7, nctx := bits ctl 8 2 + 1, borrow := bits ctl 10 1 = 1, slmode := bits ctl 11 1 = 1
    tslice := fieldAt b 0x018 4, quantum := fieldAt b 0x01C 4, rate := BitVec.ofNat 16 (fieldAt b 0x160 4)
    burst := BitVec.ofNat 13 (fieldAt b 0x164 4), roster := recordRoster b }

/-- The groups of a strait as a record allots them, with its initial split from the next window on and its beats counted
from now (R279, R288). -/
def Strait.allotTo (t : Strait) (p mask split : Nat) : Strait :=
  let lanes := t.groups.map fun g =>
    if maskBit mask g.1 && !g.2.lost then { g.2 with owner := some p }
    else if g.2.owner = some p then { g.2 with owner := none }
    else g.2
  let t := { t with lanes := lanes }
  { t with pending := t.pending.del p, xfers := t.xfers.filter (·.1.1 ≠ p), initial := if t.allot p = 0 then t.initial.del p else t.initial.put p split }

/-- What an APPLY takes while no context of the partition runs: clusters, channels and groups; none of an undefined
record (DESIGN CHOICE, log 6). -/
def State.applyHoldings (s : State) (p : Nat) (b : List Byte) : State :=
  let s := s.windowsNow
  let on := fieldAt b 0 1 % 2 = 1
  let split := fun n => fieldAt b (0x170 + 8 * n + 4) 1 % 64
  let t := s.updPart p fun k =>
    { k with
      clusters := if on then recordSites b else [], channels := BitVec.ofNat 512 (if on then fieldAt b 0x120 64 else 0)
      splits := (List.range 10).map fun n => ((n, recordCtx), split n) }
  (List.range 10).foldl (fun t n => t.updStrait n fun u => u.allotTo p (if on then recordMask b n else 0) (split n)) t

/-- The last operation has taken effect. -/
def State.prDone (s : State) : State := { s with prcmd := 0 }

/-- The partition that PRCMD names. -/
def State.prPart (s : State) : Nat := field s.prcmd 6 0

/-- An operation of PRCMD waits to take effect. -/
def State.prOp (s : State) (op : Nat) : Bool := s.powered && field s.prcmd 9 8 = op

def State.apply (s : State) : State :=
  let p := s.prPart
  let b := s.recordBytes p 1024
  if fieldAt b 0 1 % 2 = 1 && s.claimMeets p (recordClaim b) then s.prDone.fnError 0 7 0 p
  else
    let t := s.updPart p (·.applyNow b)
    (if (s.part p).ctx.isSome then t else t.applyHoldings p b).prDone

/-- APPLY. -/
def execApply (s : State) : Host.Outcome State Fault Refusal := event (s.prOp 1) State.apply s

/-- RUN: the first starts with context 0, a later one with the context that HALT stopped. -/
def State.run (s : State) : State :=
  let p := s.prPart
  let k := s.part p
  if !k.defined || k.ctx.isSome then s.prDone
  else
    let c := if k.run = .never then 0 else k.haltCtx
    ((s.updPart p fun k => { k with run := .running }).bringIn p c).prDone

def execRun (s : State) : Host.Outcome State Fault Refusal := event (s.prOp 2) State.run s

/-- HALT asks for the pre-emption of the running context, in place of one that has stopped nothing yet, but not of a
checkpoint that Lantern has been asked for (DEDUCED, log 27). -/
def State.askHalt (s : State) (p : Nat) : State :=
  match (s.part p).pre with
  | none => s.askPre p .halt []
  | some r =>
    s.updPart p fun k =>
      { k with pre := some (if r.tokens then { r with why := .halt } else { mode := s.preMode p .halt, why := .halt }) }

/-- A HALT of the partition is under way. -/
def Part.halting (k : Part) : Bool :=
  match k.pre with
  | some r => r.why = .halt
  | none => false

/-- The pre-emption under way has stopped its cores, or is one that a command waits for (R365). -/
def Part.stopping (k : Part) : Bool :=
  match k.pre with
  | some r => r.stopped || r.why = .chkpt
  | none => false

/-- HALT: PRCMD keeps the operation until the context is saved. -/
def execHalt (s : State) : Host.Outcome State Fault Refusal :=
  let p := s.prPart
  let k := s.part p
  event (s.prOp 3 && !k.halting && !k.stopping) (fun s => if k.ctx.isSome then s.askHalt p else s.prDone) s

end Sys2Proof.Machine
end

