-- ==== Sys2Proof/Machine/Distributor.lean ====
section
/-! DEFINITION. The distributors: entries and timelines (R315-R319, R418), the choice of what to place and where
(R320-R323, R398, R421, R432, R435), the start of a span (R27, R39, R103), the completion of a slice (R30), merge
messages (R32), a message held at an idle core's port (R404), the election of a master (R415). -/
namespace Sys2Proof.Machine


/-- The context of a partition runs (R326). -/
def State.ctxRuns (s : State) (p ctx : Nat) : Bool := (s.part p).run = .running && (s.part p).ctx = some ctx

/-! ## Urgent work in a context that does not run (R326, R435) -/

/-- A launch of effective priority 0 that became eligible while its context did not run asks for it, if the exchange fits;
FNERR tells once if not, and the attempt is made again once a unit of the partition is freed. -/
def State.askUrgent (s : State) (l : Launch) : State :=
  let k := s.part l.part
  let w := PreWhy.urgentCtx l.ctx l.id
  let r : PreReq := { mode := s.preMode l.part w, why := w }
  if !l.calls || l.units || k.run ≠ .running || k.pre.isSome || k.ctx = some l.ctx || k.ctx.isNone then s
  else if r.mode = .checkpoint || s.fits (s.coveredSites l.part r) (s.incoming l.part l.ctx) false then
    s.askPre l.part w [] l.told
  else (if l.told then s else s.tellUnfit l.part).awaitUnits l.id

/-! ## Timelines (R318) -/

/-- A launch whose waits are all satisfied becomes eligible. -/
def State.becomeEligible (s : State) (id : Nat) : State :=
  match s.launch id with
  | none => s
  | some l =>
    if l.eligible.isSome || !l.sat.all (· = true) then s
    else
      let (n, s) := s.fresh
      let l := { l with eligible := some n, agedAt := s.now, calls := l.prio = 0 && (s.part l.part).ctx ≠ some l.ctx }
      let s := s.updLaunch id fun _ => l
      if l.prio = 0 then s.askUrgent l else s

/-- The master reads wait i of a launch. A first read that does not translate refuses the launch; a later one, and one that
meets an error, satisfies nothing. -/
def State.timelineRead (s : State) (id i : Nat) : State :=
  match s.launch id with
  | none => s
  | some l =>
    match l.sat[i]?, l.desc.waits[i]? with
    | some false, some w =>
      match State.masterPage l.part true false w.1.toNat s with
      | (none, t) => if l.asked.contains i then t else t.refuseLaunch l 0x600
      | (some pa, t) =>
        match (t.updLaunch id fun l => { l with asked := i :: l.asked }).piecesRead (s.masterVia l.part) [(pa, 8)] with
        | (none, u) => u
        | (some b, u) =>
          if w.2.toNat ≤ leNat b then (u.updLaunch id fun l => { l with sat := l.sat.set i true }).becomeEligible id else u
    | _, _ => s

/-- Every wait of every active launch read. -/
def State.readWaits (s : State) : State :=
  s.launches.foldl (fun t l => (List.range l.sat.length).foldl (fun t i => t.timelineRead l.id i) t) s

/-- TIMELINE_READ. -/
def execTimelineRead (launch wait : Nat) : State → Host.Outcome State Fault Refusal :=
  fun s => eventReading s.masterUp (·.timelineRead launch wait) s

/-! ## Taking an entry (R316-R319, R418) -/

/-- The reserved bytes of an entry are zero (DEDUCED, log 28). -/
def entryReserved (b : List Byte) : Bool :=
  fieldAt b 4 4 / 2 = 0 && fieldAt b 0x18 40 = 0 &&
    (if fieldAt b 0 4 = 1 then fieldAt b 8 16 = 0 else fieldAt b 0x40 192 = 0)

/-- HEAD moves past an entry. -/
def State.advance (s : State) (fn q : Nat) : State := s.updQueue fn q fun k => { k with head := k.head + 1 }

/-- ENTRY of a completion record: the value of HEAD, and the queue in bits 63:58 (R333). -/
def entryWord (head : BitVec 32) (q : Nat) : W64 := w64 (head.toNat + q * 2 ^ 58)

/-- A LAUNCH becomes active; it is eligible at once when it waits for no timeline (DEDUCED, log 28). -/
def State.takeLaunch (s : State) (p q : Nat) (head : BitVec 32) (b : List Byte) : State :=
  let d := parseDesc (b.drop 0x40)
  let (id, s) := s.fresh
  let n := Nat.min d.nwait 4
  let l : Launch :=
    { id := id, part := p, ctx := (s.queue (s.part p).func q).ctx, queue := q, entry := entryWord head q, desc := d
      sat := List.replicate n false, prio := d.prio, slices := d.slices
      eligible := none, agedAt := s.now }
  if descOk (b.drop 0x40) then { s with launches := s.launches ++ [l] }.becomeEligible id else s.refuseLaunch l 0x100

/-- A TLSIGNAL or TLSET writes its timeline in one step (R319), or says that the address does not allow it. -/
def State.timelineWrite (s : State) (p : Nat) (set : Bool) (va v : Nat) : Bool × State :=
  if va % 8 ≠ 0 then (false, s)
  else
    match State.masterPage p true true va s with
    | (none, t) => (false, t)
    | (some pa, t) =>
      match t.piecesRead (s.masterVia p) [(pa, 8)] with
      | (none, u) => (false, u)
      | (some m, u) =>
        match u.piecesWrite (s.masterVia p) [(pa, 8)] (leBytes 8 (if set then v else Nat.max (leNat m) v)) with
        | some x => (true, x)
        | none => (false, u)

/-- An entry is performed as it is read, or skipped with its code of FNERR; a timeline the master writes itself is read again
for every launch that waits for it (R318). -/
def State.perform (s : State) (p q : Nat) (head : BitVec 32) (b : List Byte) : State :=
  let fn := (s.part p).func
  let s := s.advance fn q
  let skip := fun (t : State) (code : Nat) => t.fnError fn code q (head.toNat % 2 ^ (s.queue fn q).log2n)
  let kind := fieldAt b 0 4
  if kind = 0 || 3 < kind then skip s 1
  else if !entryReserved b then skip s 2
  else if kind = 1 then s.takeLaunch p q head b
  else
    match s.timelineWrite p (kind = 3) (fieldAt b 8 8) (fieldAt b 0x10 8) with
    | (true, t) => t.readWaits
    | (false, t) => skip t 8

/-- The conditions of R317 that the entry itself sets: AFTER, and a place among 64 active launches. -/
def State.takable (s : State) (p q : Nat) (b : List Byte) : Bool :=
  !(fieldAt b 4 1 % 2 = 1 && s.launches.any fun l => l.part = p && l.queue = q) &&
    !(fieldAt b 0 4 = 1 && 64 ≤ (s.launches.filter (·.part = p)).length)

/-- TAKE_ENTRY (DEDUCED, log 28). -/
def State.takeEntry (s : State) (p q : Nat) : State :=
  let fn := (s.part p).func
  let k := s.queue fn q
  if q < 64 && s.masterUp && k.log2n ≠ 0 && k.tail ≠ k.head && s.ctxRuns p k.ctx then
    let i := k.head.toNat % 2 ^ k.log2n
    match s.masterRead p (k.qbase.toNat + 256 * i) 256 with
    | (none, t) => (t.advance fn q).fnError fn 5 q i
    | (some b, t) => if t.takable p q b then t.perform p q k.head b else t
  else s

def execTakeEntry (part q : Nat) : State → Host.Outcome State Fault Refusal := eventReading true (·.takeEntry part q)

/-! ## Priorities (R320) -/

/-- PRIORITY_AGING. -/
def execPriorityAging (launch : Nat) (s : State) : Host.Outcome State Fault Refusal :=
  match s.launch launch with
  | none => .next s
  | some l =>
    event (s.masterUp && l.eligible.isSome && l.unplaced && 1 < l.prio && l.agedAt + 2000000 ≤ s.now)
      (fun s => s.updLaunch launch fun l => { l with prio := l.prio - 1, agedAt := s.now }) s

/-! ## Handler table and bank directory (R38, R102, R103) -/

/-- An image of the bank directory: slot, address, size, core mask. -/
structure DirEntry where
  slot : Nat
  va   : Nat
  size : Nat
  mask : Nat
  deriving DecidableEq, Repr

/-- The directory's images; an image holds a bank at most. -/
def parseDir (b : List Byte) : List DirEntry :=
  ((List.range 8).map fun i =>
    { slot := i, va := fieldAt b (16 * i) 8, size := Nat.min (fieldAt b (16 * i + 8) 4) 65536
      mask := fieldAt b (16 * i + 12) 1 % 16 : DirEntry }).filter (·.va ≠ 0)

/-- Banks that the images take on each cluster. -/
def dirNeed (d : List DirEntry) : Nat := (d.map fun e => ((List.range 4).filter fun k => e.mask / 2 ^ k % 2 = 1).length).sum

/-- What a span loads: table, directory, the bytes of each image. -/
structure Program where
  table  : Tab Nat (BitVec 128)
  dir    : List DirEntry
  images : List (List Byte)
  deriving DecidableEq, Repr

/-- Bytes of the images, none if one cannot be read. -/
def State.readImages (s : State) (p : Nat) : List DirEntry → Option (List (List Byte)) × State
  | [] => (some [], s)
  | e :: es =>
    match s.masterRead p e.va e.size with
    | (none, t) => (none, t)
    | (some b, t) => let (bs, u) := t.readImages p es; (bs.map (b :: ·), u)

/-- Table, directory and images read at TABLE (R398, check 0x200). -/
def State.readProgram (s : State) (l : Launch) : Option Program × State :=
  let va := l.desc.table.toNat
  if va % 4096 ≠ 0 then (none, s)
  else
    match s.masterRead l.part va 4096 with
    | (none, t) => (none, t)
    | (some tb, t) =>
      match t.masterRead l.part (va + 0x1000) 128 with
      | (none, u) => (none, u)
      | (some db, u) =>
        let (is, w) := u.readImages l.part (parseDir db)
        (is.map fun is => { table := parseTable tb, dir := parseDir db, images := is }, w)

/-! ## Positions (R28, R322, R421, R427) -/

/-- A cluster that work can be placed on at all: enabled, on a healthy die. -/
def State.usable (s : State) (n : SiteId) : Bool := s.enabled n && !(s.die n.die).fenced

/-- The saved image's span waits for its urgent slice: that launch is active and the slice unplaced (R323). -/
def State.imageWaits (s : State) (i : Image) : Bool :=
  match i.urgent with
  | none => false
  | some (l, n) =>
    match s.launch l with
    | none => false
    | some l => !l.over && (l.back.contains n || l.next ≤ n)

/-- The site is kept for a saved span of the running context: one that an urgent slice of another launch pre-empted (R321,
R323), or one whose power was out at the exchange (R369) (DEDUCED, log 25). -/
def State.keptFor (s : State) (l : Launch) (n : SiteId) : Bool :=
  s.images.any fun i =>
    i.part = l.part && i.ctx = l.ctx && (i.units.find n).isSome &&
      (match i.urgent with
        | none => true
        | some (u, _) => !(u = l.id && s.imageWaits i))

/-- A free cluster of the launch's partition. -/
def State.freeFor (s : State) (l : Launch) (n : SiteId) : Bool :=
  let c := s.cluster n
  s.usable n && !c.gated && !c.retiring && (s.spanAt n).isNone && (s.mergeAt n).isNone && !s.keptFor l n

/-- Free banks of a cluster. -/
def State.freeBanks (s : State) (n : SiteId) : Nat := ((siteBanks n).filter fun b => (s.bank b).st = .free).length

/-- Banks of a cluster that are not disabled. -/
def State.liveBanks (s : State) (n : SiteId) : Nat := ((siteBanks n).filter fun b => (s.bank b).st ≠ .disabled).length

/-- What stands open to a placement: which clusters, and how many banks each gives. -/
structure Room where
  free  : SiteId → Bool
  banks : SiteId → Nat

/-- The room as it stands now. -/
def State.roomNow (s : State) (l : Launch) : Room := { free := s.freeFor l, banks := s.freeBanks }

/-- The room a placement could ever have: every usable cluster but the launch's own merge cluster, every bank that is not
disabled. -/
def State.roomEver (s : State) (l : Launch) : Room := { free := fun n => s.usable n && l.merge ≠ some n, banks := s.liveBanks }

/-- The room once some clusters have been saved to the shadow store. -/
def State.roomAfter (s : State) (l : Launch) (gone : List SiteId) : Room :=
  { free := fun n => s.freeFor l n || (gone.contains n && s.usable n && !(s.cluster n).gated && !(s.cluster n).retiring)
    banks := fun n => if gone.contains n then s.liveBanks n else s.freeBanks n }

/-- The sites of a rectangle by its origin, in span-relative order (R29). -/
def rectSites (d w h x0 y0 : Nat) : List SiteId :=
  (List.range h).flatMap fun j => (List.range w).map fun i => ⟨d, 12 * (y0 + j) + x0 + i⟩

/-- Every rectangle in the order of R322: die, lowest row, lowest column. -/
def rectangles (w h : Nat) : List (List SiteId) :=
  (List.range 8).flatMap fun d => (List.range (12 - h)).flatMap fun y => (List.range (13 - w)).map fun x => rectSites d w h x y

/-- The sets of whole dies of an allowed shape, in lexicographic order (R28, R322). -/
def dieSets (n : Nat) : List (List Nat) :=
  if n = 1 then (List.range 8).map fun d => [d]
  else if n = 2 then [[0, 1], [0, 4], [1, 2], [1, 5], [2, 3], [2, 6], [3, 7], [4, 5], [5, 6], [6, 7]]
  else if n = 4 then [[0, 1, 2, 3], [0, 1, 4, 5], [1, 2, 5, 6], [2, 3, 6, 7], [4, 5, 6, 7]]
  else [[0, 1, 2, 3, 4, 5, 6, 7]]

/-- The candidate positions of a launch: a rectangle, or whole dies with their enabled clusters. -/
def State.positions (s : State) (d : Desc) : List (List SiteId) :=
  if d.dies = 0 then rectangles d.w d.h
  else ((dieSets d.dies).filter fun ds => ds.all fun k => !(s.die k).fenced).map fun ds => ds.flatMap s.enabledSites

/-- A position takes the launch: its sites belong to the partition and are free, each gives its images' banks, all give the
quota. -/
def State.takes (s : State) (r : Room) (l : Launch) (need : Nat) (sites : List SiteId) : Bool :=
  !sites.isEmpty && (sites.all fun n => (s.part l.part).clusters.contains n && r.free n && need ≤ r.banks n) &&
    l.desc.quota ≤ (sites.map r.banks).sum

/-- Dies of the partition's usable clusters that a position does not cover. -/
def State.diesBeside (s : State) (p : Nat) (sites : List SiteId) : List Nat :=
  (List.range 8).filter fun d =>
    ((s.part p).clusters.any fun n => n.die = d && s.usable n) && !sites.any fun n => n.die = d

/-- The merge cluster for a position (R32, R322). -/
def State.mergeFor (s : State) (r : Room) (l : Launch) (sites : List SiteId) : Option SiteId :=
  let die := if l.desc.dies = 0 then sites.head?.map (·.die) else (s.diesBeside l.part sites).head?
  match die with
  | none => none
  | some d => (allSites d).find? fun n => (s.part l.part).clusters.contains n && r.free n && !sites.contains n

/-- The launch takes a merge cluster with its first placement. -/
def Launch.needsMerge (l : Launch) : Bool := l.desc.merge && !l.placedAny

/-- The position that R322 chooses, with the merge cluster of a first placement; the first slice is not placed when its
position leaves none. -/
def State.fitIn (s : State) (r : Room) (l : Launch) (need : Nat) : Option (List SiteId × Option SiteId) :=
  match (s.positions l.desc).find? fun p => s.takes r l need p with
  | none => none
  | some p => if l.needsMerge then (s.mergeFor r l p).map fun n => (p, some n) else some (p, none)

/-- Some placement could ever fit (R398, check 0x400). -/
def State.couldFit (s : State) (l : Launch) (need : Nat) : Bool :=
  let r := s.roomEver l
  (s.positions l.desc).any fun p => s.takes r l need p && (!l.needsMerge || (s.mergeFor r l p).isSome)

/-! ## Refusals at a placement (R398, R432) -/

/-- The cause of a launch's refusal at its first placement attempt, or the banks its images take on each cluster and its
compartment (DEDUCED, log 29). -/
def State.placementCheck (s : State) (l : Launch) : Except Nat (Nat × Nat) × State :=
  match s.readProgram l with
  | (none, t) => (.error 0x200, t)
  | (some g, t) =>
    let need := dirNeed g.dir
    (if l.desc.quota < need * l.desc.size then .error 0x300
     else if !s.couldFit l need then .error 0x400
     else
       match s.tableComp l.part g.table with
       | none => .error 0x500
       | some c => .ok (need, c), t)

/-- A launch that a check stops: refused as long as it has placed nothing, else ended early. -/
def State.failCheck (s : State) (l : Launch) (cause : Nat) : State :=
  if l.placedAny then s.stopLaunch l.id cause else s.refuseLaunch l cause

/-- R398's fourth check for one active launch: with what its first attempt found, or with what its program says now where it
has made none, and no earlier check stops it. -/
def State.recheckFit (s : State) (l : Launch) : State :=
  if l.tried then (if s.couldFit l l.need then s else s.failCheck l 0x400)
  else
    match s.readProgram l with
    | (none, t) => t
    | (some g, t) =>
      let need := dirNeed g.dir
      if l.desc.quota < need * l.desc.size || t.couldFit l need then t else t.failCheck l 0x400

/-- R398's fourth check made again by the master for every active launch with a slice to place, once a cluster or bank is lost
(R414, R427) (DEDUCED, log 29). -/
def State.recheckFits (s : State) : State :=
  if s.recheck then { (s.launches.filter Launch.unplaced).foldl State.recheckFit s with recheck := false } else s

/-! ## The choice (R321) -/

/-- A launch whose next slice can be placed now, and where. -/
structure Cand where
  launch : Launch
  sites  : List SiteId
  merge  : Option SiteId
  deriving DecidableEq, Repr

/-- The master may place work of the partition: its context runs, no pre-emption holds it, and no stack of its channels is
in self-refresh (R369). -/
def State.mayPlace (s : State) (p : Nat) : Bool :=
  let k := s.part p
  k.run = .running && k.ctx.isSome && !k.held && !s.stackSleeps p

/-- Eligible launches of an effective priority with an unplaced slice. -/
def State.wanting (s : State) (pr : Nat) : List Launch :=
  s.launches.filter fun l => l.prio = pr && l.eligible.isSome && l.unplaced

/-- The position found for a launch, if there is one: with the banks that its images took at its first attempt. -/
def State.seek (s : State) (l : Launch) : Option Cand :=
  (s.fitIn (s.roomNow l) l l.need).map fun r => { launch := l, sites := r.1, merge := r.2 }

/-- A placement attempt: the first makes the checks of R398 and R432, which come again only when a span is placed and loads
its table (R432); then a position, or none. -/
def State.attempt (s : State) (l : Launch) : State × Option Cand :=
  if some l.ctx ≠ (s.part l.part).ctx || !s.mayPlace l.part then (s, none)
  else if l.tried then (s, s.seek l)
  else
    match s.placementCheck l with
    | (.error cause, t) => (t.failCheck l cause, none)
    | (.ok (need, c), t) =>
      let l := { l with tried := true, compart := c, need := need }
      (t.updLaunch l.id fun _ => l, t.seek l)

/-- Every attempt of a priority. -/
def State.attempts (s : State) : List Launch → State × List Cand
  | [] => (s, [])
  | l :: ls =>
    let (t, c) := s.attempt l
    let (u, cs) := t.attempts ls
    (u, c.toList ++ cs)

/-- Credits of a partition at a priority (DEDUCED, log 29). -/
def State.credit (s : State) (p pr : Nat) : Int := (s.part p).credits.getD pr 0

/-- QUANTUM more for each partition, when none has credit left (DEDUCED, log 29). -/
def State.refill (s : State) (ps : List Nat) (pr : Nat) : State :=
  if ps.any fun p => 0 < s.credit p pr then s
  else ps.foldl (fun t p => t.updPart p fun k => { k with credits := k.credits.put pr (k.credits.getD pr 0 + k.quantum) }) s

/-- The candidate of the chosen partition that became eligible earliest. -/
def earliest (cs : List Cand) : Option Cand := minBy (fun c => c.launch.eligible.getD 0) cs

/-- The partition whose turn it is: the first with credit after the last one served. -/
def State.nextPart (s : State) (ps : List Nat) (pr : Nat) : Option Nat :=
  let last := s.lastPart.getD pr 127
  ((List.range 128).map fun i => (last + 1 + i) % 128).find? fun p => ps.contains p && 0 < s.credit p pr

/-- The lowest-numbered unplaced slice. -/
def Launch.nextSlice (l : Launch) : Nat := (minBy (fun n => n) l.back).getD l.next

/-- SEED of a core by its span-relative number (R174). -/
def seedOf (n : Nat) : W32 := BitVec.ofNat 32 ((n + 1) * 0x9E3779B9)

/-- The merge cluster of a first placement: its replica of the table, its cores as at slice start (R32, R400). -/
def State.startMerge (s : State) (n : SiteId) (t : Tab Nat (BitVec 128)) : State :=
  let s := s.updCluster n fun k => { k with handlers := t }
  n.cores.foldl (fun u c => u.updCore c fun k => u.rootOf c { k.fresh with seed := if c.core = 0 then seedOf 0 else k.seed }) s

/-- A slice placed (R321): its span, its launch, the credit it costs. -/
def State.place (s : State) (c : Cand) : State :=
  let l := c.launch
  let n := l.nextSlice
  let (id, s) := s.fresh
  let (g, s) := if c.merge.isSome then s.readProgram l else (none, s)
  let q : Span := { id := id, launch := l.id, part := l.part, ctx := l.ctx, slice := n, sites := c.sites, placed := s.cycle }
  let s := { s with spans := s.spans ++ [q], lastPart := s.lastPart.put l.prio l.part }
  let s := s.updPart l.part fun k => { k with credits := k.credits.put l.prio (k.credits.getD l.prio 0 - c.sites.length) }
  let s := s.updLaunch l.id fun l =>
    { l with next := if l.back.isEmpty then l.next + 1 else l.next, back := l.back.erase n, placedAny := true
             tstart := if l.placedAny then l.tstart else s.now, agedAt := s.now, merge := c.merge.orElse fun _ => l.merge }
  match c.merge with
  | some m => s.startMerge m ((g.map (·.table)).getD [])
  | none => s

/-! ### Urgent slices (R323, R435) -/

/-- Spans of the launch's context that may be pre-empted for it: of effective priority 3, then 2, the latest placed
first. -/
def State.victims (s : State) (l : Launch) : List Span :=
  let prio := fun (q : Span) => ((s.launch q.launch).map (·.prio)).getD 0
  let late := fun (qs : List Span) => (sortBy (fun q => q.placed * 2 ^ 32 + q.id) qs).reverse
  let qs := s.runningSpans l.part
  late (qs.filter fun q => prio q = 3) ++ late (qs.filter fun q => prio q = 2)

/-- Victims taken in order until the slice fits. -/
def State.takeVictims (s : State) (l : Launch) (need : Nat) : List Span → List Span → Option (List Span)
  | [], _ => none
  | q :: qs, took =>
    let took := took ++ [q]
    if (s.fitIn (s.roomAfter l (took.flatMap (·.sites))) l need).isSome then some took else s.takeVictims l need qs took

/-- An urgent slice that cannot be placed pre-empts what makes it fit; spans whose images would not fit are left out, and
where it cannot be placed without them nothing is pre-empted until a unit of the partition is freed. -/
def State.urgentSlice (s : State) (l : Launch) : State :=
  if some l.ctx ≠ (s.part l.part).ctx then s.askUrgent l
  else if !s.mayPlace l.part || (s.part l.part).pre.isSome || l.units || !l.tried then s
  else
    let need := l.need
    let vs := s.victims l
    let ok := vs.filter fun q => !s.shadowReady || s.fits q.sites [] false
    if (s.seek l).isSome then s
    else
      match s.takeVictims l need ok [] with
      | some qs => s.askPre l.part (.urgentSlice l.id l.nextSlice) (qs.map (·.id)) l.told
      | none =>
        if (s.takeVictims l need vs []).isSome then (if l.told then s else s.tellUnfit l.part).awaitUnits l.id
        else s

/-- Every urgent launch that still waits. -/
def State.urgentAll (s : State) : State := (s.wanting 0).foldl State.urgentSlice s

/-! ### Resuming saved spans of a running context (R321, R323, R369) -/

/-- A saved span whose urgent slice is out of the way and whose clusters are free and have power. -/
def State.resumable (s : State) (i : Image) : Bool :=
  s.ctxRuns i.part i.ctx && s.mayPlace i.part && !s.imageWaits i && s.canReturn i &&
    i.units.all fun e => (s.spanAt e.1).isNone && (s.mergeAt e.1).isNone

/-- The span goes on, or its context fails where an error stands in the image (R436) (DEDUCED, log 29). -/
def State.resume (s : State) (i : Image) : State := if i.bad then s.failCtx i.part i.ctx else s.restoreImage i

/-- One priority's choice: a placement, or nothing when no launch of it can be placed; a partition in debt beyond its QUANTUM
places nothing this time. -/
def State.choose (s : State) (pr : Nat) : State × Bool :=
  let (s, cs) := s.attempts (s.wanting pr)
  let s := if pr = 0 then s.urgentAll else s
  if cs.isEmpty then (s, false)
  else
    let ps := (cs.map (·.launch.part)).eraseDups
    let s := s.refill ps pr
    match s.nextPart ps pr with
    | none => (s, true)
    | some p =>
      match earliest (cs.filter (·.launch.part = p)) with
      | some c => (s.place c, true)
      | none => (s, true)

/-- The priorities in turn, until one has placed. -/
def State.chooseFrom (s : State) : List Nat → State
  | [] => s
  | pr :: prs =>
    let (t, done) := s.choose pr
    if done then t else t.chooseFrom prs

def State.placement (s : State) : State :=
  let s := State.recheckFits { s with lastPlace := s.cycle }
  match s.images.find? s.resumable with
  | some i => s.resume i
  | none => s.chooseFrom [0, 1, 2, 3]

/-- PLACEMENT: every 32 cycles. -/
def execPlacement : State → Host.Outcome State Fault Refusal := fun s =>
  eventReading (s.masterUp && s.lastPlace + 32 ≤ s.cycle) State.placement s

/-! ## The start of a span (R27, R39, R103, R421) -/

/-- One image berthed on a core from its own cluster's pool; where no bank is free the slot stays empty (DESIGN CHOICE,
log 38). -/
def State.berthImage (s : State) (c : CoreId) (e : DirEntry) (data : List Byte) (comp : Nat) : State :=
  match s.freeBank c.siteId with
  | none => s
  | some b => (s.berthBank c e.slot b comp true).bankWrite b 0 data

/-- The images of a cluster, in ascending slot and core. -/
def State.berthImages (s : State) (n : SiteId) (g : Program) (comp : Nat) : State :=
  (g.dir.zip g.images).foldl (fun t e =>
    (n.cores.filter fun c => e.1.mask / 2 ^ c.core % 2 = 1).foldl (fun t c => t.berthImage c e.1 e.2 comp) t) s

/-- A core at slice start. -/
def State.startCore (s : State) (c : CoreId) : State :=
  s.updCore c fun k => s.rootOf c { k.fresh with seed := seedOf (s.spanCoreNo c) }

/-- The span is not started: its slice stays unplaced and its launch ends early with the cause (R398, R432). -/
def State.notStarted (s : State) (q : Span) (cause : Nat) : State :=
  ({ s with spans := s.spans.filter (·.id ≠ q.id) }.updLaunch q.launch fun l => { l with back := l.back ++ [q.slice] }).stopLaunch
    q.launch cause

/-- Table, images, cores and start messages of a span. -/
def State.startSpan (s : State) (q : Span) (l : Launch) (g : Program) : State :=
  let cs := q.sites.flatMap (·.cores)
  let t := q.sites.foldl (fun t n => t.updCluster n fun k => { k with handlers := g.table }) s
  let t := cs.foldl (fun t c => t.startCore c) t
  let t := q.sites.foldl (fun t n => t.berthImages n g l.compart) t
  let k := l.restarts.getD q.slice 0
  let t := cs.foldl (fun t c => t.accept c (t.startMsg c l q.slice 0x05 (if k = 0 then 0 else 2) k)) t
  t.updSpan q.id fun q => { q with started := true }

/-- The pre-emption of a partition's running context keeps its spans from starting (DEDUCED, log 25). -/
def Part.stopsStart (k : Part) : Bool :=
  match k.pre with
  | some r =>
    (match r.why with
      | .urgentSlice .. => false
      | _ => r.stopped || r.tokens)
  | none => false

/-- SPAN_START. -/
def State.spanStart (s : State) (id : Nat) : State :=
  match s.span id with
  | none => s
  | some q =>
    match s.launch q.launch with
    | none => s
    | some l =>
      if q.started || q.saved || (s.part q.part).stopsStart || !s.powered then s
      else
        match s.readProgram l with
        | (none, t) => t.notStarted q 0x200
        | (some g, t) =>
          match t.tableComp l.part g.table with
          | none => t.notStarted q 0x500
          | some c => t.startSpan q { l with compart := c } g

def execSpanStart (span : Nat) : State → Host.Outcome State Fault Refusal := eventReading true (·.spanStart span)

/-! ## The completion of a slice (R30, R403) -/

/-- The pre-emption under way covers the span with a stop or a token. -/
def State.spanStopped (s : State) (q : Span) : Bool :=
  match (s.part q.part).pre with
  | none => false
  | some r => (r.stopped || r.tokens) && ((s.coveredSpans q.part r).map (·.id)).contains q.id

/-- A refusal that a core of the span still records. -/
def State.refusalsLeft (s : State) (cs : List CoreId) : Bool := cs.any fun c => (s.core c).refusals.count ≠ 0

/-- The slice is complete: messages left on counters are counted and discarded, the banks and the clusters are free. -/
def State.completeSlice (s : State) (q : Span) : State :=
  let cs := q.sites.flatMap (·.cores)
  let s := (cs.foldl (fun t c => t.sendAllHome c) s).endRegions q.sites
  let left := (cs.map fun c => (s.core c).inbox.length).sum
  let refused := s.refusalsLeft cs
  let t := (s.endBanks q.sites false).endCores q.sites
  let t := { t with spans := t.spans.filter (·.id ≠ q.id) }
  (t.updLaunch q.launch fun l =>
    { l with discard := l.discard + left, done := q.slice :: l.done, doneCnt := l.doneCnt + 1
             cause := if refused then l.cause.orElse fun _ => some 0x0B else l.cause }).finishLaunch q.launch

/-- SLICE_COMPLETE. -/
def State.sliceComplete (s : State) (id : Nat) : State :=
  match s.span id with
  | none => s
  | some q =>
    let cs := q.sites.flatMap (·.cores)
    if q.started && !q.saved && !s.spanStopped q && cs.all fun c => s.coreRests c && s.storesRest c && s.homeward c && s.active c then
      s.completeSlice q
    else s

def execSliceComplete (span : Nat) : State → Host.Outcome State Fault Refusal := event true (·.sliceComplete span)

/-! ## Merge messages (R32) -/

/-- Every merge message on its way has arrived, and every firing that the ones before started has ended (R32). -/
def State.mergeIdle (s : State) (n : SiteId) : Bool :=
  let c : CoreId := ⟨n.die, n.site, 0⟩
  let k := s.core c
  !k.ctxs.any (·.2.running) && k.ready.isEmpty && k.portq.isEmpty && !s.engine.any fun f => f.merged && f.dest = c

/-- A message as the merge engine delivers it: ENGINE set and the source fields zero (R41). -/
def Msg.fromMerge (m : Msg) : Msg := { m with h0 := setField m.h0 52 40 0 ||| 0x400000000 }

/-- One message goes to the merge core. -/
def State.sendMerge (s : State) (l : Launch) (n : SiteId) (i : Nat) (m : MergeMsg) : State :=
  let s := s.updLaunch l.id fun _ => { l with mergeMsgs := l.mergeMsgs.eraseIdx i }
  s.sendEngine { msg := m.msg.fromMerge, src := none, compart := m.comp, dest := ⟨n.die, n.site, 0⟩, merged := true }

/-- The merge engine of the merge cluster's die turns to the next message; a new slice begins once every firing of the
slices before has ended. With none left the launch may be complete. -/
def State.mergeDelivery (s : State) (id : Nat) : State :=
  match s.launch id with
  | none => s
  | some l =>
    match l.merge with
    | none => s.finishLaunch id
    | some n =>
      let l := if s.mergeIdle n then mergeSkip l l.done.length else l
      match l.nextMerge.bind fun i => l.mergeMsgs[i]?.map fun m => (i, m) with
      | some (i, m) => s.sendMerge l n i m
      | none => (s.updLaunch id fun _ => l).finishLaunch id

/-- MERGE_DELIVERY. -/
def execMergeDelivery (launch : Nat) (s : State) : Host.Outcome State Fault Refusal :=
  match s.launch launch with
  | none => .next s
  | some l =>
    let live := match l.merge with
      | some n => !s.mergeSaved l && s.active ⟨n.die, n.site, 0⟩
      | none => true
    event live (·.mergeDelivery launch) s

/-! ## A message held at the port of an idle core (R404) -/

/-- The slice of the core is discarded and not placed again; a merge core's launch ends the same way. -/
def State.stallDiscard (s : State) (c : CoreId) : State :=
  match s.spanAt c.siteId with
  | some q => (s.discardSpan q).stopLaunch q.launch 0x0E
  | none =>
    match s.mergeAt c.siteId with
    | some l => (s.updCore c fun k => { k with portq := [] }).stopLaunch l.id 0x0E
    | none => s

/-- PORT_STALL_DISCARD. -/
def execPortStallDiscard (c : CoreId) (s : State) : Host.Outcome State Fault Refusal :=
  event (s.active c && s.portStalled c) (·.stallDiscard c) s

/-! ## The election of a master (R415) -/

/-- The lowest-numbered healthy die becomes the master; it takes up from the mirror, which is the state itself, and writes
the records that the old one had not written. -/
def State.elect (s : State) : State :=
  let t : State := { s with master := s.lowestDie, election := none }
  t.launches.foldl (fun u l => u.finishLaunch l.id) t

/-- MASTER_ELECTION. -/
def execMasterElection (s : State) : Host.Outcome State Fault Refusal := event s.election.isSome State.elect s

end Sys2Proof.Machine
end

