-- ==== Sys2Proof/Machine/Fill.lean ====
section
/-! DEFINITION. What an L2 slice and a walker pool answer: write-backs (R236, R389), the requests of a miss served in their
order with their use counts (R238-R241, R270), the overflow queue (R407), the ends of walks (R234, R406). -/
namespace Sys2Proof.Machine

/-! ## Write-back of a dirty line (R236, R389) -/

/-- The partition that owns a line: the one that holds its channel. -/
def State.lineOwner (s : State) (line : Nat) : Option Nat :=
  (s.parts.find? fun e => e.2.defined && bitOf e.2.channels (line / 2 ^ 25)).map (·.1)

/-- A line whose write-back meets an uncorrectable error is lost, HBM keeps its older contents, and its partition fails. -/
def State.writebackFails (s : State) (line : Nat) : State :=
  let t := s.updDie (homeDie line) fun d => { d with l2 := d.l2.filter (·.line ≠ line) }
  match s.lineOwner line with
  | some p => t.failPart p
  | none => t

/-- L2_WRITEBACK (DESIGN CHOICE, log 9). -/
def execL2Writeback (line : Nat) (bad : Bool) (s : State) : Host.Outcome State Fault Refusal :=
  event (!(s.die (homeDie line)).fenced && ((s.l2Find line).map fun l => decide (l.dirty ≠ [])).getD false)
    (fun s => if bad then s.writebackFails line else s.writeBack line) s

/-- RED_MERGE: an update-only line leaves L1 and is merged at its home slice (R239), once its way there is open and no earlier
request for it waits (R241, R278). -/
def execRedMerge (line : Nat) (s : State) : Host.Outcome State Fault Refusal :=
  event (s.recallable line && s.lineFree line) (·.recall line) s

/-! ## The requests of a miss (R239-R241) -/

/-- The context of a core whose integer pipeline asks. -/
def Waiter.pipeline : Waiter → Option (CoreId × Nat)
  | .pipe c x => some (c, x)
  | _ => none

/-- A context's request ends: the load or atomic has its value or its fault. -/
def State.answerLine (s : State) (r : LineReq) (out : Wait) : State :=
  match r.who.pipeline with
  | some (c, x) => s.settle c x r.fid (.line r.id) out
  | none => s

/-- The core's L1 after a read request of one of its contexts: the line with the count the request carries, or, where another
request of the core has brought it already, one read more (R240). -/
def State.l1After (s : State) (c : CoreId) (r : LineReq) : State :=
  if ((s.core c).l1Find (r.pa / 64)).isSome then s.updCore c (·.l1Hit (r.pa / 64)) else s.fillL1 c (r.pa / 64) r.uc r.dead

/-- The answer of a slice to a core crosses to its die (R278). -/
def State.answered (s : State) (c : CoreId) (line : Nat) : State :=
  if c.die = homeDie line then s else s.crossing ((s.partOfSite c.siteId).getD 0) (homeDie line) c.die

/-- A load or atomic takes effect at the slice: its value, what an atomic leaves, the line in L1 for a load that may stand
there (R238, R240, R270); a word it reads in error gives a fault (R388). -/
def State.serveValue (s : State) (c : CoreId) (r : LineReq) (k : FKind) (point : Bool) : State :=
  match s.memError r.pa k.size with
  | some (code, info) => s.answerLine r (.failed code info r.ea)
  | none =>
    let old := leNat (s.memRead r.pa k.size)
    let t := match k.left old with
      | some new => (s.memWrite (s.ownerComp r.pa) r.pa (leBytes k.size new)).updCore c (·.l1Drop (r.pa / 64))
      | none => if point then s else s.l1After c r
    t.answerLine r (.value (k.value old))

/-- One request of a miss served: the first brings the line in with its count, each later read is one read of the line (R240).
A PFU's line goes to L1; who looks again is told nothing. -/
def State.serve (s : State) (first : Bool) (r : LineReq) : State :=
  let line := r.pa / 64
  match r.want, r.who with
  | .value k point, .pipe c _ =>
    let t := (s.serveValue c r k point).answered c line
    if first then t else t.l2Read line
  | .fill, .pipe c _ =>
    let t := (s.l1After c r).answered c line
    if first then t else t.l2Read line
  | _, _ => s

/-- The requests of a miss in their order; once a dead line has gone the rest ask for it again (R240, R241). -/
def State.serveAll (s : State) (m : Miss) (first : Bool) : List LineReq → State
  | [] => s
  | r :: rs =>
    if (s.l2Find m.line).isSome then (s.serve first r).serveAll m false rs
    else s.askMiss { m with reqs := r :: rs }

/-- The line of a miss enters its slice with the use count of its first request (R240). -/
def State.fillL2 (s : State) (m : Miss) : State :=
  match m.reqs with
  | r :: _ => s.updL2 m.line m.comp fun l => { l with uc := r.uc, dead := r.dead }
  | [] => s.updL2 m.line m.comp id

/-- A miss is served: its line enters the array where it is not there, update-only copies are recalled, its requests answered. -/
def State.serveMiss (s : State) (m : Miss) : State :=
  let first := (s.l2Find m.line).isNone
  let t := if first then s.fillL2 m else s
  (t.recall m.line).serveAll m first m.reqs

/-- A miss can be served: update-only copies can come, and every answer can cross (R239, R278). -/
def State.servable (s : State) (m : Miss) : Bool :=
  s.recallable m.line &&
    m.reqs.all fun r =>
      match r.want, r.who.core with
      | .look, _ | _, none => true
      | _, some c => c.die = homeDie m.line || s.routed ((s.partOfSite c.siteId).getD 0) (homeDie m.line) c.die

/-! ## Faults of those who wait (R406, R407) -/

/-- What a waiter gets where no line or translation comes: a fault of its pipeline, of its sequencer, or of the copy. -/
def State.tellWaiter (s : State) (fid : Option Nat) (f : Nat × Nat) : Waiter → State
  | .pipe c x => if fid.any (· ≠ (s.ctx c x).fid) then s else s.updCtx c x fun v => { v with walkFail := some f }
  | .seq c x => if fid.any (· ≠ (s.ctx c x).fid) then s else s.updCtx c x fun v => { v with seqFail := some f }
  | .copy c id => s.updCopy c id fun p => { p with fail := some f }
  | .pfu .. | .agent => s

/-- A request that is lost, or whose die is fenced, ends in a fault. -/
def State.failReq (s : State) (f : Nat × Nat) (r : LineReq) : State :=
  match r.want with
  | .value .. => s.answerLine r (.failed f.1 f.2 r.ea)
  | .look => s.tellWaiter none f r.who
  | .fill => s

/-- A request of the overflow queue that is read back with an error is lost: a read gives its waiters the fault, a
write-back fails its partition (R407). -/
def State.loseRequest (s : State) (m : Miss) : State :=
  if m.write then s.writebackFails m.line else m.reqs.foldl (fun t r => t.failReq (0x0D, 3) r) s

/-- Those who ask a die for lines when it is fenced (R414): loads and atomics on their way get the fault, who looks again
finds it. -/
def State.failPending (s : State) (die : Nat) : State :=
  let rs := ((s.die die).misses ++ (s.die die).overflow).flatMap (·.reqs)
  (rs.filter fun r => r.want ≠ .look).foldl (fun t r => t.failReq (0x0D, 2) r) s

/-! ## The overflow queue (R241, R407) -/

/-- A write that waited in the overflow queue merges into the slice array. -/
def State.mergeQueued (s : State) (line : Nat) : State :=
  (s.makeWay line).updDie (homeDie line) fun d =>
    { d with l2 := d.l2.map fun l => if l.line = line then { l with queued := false } else l }

/-- The oldest request of a rank's overflow queue leaves it: the place after the queue's last takes the next arrival that
waited at the router. -/
def State.leaveQueue (s : State) (d rank : Nat) (m : Miss) : State :=
  let t := s.updDie d fun k => { k with overflow := k.overflow.erase m, ovHead := k.ovHead.put rank (k.ovHead.getD rank 0 + 1) }
  if overflowDepth ≤ ((t.die d).overflowOf rank).length then t.enterPlace d rank (overflowDepth - 1) else t

/-- A request of the overflow queue that a slice can take back now: a write-back for which a way is free, a read whose line has an
entry or can have one. -/
def State.takesBack (s : State) (d : Nat) (m : Miss) : Bool :=
  if m.write then s.wayFree m.line else (s.die d).misses.any (·.line = m.line) || s.entryFree m.line

/-- A read comes back from the overflow queue to the miss table: to the entry of its line, or to one of its own. -/
def State.reenter (s : State) (d : Nat) (m : Miss) : State :=
  if (s.die d).misses.any (·.line = m.line) then
    s.updDie d fun k => { k with misses := k.misses.map fun e => if e.line = m.line then { e with reqs := e.reqs ++ m.reqs } else e }
  else
    let t := if (s.l2Find m.line).isSome then s else s.makeWay m.line
    t.updDie d fun k => { k with misses := k.misses ++ [m] }

/-- Requests of a rank's overflow queue fetched back in order until one cannot be taken; a lost request and a write-back take
no entry (R241, R407). -/
def State.fetchBack (s : State) (d rank : Nat) : Nat → State
  | 0 => s
  | n + 1 =>
    match ((s.die d).overflowOf rank).head? with
    | none => s
    | some m =>
      let w := overflowWord d rank ((s.die d).ovHead.getD rank 0)
      let lost := s.bad.contains w || s.bad.contains (w + 1)
      if !lost && !s.takesBack d m then s
      else
        let t := s.leaveQueue d rank m
        (if lost then t.loseRequest m else if m.write then t.mergeQueued m.line else t.reenter d m).fetchBack d rank n

/-- Both ranks that a slice may serve get their requests back, the given one first. -/
def State.fetchBackAll (s : State) (d rank : Nat) : State :=
  let others := (List.range 128).filter fun r => r ≠ rank && s.sameRank d r rank
  (rank :: others).foldl (fun t r => t.fetchBack d r ((t.die d).overflowOf r).length) s

/-- The oldest miss of a rank that can be served is, and its entry goes to the overflow queue's oldest request. -/
def State.missFill (s : State) (d rank : Nat) : State :=
  match (s.die d).misses.find? fun m => m.rank = rank && s.servable m with
  | none => s
  | some m => ((s.updDie d fun k => { k with misses := k.misses.erase m }).serveMiss m).fetchBackAll d rank

/-- L2_MISS_FILL. -/
def execL2MissFill (d rank : Nat) (s : State) : Host.Outcome State Fault Refusal :=
  event (!(s.die d).fenced) (·.missFill d rank) s

/-! ## Table walks (R234, R406) -/

/-- A walk ends: its translation is installed in the TLBs of its core, and a PFU that asked for it fills its line; or its fault
waits for who asked (R249, R397). -/
def State.walkEnds (s : State) (w : Walk) : State :=
  match walkBoth (s.viaOf w.core) (s.part w.part).s2root w.root w.part w.va s with
  | .ok e t =>
    let t := t.tlbInstall w.core e
    match w.who with
    | .pfu c ea uc dead sv comp => t.prefetchPage c e ea uc dead sv comp
    | _ => t
  | .error f t => t.tellWaiter (some w.fid) f w.who

/-- TABLE_WALK: one of the 512 walks under way ends (R234), once the lines of the tables have come to their slices (R241). -/
def execTableWalk (d i : Nat) (s : State) : Host.Outcome State Fault Refusal :=
  match (s.die d).walks[i]? with
  | none => .next s
  | some w =>
    eventReading (i < 512 && !(s.die d).fenced)
      (fun s => (s.updDie d fun k => { k with walks := k.walks.eraseIdx i }).walkEnds w) s

end Sys2Proof.Machine
end

