-- ==== Sys2Proof/Machine/Failures.lean ====
section
/-! DEFINITION. Failures of memory, links, dies and hardware (R10, R237, R370, R386-R389, R414-R416, R430, R436). -/
namespace Sys2Proof.Machine

/-! ## Peer ports (R336, R337, R430) -/

/-- The roster allows a peer's write or read: a valid entry names its module and partition with the permission (DEDUCED, log 31). -/
def Part.admits (k : Part) (modul rpart : Nat) (write : Bool) : Bool :=
  k.defined && k.roster.any fun r => r.v && (if write then r.w else r.rd) && r.modul = modul && r.rpart = rpart

/-- A port's accesses start on its die, over the partition's groups (R16, R278). -/
def peerVia (p port : Nat) : Via := some (p, peerDie port)

/-- The physical page that an incoming write or read may reach: stage 2 of the partition translates it to a page that allows
it and has no world (DEDUCED, log 31). -/
def State.peerPage (p port : Nat) (write : Bool) (ia : Nat) (s : State) : Option Nat × State :=
  if 2 ^ 51 ≤ ia then (none, s)
  else
    match walk2 (peerVia p port) (s.part p).s2root ia s with
    | .error _ t => (none, t)
    | .ok l t =>
      let pa := l.addr + ia % l.size
      (if (if write then l.w else l.rd) && reachable pa && (isHost pa || s.ownerEntry pa / 256 = 0) then some pa else none, t)

/-- The pieces of an incoming access, none where the partition's roster or a page refuses it. -/
def State.peerPieces (s : State) (port modul rpart p ia n : Nat) (write : Bool) : Option (List (Nat × Nat)) × State :=
  if (s.part p).admits modul rpart write then pagePieces (State.peerPage p port write) (n / 65536 + 2) ia n s else (none, s)

/-- A port's answer to a peer's write. -/
def State.peerAck (s : State) (port : Nat) (ok : Bool) : State := { s with outside := s.outside ++ [.peerAck port ok] }

/-- An incoming write is accepted and takes effect, or is refused and writes nothing; `data` makes its bytes from those that stand
there (DEDUCED, log 31). -/
def State.peerWrite (s : State) (port modul rpart p ia n : Nat) (data : List Byte → List Byte) : State :=
  match s.peerPieces port modul rpart p ia n true with
  | (none, t) => t.peerAck port false
  | (some l, t) =>
    match t.piecesWrite (peerVia p port) l (data (l.flatMap fun e => t.memRead e.1 e.2)) with
    | some u => u.peerAck port true
    | none => t.peerAck port false

/-- A peer's write of whole bytes. -/
def State.peerWriteIn (s : State) (port modul rpart p ia : Nat) (data : List Byte) : State :=
  s.peerWrite port modul rpart p ia data.length fun _ => data

/-- A peer's store of one nibble, a byte rewritten in one step (R246, R335, R336). -/
def State.peerNibbleIn (s : State) (port modul rpart p ia : Nat) (val : BitVec 4) (hi : Bool) : State :=
  s.peerWrite port modul rpart p ia 1 fun old => [nibbleInto (old.headD 0) hi val.toNat]

/-- An incoming read of a peer's copy: its bytes at their execution points, or a refusal (R336, R430) (DEDUCED, log 31). -/
def State.peerReadIn (s : State) (port modul rpart p ia n : Nat) : State :=
  let say := fun (t : State) (d : Option (List Byte)) => { t with outside := t.outside ++ [.peerData port d] }
  match s.peerPieces port modul rpart p ia n false with
  | (none, t) => say t none
  | (some l, t) => let (d, u) := t.piecesRead (peerVia p port) l; say u d

/-- PEER_INGRESS_WRITE; every earlier write of the port has taken effect, so a release mark releases what came before. -/
def execPeerIngressWrite (port peerModule peerPart part : Nat) (ia : Nat) (data : List Byte) (rel : Bool) (s : State) :
    Host.Outcome State Fault Refusal :=
  let _ := rel
  eventReading (s.powered && (s.port port).up) (·.peerWriteIn port peerModule peerPart part ia data) s

/-- Every access queued on a port is refused. -/
def Ack.refuse (a : Ack) (port : Nat) : Ack :=
  if a.peer = some port && a.queued.isSome then { a with refused := some 4, peer := none, queued := none } else a

/-- The report of a roster entry that names a port out of training (R410, R430). -/
def State.reportEntry (s : State) (port p i : Nat) (r : Roster) : State :=
  let n := (s.port port).reports
  (s.updPort port fun k => { k with reports := k.reports + 1 }).reportSpans p 0x0B 3 port 0 [port, i, r.modul + r.rpart * 2 ^ 16] n (peerDie port)

/-- The reports of one partition. -/
def State.reportRoster (s : State) (port p : Nat) : State :=
  let rs := (s.part p).roster
  ((List.range rs.length).zip rs).foldl (fun t e => if e.2.v && e.2.port = port then t.reportEntry port p e.1 e.2 else t) s

/-- The port has been out of training for 1 ms: it refuses what is queued and all that follows (DEDUCED, log 31). -/
def State.portFails (s : State) (port : Nat) : State :=
  let s := { s with acks := s.acks.map fun a => Ack.refuse a port }
  let t := s.updPort port fun k => { k with refuse := true }
  ((List.range 128).filter fun p => (t.part p).defined).foldl (fun t p => t.reportRoster port p) t

/-- PEER_LINK_DOWN: the link goes out of training, and 1 ms later the port fails (DEDUCED, log 31). -/
def execPeerLinkDown (port : Nat) (s : State) : Host.Outcome State Fault Refusal :=
  let k := s.port port
  if k.up then event s.powered (·.updPort port fun k => { k with up := false, down := some s.now }) s
  else event (!k.refuse && (k.down.getD s.now) + 1000000 ≤ s.now) (·.portFails port) s

/-- What was queued on a port is sent. -/
def State.sendQueued (s : State) (port : Nat) : State :=
  let mine := s.acks.filter fun a => a.peer = some port
  { s with
    outside := s.outside ++ mine.filterMap (·.queued)
    acks := s.acks.map fun a => if a.peer = some port then { a with queued := none } else a }

/-- LINK_TRAINING_RETURNS (DEDUCED, log 31). -/
def execLinkTrainingReturns (port : Nat) (s : State) : Host.Outcome State Fault Refusal :=
  event (!(s.port port).up)
    (fun s => (s.updPort port fun k => { k with up := true, down := none, refuse := false }).sendQueued port) s

/-! ## Counting and retiring (R386, R387) -/

/-- FAULT_WINDOW. -/
def execFaultWindow : State → Host.Outcome State Fault Refusal := fun s => event s.windowPassed State.restartCounts s

/-- A source is retired: the cluster takes no new span, the bank is disabled when next free, the group leaves at the next
window, the row's repair begins. -/
def State.retire (s : State) (src : ErrSource) : State :=
  match src with
  | .site n => s.updCluster n fun k => { k with retiring := true }
  | .bank b =>
    let t := s.updBank b fun k => { k with retire := true, st := if k.st = .free then .disabled else k.st }
    let t := if (s.bank b).st = .free then { t with recheck := true } else t
    match s.partOfSite b.siteId with
    | some p => t.signalPart p
    | none => t.signal 0 64
  | .group n g =>
    let t := s.updStrait n fun t => t.updLane g fun l => { l with retire := true }
    if (((s.strait n).lanes[g]?).bind (·.owner)).isSome then t else t.signal 0 64
  | .row st r => (s.updDie (st / 2) fun d => { d with repairs := d.repairs ++ [(st, r)] }).signal 0 64

/-- One error event counted for its source. -/
def State.countError (s : State) (src : ErrSource) : State :=
  let s := s.countsNow
  let n := s.lantern.counts.getD src 0 + 1
  let s := s.updLantern fun l => { l with counts := l.counts.put src n }
  if s.lantern.thresh < n && !s.lantern.retired.contains src then
    (s.updLantern fun l => { l with retired := src :: l.retired }).retire src
  else s

/-- An uncorrectable row keeps its contents and reports at every read until a write covers it; of a queue register, the words that
stand in it (R388); a saved image with one
fails its context when it is read back (R436) (DEDUCED, log 36). -/
def State.spoil (s : State) (w : BadWord) : State :=
  match w with
  | .mem w => { s with bad := w :: s.bad.filter (· ≠ w) }
  | .bank b w =>
    s.updBank b fun k => { k with bad := w :: k.bad.filter (· ≠ w) }
  | .reg c x (.q n) => s.updCtx c x fun v => { v with qbad := v.qbad.put n (v.queue n).length }
  | .reg c x r => s.updCtx c x fun v => { v with bad := r :: v.bad.filter (· ≠ r) }
  | .coreRow c r => s.updCore c fun k => { k with bad := r :: k.bad.filter (· ≠ r) }
  | .slot c n => s.updCore c fun k =>
    { k with inbox := k.inbox.map fun e => if e.1 = n then (e.1, { e.2 with bad := true }) else e }
  | .l1 c w => s.updCore c fun k =>
    { k with l1 := k.l1.map fun l => if l.line = w / 8 then { l with bad := w % 8 :: l.bad.filter (· ≠ w % 8) } else l }
  | .icache n pa => s.updCluster n fun k => { k with icache := k.icache.map fun l => if l.pa = pa / 64 * 64 then { l with bad := true } else l }
  | .shadow n j =>
    match (s.images.filter fun i => (i.units.find n).isSome)[j]? with
    | some i => { s with images := s.images.map fun k => if k = i then { k with bad := true } else k }
    | none => s

/-- ERROR_EVENT. -/
def execErrorEvent (src : ErrSource) (bad : Option BadWord) (s : State) : Host.Outcome State Fault Refusal :=
  event s.powered
    (fun s =>
      let t := match bad with
        | some w => s.spoil w
        | none => s
      t.countError src) s

/-! ## Fenced dies (R414, R416, R436) -/

/-- The launch takes STATUS 3 when it ends. -/
def State.loseLaunch (s : State) (id : Nat) : State := s.updLaunch id fun l => { l with lost := true }

/-- A slice of a span on the fenced die is lost (R416) (DEDUCED, log 32). -/
def State.loseSpan (s : State) (q : Span) : State :=
  let t := s.dropSpan q
  match t.launch q.launch with
  | none => t
  | some l => if l.desc.reissue then t.unplace q else (t.loseLaunch l.id).finishLaunch l.id

/-- A merge cluster on the fenced die is lost with its undelivered messages. -/
def State.loseMerge (s : State) (l : Launch) : State :=
  ((s.dropMerge l).updLaunch l.id fun l => { l with lost := true, mergeMsgs := [] }).finishLaunch l.id

/-- Contexts with a saved image on the die: launches without REISSUE fail, slices of the others are lost (DEDUCED, log 32). -/
def State.loseImages (s : State) (die : Nat) : State :=
  let on := fun (i : Image) => i.units.any fun e => e.1.die = die
  let hit := s.images.filter on
  let ls := s.launches.filter fun l => !l.desc.reissue && hit.any fun i => i.part = l.part && i.ctx = l.ctx
  let t := s.failLaunches ls 0x0D
  let t := ((List.range 128).filter fun p => hit.any (·.part = p)).foldl (fun t p => t.signalPart p) t
  (t.spans.filter fun q => q.saved && q.sites.any fun n => n.die = die).foldl State.loseSpan t

/-- Lantern fences a die (DEDUCED, log 32). -/
def State.fence (s : State) (die : Nat) : State :=
  let own := (List.range 128).filter fun p => (s.part p).defined && ((s.part p).holdsStack (2 * die) || (s.part p).holdsStack (2 * die + 1))
  let s := s.failPending die
  let s := if s.master = some die then { s with master := none, election := some s.now } else s
  let s := s.updDie die fun d =>
    { d with fenced := true, l2 := [], misses := [], overflow := [], walks := [], tlb := [] }
  let s := own.foldl State.failPart s
  let s := s.loseImages die
  let s := (s.spans.filter fun q => !q.saved && q.sites.any fun n => n.die = die).foldl State.loseSpan s
  let s := (s.launches.filter fun l => (l.merge.map fun n => decide (n.die = die)).getD false).foldl State.loseMerge s
  let wipe := fun (e : CoreId × Core) => if e.1.die = die then (e.1, { fatals := e.2.fatals }) else e
  let s : State := { s with cores := s.cores.map wipe }
  { s with recheck := true }.signalAll

/-- DIE_FENCE. -/
def execDieFence (die : Nat) (s : State) : Host.Outcome State Fault Refusal :=
  event (s.powered && !(s.die die).fenced) (·.fence die) s

/-- HEARTBEAT: the fourth that is missed fences the die (R415) (DEDUCED, log 32). -/
def execHeartbeat (die : Nat) (arrived : Bool) (s : State) : Host.Outcome State Fault Refusal :=
  event (s.powered && s.lantern.started && !(s.die die).fenced)
    (fun s =>
      if arrived then s.updDie die fun d => { d with hbMissed := 0 }
      else
        let t := s.updDie die fun d => { d with hbMissed := d.hbMissed + 1 }
        if 4 ≤ (t.die die).hbMissed then t.fence die else t) s

/-! ## Retirement of a cluster (R10, R237, R387) -/

/-- A rank goes to another site's slice at one moment: the old slice has written back its dirty lines (R237). -/
def State.moveRank (s : State) (d r new : Nat) : State :=
  let lines := ((s.die d).l2.map (·.line)).filter fun l => homeRank l = r
  (lines.foldl State.evict s).updDie d fun k => { k with slicemap := k.slicemap.put r new }

/-- The ranks that a site's slice serves. -/
def State.ranksOf (s : State) (d n : Nat) : List Nat := (List.range 128).filter fun r => s.sliceOf d r = n

/-- Every rank of a site goes to another site. -/
def State.moveRanks (s : State) (d old new : Nat) : State := (s.ranksOf d old).foldl (fun t r => t.moveRank d r new) s

/-- The enabled site of lowest number that serves one rank only. -/
def State.oneRank (s : State) (d : Nat) : Option Nat :=
  ((s.enabledSites d).map (·.site)).find? fun n => (s.ranksOf d n).length = 1

/-- Each rank of a disabled site goes to the enabled site of lowest number that serves one rank only (R237). -/
def State.spreadRanks (s : State) (d old : Nat) : State :=
  (s.ranksOf d old).foldl (fun t r => t.moveRank d r ((t.oneRank d).getD 0)) s

/-- The spare that takes a retired cluster's place; the spec names none of several, the lowest is taken (DESIGN CHOICE, log 19). -/
def State.spareOn (s : State) (d : Nat) : Option SiteId := (allSites d).find? fun n => s.siteSt n = .spare

/-- The logical number of a site goes to another site (DEDUCED, log 32). -/
def State.renumber (s : State) (a b : SiteId) : State :=
  { s with parts := s.parts.map fun e => (e.1, { e.2 with clusters := e.2.clusters.map fun n => if n = a then b else n }) }

/-- A site's state written. -/
def State.setSite (s : State) (n : SiteId) (v : SiteSt) : State := { s with sites := s.sites.put n v }

/-- Vector 64 of the physical function, and of the partition that lost a cluster. -/
def State.signalLoss (s : State) (p : Option Nat) : State :=
  match p with
  | some p => s.signalPart p
  | none => s.signal 0 64

/-- A cluster is retired to a spare, disabled where none is left, or its die is fenced (DEDUCED, log 32). -/
def State.retireCluster (s : State) (n : SiteId) : State :=
  let p := s.partOfSite n
  let s := s.updCluster n fun k => { k with retiring := false }
  let s := { s with recheck := true }
  match s.spareOn n.die with
  | some m => ((((s.setSite n .disabled).setSite m .enabled).renumber n m).moveRanks n.die n.site m.site).signalLoss p
  | none =>
    if (s.enabledSites n.die).length < 65 then (s.fence n.die).signalLoss p
    else
      ((s.setSite n .disabled).spreadRanks n.die n.site).signalLoss p

/-- CLUSTER_RETIREMENT: once no span holds it, nor a merge cluster. -/
def execClusterRetirement (n : SiteId) (s : State) : Host.Outcome State Fault Refusal :=
  event ((s.cluster n).retiring && s.enabled n && !s.spans.any (fun q => q.sites.contains n) &&
      !s.launches.any fun l => l.merge = some n) (·.retireCluster n) s

/-! ## Temperature and repair (R370, R387) -/

/-- A stack above 85 °C is hot until it falls below 80 °C. -/
def hotAfter (hot : Bool) (t : Nat) : Bool := if 85 < t then true else if t < 80 then false else hot

/-- TEMPERATURE_CHANGE. -/
def execTemperatureChange (die : Nat) (temp : BitVec 8) (stack0 stack1 : Nat) (s : State) : Host.Outcome State Fault Refusal :=
  event s.powered
    (·.updDie die fun d => { d with temp := temp, hot0 := hotAfter d.hot0 stack0, hot1 := hotAfter d.hot1 stack1 }) s

/-- POST_PACKAGE_REPAIR_DONE (DEDUCED, log 32). -/
def execPostPackageRepairDone (stack row : Nat) (s : State) : Host.Outcome State Fault Refusal :=
  event ((s.die (stack / 2)).repairs.contains (stack, row))
    (·.updDie (stack / 2) fun d => { d with repairs := d.repairs.filter (· ≠ (stack, row)) }) s

end Sys2Proof.Machine
end

