-- ==== Sys2Proof/Machine/Scalar.lean ====
section
/-! DEFINITION. Integer arithmetic, logic, compares, moves, immediates, bit fields and addresses (R116-R124). -/
namespace Sys2Proof.Machine

/-! ## Values -/

/-- High half of the signed product (R116). -/
def mulhS (a b : W64) : W64 := BitVec.ofInt 64 (a.toInt * b.toInt / 2 ^ 64)
/-- High half of the unsigned product (R116). -/
def mulhU (a b : W64) : W64 := w64 (a.toNat * b.toNat / 2 ^ 64)

/-- Signed quotient truncated toward zero, with the results of R117 for b = 0 (DZ 0) and for overflow. -/
def divS (a b : W64) : W64 := if b = 0 then BitVec.allOnes 64 else BitVec.ofInt 64 (a.toInt.tdiv b.toInt)
/-- Unsigned quotient (R116, R117). -/
def divU (a b : W64) : W64 := if b = 0 then BitVec.allOnes 64 else w64 (a.toNat / b.toNat)
/-- Signed remainder, its sign that of a (R116, R117). -/
def remS (a b : W64) : W64 := if b = 0 then a else BitVec.ofInt 64 (a.toInt.tmod b.toInt)
/-- Unsigned remainder (R116, R117). -/
def remU (a b : W64) : W64 := if b = 0 then a else w64 (a.toNat % b.toNat)

/-- A condition as 0 or 1. -/
def boolW (c : Bool) : W64 := if c then 1 else 0

/-- Shift amount b[5:0] (R118). -/
def shamt (b : W64) : Nat := b.toNat % 64

/-- Leading zero bits; 64 for 0 (R118). -/
def clzW (a : W64) : W64 := w64 (if a = 0 then 64 else 63 - a.toNat.log2)
/-- Trailing zero bits; 64 for 0 (R118). -/
def ctzW (a : W64) : W64 := w64 ((List.range 64).find? (a.getLsbD ·) |>.getD 64)
/-- One bits (R118). -/
def popcW (a : W64) : W64 := w64 ((List.range 64).countP (a.getLsbD ·))

/-- Bits pos + len - 1 down to pos (R122). -/
def bfxW (a : W64) (f : BitField) (sx : Bool) : W64 :=
  let len := f.lenm.val + 1
  let v := field a (f.pos.val + f.lenm.val) f.pos.val
  if sx then BitVec.ofInt 64 (sext len v) else w64 v

/-- d with bits pos + len - 1 down to pos replaced by the low bits of a (R122). -/
def bfiW (d a : W64) (f : BitField) : W64 := setField d (f.pos.val + f.lenm.val) f.pos.val a.toNat

/-- The scaled address (R123). -/
def leaW (a b : W64) (loc : Bool) (sh : Nat) : W64 :=
  let t := b <<< sh
  if loc then setField a 15 0 (a + t).toNat else a + t

/-- A fabric address from its parts (R124). -/
def fabricAddr (window cl co slot off : Nat) : W64 :=
  w64 (2 ^ 63 + window % 16 * 2 ^ 59 + cl % 2048 * 2 ^ 48 + co % 4 * 2 ^ 46 + slot % 8 * 2 ^ 16 + off % 65536)

/-! ## Arithmetic (R116, R117) -/

/-- Division with the DZ bit of STATUS: a zero divisor traps, cause 0x09, when it is set (R117). -/
def opDiv (d a b : SReg) (f : W64 → W64 → W64) : Exec Unit := do
  directions [a, b] [d]
  let dz := (← get).me.dz
  let va ← readS a
  let vb ← readS b
  check (!(dz && vb = 0)) 0x09
  finish d (f va vb)

def execAdd (d a b : SReg) : State → Host.Outcome State Fault Refusal := issue (op2 d a b (· + ·))
def execSub (d a b : SReg) : State → Host.Outcome State Fault Refusal := issue (op2 d a b (· - ·))
def execMul (d a b : SReg) : State → Host.Outcome State Fault Refusal := issue (op2 d a b (· * ·))
def execMulh (d a b : SReg) : State → Host.Outcome State Fault Refusal := issue (op2 d a b mulhS)
def execMulhn (d a b : SReg) : State → Host.Outcome State Fault Refusal := issue (op2 d a b mulhU)
def execDiv (d a b : SReg) : State → Host.Outcome State Fault Refusal := issue (opDiv d a b divS)
def execDivn (d a b : SReg) : State → Host.Outcome State Fault Refusal := issue (opDiv d a b divU)
def execRem (d a b : SReg) : State → Host.Outcome State Fault Refusal := issue (opDiv d a b remS)
def execRemn (d a b : SReg) : State → Host.Outcome State Fault Refusal := issue (opDiv d a b remU)
def execMin (d a b : SReg) : State → Host.Outcome State Fault Refusal :=
  issue (op2 d a b fun x y => if x.slt y then x else y)
def execMax (d a b : SReg) : State → Host.Outcome State Fault Refusal :=
  issue (op2 d a b fun x y => if x.slt y then y else x)
def execMinn (d a b : SReg) : State → Host.Outcome State Fault Refusal :=
  issue (op2 d a b fun x y => if x.ult y then x else y)
def execMaxn (d a b : SReg) : State → Host.Outcome State Fault Refusal :=
  issue (op2 d a b fun x y => if x.ult y then y else x)

/-! ## Logic and shifts (R118) -/

def execAnd (d a b : SReg) : State → Host.Outcome State Fault Refusal := issue (op2 d a b (· &&& ·))
def execOr (d a b : SReg) : State → Host.Outcome State Fault Refusal := issue (op2 d a b (· ||| ·))
def execXor (d a b : SReg) : State → Host.Outcome State Fault Refusal := issue (op2 d a b (· ^^^ ·))
def execAndn (d a b : SReg) : State → Host.Outcome State Fault Refusal := issue (op2 d a b fun x y => x &&& ~~~y)
def execShl (d a b : SReg) : State → Host.Outcome State Fault Refusal := issue (op2 d a b fun x y => x <<< shamt y)
def execShr (d a b : SReg) : State → Host.Outcome State Fault Refusal := issue (op2 d a b fun x y => x >>> shamt y)
def execSra (d a b : SReg) : State → Host.Outcome State Fault Refusal :=
  issue (op2 d a b fun x y => x.sshiftRight (shamt y))
def execRot (d a b : SReg) : State → Host.Outcome State Fault Refusal :=
  issue (op2 d a b fun x y => x.rotateRight (shamt y))
def execClz (d a : SReg) : State → Host.Outcome State Fault Refusal := issue (op1 d a clzW)
def execCtz (d a : SReg) : State → Host.Outcome State Fault Refusal := issue (op1 d a ctzW)
def execPopc (d a : SReg) : State → Host.Outcome State Fault Refusal := issue (op1 d a popcW)

/-! ## Compare, select, move (R119) -/

def execSlt (d a b : SReg) : State → Host.Outcome State Fault Refusal := issue (op2 d a b fun x y => boolW (x.slt y))
def execSltn (d a b : SReg) : State → Host.Outcome State Fault Refusal := issue (op2 d a b fun x y => boolW (x.ult y))
def execSeq (d a b : SReg) : State → Host.Outcome State Fault Refusal := issue (op2 d a b fun x y => boolW (x = y))

/-- SEL reads a, b and c whichever it selects (R119). -/
def opSel (d a b c : SReg) : Exec Unit := do
  directions [a, b, c] [d]
  let va ← readS a
  let vb ← readS b
  let vc ← readS c
  finish d (if vc ≠ 0 then va else vb)

def execSel (d a b c : SReg) : State → Host.Outcome State Fault Refusal := issue (opSel d a b c)
def execMov (d a : SReg) : State → Host.Outcome State Fault Refusal := issue (op1 d a id)

/-! ## Immediates (R120, R121) -/

def execAddi (d a : SReg) (imm : BitVec 14) : State → Host.Outcome State Fault Refusal :=
  issue (op1 d a (· + imm.signExtend 64))
def execAndi (d a : SReg) (imm : BitVec 14) : State → Host.Outcome State Fault Refusal :=
  issue (op1 d a (· &&& imm.zeroExtend 64))
def execOri (d a : SReg) (imm : BitVec 14) : State → Host.Outcome State Fault Refusal :=
  issue (op1 d a (· ||| imm.zeroExtend 64))
def execXori (d a : SReg) (imm : BitVec 14) : State → Host.Outcome State Fault Refusal :=
  issue (op1 d a (· ^^^ imm.zeroExtend 64))
def execShli (d a : SReg) (sh : Fin 64) : State → Host.Outcome State Fault Refusal := issue (op1 d a (· <<< sh.val))
def execShri (d a : SReg) (sh : Fin 64) : State → Host.Outcome State Fault Refusal := issue (op1 d a (· >>> sh.val))
def execSrai (d a : SReg) (sh : Fin 64) : State → Host.Outcome State Fault Refusal :=
  issue (op1 d a (·.sshiftRight sh.val))

/-- LI (R121). -/
def opLi (d : SReg) (imm : BitVec 58) : Exec Unit := do
  directions [] [d]
  finish d (imm.signExtend 64)

def execLi (d : SReg) (imm : BitVec 58) : State → Host.Outcome State Fault Refusal := issue (opLi d imm)

/-- LIH keeps the low half of d (R121). -/
def execLih (d : SReg) (imm : BitVec 32) : State → Host.Outcome State Fault Refusal :=
  issue (op1 d d fun v => setField v 63 32 imm.toNat)

/-! ## Bit fields and addresses (R122-R124) -/

def execBfx (d a : SReg) (f : BitField) (sx : Bool) : State → Host.Outcome State Fault Refusal :=
  issue (op1 d a (bfxW · f sx))

/-- BFI reads d as well (R122). -/
def opBfi (d a : SReg) (f : BitField) : Exec Unit := do
  directions [a] [d]
  let va ← readS a
  let vd ← readS d
  finish d (bfiW vd va f)

def execBfi (d a : SReg) (f : BitField) : State → Host.Outcome State Fault Refusal := issue (opBfi d a f)

def execLea (d a b : SReg) (loc : Bool) (sh : Fin 8) : State → Host.Outcome State Fault Refusal :=
  issue (op2 d a b fun x y => leaW x y loc sh.val)

/-- FABA (R124): a and b are read unless OWNC, OWNK stand in their place. -/
def opFaba (d a b c : SReg) (f : FabaFlags) : Exec Unit := do
  directions [a, b, c] [d]
  let va ← if f.ownc then pure 0 else readS a
  let vb ← if f.ownk then pure 0 else readS b
  let l ← readS c
  let s ← get
  let site := s.cur.siteId
  let cl :=
    if f.ownc then s.logical site
    else if f.srel then
      match (s.spanSites site)[va.toNat]? with
      | some t => s.logical t
      | none => 0x7FF
    else field va 10 0
  let co := if f.ownk then s.cur.core else field vb 1 0
  finish d (fabricAddr (field l 31 28) cl co (field l 18 16) (field l 15 0))

def execFaba (d a b c : SReg) (f : FabaFlags) : State → Host.Outcome State Fault Refusal := issue (opFaba d a b c f)

end Sys2Proof.Machine
end

