-- ==== Sys2Proof/Machine/Dispatch.lean ====
section
/-! DEFINITION. One arm for every constructor of Instr: a direct call of its meaning. -/
namespace Sys2Proof.Machine

def exec (i : Instr) (s : State) : Host.Outcome State Fault Refusal :=
  match i with
  | .beq a b t => Sys2Proof.Machine.execBeq a b t s
  | .bne a b t => Sys2Proof.Machine.execBne a b t s
  | .blt a b t => Sys2Proof.Machine.execBlt a b t s
  | .bge a b t => Sys2Proof.Machine.execBge a b t s
  | .bltn a b t => Sys2Proof.Machine.execBltn a b t s
  | .bgen a b t => Sys2Proof.Machine.execBgen a b t s
  | .bz a t => Sys2Proof.Machine.execBz a t s
  | .bnz a t => Sys2Proof.Machine.execBnz a t s
  | .j t => Sys2Proof.Machine.execJ t s
  | .jal d t => Sys2Proof.Machine.execJal d t s
  | .jr d => Sys2Proof.Machine.execJr d s
  | .jalr d a => Sys2Proof.Machine.execJalr d a s
  | .loop a t => Sys2Proof.Machine.execLoop a t s
  | .end_ => Sys2Proof.Machine.execEnd s
  | .gang log => Sys2Proof.Machine.execGang log s
  | .ungang => Sys2Proof.Machine.execUngang s
  | .align => Sys2Proof.Machine.execAlign s
  | .sbar d idx => Sys2Proof.Machine.execSbar d idx s
  | .add d a b => Sys2Proof.Machine.execAdd d a b s
  | .sub d a b => Sys2Proof.Machine.execSub d a b s
  | .mul d a b => Sys2Proof.Machine.execMul d a b s
  | .mulh d a b => Sys2Proof.Machine.execMulh d a b s
  | .mulhn d a b => Sys2Proof.Machine.execMulhn d a b s
  | .div d a b => Sys2Proof.Machine.execDiv d a b s
  | .divn d a b => Sys2Proof.Machine.execDivn d a b s
  | .rem d a b => Sys2Proof.Machine.execRem d a b s
  | .remn d a b => Sys2Proof.Machine.execRemn d a b s
  | .min d a b => Sys2Proof.Machine.execMin d a b s
  | .max d a b => Sys2Proof.Machine.execMax d a b s
  | .minn d a b => Sys2Proof.Machine.execMinn d a b s
  | .maxn d a b => Sys2Proof.Machine.execMaxn d a b s
  | .and d a b => Sys2Proof.Machine.execAnd d a b s
  | .or d a b => Sys2Proof.Machine.execOr d a b s
  | .xor d a b => Sys2Proof.Machine.execXor d a b s
  | .andn d a b => Sys2Proof.Machine.execAndn d a b s
  | .shl d a b => Sys2Proof.Machine.execShl d a b s
  | .shr d a b => Sys2Proof.Machine.execShr d a b s
  | .sra d a b => Sys2Proof.Machine.execSra d a b s
  | .rot d a b => Sys2Proof.Machine.execRot d a b s
  | .clz d a => Sys2Proof.Machine.execClz d a s
  | .ctz d a => Sys2Proof.Machine.execCtz d a s
  | .popc d a => Sys2Proof.Machine.execPopc d a s
  | .slt d a b => Sys2Proof.Machine.execSlt d a b s
  | .sltn d a b => Sys2Proof.Machine.execSltn d a b s
  | .seq d a b => Sys2Proof.Machine.execSeq d a b s
  | .sel d a b c => Sys2Proof.Machine.execSel d a b c s
  | .mov d a => Sys2Proof.Machine.execMov d a s
  | .addi d a imm => Sys2Proof.Machine.execAddi d a imm s
  | .andi d a imm => Sys2Proof.Machine.execAndi d a imm s
  | .ori d a imm => Sys2Proof.Machine.execOri d a imm s
  | .xori d a imm => Sys2Proof.Machine.execXori d a imm s
  | .shli d a sh => Sys2Proof.Machine.execShli d a sh s
  | .shri d a sh => Sys2Proof.Machine.execShri d a sh s
  | .srai d a sh => Sys2Proof.Machine.execSrai d a sh s
  | .li d imm => Sys2Proof.Machine.execLi d imm s
  | .lih d imm => Sys2Proof.Machine.execLih d imm s
  | .bfx d a f sx => Sys2Proof.Machine.execBfx d a f sx s
  | .bfi d a f => Sys2Proof.Machine.execBfi d a f s
  | .lea d a b loc sh => Sys2Proof.Machine.execLea d a b loc sh s
  | .faba d a b c f => Sys2Proof.Machine.execFaba d a b c f s
  | .ldb d a imm => Sys2Proof.Machine.execLdb d a imm s
  | .ldbn d a imm => Sys2Proof.Machine.execLdbn d a imm s
  | .ldh d a imm => Sys2Proof.Machine.execLdh d a imm s
  | .ldhn d a imm => Sys2Proof.Machine.execLdhn d a imm s
  | .ldw d a imm => Sys2Proof.Machine.execLdw d a imm s
  | .ldwn d a imm => Sys2Proof.Machine.execLdwn d a imm s
  | .ldd d a imm => Sys2Proof.Machine.execLdd d a imm s
  | .ldacq d a imm => Sys2Proof.Machine.execLdacq d a imm s
  | .pfu a imm => Sys2Proof.Machine.execPfu a imm s
  | .stb d a disp => Sys2Proof.Machine.execStb d a disp s
  | .sth d a disp => Sys2Proof.Machine.execSth d a disp s
  | .stw d a disp => Sys2Proof.Machine.execStw d a disp s
  | .std d a disp => Sys2Proof.Machine.execStd d a disp s
  | .strel d a imm => Sys2Proof.Machine.execStrel d a imm s
  | .stnb d a disp hi => Sys2Proof.Machine.execStnb d a disp hi s
  | .cas d a b c f => Sys2Proof.Machine.execCas d a b c f s
  | .swap d a b f => Sys2Proof.Machine.execSwap d a b f s
  | .fadd d a b f => Sys2Proof.Machine.execFadd d a b f s
  | .fand d a b f => Sys2Proof.Machine.execFand d a b f s
  | .for_ d a b f => Sys2Proof.Machine.execFor d a b f s
  | .fxor d a b f => Sys2Proof.Machine.execFxor d a b f s
  | .fmin d a b u f => Sys2Proof.Machine.execFmin d a b u f s
  | .fmax d a b u f => Sys2Proof.Machine.execFmax d a b u f s
  | .red a b op w64 => Sys2Proof.Machine.execRed a b op w64 s
  | .fence kind scope => Sys2Proof.Machine.execFence kind scope s
  | .sfence => Sys2Proof.Machine.execSfence s
  | .ifence => Sys2Proof.Machine.execIfence s
  | .send d a b c f => Sys2Proof.Machine.execSend d a b c f s
  | .sendt d a b c f => Sys2Proof.Machine.execSendt d a b c f s
  | .inb d a w => Sys2Proof.Machine.execInb d a w s
  | .cset d a b ctr => Sys2Proof.Machine.execCset d a b ctr s
  | .cadd d a ctr => Sys2Proof.Machine.execCadd d a ctr s
  | .crd d ctr => Sys2Proof.Machine.execCrd d ctr s
  | .vadd d a b m p r => Sys2Proof.Machine.execVadd d a b m p r s
  | .vsub d a b m p r => Sys2Proof.Machine.execVsub d a b m p r s
  | .vmul d a b m p r => Sys2Proof.Machine.execVmul d a b m p r s
  | .vfma d a b c m p r => Sys2Proof.Machine.execVfma d a b c m p r s
  | .vfms d a b c m p r => Sys2Proof.Machine.execVfms d a b c m p r s
  | .vfnma d a b c m p r => Sys2Proof.Machine.execVfnma d a b c m p r s
  | .vmin d a b m p => Sys2Proof.Machine.execVmin d a b m p s
  | .vmax d a b m p => Sys2Proof.Machine.execVmax d a b m p s
  | .vabs d a m p => Sys2Proof.Machine.execVabs d a m p s
  | .vneg d a m p => Sys2Proof.Machine.execVneg d a m p s
  | .vdiv d a b m p r => Sys2Proof.Machine.execVdiv d a b m p r s
  | .viadd d a b m p t => Sys2Proof.Machine.execViadd d a b m p t s
  | .visub d a b m p t => Sys2Proof.Machine.execVisub d a b m p t s
  | .vimul d a b m p t => Sys2Proof.Machine.execVimul d a b m p t s
  | .vimulh d a b m p u => Sys2Proof.Machine.execVimulh d a b m p u s
  | .vimin d a b m p u => Sys2Proof.Machine.execVimin d a b m p u s
  | .vimax d a b m p u => Sys2Proof.Machine.execVimax d a b m p u s
  | .visat d a m p w => Sys2Proof.Machine.execVisat d a m p w s
  | .vand d a b m p => Sys2Proof.Machine.execVand d a b m p s
  | .vor d a b m p => Sys2Proof.Machine.execVor d a b m p s
  | .vxor d a b m p => Sys2Proof.Machine.execVxor d a b m p s
  | .vshl d a b m p => Sys2Proof.Machine.execVshl d a b m p s
  | .vshr d a b m p => Sys2Proof.Machine.execVshr d a b m p s
  | .vsra d a b m p => Sys2Proof.Machine.execVsra d a b m p s
  | .vcmp d a b m p cc ty => Sys2Proof.Machine.execVcmp d a b m p cc ty s
  | .vsel d a b m p => Sys2Proof.Machine.execVsel d a b m p s
  | .vmov d a m p => Sys2Proof.Machine.execVmov d a m p s
  | .vbcast d a p => Sys2Proof.Machine.execVbcast d a p s
  | .viota d a step p => Sys2Proof.Machine.execViota d a step p s
  | .vext d a b m sx => Sys2Proof.Machine.execVext d a b m sx s
  | .vxl d a b c m p => Sys2Proof.Machine.execVxl d a b c m p s
  | .vperm d a b c m p => Sys2Proof.Machine.execVperm d a b c m p s
  | .vred d a m p op => Sys2Proof.Machine.execVred d a m p op s
  | .vcvt d a outTy frm m p r => Sys2Proof.Machine.execVcvt d a outTy frm m p r s
  | .vrcp d a m p => Sys2Proof.Machine.execVrcp d a m p s
  | .vrsq d a m p => Sys2Proof.Machine.execVrsq d a m p s
  | .vexp2 d a m p => Sys2Proof.Machine.execVexp2 d a m p s
  | .vlog2 d a m p => Sys2Proof.Machine.execVlog2 d a m p s
  | .vsin d a m p => Sys2Proof.Machine.execVsin d a m p s
  | .vcos d a m p => Sys2Proof.Machine.execVcos d a m p s
  | .vtanh d a m p => Sys2Proof.Machine.execVtanh d a m p s
  | .verf d a m p => Sys2Proof.Machine.execVerf d a m p s
  | .vld d a imm => Sys2Proof.Machine.execVld d a imm s
  | .vst d a imm => Sys2Proof.Machine.execVst d a imm s
  | .vldg d a b m imm => Sys2Proof.Machine.execVldg d a b m imm s
  | .vstg d a b m imm => Sys2Proof.Machine.execVstg d a b m imm s
  | .vloop a k => Sys2Proof.Machine.execVloop a k s
  | .vsync => Sys2Proof.Machine.execVsync s
  | .pand d a b => Sys2Proof.Machine.execPand d a b s
  | .por d a b => Sys2Proof.Machine.execPor d a b s
  | .pxor d a b => Sys2Proof.Machine.execPxor d a b s
  | .pnot d a => Sys2Proof.Machine.execPnot d a s
  | .pcnt d a => Sys2Proof.Machine.execPcnt d a s
  | .pfirst d a => Sys2Proof.Machine.execPfirst d a s
  | .mzero d => Sys2Proof.Machine.execMzero d s
  | .mload d a imm => Sys2Proof.Machine.execMload d a imm s
  | .mstore d a imm r => Sys2Proof.Machine.execMstore d a imm r s
  | .mma d a b imm => Sys2Proof.Machine.execMma d a b imm s
  | .mjoin => Sys2Proof.Machine.execMjoin s
  | .mwait done => Sys2Proof.Machine.execMwait done s
  | .mstat d => Sys2Proof.Machine.execMstat d s
  | .mscale a b ea eb => Sys2Proof.Machine.execMscale a b ea eb s
  | .mstream a t clr => Sys2Proof.Machine.execMstream a t clr s
  | .dtld d a table => Sys2Proof.Machine.execDtld d a table s
  | .berth d a b clr => Sys2Proof.Machine.execBerth d a b clr s
  | .unberth d a clr => Sys2Proof.Machine.execUnberth d a clr s
  | .hand d a slot => Sys2Proof.Machine.execHand d a slot s
  | .binfo d a rem slot => Sys2Proof.Machine.execBinfo d a rem slot s
  | .bclr d slot => Sys2Proof.Machine.execBclr d slot s
  | .spec d slot => Sys2Proof.Machine.execSpec d slot s
  | .scommit d slot => Sys2Proof.Machine.execScommit d slot s
  | .sabort d slot => Sys2Proof.Machine.execSabort d slot s
  | .wmrd d part slot => Sys2Proof.Machine.execWmrd d part slot s
  | .cpyq d => Sys2Proof.Machine.execCpyq d s
  | .cpyqt d => Sys2Proof.Machine.execCpyqt d s
  | .cpys d a => Sys2Proof.Machine.execCpys d a s
  | .cpyr d a => Sys2Proof.Machine.execCpyr d a s
  | .cpyw d a => Sys2Proof.Machine.execCpyw d a s
  | .cpyst d a part => Sys2Proof.Machine.execCpyst d a part s
  | .turn d a strait => Sys2Proof.Machine.execTurn d a strait s
  | .turnq d strait => Sys2Proof.Machine.execTurnq d strait s
  | .thrd d strait part => Sys2Proof.Machine.execThrd d strait part s
  | .trap a code => Sys2Proof.Machine.execTrap a code s
  | .sret => Sys2Proof.Machine.execSret s
  | .sysr d reg => Sys2Proof.Machine.execSysr d reg s
  | .sysw d a reg => Sys2Proof.Machine.execSysw d a reg s
  | .tlbi a all => Sys2Proof.Machine.execTlbi a all s
  | .wfe => Sys2Proof.Machine.execWfe s
  | .seal d a b imm => Sys2Proof.Machine.execSeal d a b imm s
  | .unseal d a b imm => Sys2Proof.Machine.execUnseal d a b imm s
  | .sluice d a b idx => Sys2Proof.Machine.execSluice d a b idx s
  | .powerUp => Sys2Proof.Machine.execPowerUp s
  | .load => Sys2Proof.Machine.execLoad s
  | .start => Sys2Proof.Machine.execStart s
  | .create => Sys2Proof.Machine.execCreate s
  | .addCommand => Sys2Proof.Machine.execAddCommand s
  | .assign => Sys2Proof.Machine.execAssign s
  | .importCmd => Sys2Proof.Machine.execImportCmd s
  | .depart => Sys2Proof.Machine.execDepart s
  | .evidence => Sys2Proof.Machine.execEvidence s
  | .clockStep => Sys2Proof.Machine.execClockStep s
  | .clusterGate => Sys2Proof.Machine.execClusterGate s
  | .hbmSelfRefresh => Sys2Proof.Machine.execHbmSelfRefresh s
  | .straitIdle => Sys2Proof.Machine.execStraitIdle s
  | .allowance => Sys2Proof.Machine.execAllowance s
  | .faultwin => Sys2Proof.Machine.execFaultwin s
  | .chkpt => Sys2Proof.Machine.execChkpt s
  | .apply => Sys2Proof.Machine.execApply s
  | .run => Sys2Proof.Machine.execRun s
  | .halt => Sys2Proof.Machine.execHalt s
  | .stateSummary => Sys2Proof.Machine.execStateSummary s
  | .qctlWrite func q v => Sys2Proof.Machine.execQctlWrite func q v s
  | .registerWrite func off v => Sys2Proof.Machine.execRegisterWrite func off v s
  | .plainNotify func q v => Sys2Proof.Machine.execPlainNotify func q v s
  | .sealedNotify func q v => Sys2Proof.Machine.execSealedNotify func q v s
  | .sealedNotifyEffect func q => Sys2Proof.Machine.execSealedNotifyEffect func q s
  | .notifyTimeout func q => Sys2Proof.Machine.execNotifyTimeout func q s
  | .bar2Write func off data => Sys2Proof.Machine.execBar2Write func off data s
  | .bar2Read func off len => Sys2Proof.Machine.execBar2Read func off len s
  | .takeEntry part q => Sys2Proof.Machine.execTakeEntry part q s
  | .timelineRead launch wait => Sys2Proof.Machine.execTimelineRead launch wait s
  | .priorityAging launch => Sys2Proof.Machine.execPriorityAging launch s
  | .placement => Sys2Proof.Machine.execPlacement s
  | .spanStart span => Sys2Proof.Machine.execSpanStart span s
  | .messageArrival dest src => Sys2Proof.Machine.execMessageArrival dest src s
  | .firingStart c => Sys2Proof.Machine.execFiringStart c s
  | .sliceComplete span => Sys2Proof.Machine.execSliceComplete span s
  | .mergeDelivery launch => Sys2Proof.Machine.execMergeDelivery launch s
  | .tsliceExpiry part => Sys2Proof.Machine.execTsliceExpiry part s
  | .preemptStop part => Sys2Proof.Machine.execPreemptStop part s
  | .contextExchange part => Sys2Proof.Machine.execContextExchange part s
  | .drainStart part => Sys2Proof.Machine.execDrainStart part s
  | .drainComplete part => Sys2Proof.Machine.execDrainComplete part s
  | .drainOverrun part => Sys2Proof.Machine.execDrainOverrun part s
  | .checkpointDiscard part => Sys2Proof.Machine.execCheckpointDiscard part s
  | .preemptRetry part => Sys2Proof.Machine.execPreemptRetry part s
  | .turnWindow => Sys2Proof.Machine.execTurnWindow s
  | .groupTurnComplete strait grp => Sys2Proof.Machine.execGroupTurnComplete strait grp s
  | .landingUnit c => Sys2Proof.Machine.execLandingUnit c s
  | .copyCompletion c => Sys2Proof.Machine.execCopyCompletion c s
  | .remoteWriteArrival imm => Sys2Proof.Machine.execRemoteWriteArrival imm s
  | .heldWriteApply b imm => Sys2Proof.Machine.execHeldWriteApply b imm s
  | .storeAck imm peerRefused => Sys2Proof.Machine.execStoreAck imm peerRefused s
  | .fabricAccessArrival imm => Sys2Proof.Machine.execFabricAccessArrival imm s
  | .fabricLoadReturn imm => Sys2Proof.Machine.execFabricLoadReturn imm s
  | .redMerge line => Sys2Proof.Machine.execRedMerge line s
  | .l2MissFill die rank => Sys2Proof.Machine.execL2MissFill die rank s
  | .l2Writeback line bad => Sys2Proof.Machine.execL2Writeback line bad s
  | .tableWalk die imm => Sys2Proof.Machine.execTableWalk die imm s
  | .peerIngressWrite port peerModule peerPart part ia data rel => Sys2Proof.Machine.execPeerIngressWrite port peerModule peerPart part ia data rel s
  | .peerLinkDown port => Sys2Proof.Machine.execPeerLinkDown port s
  | .trapEntry c ctx => Sys2Proof.Machine.execTrapEntry c ctx s
  | .revocation c => Sys2Proof.Machine.execRevocation c s
  | .watchdog c ctx => Sys2Proof.Machine.execWatchdog c ctx s
  | .portStallDiscard c => Sys2Proof.Machine.execPortStallDiscard c s
  | .alignTimeout c ctx => Sys2Proof.Machine.execAlignTimeout c ctx s
  | .wfeTimeout c ctx => Sys2Proof.Machine.execWfeTimeout c ctx s
  | .errorEvent src bad => Sys2Proof.Machine.execErrorEvent src bad s
  | .faultWindow => Sys2Proof.Machine.execFaultWindow s
  | .clusterRetirement t => Sys2Proof.Machine.execClusterRetirement t s
  | .heartbeat die arrived => Sys2Proof.Machine.execHeartbeat die arrived s
  | .dieFence die => Sys2Proof.Machine.execDieFence die s
  | .masterElection => Sys2Proof.Machine.execMasterElection s
  | .temperatureChange die temp stack0 stack1 => Sys2Proof.Machine.execTemperatureChange die temp stack0 stack1 s
  | .sequencerExecution c ctx => Sys2Proof.Machine.execSequencerExecution c ctx s
  | .matrixSliceExecution c => Sys2Proof.Machine.execMatrixSliceExecution c s
  | .powerOff => Sys2Proof.Machine.execPowerOff s
  | .linkTrainingReturns port => Sys2Proof.Machine.execLinkTrainingReturns port s
  | .hostReadCompletion imm data => Sys2Proof.Machine.execHostReadCompletion imm data s
  | .postPackageRepairDone stack row => Sys2Proof.Machine.execPostPackageRepairDone stack row s

end Sys2Proof.Machine
end

