-- ==== Sys2Proof/Machine/Issue.lean ====
section
/-! DEFINITION. A core's turn: fetching an instruction (R58-R60, R77-R79, R234), the issue of a gang's instruction on every
member (R52, R377), the choice among the contexts of a core (R49); and the placing of an instruction where the next turn
fetches it. -/
namespace Sys2Proof.Machine

/-! ## Fetch -/

/-- A line installed as the newest of 1,024 of the cluster's instruction cache (R19, DESIGN CHOICE, log 9). -/
def Cluster.addLine (k : Cluster) (l : ILine) : Cluster :=
  { k with icache := l :: (k.icache.filter fun m => !(m.part = l.part && m.va = l.va && m.pa = l.pa)).take 1023 }

/-- The bytes of a line read at their execution point, HBM at the home slice where a line that misses is asked for (R79,
R241). -/
def readLine (pa : Nat) (pc : W64) : Exec (List Byte) := do
  let s ← get
  match s.memError pa 64 with
  | some (code, info) => trap code info pc
  | none =>
    if !isHbm pa then return s.memRead pa 64
    else if !s.reaches s.cur (homeDie (pa / 64)) then stall
    else if s.l2Ready (pa / 64) then do
      await (s.recallable (pa / 64))
      let (data, t) := (s.asked s.cur (homeDie (pa / 64))).sliceRead pa 64
      set t
      return data
    else if s.me.walkFail = some (0x0D, 3) then trap 0x0D 3 pc
    else throw (.miss (s.lookFor pa (.pipe s.cur s.curCtx)))

/-- The line of the issuing context's PC: translated and checked as a fetch, from the cluster's instruction cache where it
holds the line of that physical address, or from memory (R79). -/
def fetchLine : Exec (List Byte) := do
  let pc := (← get).me.pc
  check (!bitOf pc 63) 0x05 7 pc
  check (field pc 62 57 = 0) 0x05 1 pc
  let (e, pa) ← translateFor pc.toNat .fetch
  let va := pc.toNat / 64 * 64
  let s ← get
  let n := s.cur.siteId
  match (s.cluster n).icache.find? fun l => l.part = e.part && l.va = va && l.pa = pa / 64 * 64 with
  | some l => do
    check (!l.bad) 0x0D 1 pc
    return unpack l.data 0 64
  | none => do
    let data ← readLine (pa / 64 * 64) pc
    modify (·.updCluster n (·.addLine { part := e.part, va := va, pa := pa / 64 * 64, data := packBytes data }))
    return data

/-- The instruction at the issuing context's PC; the head count of its line stands in the context. An encoding that is not
an instruction traps (R396). -/
def fetch : Exec Instr := do
  let line ← fetchLine
  let pc := (← get).me.pc
  match decodeLine line (field pc 5 0) with
  | .ok (n, i) => do
    modify (·.updMe fun v => { v with heads := n })
    return i
  | .error e => trap e.cause e.info (if e.cause = 0x02 then pc else 0)

/-! ## Outcomes -/

/-- What follows a next state. -/
def andThen (o : Host.Outcome State Fault Refusal) (f : State → Host.Outcome State Fault Refusal) :
    Host.Outcome State Fault Refusal :=
  match o with
  | .next s => f s
  | .fault r => .fault r
  | .refused r => .refused r

/-- The state with a core and a context as the ones whose instruction executes. -/
def State.focus (s : State) (c : CoreId) (x : Nat) : State := { s with cur := c, curCtx := x }

/-! ## Gangs (R52, R377) -/

/-- A member stands at instruction number n of the gang stream. -/
def State.standsAt (s : State) (m : CoreId × Nat) (n : Nat) : Bool := (s.ctx m.1 m.2).running && (s.ctx m.1 m.2).num = n

/-- The instruction on one member, in a line of `heads` heads (DEDUCED, log 33). -/
def memberExec (i : Instr) (heads n : Nat) (m : CoreId × Nat) (s : State) : Host.Outcome State Fault Refusal :=
  if s.standsAt m n && (s.ctx m.1 m.2).wait ≠ .trap then
    exec i ((s.focus m.1 m.2).updMe fun v => { v with heads := heads })
  else .next s

/-- The instruction on some members in turn: the followers first, the leader last, which is also the order in which their HANDs take
effect (R191) (DEDUCED, log 33). -/
def membersExec (i : Instr) (heads n : Nat) : List (CoreId × Nat) → State → Host.Outcome State Fault Refusal
  | [], s => .next s
  | m :: ms, s => andThen (memberExec i heads n m s) (membersExec i heads n ms)

/-- A member has completed instruction n and raised no trap in it. -/
def State.passed (s old : State) (m : CoreId × Nat) (n : Nat) : Bool :=
  let v := s.ctx m.1 m.2
  v.running && v.num = n + 1 && v.trapPend.isNone && !(v.th && !(old.ctx m.1 m.2).th)

/-- Members that have completed the instruction go on at the stream's next PC: the leader's, or the next slot where the
leader raised a trap (DEDUCED, log 33). -/
def State.regroup (s old : State) (l : CoreId × Nat) (ms : List (CoreId × Nat)) (n : Nat) : State :=
  let v := s.ctx l.1 l.2
  if v.num = n && v.trapPend.isNone then s
  else
    let pc := if s.passed old l n then v.pc else (old.ctx l.1 l.2).next
    ms.foldl (fun t m => if t.passed old m n then t.updCtx m.1 m.2 fun w => { w with pc := pc, heads := (old.ctx l.1 l.2).heads } else t) s

/-- A member has done with instruction n: it passed it, took a trap, or its firing ended. -/
def State.through (s old : State) (m : CoreId × Nat) (n : Nat) : Bool :=
  s.passed old m n || !(s.ctx m.1 m.2).running || (s.ctx m.1 m.2).trapPend.isSome || (s.ctx m.1 m.2).num ≠ n

/-- What members that must wait keep of their wait, the others standing where they stood. -/
def waitsExec (i : Instr) (heads n : Nat) : List (CoreId × Nat) → State → Host.Outcome State Fault Refusal
  | [], s => .next s
  | m :: ms, s =>
    andThen (memberExec i heads n m s) fun t => waitsExec i heads n ms (if t.passed s m n then s else t)

/-- The gang's instruction (R52, R377): all members do it, or none does and those that must wait keep their wait; a trap
in a member lets each of the others go on by itself. GANG is refused to every member (R112) (DEDUCED, log 33). -/
def gangExec (i : Instr) (s : State) : Host.Outcome State Fault Refusal :=
  let l := (s.cur, s.curCtx)
  let n := s.me.num
  let all := s.gangOf s.cur
  let ms := all.filter (· ≠ l)
  match i with
  | .gang _ => .next ((all.foldl State.refuseGang s).focus l.1 l.2)
  | _ =>
    andThen (membersExec i s.me.heads n (ms ++ [l]) s) fun t =>
      if (t.core l.1).gang.isNone || all.all fun m => t.through s m n then .next ((t.regroup s l ms n).focus l.1 l.2)
      else andThen (waitsExec i s.me.heads n all s) fun u => .next (u.focus l.1 l.2).stallMe

/-- An instruction issues: on every member of the gang that the context leads, or on the context alone. -/
def issueInstr (i : Instr) (s : State) : Host.Outcome State Fault Refusal :=
  if s.leads s.cur s.curCtx then gangExec i s else exec i s

/-! ## A core's turn (R49) -/

/-- A context tries to issue its next instruction. -/
def attempt (c : CoreId) (x : Nat) (s : State) : Host.Outcome State Fault Refusal :=
  let s := s.focus c x
  match fetch s with
  | .ok i t => issueInstr i t
  | .error e t => stopOutcome s e t

/-- The context issued nothing: it stands where it stood, and waits for the same. -/
def State.idleAfter (t s : State) (c : CoreId) (x : Nat) : Bool :=
  let v := t.ctx c x
  let w := s.ctx c x
  v.running && v.stalled && v.num = w.num && v.wait = w.wait && v.trapPend = w.trapPend

/-- Contexts of the core that may issue, the first after `last` first: on a gang's core the ganged one, unless it follows
another core's stream. -/
def State.mayIssue (s : State) (c : CoreId) : List Nat :=
  let k := s.core c
  ((List.range 4).map fun i => (k.last + 1 + i) % 4).filter fun x =>
    (k.ctx x).running && (k.ctx x).wait ≠ .trap && (k.gang.isNone || s.leads c x)

/-- The order in which they try: those with PRIO bit 1 before the others (R49). -/
def State.issueOrder (s : State) (c : CoreId) : List Nat :=
  let xs := s.mayIssue c
  (xs.filter fun x => bitOf (s.ctx c x).prio 1) ++ xs.filter fun x => !bitOf (s.ctx c x).prio 1

/-- The contexts that issue when one does: its gang's, or it alone. -/
def State.issuers (s : State) (c : CoreId) (x : Nat) : List (CoreId × Nat) := if s.leads c x then s.gangOf c else [(c, x)]

/-- The first context that can issue does; every core that issued counts on from the context that did (R49, R52). -/
def issueFrom (c : CoreId) : List Nat → State → Host.Outcome State Fault Refusal
  | [], s => .next s
  | x :: xs, s =>
    andThen (attempt c x s) fun t =>
      if t.idleAfter s c x then issueFrom c xs t else .next ((s.issuers c x).foldl (fun u m => u.updCore m.1 fun k => { k with last := m.2 }) t)

/-- A core issues one instruction, or none (DESIGN CHOICE, log 4). -/
def issueTurn (c : CoreId) (s : State) : Host.Outcome State Fault Refusal :=
  if s.active c then issueFrom c (s.issueOrder c) s else .next s

/-! ## Turns -/

/-- A turn names agents that exist: a core, or an operation or event of the table within its limits (R8, R10, R48) (DESIGN CHOICE, log 4). -/
def Turn.ok : Turn → Bool
  | .issue c => c.exist
  | .event i => i.wf && !i.encoded
  | .peerRead port _ _ part _ _ | .peerNibble port _ _ part _ _ _ => port < 16 && part < 128
  | .idle _ => true

/-- What a turn does (DESIGN CHOICE, log 4). -/
def turnExec (t : Turn) (s : State) : Host.Outcome State Fault Refusal :=
  match t with
  | .issue c => issueTurn c s
  | .event i => exec i s
  | .peerRead port modul rpart part ia n => eventReading (s.powered && (s.port port).up) (·.peerReadIn port modul rpart part ia n) s
  | .peerNibble port modul rpart part ia v h =>
    eventReading (s.powered && (s.port port).up) (·.peerNibbleIn port modul rpart part ia v h) s
  | .idle _ => .next s

/-- Cycles that a turn takes. -/
def Turn.cycles : Turn → Nat
  | .idle n => n
  | _ => 1

/-- Time passes; a module without power keeps none (DESIGN CHOICE, log 34). -/
def State.tick (s : State) (n : Nat) : State :=
  if s.powered then { s with cycle := s.cycle + n, rtime := (s.cycle + n) * 10 / 13 } else s

/-- The turn at the head of the agenda taken out of it; an empty agenda gives the current core's turn again (DESIGN CHOICE, log 4). -/
def State.nextTurn (s : State) : Turn × State :=
  match s.turns with
  | [] => (.issue s.cur, s)
  | t :: ts => (t, { s with turns := ts })

/-- One turn of the module (DESIGN CHOICE, log 4). -/
def takeTurn (s : State) : Host.Outcome State Fault Refusal :=
  let (t, s) := s.nextTurn
  if t.ok then andThen (turnExec t s) fun u => .next (u.tick t.cycles) else .fault .noSuchAgent

/-! ## An instruction where the next turn fetches it -/

/-- The core whose turn runs a placed instruction, its line's virtual address, and its partition (DESIGN CHOICE, log 20). -/
def homeCore : CoreId := ⟨0, 0, 0⟩
def homeLine : Nat := 0x10000
def homePart : Nat := 0

/-- The page of the placed line: global page homeLine of the partition stands at the same physical address (DESIGN CHOICE, log 20). -/
def homeTlb (ptbase : W64) : TlbEntry :=
  { part := homePart, root := rootPage ptbase, va := homeLine, size := 65536, pa := homeLine, rd := true, w := true, xe := true, sv := false, tag := 0
    peer := false }

/-- A line placed in memory and a firing of the home core standing at its slot 0: what stands between a program loaded by
a launch and this line (a partition, its tables, a span's start) is set as the fetch needs it (DESIGN CHOICE, log 20). -/
def State.placeLine (s : State) (line : List Byte) : State :=
  let x : Ctx := { running := true, pc := w64 homeLine, prio := 2 }
  let k := s.core homeCore
  { s with
    powered := true, mem := cellWrite s.mem homeLine line, bad := s.bad.filter fun w => !wholeWord homeLine 64 w
    sites := s.sites.put homeCore.siteId .enabled
    parts := s.parts.put homePart { s.part homePart with defined := true, clusters := [homeCore.siteId] }
    clusters := s.clusters.put homeCore.siteId
      { s.cluster homeCore.siteId with icache := [{ part := homePart, va := homeLine, pa := homeLine, data := packBytes line }] }
    dies := s.dies.put 0 { s.die 0 with fenced := false, l2 := (s.die 0).l2.filter (·.line ≠ homeLine / 64) }
    cores := s.cores.put homeCore
      { k with ctxs := k.ctxs.put 0 x, last := 3, gang := none, stopped := false, ptbase := k.ptbase ||| 1, tlb := homeTlb k.ptbase :: k.tlb }
    cur := homeCore, curCtx := 0, turns := [.issue homeCore] }

end Sys2Proof.Machine
end

