-- ==== Sys2Proof/Machine/Step.lean ====
section
/-! DEFINITION. One step of the module, and the placing of an instruction where the next step fetches it. -/
namespace Sys2Proof.Machine

/-- One step: one turn of the agenda (DESIGN CHOICE, log 4). -/
def step (s : State) : Host.Outcome State Fault Refusal := takeTurn s

/-- The state with an instruction of the table, its bits numbered as there, in a line of its own at which a firing of the
module stands: the load of a program that a launch stands for otherwise (DESIGN CHOICE, log 20). -/
def State.withFetchWord (s : State) (nbits w : Nat) : State :=
  let v := w % 2 ^ nbits
  s.placeLine (lineOf (v % 0x10000) (v / 0x10000))

end Sys2Proof.Machine
end

