-- ==== Sys2Proof/Safety.lean ====
section
/-! DEFINITION. Safe runs, and the words in which the claims speak of an instruction's operands and of its end. -/
namespace Sys2Proof

/-- A run of k steps from a state reaches a next state every time. -/
def Safe (k : Nat) (s : Machine.State) : Prop := ∃ t, core.run k s = .next t

/-- Every turn of the agenda names agents that exist. -/
def TurnsOk (s : Machine.State) : Bool := s.turns.all Machine.Turn.ok

end Sys2Proof

namespace Sys2Proof.Claim
open Sys2Proof.Machine

/-- A scalar register's row holds an uncorrectable error (R388): x0 has no row, and of a queue the word counts that a pop would
take. -/
def ruined (s : State) : SReg → Bool
  | .x n => n.val ≠ 0 && s.me.bad.contains (.x n.val)
  | .k n => s.myCore.bad.contains (.k n.val)
  | .q n => s.me.queue n.val ≠ [] && 0 < s.me.qbad.getD n.val 0

/-- A source field's value and the state that its pop leaves; none where it would stall, pops a queue against its direction or
traps (R66, R73, R74, R75, R388). -/
def take (s : State) (r : SReg) : Option (W64 × State) :=
  if ruined s r then none
  else
    match r with
    | .x n => some (if n.val = 0 then 0 else s.me.x.getD n.val 0, s)
    | .k n => some (s.myCore.k.getD n.val 0, s)
    | .q n =>
      if n.val < 4 then none
      else
        match s.me.queue n.val with
        | [] => none
        | v :: rest => some (v, s.updMe (·.setQueue n.val rest))

/-- The values of source fields read in their order, and the state after the last (R67). -/
def takes (s : State) : List SReg → Option (List W64 × State)
  | [] => some ([], s)
  | r :: rs =>
    match take s r with
    | none => none
    | some (v, t) =>
      match takes t rs with
      | none => none
      | some (vs, u) => some (v :: vs, u)

/-- A destination field accepts a value: it is no queue that the stream may not push, and no full one (R73-R75). -/
def room (s : State) : SReg → Bool
  | .q n => n.val < 4 && (s.me.queue n.val).length < 8
  | _ => true

/-- The state once a destination field has taken a value: x0 discards it, a queue takes it as its newest entry (R66, R74), and
another register's row is sound from then on (R388). -/
def put (s : State) (d : SReg) (w : W64) : State :=
  match d with
  | .x n => if n.val = 0 then s.updMe id else s.updMe fun v => { v with x := v.x.put n.val w, bad := v.bad.filter (· ≠ .x n.val) }
  | .k n => s.updCore s.cur fun k => { k with k := k.k.put n.val w, bad := k.bad.filter (· ≠ .k n.val) }
  | .q n => s.updMe fun v => { v with q := v.q.put n.val (v.q.getD n.val [] ++ [w]) }

/-- The PC of the instruction behind the issuing context's: the next slot of the line, or slot 0 of the next line (R60). -/
def following (s : State) : W64 :=
  let slot := s.me.pc.toNat % 64
  if slot + 1 < s.me.heads then s.me.pc + 1 else BitVec.ofNat 64 ((s.me.pc.toNat / 64 + 1) * 64)

/-- The issuing context goes on at a PC: it counts the instruction, waits for nothing, and its watchdog counts from now
(R405). -/
def goesOn (s : State) (pc : W64) : State :=
  s.updMe fun v => { v with pc := pc, num := v.num + 1, stalled := false, wait := .none, watch := s.cycle, walkFail := none, touch := [] }

/-- The issuing context waits where it stands, and has issued nothing. -/
def waits (s : State) : State := s.updMe fun v => { v with stalled := true, touch := [] }

/-- An instruction's end: its destination takes its result, and the context goes on behind it. -/
def result (s : State) (d : SReg) (w : W64) : State := goesOn (put s d w) (following s)

/-- The end of an instruction without a destination. -/
def done (s : State) : State := goesOn s (following s)

/-- A source field keeps the direction of the queues: the integer pipeline pops q4-q7 alone (R75). -/
def poppable : SReg → Bool
  | .q n => 4 ≤ n.val
  | _ => true

/-- A destination field keeps the direction of the queues: the integer pipeline pushes q0-q3 alone (R75). -/
def pushable : SReg → Bool
  | .q n => n.val < 4
  | _ => true

/-- Source fields read in their order come to an empty queue, every register before it sound (R74). -/
def dry (s : State) : List SReg → Bool
  | [] => false
  | r :: rs =>
    match take s r with
    | none => !ruined s r
    | some (_, t) => dry t rs

/-- Source fields read in their order come to a register with an uncorrectable row (R388). -/
def spoilt (s : State) : List SReg → Bool
  | [] => false
  | r :: rs =>
    match take s r with
    | none => ruined s r
    | some (_, t) => spoilt t rs

/-- The head word of an instruction's encoding (R61, R80). -/
def head (i : Instr) : Option Nat := (encode i).map (·.1)

/-- The number of a scalar register in a 6-bit field (R66). -/
def number : SReg → Nat
  | .x n => n.val
  | .k n => 32 + n.val
  | .q n => 40 + n.val

/-- The tail of format Fb with every f14 bit zero: d in bits 31:26, a in 25:20, b in 19:14 (R62). -/
def tailFb (d a b : Nat) : Nat := d * 2 ^ 26 + a * 2 ^ 20 + b * 2 ^ 14

/-- The PC that a branch or jump at `pc` goes to: `lines` lines away from its own line, at a slot (R63). -/
def target (pc : W64) (lines : BitVec 58) (slot : Fin 31) : W64 := (pc.extractLsb' 6 58 + lines) ++ BitVec.ofNat 6 slot.val

/-- The source fields, in the order in which they are read, and the destination fields of an instruction of the integer
pipeline that reads and writes registers alone (R107-R110, R116-R124). -/
def registerOnly : Instr → Option (List SReg × List SReg)
  | .beq a b _ | .bne a b _ | .blt a b _ | .bge a b _ | .bltn a b _ | .bgen a b _ => some ([a, b], [])
  | .bz a _ | .bnz a _ => some ([a], [])
  | .j _ => some ([], [])
  | .jal d _ => some ([], [d])
  | .jr d => some ([d], [])
  | .jalr d a => some ([a], [d])
  | .loop a _ => some ([a], [a])
  | .add d a b | .sub d a b | .mul d a b | .mulh d a b | .mulhn d a b | .div d a b | .divn d a b | .rem d a b | .remn d a b
  | .min d a b | .max d a b | .minn d a b | .maxn d a b | .and d a b | .or d a b | .xor d a b | .andn d a b | .shl d a b
  | .shr d a b | .sra d a b | .rot d a b | .slt d a b | .sltn d a b | .seq d a b | .lea d a b _ _ => some ([a, b], [d])
  | .clz d a | .ctz d a | .popc d a | .mov d a | .addi d a _ | .andi d a _ | .ori d a _ | .xori d a _ | .shli d a _
  | .shri d a _ | .srai d a _ | .bfx d a _ _ => some ([a], [d])
  | .sel d a b c | .faba d a b c _ => some ([a, b, c], [d])
  | .li d _ => some ([], [d])
  | .lih d _ => some ([d], [d])
  | .bfi d a _ => some ([a, d], [d])
  | _ => none

/-- The source and destination fields of the other instructions of the integer pipeline (R115, R125-R128, R193-R200,
R247-R273, R285, R309, R362, R390), which check their directions before anything else. -/
def otherFields : Instr → Option (List SReg × List SReg)
  | .sbar d _ => some ([], [d])
  | .ldb d a _ | .ldbn d a _ | .ldh d a _ | .ldhn d a _ | .ldw d a _ | .ldwn d a _ | .ldd d a _ | .ldacq d a _ =>
    some ([a], [d])
  | .pfu a _ => some ([a], [])
  | .stb d a _ | .sth d a _ | .stw d a _ | .std d a _ | .strel d a _ | .stnb d a _ _ => some ([a, d], [])
  | .cas d a b c _ => some ([a, b, c], [d])
  | .swap d a b _ | .fadd d a b _ | .fand d a b _ | .for_ d a b _ | .fxor d a b _ | .fmin d a b _ _ | .fmax d a b _ _ =>
    some ([a, b], [d])
  | .red a b _ _ => some ([a, b], [])
  | .inb d a _ | .cadd d a _ => some ([a], [d])
  | .cset d a b _ => some ([a, b], [d])
  | .crd d _ | .bclr d _ | .spec d _ | .scommit d _ | .sabort d _ | .wmrd d _ _ => some ([], [d])
  | .berth d a b _ => some ([a, b], [d])
  | .unberth d a _ | .hand d a _ => some ([a], [d])
  | .cpys d a | .cpyr d a | .cpyw d a | .cpyst d a _ | .turn d a _ => some ([a], [d])
  | .turnq d _ | .thrd d _ _ => some ([], [d])
  | .trap a _ | .tlbi a _ => some ([a], [])
  | .sysr d _ => some ([], [d])
  | .sysw d a _ => some ([a], [d])
  | .sluice d a b _ => some ([a, b], [d])
  | _ => none

/-- The two streams behind the integer pipeline hold nothing of the issuing context: no vector instruction that waits or
runs, no matrix instruction (R111, R258). -/
def quiet (s : State) : Bool := s.me.seq.isEmpty && s.myCore.slice.all fun e => e.ctx ≠ s.curCtx

/-- A context that holds no firing: it does not run and has no x, vector or predicate register, no queue entry and no inbox slot
(R36, R111). -/
def ended (v : Ctx) : Prop := v.running = false ∧ v.x = [] ∧ v.v = [] ∧ v.p = [] ∧ v.q = [] ∧ v.slots = 0

/-- A gang's member may end: it runs a trap handler, or nothing of it is in its streams and it stands in no joint row (R111). -/
def mayFinish (s : State) (c : CoreId) (x : Nat) : Bool :=
  (s.ctx c x).th || (s.ctx c x).seq.isEmpty && ((s.core c).slice.all fun e => e.ctx ≠ x) && (s.ctx c x).join = .no

/-- The die of the first core of the issuing core's span, where the model counts its barriers (R115; log 18). -/
def barrierDie (s : State) : Nat := ((s.spanCore s.cur.siteId 0).getD s.cur).die

/-! ### Bytes -/

/-- A byte with one nibble replaced. -/
def nibbleOf (old : Byte) (v : BitVec 4) (hi : Bool) : Byte := if hi then v ++ old.extractLsb' 0 4 else old.extractLsb' 4 4 ++ v

/-- Two, four and eight bytes from an address upward as one little-endian item. -/
def le2 (f : Nat → Byte) (o : Nat) : BitVec 16 := f (o + 1) ++ f o
def le4 (f : Nat → Byte) (o : Nat) : BitVec 32 := le2 f (o + 2) ++ le2 f o
def le8 (f : Nat → Byte) (o : Nat) : W64 := le4 f (o + 4) ++ le4 f o

/-- Byte i of a word, byte 0 lowest. -/
def byteOf (w : W64) (i : Nat) : Byte := w.extractLsb' (8 * i) 8

/-- A byte with its low or high nibble replaced by the low 4 bits of a word. -/
def withNibble (old : Byte) (w : W64) (hi : Bool) : Byte :=
  if hi then w.extractLsb' 0 4 ++ old.extractLsb' 0 4 else old.extractLsb' 4 4 ++ w.extractLsb' 0 4

/-- Byte o of a clean line in L1 (R238). -/
def lineByte (l : L1Line) (o : Nat) : Byte := l.data.extractLsb' (8 * o) 8

/-- The byte of a bank at an offset. -/
def bankByte (s : State) (b : BankId) (o : Nat) : Byte := cellGet (s.bank b).bytes o

/-- The banks of u are those of s but for n bytes of one bank from an offset, which hold f 0, f 1 and so on; no other state of a
bank has changed but the words known to be bad, which a whole write heals (R388). -/
def bankBytesAre (s u : State) (b : BankId) (o n : Nat) (f : Nat → Byte) : Prop :=
  (∀ c p, bankByte u c p = if c = b ∧ o ≤ p ∧ p < o + n then f (p - o) else bankByte s c p) ∧
  ∀ c, (u.bank c).st = (s.bank c).st ∧ (u.bank c).tag = (s.bank c).tag ∧ (u.bank c).queue = (s.bank c).queue ∧
    (u.bank c).held = (s.bank c).held ∧ (u.bank c).wmW = (s.bank c).wmW ∧ (u.bank c).shadow = (s.bank c).shadow

/-- Memory at its execution point is as before but for n bytes from a physical address (R254). -/
def memBytesAre (s u : State) (pa n : Nat) (f : Nat → Byte) : Prop :=
  ∀ a, u.memByte a = if pa ≤ a ∧ a < pa + n then f (a - pa) else s.memByte a

/-- Memory at its execution point is as before. -/
def memKept (s u : State) : Prop := ∀ a, u.memByte a = s.memByte a

/-- Every register of every context and core is as before, queues and the program counter apart: x, vector, predicate, keep,
control and exception registers, berths, tiles, streams, counters and inboxes. -/
def registersKept (s u : State) : Prop :=
  (∀ c y, (u.ctx c y).x = (s.ctx c y).x ∧ (u.ctx c y).v = (s.ctx c y).v ∧ (u.ctx c y).p = (s.ctx c y).p ∧
    (u.ctx c y).rndctl = (s.ctx c y).rndctl ∧ (u.ctx c y).status = (s.ctx c y).status ∧ (u.ctx c y).epc = (s.ctx c y).epc ∧
    (u.ctx c y).xpc = (s.ctx c y).xpc ∧ (u.ctx c y).cause = (s.ctx c y).cause ∧ (u.ctx c y).faultva = (s.ctx c y).faultva ∧
    (u.ctx c y).tscr = (s.ctx c y).tscr ∧ (u.ctx c y).slots = (s.ctx c y).slots) ∧
  ∀ c, (u.core c).k = (s.core c).k ∧ (u.core c).berths = (s.core c).berths ∧ (u.core c).tiles = (s.core c).tiles ∧
    (u.core c).streams = (s.core c).streams ∧ (u.core c).ctrs = (s.core c).ctrs ∧ (u.core c).inbox = (s.core c).inbox ∧
    (u.core c).ptbase = (s.core c).ptbase ∧ (u.core c).tvec = (s.core c).tvec

/-- The issuing context has completed its instruction and stands at a PC. -/
def stands (s u : State) (pc : W64) : Prop :=
  u.cur = s.cur ∧ u.curCtx = s.curCtx ∧ u.me.pc = pc ∧ u.me.num = s.me.num + 1 ∧ u.me.wait = .none ∧ u.me.stalled = false

/-! ### Where an access goes -/

/-- The offset a local or fabric access names: the displacement changes bits 15:0 alone (R230). -/
def offset (x : W64) (disp : BitVec 22) : Nat := (x.extractLsb' 0 16 + disp.extractLsb' 0 16).toNat

/-- A local address of a berth that the firing may use: bits 63:32 and 27:19 zero, window at most 10, the slot holds bank b,
whose tag allows the firing (R228, R248, R355). -/
def opens (s : State) (x : W64) (b : BankId) : Bool :=
  x.extractLsb' 32 32 = 0 && (x.extractLsb' 28 4).toNat ≤ 10 && x.extractLsb' 19 9 = 0 &&
    s.myCore.berth (x.extractLsb' 16 3).toNat = some b &&
    ((s.bank b).tag = s.me.compart || (s.me.compart = 63 && (s.bank b).tag ≠ 0))

/-- Nothing holds the bank's bytes or waits for them: no landing copy, no write held at its port, no speculative region, no
uncorrectable word (R192, R300, R388, R440). -/
def calm (s : State) (b : BankId) : Bool :=
  !(s.bank b).wmOpen && (s.bank b).queue.isEmpty && (s.bank b).held.isEmpty && (s.bank b).waiting.isEmpty &&
    (s.bank b).shadow.isNone && (s.bank b).bad.isEmpty

/-- No matrix instruction that has still to read its operands protects a row of the bank (R210). -/
def unprotected (s : State) (b : BankId) : Bool :=
  s.cores.all fun e => e.2.slice.all fun m => m.cons || m.prot.all fun r => r.1 ≠ b

/-- The context's earlier accesses are done: both streams are empty, and no store of the core is on its way through the
fabric or waits before a bank port (R72, R245). -/
def alone (s : State) : Bool :=
  quiet s && (s.fwrites.all fun w => w.src ≠ s.cur) && s.banks.all fun e => e.2.waiting.all fun w => w.src ≠ s.cur

/-- Reading bytes that copies have landed in a bank, under the last envelope or one before it, acquires what landed: the clean
L1 lines go (R264). -/
def landed (s : State) (b : BankId) (o n : Nat) : State :=
  let k := s.bank b
  if ((k.wmStart, min k.wmW k.wmEnd) :: k.landed).any fun r => r.1 < o + n && o < r.2 then
    s.updCore s.cur fun k => { k with l1 := [] }
  else s

/-- The first access through a slot that a HAND has filled acquires: the clean L1 lines go (R189, R255). -/
def used (s : State) (slot : Nat) : State :=
  if slot ∈ s.myCore.handed then
    (s.updCore s.cur fun k => { k with handed := k.handed.filter (· ≠ slot) }).updCore s.cur fun k => { k with l1 := [] }
  else s

/-- The acquire of a scope: wider than .core the core's clean L1 lines go (R259). -/
def acquired (s : State) (sc : Scope) : State :=
  if sc = .core then s else s.updCore s.cur fun k => { k with l1 := [] }

/-- The sum of a global base and a displacement (R230). -/
def globalSum (x : W64) (disp : BitVec 22) : Nat := (x + disp.signExtend 64).toNat

/-- A global base whose sum the core's tables translate: the core's partition, translation switched on, an entry that covers
the address and whose page allows the access, no peer window; pa is the physical address (R228, R231-R234, R353, R354). -/
def maps (s : State) (x : W64) (disp : BitVec 22) (k : AccKind) (pa : Nat) : Prop :=
  x.getLsbD 63 = false ∧ x.extractLsb' 32 32 ≠ 0 ∧ globalSum x disp < 2 ^ 57 ∧
  ∃ p e, s.partOfSite s.cur.siteId = some p ∧ s.myCore.ptbase.getLsbD 0 = true ∧
    s.tlbLookup s.cur p (rootPage s.myCore.ptbase) (globalSum x disp) = some e ∧ e.peer = false ∧
    s.pageError e (globalSum x disp) k s.me.sv s.me.compart = none ∧ pa = e.pa + (globalSum x disp - e.va)

/-- The same for a page that lies in a peer window (R335): pa is the window's intermediate address. -/
def mapsPeer (s : State) (x : W64) (disp : BitVec 22) (p pa : Nat) : Prop :=
  x.getLsbD 63 = false ∧ x.extractLsb' 32 32 ≠ 0 ∧ globalSum x disp < 2 ^ 57 ∧ s.partOfSite s.cur.siteId = some p ∧
  ∃ e, s.myCore.ptbase.getLsbD 0 = true ∧ s.tlbLookup s.cur p (rootPage s.myCore.ptbase) (globalSum x disp) = some e ∧
    e.peer = true ∧ s.pageError e (globalSum x disp) .store s.me.sv s.me.compart = none ∧ pa = e.pa + (globalSum x disp - e.va)

/-- The roster entry of the window that a peer address names allows a write there, and its port refuses none (R335, R336, R430). -/
def rosterOpen (s : State) (p pa : Nat) (r : Roster) : Prop :=
  r = (s.part p).roster.getD (pa / 2 ^ 46 % 32) {} ∧ r.v = true ∧ r.w = true ∧ pa % 2 ^ 46 < r.size * 65536 ∧
    (s.port r.port).refuse = false

/-- An address of HBM on a die that is not fenced, its words good (R235, R388, R414). -/
def goodHbm (s : State) (pa n : Nat) : Bool := pa + n ≤ 2 ^ 40 && (s.memError pa n).isNone

/-- The same, where the issuing core's partition reaches it over the straits (R278). -/
def soundHbm (s : State) (pa n : Nat) : Bool := goodHbm s pa n && State.reaches s s.cur (homeDie (pa / 64))

/-- The line of an address stands in the array of its home slice, live, and no earlier request for it waits there (R236, R240,
R241). -/
def inArray (s : State) (pa : Nat) : Prop := s.lineFree (pa / 64) = true ∧ ∃ l, s.l2Find (pa / 64) = some l ∧ l.dead = false ∧ l.queued = false

/-- No core holds an update-only line (R239). -/
def noUpdates (s : State) : Bool := s.cores.all fun e => e.2.updates.isEmpty

/-- Bytes of HBM that a read at their slice leaves as they are: good words, no update-only line to recall, no DEAD line whose
last read frees it (R239, R240), memory in its form. -/
def plainHbm (s : State) (pa n : Nat) : Prop :=
  goodHbm s pa n = true ∧ noUpdates s = true ∧ Memory.wf s.mem = true ∧ ∀ e ∈ s.dies, ∀ l ∈ e.2.l2, l.dead = false

/-! ### Loads, stores and atomics -/

/-- Destination, base, displacement and bytes of a load (R247). -/
def loadShape : Instr → Option (SReg × SReg × BitVec 22 × Nat)
  | .ldb d a i | .ldbn d a i => some (d, a, i.disp, 1)
  | .ldh d a i | .ldhn d a i => some (d, a, i.disp, 2)
  | .ldw d a i | .ldwn d a i => some (d, a, i.disp, 4)
  | .ldd d a i => some (d, a, i.disp, 8)
  | .ldacq d a i => some (d, a, i.disp, if i.w64 then 8 else 4)
  | _ => none

/-- The value a load writes, the bytes of the place given: sign- or zero-extended to 64 bits (R247). -/
def loaded (i : Instr) (f : Nat → Byte) (o : Nat) : W64 :=
  match i with
  | .ldb .. => (f o).signExtend 64
  | .ldbn .. => (f o).zeroExtend 64
  | .ldh .. => (le2 f o).signExtend 64
  | .ldhn .. => (le2 f o).zeroExtend 64
  | .ldw .. => (le4 f o).signExtend 64
  | .ldwn .. => (le4 f o).zeroExtend 64
  | .ldd .. => le8 f o
  | .ldacq _ _ m => if m.w64 then le8 f o else (le4 f o).zeroExtend 64
  | _ => 0

/-- The scope of the acquire that follows a load (R247). -/
def loadScope : Instr → Scope
  | .ldacq _ _ m => m.scope
  | _ => .core

/-- Data, base, displacement and bytes of a store of whole bytes (R247). -/
def storeShape : Instr → Option (SReg × SReg × BitVec 22 × Nat)
  | .stb d a m => some (d, a, m, 1)
  | .sth d a m => some (d, a, m, 2)
  | .stw d a m => some (d, a, m, 4)
  | .std d a m => some (d, a, m, 8)
  | .strel d a i => some (d, a, i.disp, if i.w64 then 8 else 4)
  | _ => none

/-- A release of the instruction, if it makes one, finds nothing to wait for and nothing to send home (R258). -/
def released (s : State) : Bool :=
  s.myCore.unacked = 0 && s.myCore.updates.isEmpty && (s.fwrites.all fun w => w.src ≠ s.cur) &&
    (s.banks.all fun e => (e.2.held ++ e.2.waiting).all fun w => w.src ≠ s.cur) &&
    s.acks.all fun a => a.core ≠ s.cur || a.peer.isNone

/-- Destination, sources and flags of an atomic (R268). -/
def atomShape : Instr → Option (SReg × List SReg × AtomFlags)
  | .cas d a b c f => some (d, [a, b, c], f)
  | .swap d a b f | .fadd d a b f | .fand d a b f | .for_ d a b f | .fxor d a b f | .fmin d a b _ f | .fmax d a b _ f =>
    some (d, [a, b], f)
  | _ => none

/-- The value an atomic leaves in memory: m is the old one, b and c the operands, in its width (R268). -/
def atomValue (i : Instr) {w : Nat} (m b c : BitVec w) : BitVec w :=
  match i with
  | .cas .. => if m = b then c else m
  | .swap .. => b
  | .fadd .. => m + b
  | .fand .. => m &&& b
  | .for_ .. => m ||| b
  | .fxor .. => m ^^^ b
  | .fmin _ _ _ u _ => if (if u then decide (b.toNat < m.toNat) else decide (b.toInt < m.toInt)) then b else m
  | .fmax _ _ _ u _ => if (if u then decide (m.toNat < b.toNat) else decide (m.toInt < b.toInt)) then b else m
  | _ => m

/-- The integer and bitwise updates of RED (R271). -/
def redValue (op : RedOp) {w : Nat} (m b : BitVec w) : Option (BitVec w) :=
  match op with
  | .addI => some (m + b)
  | .minI => some (if b.toInt < m.toInt then b else m)
  | .maxI => some (if m.toInt < b.toInt then b else m)
  | .and => some (m &&& b)
  | .or => some (m ||| b)
  | .xor => some (m ^^^ b)
  | .addF | .minF | .maxF => none

/-- A fabric address that names a core of the issuing firing's span: bit 63 set, window at most 10, bits 45:19 zero (R228,
R229). -/
def reaches (s : State) (x : W64) (c : CoreId) : Prop :=
  x.getLsbD 63 = true ∧ (x.extractLsb' 59 4).toNat ≤ 10 ∧ x.extractLsb' 19 27 = 0 ∧
    s.fabricCore s.cur.siteId (x.extractLsb' 48 11).toNat (x.extractLsb' 46 2).toNat = some c

/-- A fabric address with a displacement in its offset (R230). -/
def displaced (x : W64) (disp : BitVec 22) : W64 := x.extractLsb' 16 48 ++ BitVec.ofNat 16 (offset x disp)

/-! ### Vector instructions -/

/-- The instruction is forwarded into the sequencer and retained: every instruction of majors 0x10-0x1B but VLOOP and VSYNC
(R70, R158-R160). -/
def forwards : Instr → Bool
  | .vadd .. | .vsub .. | .vmul .. | .vfma .. | .vfms .. | .vfnma .. | .vmin .. | .vmax .. | .vabs .. | .vneg .. | .vdiv ..
  | .viadd .. | .visub .. | .vimul .. | .vimulh .. | .vimin .. | .vimax .. | .visat .. | .vand .. | .vor .. | .vxor ..
  | .vshl .. | .vshr .. | .vsra .. | .vcmp .. | .vsel .. | .vmov .. | .vbcast .. | .viota .. | .vext .. | .vxl .. | .vperm ..
  | .vred .. | .vcvt .. | .vrcp .. | .vrsq .. | .vexp2 .. | .vlog2 .. | .vsin .. | .vcos .. | .vtanh .. | .verf .. | .vld ..
  | .vst .. | .vldg .. | .vstg .. | .pand .. | .por .. | .pxor .. | .pnot .. | .pcnt .. | .pfirst .. => true
  | _ => false

/-- A vector instruction as forwarding captures it: its place, its x or k operand and RNDCTL as they stand, its gang (R53, R70,
R171). A queue operand is popped later. -/
def asForwarded (s : State) (i : Instr) : VInstr :=
  { instr := i, pc := s.me.pc, num := s.me.num, order := s.ids, rndctl := s.me.rndctl
    sval := match vecSource i with
      | some (.x n) => some (s.me.xreg n.val)
      | some (.k n) => some (s.myCore.kreg n.val)
      | _ => none
    gang := if s.me.status.getLsbD 5 then (match s.myCore.gang with
      | some g => g.members
      | none => []) else [] }

/-- A vector instruction keeps the direction of the queues: it pops q0-q3 and pushes q4 or q5 (R75). -/
def vectorQueuesOk (i : Instr) : Bool :=
  (match vecSource i with
    | some (.q n) => n.val < 4
    | _ => true) &&
  match vecDest i with
    | some (.q n) => n.val = 4 || n.val = 5
    | _ => true

/-- The x or k operand that forwarding captures is sound (R70, R388). -/
def operandSound (s : State) (i : Instr) : Bool :=
  match vecSource i with
  | some (.x n) => !ruined s (.x n)
  | some (.k n) => !ruined s (.k n)
  | _ => true

/-- The body of a VLOOP: the k instructions retained last, oldest first, which the members of a gang repeat together where all of
them retain the same ones, and each alone otherwise (R158, R159; the gang's part is a reading, log 33). -/
def loopBody (s : State) (k : Nat) : List VInstr :=
  let own := (s.me.hist.take k).reverse
  let gang := (asForwarded s .vsync).gang
  let same := gang.all fun m => ((s.ctx m.1 m.2).hist.take k).reverse.map (·.instr) = own.map (·.instr)
  own.map fun b => { b with gang := if same then gang else [] }

/-- The sequencer has room: fewer than 16 instructions wait in it, and the instruction retained 16 before is no longer needed
(R70, R158). -/
def vectorRoom (s : State) : Bool :=
  s.me.seq.length < 16 && match s.me.hist[15]? with
    | some v => s.me.seq.all fun e => e.v.num ≠ v.num && e.body.all fun b => b.num ≠ v.num
    | none => true

/-- Lane i of a vector register of a context; a register not written in the firing reads zero (R50). -/
def lane (s : State) (c : CoreId) (x : Nat) (r : VReg) (i : Nat) : W32 := (((s.ctx c x).v.find r.val).getD []).getD i 0

/-- Bit i of a predicate; p0 is all ones (R65). -/
def active (s : State) (c : CoreId) (x : Nat) (p : PReg) (i : Nat) : Bool :=
  p.val = 0 || (((s.ctx c x).p.find p.val).getD 0).getLsbD i

/-- The lane of 16 that a modified source takes for lane i (R69). -/
def modIndex (m : SrcMod) (i : Nat) : Nat :=
  let seg := Nat.min (2 ^ m.lseg.val) 16
  let d := m.dist.val % seg
  let base := i - i % seg
  match m.cls with
  | .none => i
  | .rotate => base + (i % seg + d) % seg
  | .swap => base + Nat.xor (i % seg) d
  | .bcast => base + d

/-- Lane i of source a, after the modifier unless MSEL gives that to b (R68). -/
def laneA (s : State) (c : CoreId) (x : Nat) (a : VReg) (m : SrcMod) (i : Nat) : W32 :=
  lane s c x a (if m.onB then i else modIndex m i)

/-- Lane i of source b: a register, or the low half of a scalar in every lane (R131). -/
def laneB (s : State) (c : CoreId) (x : Nat) (w : W64) (b : VSrc) (m : SrcMod) (i : Nat) : W32 :=
  match b with
  | .v r => lane s c x r (if m.onB then modIndex m i else i)
  | .s _ => w.extractLsb' 0 32

/-- Instruction v of a running context's sequencer may execute as far as its context is concerned: no trap is pending or being
handled (R375), the core runs, every vector register holds 16 lanes, none of the context's registers is in an uncorrectable row
(R388), and no DTLD before it is in the slice (R227). -/
def ready (s : State) (c : CoreId) (x : Nat) (v : VInstr) : Prop :=
  (s.ctx c x).running = true ∧ (s.ctx c x).trapPend = none ∧ (s.ctx c x).status.getLsbD 2 = false ∧
    (s.core c).stopped = false ∧ (s.die c.die).fenced = false ∧ (∀ e ∈ (s.ctx c x).v, e.2.length = 16) ∧ (s.ctx c x).bad = [] ∧
    (∀ n, (s.ctx c x).qbad.getD n 0 = 0) ∧
    ∀ e ∈ (s.core c).slice, e.ctx = x → v.num ≤ e.num ∨ ∀ d a b, e.instr ≠ .dtld d a b

/-- The same for an instruction in no gang. -/
def mayRun (s : State) (c : CoreId) (x : Nat) (v : VInstr) : Prop := v.gang = [] ∧ ready s c x v

/-- Instruction v is the oldest in its context's sequencer and may execute. -/
def first (s : State) (c : CoreId) (x : Nat) (v : VInstr) (rest : List SeqEntry) : Prop :=
  (s.ctx c x).seq = { v := v } :: rest ∧ mayRun s c x v

/-- The scalar operand of instruction v: as captured, or the oldest entry of the queue it names (R70). -/
def scalarIs (s : State) (c : CoreId) (x : Nat) (v : VInstr) (w : W64) : Prop :=
  v.sval = some w ∨
    (v.sval = none ∧ ((vecSource v.instr = none ∧ w = 0) ∨
      ∃ n vs, vecSource v.instr = some (.q n) ∧ (s.ctx c x).queue n.val = w :: vs))

/-- What an executed vector instruction leaves alone: memory, banks, x and keep registers, other contexts and cores. -/
def vectorFrame (s t : State) (c : CoreId) (x : Nat) (rest : List SeqEntry) : Prop :=
  (t.ctx c x).seq = rest ∧ t.mem = s.mem ∧ t.banks = s.banks ∧ t.dies = s.dies ∧ (t.core c).k = (s.core c).k ∧
    (t.ctx c x).x = (s.ctx c x).x ∧ (t.ctx c x).pc = (s.ctx c x).pc ∧ (t.ctx c x).status = (s.ctx c x).status ∧
    (t.ctx c x).rndctl = (s.ctx c x).rndctl ∧ (∀ y, y ≠ x → t.ctx c y = s.ctx c y) ∧ (∀ d, d ≠ c → t.core d = s.core d)

/-- The instruction wrote F in the lanes of d that M names, and nothing else but its scalar source's queue and, for a
conversion, the seed of the core (R129, R130). -/
def writesLanes (s t : State) (c : CoreId) (x : Nat) (rest : List SeqEntry) (d : VReg) (M : Nat → Bool) (F : Nat → W32) : Prop :=
  vectorFrame s t c x rest ∧ (t.ctx c x).p = (s.ctx c x).p ∧ (∀ i, i < 16 → lane t c x d i = if M i then F i else lane s c x d i) ∧
    ∀ r, r ≠ d → ∀ i, lane t c x r i = lane s c x r i

/-- The instruction wrote predicate d, bit i as F says, and no other predicate or vector register. -/
def writesPred (s t : State) (c : CoreId) (x : Nat) (rest : List SeqEntry) (d : PReg) (F : Nat → Bool) : Prop :=
  vectorFrame s t c x rest ∧ (t.ctx c x).v = (s.ctx c x).v ∧ (∀ i, i < 16 → active t c x d i = F i) ∧
    ∀ r, r ≠ d → ∀ i, active t c x r i = active s c x r i

/-- The instruction pushed w into queue d and wrote nothing else. -/
def pushes (s t : State) (c : CoreId) (x : Nat) (rest : List SeqEntry) (d : SReg) (w : W64) : Prop :=
  vectorFrame s t c x rest ∧ (t.ctx c x).v = (s.ctx c x).v ∧ (t.ctx c x).p = (s.ctx c x).p ∧
    ∀ n, d = .q n → (t.ctx c x).queue n.val = (s.ctx c x).queue n.val ++ [w]

/-- Registers, modifier and predicate of an element-wise vector instruction: d, a, b, c (R135-R138, R141, R150). -/
def lanewise : Instr → Option (VReg × VReg × Option VSrc × Option VReg × SrcMod × PReg)
  | .vadd d a b m p _ | .vsub d a b m p _ | .vmul d a b m p _ | .vdiv d a b m p _ | .vmin d a b m p | .vmax d a b m p
  | .viadd d a b m p _ | .visub d a b m p _ | .vimul d a b m p _ | .vimulh d a b m p _ | .vimin d a b m p _
  | .vimax d a b m p _ | .vand d a b m p | .vor d a b m p | .vxor d a b m p | .vshl d a b m p | .vshr d a b m p
  | .vsra d a b m p => some (d, a, some b, none, m, p)
  | .vfma d a b c m p _ | .vfms d a b c m p _ | .vfnma d a b c m p _ => some (d, a, some b, some c, m, p)
  | .vabs d a m p | .vneg d a m p | .visat d a m p _ | .vmov d a m p | .vrcp d a m p | .vrsq d a m p | .vexp2 d a m p
  | .vlog2 d a m p | .vsin d a m p | .vcos d a m p | .vtanh d a m p | .verf d a m p => some (d, a, none, none, m, p)
  | _ => none

/-- An integer within bounds. -/
def within (lo hi v : Int) : Int := max lo (min hi v)

/-- The result of an integer operation: its low 32 bits, or clamped to the type's range with SAT (R136). -/
def intResult (t : IntSat) (v : Int) : W32 :=
  if !t.sat then BitVec.ofInt 32 v
  else if t.u then BitVec.ofInt 32 (within 0 (2 ^ 32 - 1) v)
  else BitVec.ofInt 32 (within (-2 ^ 31) (2 ^ 31 - 1) v)

/-- A lane as the integer its type makes it. -/
def asInt (u : Bool) (w : W32) : Int := if u then (w.toNat : Int) else w.toInt

/-- The value of a lane of an element-wise integer, logic or move instruction, and of VABS and VNEG (R134-R138, R141). -/
def wordLane (i : Instr) (a b : W32) : Option W32 :=
  let n := (b.extractLsb' 0 5).toNat
  match i with
  | .viadd _ _ _ _ _ t => some (intResult t (asInt t.u a + asInt t.u b))
  | .visub _ _ _ _ _ t => some (intResult t (asInt t.u a - asInt t.u b))
  | .vimul _ _ _ _ _ t => some (intResult t (asInt t.u a * asInt t.u b))
  | .vimulh _ _ _ _ _ u =>
    some (if u then (a.zeroExtend 64 * b.zeroExtend 64).extractLsb' 32 32 else (a.signExtend 64 * b.signExtend 64).extractLsb' 32 32)
  | .vimin _ _ _ _ _ u => some (if asInt u a ≤ asInt u b then a else b)
  | .vimax _ _ _ _ _ u => some (if asInt u a ≤ asInt u b then b else a)
  | .visat _ _ _ _ w =>
    some (match w with
      | .i8 => BitVec.ofInt 32 (within (-128) 127 a.toInt)
      | .n8 => BitVec.ofInt 32 (within 0 255 a.toInt)
      | .i16 => BitVec.ofInt 32 (within (-32768) 32767 a.toInt)
      | .n16 => BitVec.ofInt 32 (within 0 65535 a.toInt))
  | .vand .. => some (a &&& b)
  | .vor .. => some (a ||| b)
  | .vxor .. => some (a ^^^ b)
  | .vshl .. => some (a <<< n)
  | .vshr .. => some (a >>> n)
  | .vsra .. => some (a.sshiftRight n)
  | .vmov .. => some a
  | .vabs .. => some (a &&& 0x7FFFFFFF)
  | .vneg .. => some (a ^^^ 0x80000000)
  | _ => none

/-- Rounding mode and saturation of vector arithmetic: RND 0 takes RNDCTL's mode, to nearest where that is the stochastic one,
and saturates where either bit says so (R133). -/
def arithRounding (r : RndSat) (ctl : W64) : RMode × Bool :=
  match r.rnd with
  | .ctl => (if rndctlMode ctl = .sr then .rne else rndctlMode ctl, r.sat || ctl.getLsbD 3)
  | .rne => (.rne, r.sat)
  | .rz => (.rz, r.sat)
  | .ru => (.ru, r.sat)
  | .rd => (.rd, r.sat)
  | .sr => (.rne, r.sat)

/-- Rounding mode and saturation of a conversion: RND 5 and RNDCTL's mode may be stochastic (R133, R147). -/
def convertRounding (r : RndSat) (ctl : W64) : RMode × Bool :=
  match r.rnd with
  | .ctl => (rndctlMode ctl, r.sat || ctl.getLsbD 3)
  | .rne => (.rne, r.sat)
  | .rz => (.rz, r.sat)
  | .ru => (.ru, r.sat)
  | .rd => (.rd, r.sat)
  | .sr => (.sr, r.sat)

/-- The LFSR after n draws (R174). -/
def drawn (seed : W32) : Nat → W32
  | 0 => seed
  | n + 1 =>
    let s := drawn seed n
    if s.getLsbD 0 then (s >>> 1) ^^^ 0x80200003 else s >>> 1

/-- Active lanes of a context up to lane i: the draws that have been made once lane i has made its own (R149). -/
def activeUpTo (s : State) (c : CoreId) (x : Nat) (p : PReg) (i : Nat) : Nat :=
  ((List.range (i + 1)).filter (active s c x p)).length

/-- The draw that lane i rounds with, and SEED after all lanes: none is made where the rounding is not stochastic (R149, R173). -/
def drawOf (s : State) (c : CoreId) (x : Nat) (p : PReg) (stochastic : Bool) (i : Nat) : W32 :=
  if stochastic then drawn (s.core c).seed (activeUpTo s c x p i) else (s.core c).seed

/-- The value of a lane of float arithmetic and of the special functions: binary32 values decoded, the operation, one rounding
(R134, R135, R150). -/
def floatLane (i : Instr) (ctl : W64) (a b c : W32) : Option W32 :=
  let x := f32.decode a.toNat
  let y := f32.decode b.toNat
  let fin := fun (q : RMode × Bool) (v : FVal) => some (BitVec.ofNat 32 (f32.round q.1 q.2 v))
  match i with
  | .vadd _ _ _ _ _ r => let q := arithRounding r ctl; fin q (FVal.add q.1 x y)
  | .vsub _ _ _ _ _ r => let q := arithRounding r ctl; fin q (FVal.add q.1 x y.neg)
  | .vmul _ _ _ _ _ r => fin (arithRounding r ctl) (FVal.mul x y)
  | .vdiv _ _ _ _ _ r => fin (arithRounding r ctl) (FVal.div x y)
  | .vfma _ _ _ _ _ _ r =>
    let q := arithRounding r ctl; some (BitVec.ofNat 32 (f32.fma q.1 q.2 false false a.toNat b.toNat c.toNat))
  | .vfms _ _ _ _ _ _ r =>
    let q := arithRounding r ctl; some (BitVec.ofNat 32 (f32.fma q.1 q.2 false true a.toNat b.toNat c.toNat))
  | .vfnma _ _ _ _ _ _ r =>
    let q := arithRounding r ctl; some (BitVec.ofNat 32 (f32.fma q.1 q.2 true false a.toNat b.toNat c.toNat))
  | .vmin .. => some (BitVec.ofNat 32 (f32.minmax false a.toNat b.toNat))
  | .vmax .. => some (BitVec.ofNat 32 (f32.minmax true a.toNat b.toNat))
  | .vrcp .. => fin (.rne, false) (rcpVal x)
  | .vrsq .. => fin (.rne, false) (rsqVal x)
  | .vexp2 .. => fin (.rne, false) (exp2Val x)
  | .vlog2 .. => fin (.rne, false) (log2Val x)
  | .vsin .. => fin (.rne, false) (sinVal x)
  | .vcos .. => fin (.rne, false) (cosVal x)
  | .vtanh .. => fin (.rne, false) (tanhVal x)
  | .verf .. => fin (.rne, false) (erfVal x)
  | _ => none

/-! ### Number formats -/

/-- The magnitude of encoding k of a format in units of 2^b, b at most the exponent of its subnormal spacing, exponents going on
above the largest finite encoding (R163). -/
def gridUnits (t : FFmt) (b : Int) (k : Nat) : Nat :=
  let q : Int := 1 - t.bias - t.f
  if k < 2 ^ t.f then k * 2 ^ (q - b).toNat
  else (2 ^ t.f + k % 2 ^ t.f) * 2 ^ (q + (k / 2 ^ t.f : Nat) - 1 - b).toNat

/-- The largest finite encoding of a format, sign apart, and its sign bit (R164). -/
def topCode (t : FFmt) : Nat := if t = e4m3 then 0x7E else if t = e2m1 then 7 else (2 ^ t.e - 1) * 2 ^ t.f - 1
def signOf (t : FFmt) (neg : Bool) : Nat := if neg then 2 ^ (t.e + t.f) else 0

/-- The canonical NaN of a format; e2m1 has none and takes 0 (R147, R164). -/
def nanCode (t : FFmt) : Nat :=
  if t = e4m3 then 0x7F else if t = e2m1 then 0 else (2 ^ t.e - 1) * 2 ^ t.f + 2 ^ (t.f - 1)

/-- Width and sign of an integer type of VCVT, its bounds, and the format of a float type (R145, R166). -/
def intTy : CvtTy → Option (Nat × Bool)
  | .i32 => some (32, true)
  | .n32 => some (32, false)
  | .i16 => some (16, true)
  | .n16 => some (16, false)
  | .i8 => some (8, true)
  | .n8 => some (8, false)
  | .i4 => some (4, true)
  | _ => none
def lowest (w : Nat) (signed : Bool) : Int := if signed then -2 ^ (w - 1) else 0
def highest (w : Nat) (signed : Bool) : Int := if signed then 2 ^ (w - 1) - 1 else 2 ^ w - 1
def floatTy : CvtTy → Option FFmt
  | .f32 => some f32
  | .bf16 => some bf16
  | .f16 => some f16
  | .e4m3 => some e4m3
  | .e5m2 => some e5m2
  | .e2m1 => some e2m1
  | _ => none

/-- A small integer as a binary32 lane (R163). -/
def integerLane (n : Int) : W32 :=
  let a := n.natAbs
  if a = 0 then 0
  else BitVec.ofBool (n < 0) ++ BitVec.ofNat 8 (127 + a.log2) ++ BitVec.ofNat 23 ((a - 2 ^ a.log2) * 2 ^ (23 - a.log2))

/-! ### Gangs of vector instructions -/

/-- The members of a gang stand at one instruction i, each with it first in its sequencer and ready, in gang order; member j
forwarded it as vs j, and has rs j behind it (R52, R53). -/
def together (s : State) (g : List (CoreId × Nat)) (i : Instr) (vs : Nat → VInstr) (rs : Nat → List SeqEntry) (ws : Nat → W64) : Prop :=
  (g.length = 2 ∨ g.length = 4 ∨ g.length = 8) ∧ g.Nodup ∧
    ∀ j m, g[j]? = some m → (s.ctx m.1 m.2).seq = { v := vs j } :: rs j ∧ (vs j).instr = i ∧ (vs j).gang = g ∧
      (vs j).num = (vs 0).num ∧ ready s m.1 m.2 (vs j) ∧ scalarIs s m.1 m.2 (vs j) (ws j)

/-- Gang lane l of a register, and bit l of a predicate (R53). -/
def gangLane (s : State) (g : List (CoreId × Nat)) (r : VReg) (l : Nat) : W32 :=
  match g[l / 16]? with
  | some m => lane s m.1 m.2 r (l % 16)
  | none => 0
def gangActive (s : State) (g : List (CoreId × Nat)) (p : PReg) (l : Nat) : Bool :=
  match g[l / 16]? with
  | some m => active s m.1 m.2 p (l % 16)
  | none => false

/-- The gang lane that a modified source takes for lane i of n (R69). -/
def gangIndex (n : Nat) (m : SrcMod) (i : Nat) : Nat :=
  let seg := Nat.min (2 ^ m.lseg.val) n
  let d := m.dist.val % seg
  let base := i - i % seg
  match m.cls with
  | .none => i
  | .rotate => base + (i % seg + d) % seg
  | .swap => base + Nat.xor (i % seg) d
  | .bcast => base + d

/-- Sources a and b of gang lane l (R68, R131, R162). -/
def gangA (s : State) (g : List (CoreId × Nat)) (a : VReg) (m : SrcMod) (l : Nat) : W32 :=
  gangLane s g a (if m.onB then l else gangIndex (16 * g.length) m l)
def gangB (s : State) (g : List (CoreId × Nat)) (ws : Nat → W64) (b : VSrc) (m : SrcMod) (l : Nat) : W32 :=
  match b with
  | .v r => gangLane s g r (if m.onB then gangIndex (16 * g.length) m l else l)
  | .s _ => (ws (l / 16)).extractLsb' 0 32

/-- What an instruction of a gang leaves alone: memory, banks, the members' x and keep registers, PCs and status, every core
that holds no member. -/
def gangFrame (s t : State) (g : List (CoreId × Nat)) (rs : Nat → List SeqEntry) : Prop :=
  t.mem = s.mem ∧ t.banks = s.banks ∧ t.dies = s.dies ∧ (∀ d, (∀ m ∈ g, m.1 ≠ d) → t.core d = s.core d) ∧
    ∀ j m, g[j]? = some m → (t.ctx m.1 m.2).seq = rs j ∧ (t.ctx m.1 m.2).x = (s.ctx m.1 m.2).x ∧
      (t.ctx m.1 m.2).pc = (s.ctx m.1 m.2).pc ∧ (t.ctx m.1 m.2).status = (s.ctx m.1 m.2).status ∧ (t.core m.1).k = (s.core m.1).k

/-- The gang wrote F in the lanes of d that M names, each member its own 16, and no other vector or predicate register. -/
def gangWrites (s t : State) (g : List (CoreId × Nat)) (rs : Nat → List SeqEntry) (d : VReg) (M : Nat → Bool) (F : Nat → W32) : Prop :=
  gangFrame s t g rs ∧ (∀ l, l < 16 * g.length → gangLane t g d l = if M l then F l else gangLane s g d l) ∧
    (∀ r, r ≠ d → ∀ l, gangLane t g r l = gangLane s g r l) ∧ ∀ p l, gangActive t g p l = gangActive s g p l

/-- Every member pushed w into its own queue n, and nothing else was written. -/
def gangPushes (s t : State) (g : List (CoreId × Nat)) (rs : Nat → List SeqEntry) (n : Nat) (w : W64) : Prop :=
  gangFrame s t g rs ∧ (∀ r l, gangLane t g r l = gangLane s g r l) ∧ (∀ p l, gangActive t g p l = gangActive s g p l) ∧
    ∀ m ∈ g, (t.ctx m.1 m.2).queue n = (s.ctx m.1 m.2).queue n ++ [w]

/-- VRED's tree of k levels over lanes: neighbours first (R144). -/
def treeOf (f : W32 → W32 → W32) (l : Nat → W32) : Nat → Nat → W32
  | 0, i => l i
  | k + 1, i => f (treeOf f l k (2 * i)) (treeOf f l k (2 * i + 1))

/-! ### Elements of the windows -/

/-- Nibbles of an element of a window (R153). -/
def windowNibbles (win : Nat) : Nat := if win = 0 then 8 else if win = 7 ∨ win = 8 then 4 else if win = 3 ∨ win = 6 then 1 else 2

/-- Nibble q of some bytes: the low one of its byte where q is even (R153). -/
def nibbleAt (f : Nat → Byte) (q : Nat) : Nat := if q % 2 = 0 then (f (q / 2)).toNat % 16 else (f (q / 2)).toNat / 16

/-- The element of nb nibbles at nibble position q, lowest nibble first. -/
def elementBits (f : Nat → Byte) (q : Nat) : Nat → Nat
  | 0 => 0
  | n + 1 => elementBits f q n + nibbleAt f (q + n) * 16 ^ n

/-- The nibble position of lane i of VLD or VST, the offset with its displacement given (R153). -/
def placeOf (o : Nat) (m : VMemImm) (nb i : Nat) : Nat :=
  let st : Int := match m.stride with
    | some v => v.toInt
    | none => 1
  ((2 * (o : Int) + i * st * nb) % 131072).toNat

/-- The float format of a window, where it has one (R169). -/
def windowFloat (win : Nat) : Option FFmt :=
  match win with
  | 1 => some e4m3
  | 2 => some e5m2
  | 3 => some e2m1
  | 7 => some bf16
  | 8 => some f16
  | _ => none

/-- An element read as a lane (R154): the bits, an extended integer, or the exact binary32 value. -/
def widened (k : Core) (win n : Nat) : W32 :=
  match win with
  | 0 => BitVec.ofNat 32 n
  | 4 => (BitVec.ofNat 8 n).signExtend 32
  | 5 => (BitVec.ofNat 8 n).zeroExtend 32
  | 6 => (BitVec.ofNat 4 n).signExtend 32
  | 9 => BitVec.ofNat 32 (f32.convert .rne false 0 (dtDecode k.dt0 n))
  | 10 => BitVec.ofNat 32 (f32.convert .rne false 0 (dtDecode k.dt1 n))
  | _ => match windowFloat win with
    | some t => BitVec.ofNat 32 (f32.convert .rne false 0 (t.decode n))
    | none => 0

/-- A narrow integer as VST writes it: clamped with SAT, else its low bits (R154). -/
def narrowInt (lo hi : Int) (width : Nat) (sat : Bool) (v : Int) : Nat :=
  ((if sat then within lo hi v else v) % 2 ^ width).toNat

/-- A lane written as an element (R154), in RNDCTL's mode, r being its draw. -/
def narrowed (k : Core) (win : Nat) (ctl : W64) (r : W32) (v : W32) : Nat :=
  match win with
  | 0 => v.toNat
  | 4 => narrowInt (-128) 127 8 (ctl.getLsbD 3) v.toInt
  | 5 => narrowInt 0 255 8 (ctl.getLsbD 3) v.toInt
  | 6 => narrowInt (-8) 7 4 (ctl.getLsbD 3) v.toInt
  | 9 => dtEncode k.dt0 (f32.decode v.toNat)
  | 10 => dtEncode k.dt1 (f32.decode v.toNat)
  | _ => match windowFloat win with
    | some t => t.convert (rndctlMode ctl) (ctl.getLsbD 3) r.toNat (f32.decode v.toNat)
    | none => 0

/-- A store through the window draws (R149, R154). -/
def stochasticStore (win : Nat) (ctl : W64) : Bool := rndctlMode ctl = .sr && (windowFloat win).isSome

/-- Lane i is active and its element of nb nibbles, at place P i, covers nibble q. -/
def coversNibble (act : Nat → Bool) (P : Nat → Nat) (nb i q : Nat) : Prop := i < 16 ∧ act i = true ∧ P i ≤ q ∧ q < P i + nb

/-- Elements stored by the active lanes, the highest lane's remaining where two cover a nibble (R155, R157); f and f' are the bytes
before and after, E i the element of lane i. -/
def elementsStored (f f' : Nat → Byte) (act : Nat → Bool) (P : Nat → Nat) (nb : Nat) (E : Nat → Nat) : Prop :=
  (∀ i q, coversNibble act P nb i q → (∀ j, i < j → ¬ coversNibble act P nb j q) →
    nibbleAt f' q = E i / 16 ^ (q - P i) % 16) ∧
  ∀ q, (∀ i, ¬ coversNibble act P nb i q) → nibbleAt f' q = nibbleAt f q

/-- The window code of an ELT field (R156, R169). -/
def windowCode : Window → Nat
  | .raw => 0
  | .e4m3 => 1
  | .e5m2 => 2
  | .e2m1 => 3
  | .i8 => 4
  | .n8 => 5
  | .i4 => 6
  | .bf16 => 7
  | .f16 => 8
  | .dt0 => 9
  | .dt1 => 10

/-- The nibble of the address space that lane offset `off` names from a base (R156). -/
def gatherNibble (w : W64) (off : W32) (sh nb : Nat) : Nat :=
  if nb = 1 then ((2 * (w.toNat : Int) + off.toInt * 2 ^ sh) % 2 ^ 65).toNat
  else 2 * ((w.toNat + off.toInt * 2 ^ sh) % 2 ^ 64).toNat

/-! ### Matrix instructions -/

/-- A source field that names a sound x or k register, and its value; matrix instructions pop no queue (R203, R388). -/
def reads (s : State) (a : SReg) (x : W64) : Prop :=
  ruined s a = false ∧ match a with
  | .x n => x = if n.val = 0 then 0 else s.me.x.getD n.val 0
  | .k n => x = s.myCore.k.getD n.val 0
  | .q _ => False

/-- The slice takes another matrix instruction of the context: fewer than 8 stand in it, those that a trap holds aside not
counted, no first access through a slot that a HAND filled is under way, and no refusal of the joint row is to be taken first (R203,
R215, R255, R376). -/
def sliceRoom (s : State) : Bool :=
  !s.me.refuse && (s.myCore.slice.filter fun e => !e.held).length < 8 && !s.handWaits s.cur s.curCtx

/-- No access stands before a matrix instruction: no forwarded vector instruction, no store of the core in the fabric or
before a bank port, no MSTORE in the slice (R72, R210, R220). -/
def noneBefore (s : State) : Bool :=
  s.me.seq.isEmpty && s.fwrites.all (fun w => w.src ≠ s.cur) && (s.banks.all fun e => e.2.waiting.all fun w => w.src ≠ s.cur) &&
    s.myCore.slice.all fun e =>
      match e.instr with
      | .mstore .. => false
      | _ => true

/-- A handler writes the trap tile alone and may read any; another firing uses a0-a3 (R202). -/
def tileOk (s : State) (d : TileCode) (writes : Bool) : Bool :=
  if s.me.status.getLsbD 2 then d.val = 4 || !writes else d.val ≠ 4

/-- An address that passes the check of a matrix operand: a berth of the core, or a fabric address of the core's own cluster,
its bank present and open to the firing; bank, offset and window as they enter the slice (R205). -/
def bankOperand (s : State) (x : W64) (m : MOp) : Prop :=
  m.addr = x ∧ m.off = (x.extractLsb' 0 16).toNat ∧
    ((opens s x m.bank = true ∧ m.win = (x.extractLsb' 28 4).toNat) ∨
      ∃ c, reaches s x c ∧ (x.extractLsb' 48 11).toNat = s.logical s.cur.siteId ∧
        (s.core c).berth (x.extractLsb' 16 3).toNat = some m.bank ∧
        ((s.bank m.bank).tag = s.me.compart ∨ s.me.compart = 63 ∧ (s.bank m.bank).tag ≠ 0) ∧
        m.win = (x.extractLsb' 59 4).toNat)

/-- An address that MSCALE or MSTREAM may take: window 0, and a local one opens a berth of the core (R225, R226, R420). -/
def sourceOk (s : State) (x : W64) : Prop :=
  (x.getLsbD 63 = true ∧ x.extractLsb' 59 4 = 0) ∨ ∃ b, opens s x b = true ∧ x.extractLsb' 28 4 = 0

/-- A status destination of a matrix instruction: x0 or another register that is no queue, or q6 or q7 with room (R203). -/
def statusRoom (s : State) : SReg → Bool
  | .q n => 6 ≤ n.val && (s.me.queue n.val).length < 2
  | _ => true

/-- A matrix instruction has issued: it stands last in the slice, not begun, and the context's ISSUED has risen by 1; no
register, bank or memory has changed (R203, R204). -/
def enters (s u : State) (i : Instr) : Prop :=
  stands s u (following s) ∧ registersKept s u ∧ u.banks = s.banks ∧ u.mem = s.mem ∧ u.me.issued = s.me.issued + 1 ∧
    u.me.consumed = s.me.consumed ∧ u.me.done = s.me.done ∧
    ∃ e, u.myCore.slice = s.myCore.slice ++ [e] ∧ e.instr = i ∧ e.ctx = s.curCtx ∧ e.fid = s.me.fid ∧ e.pc = s.me.pc ∧
      e.begun = false ∧ e.cons = false ∧ e.held = false

/-- The first instruction of a core's slice, its firing still running, the core's tiles sound (R388), and those behind it. -/
def sliceReaches (s : State) (c : CoreId) (e : MEntry) (rest : List MEntry) : Prop :=
  (s.core c).slice = e :: rest ∧ (∀ r ∈ rest, r.order ≠ e.order) ∧ e.held = false ∧ (e.paired = false ∨ e.begun = true) ∧ (s.core c).bad = [] ∧
    (s.ctx c e.ctx).running = true ∧ (s.ctx c e.ctx).fid = e.fid ∧ (s.ctx c e.ctx).refuse = false ∧
    (s.core c).stopped = false ∧ (s.die c.die).fenced = false

/-- Element (m, n) of a tile of a core (R201). -/
def element (s : State) (c : CoreId) (d m n : Nat) : W32 := (((s.core c).tiles.getD d []).getD (32 * m + n) 0)

/-- The instruction leaves the slice: DONE rises by 1, and the rest of the slice stands (R204). -/
def leaves (s t : State) (c : CoreId) (e : MEntry) (rest : List MEntry) : Prop :=
  (t.core c).slice = rest ∧ (t.ctx c e.ctx).done = (s.ctx c e.ctx).done + 1 ∧
    (t.ctx c e.ctx).consumed = (s.ctx c e.ctx).consumed

/-- The instruction's reads are done: CONSUMED rises by 1, and it stays in the slice for its effect (R204). -/
def consumes (s t : State) (c : CoreId) (e : MEntry) (rest : List MEntry) : Prop :=
  (t.core c).slice = { e with cons := true } :: rest ∧ (t.ctx c e.ctx).consumed = (s.ctx c e.ctx).consumed + 1 ∧
    (t.ctx c e.ctx).done = (s.ctx c e.ctx).done

/-- What a step of the slice leaves alone: memory, x, vector and keep registers and the program counters of the core. -/
def sliceFrame (s t : State) (c : CoreId) : Prop :=
  t.mem = s.mem ∧ (t.core c).k = (s.core c).k ∧ (∀ d, d ≠ c → t.core d = s.core d) ∧
    ∀ y, (t.ctx c y).x = (s.ctx c y).x ∧ (t.ctx c y).v = (s.ctx c y).v ∧ (t.ctx c y).pc = (s.ctx c y).pc ∧
      (t.ctx c y).status = (s.ctx c y).status

/-- The tiles of a core but for those from d0 below d1 are as before. -/
def tilesKept (s t : State) (c : CoreId) (d0 d1 : Nat) : Prop :=
  ∀ d m n, (d < d0 ∨ d1 ≤ d) → element t c d m n = element s c d m n

/-- Nibble position of element n of row r, the pitch in units of 16 bytes; it wraps in the bank (R206). -/
def rowPlace (off pitch nb r n : Nat) : Nat := (2 * off + 32 * pitch * r + n * nb) % 131072

/-- Nibbles of an element of a matrix operand, and that its offset fits them (R206). -/
def tileNibbles (win : Nat) (f64 : Bool) : Nat := if f64 then 16 else windowNibbles win
def fits (m : MOp) (f64 : Bool) : Prop := m.win ≤ 10 ∧ (f64 = true → m.win = 0) ∧ 2 * m.off % tileNibbles m.win f64 = 0

/-- An element of MLOAD as the tile takes it: the bits, or its exact binary32 value (R220). -/
def tileLane (k : Core) (win n : Nat) : W32 :=
  match win with
  | 4 => integerLane (BitVec.ofNat 8 n).toInt
  | 5 => integerLane (n : Int)
  | 6 => integerLane (BitVec.ofNat 4 n).toInt
  | _ => widened k win n

/-- The element that MSTORE makes of a lane (R146-R148, R220): its bits, or the conversion in mode and saturation q with draw r. -/
def tileElement (k : Core) (win : Nat) (q : RMode × Bool) (r v : Nat) : Nat :=
  match win with
  | 0 => v
  | 4 => convertLane k.tables .i8 .f32 q.1 q.2 r v
  | 5 => convertLane k.tables .n8 .f32 q.1 q.2 r v
  | 6 => convertLane k.tables .i4 .f32 q.1 q.2 r v
  | 9 => dtEncode k.dt0 (f32.decode v)
  | 10 => dtEncode k.dt1 (f32.decode v)
  | _ => match windowFloat win with
    | some t => t.convert q.1 q.2 r (f32.decode v)
    | none => 0

/-- Element (m, n) of a tile or, with F64, of the tile pair from d, the low words in d (R201, R220). -/
def tileWord (s : State) (c : CoreId) (d : Nat) (f64 : Bool) (m n : Nat) : Nat :=
  (element s c d m n).toNat + (if f64 then (element s c (d + 1) m n).toNat * 2 ^ 32 else 0)

/-- MSTORE's element number j in its core: row j / 32, the j-th draw where it rounds stochastically (R220). -/
def storedElement (s : State) (c : CoreId) (e : MEntry) (d : Nat) (f64 : Bool) (r : RndSat) (win j : Nat) (n : Nat) : Nat :=
  let q := convertRounding r e.rndctl
  let draw := if q.1 = .sr ∧ (windowFloat win).isSome then (drawn (s.core c).seed (n + 1 - j)).toNat else 0
  tileElement (s.core c) win q draw (tileWord s c d f64 (n / 32) (n % 32))

/-- The 1,024 elements of a store stand in the bytes, the highest-numbered remaining where two cover a nibble (R220). -/
def tileStored (f f' : Nat → Byte) (P : Nat → Nat) (nb : Nat) (E : Nat → Nat) : Prop :=
  (∀ i q, i < 1024 → P i ≤ q → q < P i + nb → (∀ j, i < j → j < 1024 → ¬ (P j ≤ q ∧ q < P j + nb)) →
    nibbleAt f' q = E i / 16 ^ (q - P i) % 16) ∧
  ∀ q, (∀ i, i < 1024 → ¬ (P i ≤ q ∧ q < P i + nb)) → nibbleAt f' q = nibbleAt f q

/-- The table of operand windows that MMA pairs, and the size of a K-group (R207). -/
def pairs (a b : Nat) (f64 : Bool) : Option Nat :=
  let half := fun w => w = 7 ∨ w = 8
  let small := fun w => w = 1 ∨ w = 2 ∨ w = 3 ∨ w = 9 ∨ w = 10
  let int := fun w => w = 4 ∨ w = 5 ∨ w = 6
  if f64 then (if a = 0 ∧ b = 0 then some 1 else none)
  else if a = 0 ∧ b = 0 then some 4
  else if (half a ∧ (half b ∨ small b)) ∨ (small a ∧ half b) then some 8
  else if (small a ∧ small b) ∨ (int a ∧ int b) then some 16
  else none

/-- A byte offset through the swizzle of chunk 2^c and row shift r (R208). -/
def swizzled (c r o : Nat) : Nat := Nat.xor o (o / 2 ^ r % 2 ^ (9 - c) * 2 ^ c)

/-- The nibble position of element k of vector r of an MMA operand (R206, R208). -/
def operandPlace (i : MmaImm) (sw : Bool) (m : MOp) (pitch r k : Nat) : Nat :=
  let q := rowPlace m.off pitch (tileNibbles m.win i.f64) r k
  if sw then 2 * swizzled (i.swc.val + 4) (i.sws.val + 9) (q / 2) + q % 2 else q

/-- The exact value of an element read through a window (R163, R166, R167, R169). -/
def exactValue (k : Core) (win : Nat) (wide : Bool) (n : Nat) : FVal :=
  let int := fun z : Int => FVal.fin (decide (z < 0)) z.natAbs 0
  match win with
  | 0 => if wide then f64.decode n else f32.decode n
  | 4 => int (BitVec.ofNat 8 n).toInt
  | 5 => int n
  | 6 => int (BitVec.ofNat 4 n).toInt
  | 9 => dtDecode k.dt0 n
  | 10 => dtDecode k.dt1 n
  | _ => match windowFloat win with
    | some t => t.decode n
    | none => .nan

/-- The E8M0 scale of vector r at depth k: 1 without a scale source (R165, R211). -/
def scaleAt (s : State) (sc : Option MOp) (r k : Nat) : FVal :=
  match sc with
  | none => .fin false 1 0
  | some q =>
    let x := (bankByte s q.bank ((q.off + 32 * (k / 32) + r) % 65536)).toNat
    if x = 255 then .nan else .fin false 1 ((x : Int) - 127)

/-- Element k of vector r of an operand, times its scale. -/
def operandValue (s : State) (c : CoreId) (i : MmaImm) (sw : Bool) (m : MOp) (pitch : Nat) (sc : Option MOp) (r k : Nat) : FVal :=
  (exactValue (s.core c) m.win i.f64
    (elementBits (bankByte s m.bank) (operandPlace i sw m pitch r k) (tileNibbles m.win i.f64))).mul (scaleAt s sc r k)

/-- The exact sum of the products of one K-group for element (m, n) (R175, R176). -/
def productSum (s : State) (c : CoreId) (e : MEntry) (i : MmaImm) (a b : MOp) (m n k0 k1 : Nat) : FVal :=
  groupSum (decide (4 ≤ a.win ∧ a.win ≤ 6))
    ((List.range (k1 - k0)).map fun j => operandValue s c i i.swa a i.pa.val e.scA m (k0 + j))
    ((List.range (k1 - k0)).map fun j => operandValue s c i i.swb b i.pb.val e.scB n (k0 + j))

/-- One decision of a skip stream, w being the list's next entry (R212): whether the group is kept, and the stream after it. -/
def decision (t : Stream) (w : BitVec 16) : Bool × Stream :=
  if t.live = false then (true, t)
  else if 0 < t.skip then (false, { t with skip := t.skip - 1 })
  else if 0 < t.keep then (true, { t with keep := t.keep - 1 })
  else
    let u := { t with addr := t.addr.extractLsb' 16 48 ++ (t.addr.extractLsb' 0 16 + 2) }
    if w = 0 then (true, { u with live := false })
    else if w.extractLsb' 8 8 = 0 then (true, { u with skip := 0, keep := (w.extractLsb' 0 8).toNat - 1 })
    else (false, { u with skip := (w.extractLsb' 8 8).toNat - 1, keep := (w.extractLsb' 0 8).toNat })

/-- The entry that a stream reads next, in the bank that the MMA's issue resolved; any word where it reads none (R205, R212). -/
def nextEntry (s : State) (e : MEntry) (t : Stream) (w : BitVec 16) : Prop :=
  t.live = true → t.skip = 0 → t.keep = 0 →
    ∃ q, e.skip = some q ∧ q.addr.extractLsb' 16 3 = t.addr.extractLsb' 16 3 ∧ calm s q.bank = true ∧ t.addr.getLsbD 0 = false ∧
      w = le2 (bankByte s q.bank) (t.addr.extractLsb' 0 16).toNat

/-- The four cores of a site have each an instruction of a context at the head of their slices, its firing running and waited
for by nothing. -/
def rowReaches (s : State) (n : SiteId) (h : CoreId → MEntry) (r : CoreId → List MEntry) : Prop :=
  ∀ c ∈ n.cores, (s.core c).slice = h c :: r c ∧ (∀ e ∈ r c, e.order ≠ (h c).order) ∧ (h c).held = false ∧ (s.core c).bad = [] ∧
    (s.ctx c (h c).ctx).running = true ∧ (s.ctx c (h c).ctx).fid = (h c).fid ∧ (s.ctx c (h c).ctx).refuse = false ∧
    (s.core c).stopped = false ∧ (s.die c.die).fenced = false ∧ ((s.core c).ctxs.map (·.1)).Nodup

/-- What the A sides of paired MMAs must have in common (R214). -/
def sideOf (e : MEntry) (m : MOp) (i : MmaImm) :
    BankId × Nat × Nat × Nat × Nat × Option (Nat × Nat) × Bool × Bool × Option (BankId × Nat) :=
  (m.bank, m.off, m.win, i.km1.val, i.pa.val, (if i.swa then some (i.swc.val, i.sws.val) else none), i.f64, i.sc,
    e.scA.map fun q => (q.bank, q.off))

/-! ### Banks -/

/-- The core that a fabric-address operand of the bank instructions names, a core of the issuing core's span (R194). -/
def names (s : State) (x : W64) : Option CoreId :=
  s.fabricCore s.cur.siteId (x.extractLsb' 48 11).toNat (x.extractLsb' 46 2).toNat

/-- The slot it names. -/
def slotOf (x : W64) : Nat := (x.extractLsb' 16 3).toNat

/-- The issuing context and core have no access under way: nothing forwarded, nothing in the slice, no issued access of another
context (R188). -/
def idleCore (s : State) : Bool := s.me.seq.isEmpty && s.myCore.slice.isEmpty && s.myCore.ctxs.all fun e => e.2.touch.isEmpty

/-- No copy is open on a bank and none waits for it. -/
def noCopies (s : State) (b : BankId) : Bool := !(s.bank b).wmOpen && (s.bank b).queue.isEmpty

/-- No write is held or waits at a bank's port. -/
def noHeld (s : State) (b : BankId) : Bool := (s.bank b).held.isEmpty && (s.bank b).waiting.isEmpty

/-- A copy waits for a bank behind its open envelope, or for it to open (R196). -/
def copyWaits (k : Bank) : Bool := if k.wmOpen then 2 ≤ k.queue.length else !k.queue.isEmpty

/-- BINFO's description of a berth of a core (R196). -/
def berthWord (s : State) (c : CoreId) (slot : Nat) : W64 :=
  match (s.core c).berth slot with
  | none => 0
  | some b =>
    let k := s.bank b
    0#37 ++ BitVec.ofNat 11 (s.logical b.siteId) ++ 0#3 ++ BitVec.ofNat 5 b.num ++ BitVec.ofBool (copyWaits k) ++
      BitVec.ofBool k.wmFroz ++ BitVec.ofBool k.wmSusp ++ BitVec.ofBool k.wmOpen ++ BitVec.ofBool k.shadow.isSome ++
      BitVec.ofBool (b.siteId ≠ c.siteId) ++ 0#1 ++ 1#1

/-- Banks other than those listed are as before. -/
def banksKept (s u : State) (l : List BankId) : Prop := ∀ c, c ∉ l → u.bank c = s.bank c

/-! ### Messages -/

/-- An entry of the handler table as a core's cluster holds it (R38). -/
def entryAt (s : State) (c : CoreId) (h : Nat) : BitVec 128 := (s.cluster c.siteId).handlers.getD h 0

/-- The counter that a message names, and the handler: its own with DIRECT, else the counter's (R40, R43). -/
def counterOf (s : State) (c : CoreId) (f : Flight) : Counter := (s.core c).counter (f.msg.h0.extractLsb' 24 6).toNat
def handlerOf (s : State) (c : CoreId) (f : Flight) : Nat :=
  if f.msg.h0.getLsbD 32 then (f.msg.h0.extractLsb' 16 8).toNat else (counterOf s c f).handler.toNat

/-- The message comes to a valid handler, not to the stray one (R399). -/
def handled (s : State) (c : CoreId) (f : Flight) : Prop :=
  (entryAt s c (handlerOf s c f)).getLsbD 96 = true ∧ (f.msg.h0.getLsbD 32 = true ∨ (counterOf s c f).value ≠ 0)

/-- The handler entry that the sender's compartment is compared with (R356). -/
def comparedWith (s : State) (c : CoreId) (f : Flight) : BitVec 128 :=
  let e := entryAt s c (handlerOf s c f)
  if e.getLsbD 96 && (f.msg.h0.getLsbD 32 || (counterOf s c f).value ≠ 0) then e else entryAt s c 254

/-- A message stands first on its way to a core, from an engine or from another core, its way over the straits open, no fault
report, stop token or merge message, nothing before it at the port (R42, R278). -/
def reachesPort (s : State) (c : CoreId) (f : Flight) (m : MsgFrom) (rest : List Flight) : Prop :=
  f.dest = c ∧ f.msg.h0.getLsbD 33 = false ∧ f.msg.h0.getLsbD 35 = false ∧ f.msg.h0.getLsbD 36 = false ∧ f.merged = false ∧
    (s.die c.die).fenced = false ∧ (s.core c).portq = [] ∧
    ((m = .engine 0 ∧ s.engine = f :: rest ∧ f.src = none ∧
        (let d := f.origin.getD ((f.chan.getD c).die)
         d = c.die ∨ s.routed ((s.partOfSite c.siteId).getD 0) d c.die = true)) ∨
      ∃ o, m = .core o 0 ∧ (s.core o).outq = f :: rest ∧ f.src = some o ∧ (s.core o).stopped = false ∧ (s.die o.die).fenced = false ∧
        (o.die = c.die ∨ s.routed ((s.partOfSite o.siteId).getD 0) o.die c.die = true))

/-- The core that a message's header names, in the span of a core (R126). -/
def addressee (s : State) (o : CoreId) (f : Flight) : Option CoreId :=
  s.fabricCore o.siteId (f.msg.h0.extractLsb' 0 11).toNat (f.msg.h0.extractLsb' 11 2).toNat

/-- A message that is not refused: an engine's, or one that names the core and a handler of its sender's compartment (R126, R356). -/
def admitted (s : State) (c : CoreId) (f : Flight) : Prop :=
  f.src = none ∨ ∃ o, f.src = some o ∧ addressee s o f = some c ∧
    ((comparedWith s c f).getLsbD 96 = true → ((comparedWith s c f).extractLsb' 90 6).toNat = f.compart)

/-- The message has left the place it came from. -/
def departed (t : State) (m : MsgFrom) (rest : List Flight) : Prop :=
  (m = .engine 0 → t.engine = rest) ∧ ∀ o, m = .core o 0 → (t.core o).outq = rest

/-- A message with a stray code in H1 bits 39:32 (R399). -/
def withStray (m : Msg) (code : Nat) : Msg :=
  { m with h1 := m.h1.extractLsb' 40 24 ++ BitVec.ofNat 8 code ++ m.h1.extractLsb' 0 32 }

/-! ### Copies and straits -/

/-- The request words of CPYQ in x(n) to x(n + 3) as a copy that the firing asks for (R292-R296). -/
def request (s : State) (n : Nat) (src dst : Option BankId) : Copy :=
  { id := s.myCore.chan.next, w0 := s.me.x.getD n 0, w1 := s.me.x.getD (n + 1) 0, w2 := s.me.x.getD (n + 2) 0
    w3 := s.me.x.getD (n + 3) 0, src := src, dst := dst, sv := s.me.status.getLsbD 1, compart := s.me.compart, fid := s.me.fid }

/-- The core whose berth table an address of a copy names, its form checked: the own core, a core of the span, none for a global
address (R292). -/
def endsAt (s : State) (v : W64) (c : Option CoreId) : Prop :=
  (c = some s.cur ∧ v.extractLsb' 32 32 = 0 ∧ (v.extractLsb' 28 4).toNat ≤ 10 ∧ v.extractLsb' 19 9 = 0) ∨
    (∃ k, c = some k ∧ reaches s v k) ∨ (c = none ∧ v.extractLsb' 57 7 = 0 ∧ v.extractLsb' 32 32 ≠ 0)

/-- A bank's tag allows an access from a compartment (R355). -/
def tagOpen (s : State) (comp : Nat) (b : BankId) : Prop :=
  (s.bank b).tag = comp ∨ comp = 63 ∧ (s.bank b).tag ≠ 0

/-- An end of a copy and the bank that stands there, none for a global address. -/
def copyEnd (s : State) (v : W64) (b : Option BankId) : Prop :=
  ∃ c, endsAt s v c ∧ match c with
    | some k => ∃ x, b = some x ∧ (s.core k).berth (slotOf v) = some x
    | none => b = none

/-- A copy request that passes every check of R310: fields, ends, alignment, limits, the core that its message goes to; without a
sluice the tags of its banks too (R355). -/
def acceptable (s : State) (p : Copy) : Prop :=
  p.fieldsOk = true ∧ copyEnd s p.w0 p.src ∧ copyEnd s p.w1 p.dst ∧ p.w0.extractLsb' 0 2 = 0 ∧ p.w1.extractLsb' 0 2 = 0 ∧
    p.limitsOk p.dst.isSome = true ∧ (p.mkind = 0 ∨ p.mdest < s.spanCoreCount s.cur.siteId) ∧
    (p.sluice = 0 → ∀ k, p.src = some k ∨ p.dst = some k → tagOpen s s.me.compart k)

/-- The sluice that a copy names, in the world of the issuing core's partition (R360). -/
def sluiceOf (s : State) (p : Copy) (q : Sluice) : Prop :=
  ∃ w, (s.lantern.worlds.find? fun w => w.part = s.myPart) = some w ∧ q = w.sluices.getD p.sluice {}

/-- A sluice lets a copy of a firing of compartment f through (R360). -/
def lets (s : State) (f : Nat) (p : Copy) (q : Sluice) : Prop :=
  (f = q.frm ∨ f = q.into ∨ f = 63) ∧ (∀ b, p.src = some b → (s.bank b).tag = q.frm) ∧ (∀ b, p.dst = some b → (s.bank b).tag = q.into) ∧
    p.rb * p.rows * p.planes ≤ q.allow.toNat

/-- A copy that comes first in its core's channel and may land (R291). -/
def landsNext (s : State) (c : CoreId) (p : Copy) (rest : List Copy) : Prop :=
  (s.core c).chan.places = p :: rest ∧ (p.st = .waiting ∨ p.st = .landing) ∧ (∀ r ∈ rest, (s.core c).chan.taken ≠ some r.id) ∧
    (s.core c).stopped = false ∧ (s.die c.die).fenced = false

/-- The bank offset at which a copy lands a destination byte, and back: through the swizzle or as it is (R208, R298). -/
def landsAt (p : Copy) (o : Nat) : Nat := if p.swz then swizzled p.swc p.sws o else o

/-- Where a unit's bytes go in global memory: the page that its first covered byte lies on, translated and good for a write. -/
def unitOn (s : State) (c : CoreId) (p : Copy) (e : TlbEntry) (pa : Nat) : Prop :=
  (∃ sa, p.sourceOf p.nextByte = some sa) ∧ p.pos % 64 = 0 ∧
    (∃ k, s.partOfSite c.siteId = some k ∧ (s.core c).ptbase.getLsbD 0 = true ∧
      s.tlbLookup c k (rootPage (s.core c).ptbase) p.nextByte = some e) ∧
    e.peer = false ∧ e.va ≤ p.nextByte ∧ pa = e.pa + (p.nextByte - e.va) ∧ p.stopAt ≤ 2 ^ 57

/-- Transfer ID a comes before b (R296). -/
def before (a b : BitVec 32) : Bool := decide (1 ≤ (b - a).toNat) && decide ((b - a).toNat < 2 ^ 31)

/-- The copy of an ID that a core's channel holds. -/
def copyOf (s : State) (c : CoreId) (id : BitVec 32) : Option Copy := (s.core c).chan.places.find? fun p => p.id = id

/-- An accepted copy that is not complete (R311). -/
def outstanding (s : State) (id : BitVec 32) (p : Copy) : Prop :=
  before id s.myCore.chan.next = true ∧ before id s.myCore.chan.done = false ∧ copyOf s s.cur id = some p

/-- Every turn window up to now has been made (R280). -/
def windowsMade (s : State) : Prop := s.rtime / 1000 ≤ s.windows

/-- A lane group carries one direction (R277). -/
def steady (l : Lane) : Bool := l.dir = .toLo || l.dir = .toHi

/-- The groups of a strait that a partition holds. -/
def lanesOf (s : State) (n p : Nat) : List Lane := (s.strait n).lanes.filter fun l => l.owner = some p

/-- Groups of a partition that carry traffic toward lo. -/
def towardLo (s : State) (n p : Nat) : Nat := ((lanesOf s n p).filter fun l => l.dir = .toLo).length
def towardHi (s : State) (n p : Nat) : Nat := ((lanesOf s n p).filter fun l => l.dir = .toHi).length

/-! ### Traps and system registers -/

/-- A context may take a trap at once: it stands in no gang and no joint row, no gang instruction waits in its sequencer, it
runs no handler, TVEC is set, and no other context of its core runs a handler or waits for one (R373, R374). -/
def trapReady (s : State) (c : CoreId) (x : Nat) : Prop :=
  (s.ctx c x).status.getLsbD 5 = false ∧ (∀ e ∈ (s.ctx c x).seq, e.gangs = []) ∧ (s.ctx c x).status.getLsbD 2 = false ∧ (s.ctx c x).join = .no ∧ (s.core c).tvec ≠ 0 ∧
    ∀ e ∈ (s.core c).ctxs, e.2.trapPend = none ∧ (e.1 ≠ x → e.2.running = true → e.2.status.getLsbD 2 = false)

/-- Trap entry (R373, R375, R381): EPC, XPC, CAUSE and FAULTVA take the trap's words, PSV takes SV, SV and TH are set, the PC is
TVEC's, forwarded vector instructions stay in the sequencer and the trap tile is +0; every x, vector, predicate and keep register,
queue, RNDCTL and scratch register, every other context, core, bank and byte of memory is as before. -/
def entersTrap (s u : State) (c : CoreId) (x : Nat) (code info stream : Nat) (epc xpc va : W64) : Prop :=
  let v := s.ctx c x
  let w := u.ctx c x
  w.pc = (s.core c).tvec ∧ w.epc = epc ∧ w.xpc = xpc ∧ w.faultva = va ∧
    w.cause = 0#48 ++ BitVec.ofNat 4 info ++ 0#2 ++ BitVec.ofNat 2 stream ++ BitVec.ofNat 8 code ∧
    w.status = 0#58 ++ v.status.extractLsb' 5 1 ++ v.status.extractLsb' 1 1 ++ 0#1 ++ 1#1 ++ 1#1 ++ v.status.extractLsb' 0 1 ∧
    w.wait = .none ∧ w.trapPend = none ∧ w.stalled = false ∧ w.seq = v.seq ∧
    w.x = v.x ∧ w.v = v.v ∧ w.p = v.p ∧ w.q = v.q ∧ w.rndctl = v.rndctl ∧ w.tscr = v.tscr ∧ w.slots = v.slots ∧
    (∀ y, y ≠ x → u.ctx c y = s.ctx c y) ∧ (∀ d, d ≠ c → u.core d = s.core d) ∧ (u.core c).k = (s.core c).k ∧
    (u.core c).berths = (s.core c).berths ∧ (∀ m n, element u c 4 m n = 0) ∧
    (∀ d m n, d ≠ 4 → element u c d m n = element s c d m n) ∧ u.mem = s.mem ∧ u.banks = s.banks ∧ u.dies = s.dies

/-- THERM of a die: HOT1, HOT0, TEMP and ALLOW (R370). -/
def thermWord (d : Die) : W64 := 0#22 ++ BitVec.ofBool d.hot1 ++ BitVec.ofBool d.hot0 ++ d.temp ++ 0#16 ++ d.allow

/-- The number of the world of the issuing core's partition, 0 without one (R351). -/
def worldNumber (s : State) : Nat := ((s.lantern.worlds.find? fun w => w.part = s.myPart).map (·.num)).getD 0

/-- A store of the issuing context waits in one of its streams (R394). -/
def storesBefore (s : State) : Bool :=
  let stores := fun i : Instr => match i with
    | .vst .. | .vstg .. | .mstore .. => true
    | _ => false
  s.me.seq.any (fun e => stores e.v.instr || e.body.any fun v => stores v.instr) ||
    s.myCore.slice.any fun e => e.ctx = s.curCtx && stores e.instr

/-- An image of n bytes lies on one host page of global address a, at physical address pa (R363). -/
def imageOn (s : State) (a : W64) (n : Nat) (pa : Nat) : Prop :=
  a.extractLsb' 0 6 = 0 ∧ a.toNat < 2 ^ 57 ∧ a.toNat % 65536 + n ≤ 65536 ∧
    ∃ p e, s.partOfSite s.cur.siteId = some p ∧ s.myCore.ptbase.getLsbD 0 = true ∧
      s.tlbLookup s.cur p (rootPage s.myCore.ptbase) a.toNat = some e ∧ e.peer = false ∧
      pa = e.pa + (a.toNat - e.va) ∧ 2 ^ 51 ≤ pa ∧ pa + n ≤ 2 ^ 52

/-- The bank range of a SEAL or UNSEAL with LEN not 0: window 0 of a berth, on a row's start, inside the bank (R363). -/
def sealRange (s : State) (y : W64) (len : Nat) (b : BankId) : Prop :=
  opens s y b = true ∧ y.extractLsb' 28 4 = 0 ∧ y.extractLsb' 0 6 = 0 ∧ offset y 0 + 1024 * len ≤ 65536 ∧ calm s b = true

/-! ### Fabric and memory traffic -/

/-- The bank that a fabric address names at this moment for an access of a core's span (R186). -/
def bankOf (s : State) (c : CoreId) (a : W64) : Option BankId :=
  match s.fabricCore c.siteId (a.extractLsb' 48 11).toNat (a.extractLsb' 46 2).toNat with
  | some k => (s.core k).berth (slotOf a)
  | none => none

/-- No arrival waits before a port for the slot of the core that a fabric address names (R243, R440). -/
def slotClear (s : State) (a : W64) : Prop :=
  ∀ e ∈ s.banks, ∀ v ∈ e.2.waiting, v.addr.extractLsb' 46 13 = a.extractLsb' 46 13 → v.addr.extractLsb' 16 3 ≠ a.extractLsb' 16 3

/-- An access that reaches a bank through a slot of its core's own which a HAND has filled acquires: the clean L1 lines go (R189,
R255); one that does not leaves the cores as they are. -/
def firstAcquires (s t : State) (c : CoreId) (b : BankId) : Prop :=
  ((∀ ts ∈ (s.core c).handed, (s.core c).berth ts ≠ some b) → t.cores = s.cores) ∧
    ∀ ts ∈ (s.core c).handed, (s.core c).berth ts = some b → (t.core c).l1 = []

/-- The offset in a bank that a fabric address names. -/
def offsetOf (a : W64) : Nat := (a.extractLsb' 0 16).toNat

/-- What a fabric write does to the bytes of its bank (R244, R271, R440). -/
def writeDone (s t : State) (b : BankId) (w : FWrite) : Prop :=
  match w.kind with
  | .bytes d => bankBytesAre s t b (offsetOf w.addr) d.length fun i => d.getD i 0
  | .nibble v hi =>
    bankBytesAre s t b (offsetOf w.addr) 1 fun _ => nibbleOf (bankByte s b (offsetOf w.addr)) v hi
  | .red op true v =>
    ∀ r, redValue op (le8 (bankByte s b) (offsetOf w.addr)) v = some r →
      bankBytesAre s t b (offsetOf w.addr) 8 (byteOf r)
  | .red op false v =>
    ∀ r, redValue op (le4 (bankByte s b) (offsetOf w.addr)) (v.extractLsb' 0 32) = some r →
      bankBytesAre s t b (offsetOf w.addr) 4 fun i => r.extractLsb' (8 * i) 8
  | .access _ => True

/-- The value that a load of n bytes gives, sign- or zero-extended (R247). -/
def loadWord (n : Nat) (signed : Bool) (f : Nat → Byte) (o : Nat) : Option W64 :=
  match n, signed with
  | 1, true => some ((f o).signExtend 64)
  | 1, false => some ((f o).zeroExtend 64)
  | 2, true => some ((le2 f o).signExtend 64)
  | 2, false => some ((le2 f o).zeroExtend 64)
  | 4, true => some ((le4 f o).signExtend 64)
  | 4, false => some ((le4 f o).zeroExtend 64)
  | 8, _ => some (le8 f o)
  | _, _ => none

/-! ### The host and Lantern -/

/-- A function is there for the host: the physical one, every other once START has run (R17, R368). -/
def present (s : State) (f : Nat) : Prop := s.powered = true ∧ (f = 0 ∨ s.lantern.started = true ∧ f < 128)

/-- A notify sets a tail that is at most 2^31 - 1 ahead and takes the place of a sealed one; one further ahead is ignored (R331,
R332). -/
def notified (k : Queue) (tail : BitVec 32) : Queue :=
  if (tail - k.tail).toNat < 2 ^ 31 then { k with tail := tail, sealed := none } else k

/-- COUNT of a function has reached a sequence number (R332). -/
def reached (s : State) (f : Nat) (seq : BitVec 32) : Bool := ((s.func f).count - seq).toNat < 2 ^ 31

/-- FNERR records an error where none stands: its code, queue and argument; ERRS counts it either way (R417). -/
def errorTold (s t : State) (f code queue arg : Nat) : Prop :=
  (t.func f).errs = (s.func f).errs + 1 ∧
    ((s.func f).fnerr.getLsbD 0 = true → (t.func f).fnerr = (s.func f).fnerr) ∧
    ((s.func f).fnerr.getLsbD 0 = false → queue < 64 → code < 256 →
      (t.func f).fnerr = BitVec.ofNat 32 arg ++ 0#8 ++ BitVec.ofNat 6 queue ++ 0#2 ++ BitVec.ofNat 8 code ++ 0#7 ++ 1#1)

/-- Queues other than one are as before. -/
def queuesKept (s t : State) (f q : Nat) : Prop := ∀ g r, (g, r) ≠ (f, q) → t.queue g r = s.queue g r

/-- A mailbox command has run with a RESULT: BUSY is clear (R365). -/
def answered (s : State) (r : Nat) : State :=
  { s with lantern := { s.lantern with result := r, cmd := none, cargs := [] } }

/-- Lantern runs a command of a code; those from 0x10 on follow START (R365). -/
def running (s : State) (code : Nat) : Prop :=
  s.powered = true ∧ s.lantern.cmd = some code ∧ (0x10 ≤ code → s.lantern.started = true)

/-- An argument of the running command. -/
def argument (s : State) (n : Nat) : W64 := s.lantern.cargs.getD n 0

/-- A POWER command of a kind runs (R369). -/
def powers (s : State) (kind : Nat) : Prop := running s 0x20 ∧ (argument s 0).toNat = kind

/-- The fields of a world command are in form: partition, world and compartment numbers, reserved bits and arguments from a
number on zero (R366). -/
def worldForm (s : State) (lo hi reserved : Nat) : Prop :=
  (argument s 0).toNat < 128 ∧ (argument s 1).extractLsb' 0 8 ≠ 0 ∧ (argument s 1).extractLsb' 14 50 = 0 ∧
    lo ≤ ((argument s 1).extractLsb' 8 6).toNat ∧ ((argument s 1).extractLsb' 8 6).toNat ≤ hi ∧
    ∀ i, reserved ≤ i → i < 6 → argument s i = 0

/-- World, partition and compartment that a world command names. -/
def worldNo (s : State) : Nat := ((argument s 1).extractLsb' 0 8).toNat
def compNo (s : State) : Nat := ((argument s 1).extractLsb' 8 6).toNat

/-- A compartment of the named world is in use (R357). -/
def inUse (s : State) (c : Nat) : Prop :=
  ∃ w, (s.lantern.worlds.find? fun w => w.part = (argument s 0).toNat && w.num = worldNo s) = some w ∧ w.comps.find c ≠ none

/-- STATE of an evidence record: 3 without power, 2 halted, 0 while a launch of the compartment runs, else 1 (R439). -/
def evidenceIs (s : State) (p c : Nat) (comps : List Nat) (st : Nat) : Prop :=
  let k := s.part p
  let off := (∀ n ∈ k.clusters, (s.cluster n).gated = true) ∨ (s.func k.func).d0 = false
  let halted := k.run ≠ .running ∨ (∃ r, k.pre = some r ∧ r.why = .halt) ∨
    ((s.prcmd.extractLsb' 0 7).toNat = p ∧ s.prcmd.extractLsb' 8 2 = 3)
  let runs := ∃ d ∈ comps, if c = 0xFF then d ≠ 0 else d = c
  (off → st = 3) ∧ (¬off → halted → st = 2) ∧ (¬off → ¬halted → runs → st = 0) ∧ (¬off → ¬halted → ¬runs → st = 1)

/-- A pre-emption of a partition that is under way. -/
def preempting (s : State) (p : Nat) (r : PreReq) : Prop := (s.part p).pre = some r

/-- What a saved image holds of a core (R341, R342): its registers, berths, tiles, streams, messages, counters and slice as they
were, and its copies, none of which lands any more. -/
def savedAs (k v : Core) : Prop :=
  v.k = k.k ∧ v.berths = k.berths ∧ v.tiles = k.tiles ∧ v.streams = k.streams ∧ v.dt0 = k.dt0 ∧ v.dt1 = k.dt1 ∧ v.seed = k.seed ∧
    v.inbox = k.inbox ∧ v.ctrs = k.ctrs ∧ v.ready = k.ready ∧ v.slice = k.slice ∧ v.ptbase = k.ptbase ∧ v.tvec = k.tvec ∧
    v.chan.next = k.chan.next ∧ v.chan.done = k.chan.done ∧ v.chan.places.map (·.id) = k.chan.places.map (·.id) ∧
    (∀ p ∈ v.chan.places, p.st ≠ .landing) ∧
    ∀ x, (v.ctx x).running = (k.ctx x).running ∧ (v.ctx x).pc = (k.ctx x).pc ∧ (v.ctx x).x = (k.ctx x).x ∧
      (v.ctx x).v = (k.ctx x).v ∧ (v.ctx x).p = (k.ctx x).p ∧ (v.ctx x).q = (k.ctx x).q ∧ (v.ctx x).status = (k.ctx x).status ∧
      (v.ctx x).rndctl = (k.ctx x).rndctl ∧ (v.ctx x).seq = (k.ctx x).seq

/-- Every core that a pre-emption covers has come to rest, and nothing of them is on its way (R341). -/
def settled (s : State) : Prop :=
  s.fwrites = [] ∧ s.acks = [] ∧ s.freqs = [] ∧ s.fresps = [] ∧ s.hreqs = [] ∧ s.engine = []

/-! ### Partitions, launches and their pre-emption -/

/-- A partition operation waits in PRCMD (R325). -/
def asked (s : State) (op : BitVec 2) : Prop := s.powered = true ∧ s.prcmd.extractLsb' 8 2 = op

/-- The partition that PRCMD names. -/
def named (s : State) : Nat := (s.prcmd.extractLsb' 0 7).toNat

/-- A byte of the record of the partition that PRCMD names (R325). -/
def recordByte (s : State) (o : Nat) : Byte := s.memByte (s.prbase.toNat + 1024 * named s + o)

/-- Partitions other than one are as before. -/
def partsKept (s t : State) (p : Nat) : Prop := ∀ q, q ≠ p → t.part q = s.part q

/-- A master stands and no election is under way (R415). -/
def ledBy (s : State) : Prop := s.powered = true ∧ s.master ≠ none ∧ s.election = none

/-- The entry at HEAD of queue q of a partition may be read: the queue is enabled and not empty, its context runs (R316,
R317). -/
def entryStands (s : State) (p q : Nat) : Prop :=
  let k := s.queue (s.part p).func q
  ledBy s ∧ q < 64 ∧ k.log2n ≠ 0 ∧ k.tail ≠ k.head ∧ (s.part p).run = .running ∧ (s.part p).ctx = some k.ctx

/-- Index of the entry at HEAD in its ring (R315). -/
def entryIndex (s : State) (p q : Nat) : Nat :=
  let k := s.queue (s.part p).func q
  k.head.toNat % 2 ^ k.log2n

/-- The bytes of the entry at HEAD as the master reads them, every line standing in its slice, and the state that its reads
leave. -/
def entryBytes (s : State) (p q : Nat) (b : List Byte) (r : State) : Prop :=
  entryStands s p q ∧ s.masterRead p ((s.queue (s.part p).func q).qbase.toNat + 256 * entryIndex s p q) 256 = (some b, r) ∧ r.missed = s.missed

/-- HEAD has moved past the entry. -/
def headMoved (s t : State) (p q : Nat) : Prop :=
  (t.queue (s.part p).func q).head = (s.queue (s.part p).func q).head + 1 ∧
    (t.queue (s.part p).func q).tail = (s.queue (s.part p).func q).tail ∧ queuesKept s t (s.part p).func q

/-- A span of the running context of a partition that stands on the module. -/
def stood (s : State) (p : Nat) (q : Span) : Prop :=
  q ∈ s.spans ∧ q.part = p ∧ q.saved = false ∧ (s.part p).ctx = some q.ctx

/-- The cores of a span. -/
def coresOf (q : Span) : List CoreId := q.sites.flatMap (·.cores)

/-- The whole running context is covered: an urgent slice asked for nothing (R339). -/
def covering (r : PreReq) : Prop := ∀ l n, r.why ≠ .urgentSlice l n

/-- Another context of the partition has an entry to take or an active launch (R326). -/
def otherBusy (s : State) (p c : Nat) : Prop := ∃ x, x < (s.part p).nctx ∧ x ≠ c ∧ s.ctxBusy p x = true

/-- The mode of a pre-emption that a time slice or HALT asks for (R338). -/
def turnMode (s : State) (p : Nat) : PreMode :=
  if s.lantern.started then (if (s.part p).slmode then .drain else .immediate) else .checkpoint

/-! ### Forms that every step keeps -/

/-- Memory, banks and saved banks list rising addresses and no byte that reads 0 anyway; a line of L2 lists each of its bytes
once. -/
def cellsOk (s : State) : Prop :=
  Memory.wf s.mem = true ∧ (∀ e ∈ s.banks, Memory.wf e.2.bytes = true) ∧
    (∀ i ∈ s.images, ∀ e ∈ i.banks, Memory.wf e.2.bytes = true) ∧
    ∀ e ∈ s.dies, ∀ l ∈ e.2.l2, (l.dirty.map (·.1)).Nodup ∧ ∀ d ∈ l.dirty, d.1 < 64

/-- Every vector register of a core's contexts has 16 lanes (R66). -/
def lanesOk (k : Core) : Prop := ∀ e ∈ k.ctxs, ∀ v ∈ e.2.v, v.2.length = 16

/-- Every vector register of the module and of its saved images has 16 lanes. -/
def vectorsOk (s : State) : Prop := (∀ e ∈ s.cores, lanesOk e.2) ∧ ∀ i ∈ s.images, ∀ e ∈ i.cores, lanesOk e.2

end Sys2Proof.Claim
end

