-- ==== Sys2Proof/Certificates/Slice0/Obligations.lean ====
section
/-! DEFINITION. The statements about the module, made from the numbered rules of spec/. Each docstring names the rules and what
is the model's own choice. -/
open Sys2Proof Sys2Proof.Machine Sys2Proof.Claim

/-! ## Integer instructions (R105-R124) -/

/-- R116: the instructions of major 0x04. Each reads a and then b, gives its destination the value of R116's table, and the context
goes on behind it; its words are those of the table and of format Fb, every f14 bit reserved. A quotient by a divisor other than 0
truncates toward zero and the remainder follows a (the one signed overflow and the zero divisor: below).
R117: division by zero and the signed overflow. With DZ (STATUS bit 0), which is 1 at reset, a zero divisor takes an
integer-divide-by-zero trap, cause 0x09, and nothing of the instruction remains (R106). With DZ clear it gives all ones as the
quotient and a as the remainder; -2^63 by -1 gives -2^63 and 0 signed, the ordinary result unsigned. -/
def Obligations.IntegerArithmeticAndDivision : Prop :=
  ((∀ (d a b : SReg),
     let t := tailFb (number d) (number a) (number b)
     encode (.add d a b) = some (0x1100, t) ∧ encode (.sub d a b) = some (0x1101, t) ∧ encode (.mul d a b) = some (0x1102, t) ∧
     encode (.mulh d a b) = some (0x1103, t) ∧ encode (.mulhn d a b) = some (0x1104, t) ∧ encode (.div d a b) = some (0x1105, t) ∧
     encode (.divn d a b) = some (0x1106, t) ∧ encode (.rem d a b) = some (0x1107, t) ∧ encode (.remn d a b) = some (0x1108, t) ∧
     encode (.min d a b) = some (0x1109, t) ∧ encode (.max d a b) = some (0x110A, t) ∧ encode (.minn d a b) = some (0x110B, t) ∧
     encode (.maxn d a b) = some (0x110C, t)) ∧
   (∀ (h t : Nat) (i : Instr), 0x1100 ≤ h → h ≤ 0x110C → t < 2 ^ 32 → decodeInstr h t = .ok i → t % 2 ^ 14 = 0) ∧
   (∀ (s t : State) (d a b : SReg) (x y : W64), takes s [a, b] = some ([x, y], t) → room t d = true →
     exec (.add d a b) s = .next (result t d (x + y)) ∧
     exec (.sub d a b) s = .next (result t d (x - y)) ∧
     exec (.mul d a b) s = .next (result t d (x * y)) ∧
     exec (.mulh d a b) s = .next (result t d ((x.signExtend 128 * y.signExtend 128).extractLsb' 64 64)) ∧
     exec (.mulhn d a b) s = .next (result t d ((x.zeroExtend 128 * y.zeroExtend 128).extractLsb' 64 64)) ∧
     exec (.min d a b) s = .next (result t d (if x.toInt ≤ y.toInt then x else y)) ∧
     exec (.max d a b) s = .next (result t d (if x.toInt ≤ y.toInt then y else x)) ∧
     exec (.minn d a b) s = .next (result t d (if x.toNat ≤ y.toNat then x else y)) ∧
     exec (.maxn d a b) s = .next (result t d (if x.toNat ≤ y.toNat then y else x)) ∧
     (y ≠ 0 →
       exec (.divn d a b) s = .next (result t d (BitVec.ofNat 64 (x.toNat / y.toNat))) ∧
       exec (.remn d a b) s = .next (result t d (BitVec.ofNat 64 (x.toNat % y.toNat))) ∧
       (¬(x = BitVec.intMin 64 ∧ y = -1) →
         ∃ q r : W64, exec (.div d a b) s = .next (result t d q) ∧ exec (.rem d a b) s = .next (result t d r) ∧
           q.toInt = x.toInt.tdiv y.toInt ∧ r.toInt = x.toInt - y.toInt * q.toInt)))) ∧
  ((∀ c x, (State.reset.ctx c x).status.getLsbD 0 = true) ∧
   (∀ (s t : State) (d a b : SReg) (x : W64), takes s [a, b] = some ([x, 0], t) → room t d = true →
     s.me.status.getLsbD 0 = false →
     exec (.div d a b) s = .next (result t d 0xFFFFFFFFFFFFFFFF) ∧ exec (.divn d a b) s = .next (result t d 0xFFFFFFFFFFFFFFFF) ∧
     exec (.rem d a b) s = .next (result t d x) ∧ exec (.remn d a b) s = .next (result t d x)) ∧
   (∀ (s t : State) (d a b : SReg), takes s [a, b] = some ([0x8000000000000000, 0xFFFFFFFFFFFFFFFF], t) → room t d = true →
     exec (.div d a b) s = .next (result t d 0x8000000000000000) ∧ exec (.rem d a b) s = .next (result t d 0) ∧
     exec (.divn d a b) s = .next (result t d 0) ∧ exec (.remn d a b) s = .next (result t d 0x8000000000000000)) ∧
   (∀ (s t : State) (d a b : SReg) (x : W64), takes s [a, b] = some ([x, 0], t) → pushable d = true →
     s.me.status.getLsbD 0 = true →
     exec (.div d a b) s = .next (s.raiseInt 0x09 0 0) ∧ exec (.divn d a b) s = .next (s.raiseInt 0x09 0 0) ∧
     exec (.rem d a b) s = .next (s.raiseInt 0x09 0 0) ∧ exec (.remn d a b) s = .next (s.raiseInt 0x09 0 0)))

/-- R118: logic, shifts and counts. A shift takes its amount from bits 5:0 of b; ROT turns toward bit 0; CLZ and CTZ count
the zeros above the highest and below the lowest one bit, 64 when there is none; POPC counts one bits.
R119: compares give 1 or 0; SEL reads a, b and c whichever it selects; MOV copies. -/
def Obligations.LogicShiftCompareResults : Prop :=
  ((∀ (d a b : SReg),
     let t := tailFb (number d) (number a) (number b)
     let u := tailFb (number d) (number a) 0
     encode (.and d a b) = some (0x1500, t) ∧ encode (.or d a b) = some (0x1501, t) ∧ encode (.xor d a b) = some (0x1502, t) ∧
     encode (.andn d a b) = some (0x1503, t) ∧ encode (.shl d a b) = some (0x1504, t) ∧ encode (.shr d a b) = some (0x1505, t) ∧
     encode (.sra d a b) = some (0x1506, t) ∧ encode (.rot d a b) = some (0x1507, t) ∧ encode (.clz d a) = some (0x1508, u) ∧
     encode (.ctz d a) = some (0x1509, u) ∧ encode (.popc d a) = some (0x150A, u)) ∧
   (∀ (h t : Nat) (i : Instr), 0x1500 ≤ h → h ≤ 0x150A → t < 2 ^ 32 → decodeInstr h t = .ok i →
     t % 2 ^ 14 = 0 ∧ (0x1508 ≤ h → t % 2 ^ 20 = 0)) ∧
   (∀ (s t : State) (d a b : SReg) (x y : W64), takes s [a, b] = some ([x, y], t) → room t d = true →
     exec (.and d a b) s = .next (result t d (x &&& y)) ∧
     exec (.or d a b) s = .next (result t d (x ||| y)) ∧
     exec (.xor d a b) s = .next (result t d (x ^^^ y)) ∧
     exec (.andn d a b) s = .next (result t d (x &&& ~~~y)) ∧
     (∃ l r h o : W64,
       exec (.shl d a b) s = .next (result t d l) ∧ exec (.shr d a b) s = .next (result t d r) ∧
       exec (.sra d a b) s = .next (result t d h) ∧ exec (.rot d a b) s = .next (result t d o) ∧
       ∀ i, i < 64 →
         let n := (y.extractLsb' 0 6).toNat
         l.getLsbD i = (if i < n then false else x.getLsbD (i - n)) ∧
         r.getLsbD i = (if i + n < 64 then x.getLsbD (i + n) else false) ∧
         h.getLsbD i = (if i + n < 64 then x.getLsbD (i + n) else x.getLsbD 63) ∧
         o.getLsbD i = x.getLsbD ((i + n) % 64))) ∧
   (∀ (s t : State) (d a : SReg) (x : W64), takes s [a] = some ([x], t) → room t d = true →
     exec (.popc d a) s = .next (result t d (BitVec.ofNat 64 ((List.range 64).filter fun i => x.getLsbD i).length)) ∧
     (x = 0 → exec (.clz d a) s = .next (result t d 64) ∧ exec (.ctz d a) s = .next (result t d 64)) ∧
     (∀ n, n < 64 → x.getLsbD (63 - n) = true → (∀ i, i < n → x.getLsbD (63 - i) = false) →
       exec (.clz d a) s = .next (result t d (BitVec.ofNat 64 n))) ∧
     (∀ n, n < 64 → x.getLsbD n = true → (∀ i, i < n → x.getLsbD i = false) →
       exec (.ctz d a) s = .next (result t d (BitVec.ofNat 64 n))))) ∧
  ((∀ (d a b c : SReg),
     let t := tailFb (number d) (number a) (number b)
     encode (.slt d a b) = some (0x1900, t) ∧ encode (.sltn d a b) = some (0x1901, t) ∧ encode (.seq d a b) = some (0x1902, t) ∧
     encode (.sel d a b c) = some (0x1983, number d * 2 ^ 42 + number a * 2 ^ 36 + number b * 2 ^ 30 + number c * 2 ^ 24) ∧
     encode (.mov d a) = some (0x1884, number d * 2 ^ 10 + number a * 2 ^ 4)) ∧
   (∀ (h t : Nat) (i : Instr), 0x1900 ≤ h → h ≤ 0x1902 → t < 2 ^ 32 → decodeInstr h t = .ok i → t % 2 ^ 14 = 0) ∧
   (∀ (t : Nat) (i : Instr), (t < 2 ^ 48 → decodeInstr 0x1983 t = .ok i → t % 2 ^ 24 = 0) ∧
     (t < 2 ^ 16 → decodeInstr 0x1884 t = .ok i → t % 2 ^ 4 = 0)) ∧
   (∀ (s t : State) (d a b : SReg) (x y : W64), takes s [a, b] = some ([x, y], t) → room t d = true →
     exec (.slt d a b) s = .next (result t d (if x.toInt < y.toInt then 1 else 0)) ∧
     exec (.sltn d a b) s = .next (result t d (if x.toNat < y.toNat then 1 else 0)) ∧
     exec (.seq d a b) s = .next (result t d (if x = y then 1 else 0))) ∧
   (∀ (s t : State) (d a b c : SReg) (x y z : W64), takes s [a, b, c] = some ([x, y, z], t) → room t d = true →
     exec (.sel d a b c) s = .next (result t d (if z ≠ 0 then x else y))) ∧
   (∀ (s t : State) (d a : SReg) (x : W64), takes s [a] = some ([x], t) → room t d = true →
     exec (.mov d a) s = .next (result t d x)))

/-- R120 and R121: the immediate forms. ADDI sign-extends its immediate and the logic forms zero-extend theirs; LI
sign-extends 58 bits, LIH puts 32 bits above the low half of its destination, which it reads.
R122, R123 and R124: BFX extracts and BFI inserts a field of the stated position and length, LEA scales and adds, in
full or within the 16-bit offset, FABA composes a fabric address: bit 63, window, logical cluster, core, slot, offset. -/
def Obligations.ImmediatesAndBitFields : Prop :=
  ((∀ (d a : SReg) (imm : BitVec 14) (sh : Fin 64) (c : BitVec 58) (h : BitVec 32),
     head (.addi d a imm) = some 0x1D00 ∧ head (.andi d a imm) = some 0x1D01 ∧ head (.ori d a imm) = some 0x1D02 ∧
     head (.xori d a imm) = some 0x1D03 ∧ head (.shli d a sh) = some 0x1D04 ∧ head (.shri d a sh) = some 0x1D05 ∧
     head (.srai d a sh) = some 0x1D06 ∧ head (.li d c) = some 0x1E07 ∧ head (.lih d h) = some 0x1E08) ∧
   (∀ (s t : State) (d a : SReg) (x : W64) (imm : BitVec 14) (sh : Fin 64), takes s [a] = some ([x], t) → room t d = true →
     exec (.addi d a imm) s = .next (result t d (x + imm.signExtend 64)) ∧
     exec (.andi d a imm) s = .next (result t d (x &&& imm.zeroExtend 64)) ∧
     exec (.ori d a imm) s = .next (result t d (x ||| imm.zeroExtend 64)) ∧
     exec (.xori d a imm) s = .next (result t d (x ^^^ imm.zeroExtend 64)) ∧
     exec (.shli d a sh) s = .next (result t d (x <<< sh.val)) ∧
     exec (.shri d a sh) s = .next (result t d (x >>> sh.val)) ∧
     exec (.srai d a sh) s = .next (result t d (x.sshiftRight sh.val))) ∧
   (∀ (s : State) (d : SReg) (imm : BitVec 58), room s d = true →
     exec (.li d imm) s = .next (result s d (imm.signExtend 64))) ∧
   (∀ (s t : State) (d : SReg) (x : W64) (imm : BitVec 32), takes s [d] = some ([x], t) → room t d = true →
     exec (.lih d imm) s = .next (result t d (imm ++ x.extractLsb' 0 32)))) ∧
  ((∀ (d a b c : SReg) (f : BitField) (x l : Bool) (sh : Fin 8) (g : FabaFlags),
     head (.bfx d a f x) = some 0x2100 ∧ head (.bfi d a f) = some 0x2101 ∧ head (.lea d a b l sh) = some 0x2102 ∧
     head (.faba d a b c g) = some 0x2183) ∧
   (∀ (s t : State) (d a : SReg) (x : W64) (f : BitField), f.pos.val + f.lenm.val < 64 → takes s [a] = some ([x], t) →
     room t d = true →
     exec (.bfx d a f true) s = .next (result t d ((x.extractLsb' f.pos.val (f.lenm.val + 1)).signExtend 64)) ∧
     exec (.bfx d a f false) s = .next (result t d ((x.extractLsb' f.pos.val (f.lenm.val + 1)).zeroExtend 64))) ∧
   (∀ (s t : State) (d a : SReg) (x y w : W64) (f : BitField), f.pos.val + f.lenm.val < 64 →
     takes s [a, d] = some ([x, y], t) → room t d = true →
     (∀ i, i < 64 → w.getLsbD i =
       if f.pos.val ≤ i ∧ i ≤ f.pos.val + f.lenm.val then x.getLsbD (i - f.pos.val) else y.getLsbD i) →
     exec (.bfi d a f) s = .next (result t d w)) ∧
   (∀ (s t : State) (d a b : SReg) (x y : W64) (sh : Fin 8), takes s [a, b] = some ([x, y], t) → room t d = true →
     exec (.lea d a b false sh) s = .next (result t d (x + y <<< sh.val)) ∧
     exec (.lea d a b true sh) s = .next (result t d (x.extractLsb' 16 48 ++ (x + y <<< sh.val).extractLsb' 0 16))) ∧
   (∀ (s t : State) (d a b c : SReg) (x y z : W64) (g : FabaFlags), (Instr.faba d a b c g).wf = true →
     takes s [a, b, c] = some ([x, y, z], t) → room t d = true →
     let cl : BitVec 11 :=
       if g.ownc then BitVec.ofNat 11 (t.logical t.cur.siteId)
       else if g.srel then
         match (t.spanSites t.cur.siteId)[x.toNat]? with
         | some n => BitVec.ofNat 11 (t.logical n)
         | none => 0x7FF
       else x.extractLsb' 0 11
     let co : BitVec 2 := if g.ownk then BitVec.ofNat 2 t.cur.core else y.extractLsb' 0 2
     exec (.faba d a b c g) s =
       .next (result t d (1#1 ++ z.extractLsb' 28 4 ++ cl ++ co ++ 0#27 ++ z.extractLsb' 16 3 ++ z.extractLsb' 0 16))))

/-! ## Queue registers, frames (R66, R74, R75, R105, R106) -/

/-- R75 and R396: an integer instruction whose source field names q0-q3 takes the queue-register misuse trap, cause 0x0A, with
INFO 1, and one whose destination field names q4-q7 takes it with INFO 2. (Where an instruction misuses both, that it is INFO 1, is
log 36's reading; that the trap comes before the privilege trap 0x03 of a firing at user level is log 21's: the model's
choices.)
R74: an instruction that would pop an empty queue, or push a full one, waits, and nothing of it takes effect: the context
stands where it stood, marked as not having issued. (JAL and JALR, LOOP and the others of R107-R110, R116-R124.) R388: a read of a
register whose row has an uncorrectable error traps, cause 0x0D, INFO 1. (That its FAULTVA is 0 is a reading, log 36.) -/
def Obligations.QueueMisuseAndStalls : Prop :=
  (∀ (s : State) (i : Instr) (src dst : List SReg), i.wf = true →
     registerOnly i = some (src, dst) ∨ otherFields i = some (src, dst) →
     (src.all poppable = false → exec i s = .next (s.raiseInt 0x0A 1 0)) ∧
     (src.all poppable = true → dst.all pushable = false → exec i s = .next (s.raiseInt 0x0A 2 0))) ∧
  ((∀ (s : State) (i : Instr) (src dst : List SReg), registerOnly i = some (src, dst) → i.wf = true →
     src.all poppable = true → dst.all pushable = true →
     spoilt s src = true → exec i s = .next (s.raiseInt 0x0D 1 0)) ∧
   (∀ (s : State) (i : Instr) (src dst : List SReg), registerOnly i = some (src, dst) → i.wf = true →
     src.all poppable = true → dst.all pushable = true →
     dry s src = true → exec i s = .next (waits s)) ∧
   (∀ (s t : State) (i : Instr) (src : List SReg) (d : SReg) (vs : List W64), registerOnly i = some (src, [d]) → i.wf = true →
     src.all poppable = true → pushable d = true → takes s src = some (vs, t) → room t d = false →
     (s.me.status.getLsbD 0 = false ∨ ∀ v ∈ vs, v ≠ 0) →
     exec i s = .next (waits s)))

/-- Frame of the instructions that read and write registers alone (R105, R106): whatever their next state, a completion, a
wait or a trap, every byte of memory, every bank and every other core's and context's x, k and queue registers are as before;
of the context's own, only the x register, keep register or queue of the destination and the queues of the sources may
change; RNDCTL, the vector and predicate registers, the tiles, streams, berths, counters and inbox are as before (the trap
tile, which trap entry clears, R375, apart).
R66, R105: x0 reads zero whatever was written to it, a write to x0 leaves every x register as it was, and a write to another
register is read back from it and from no other. -/
def Obligations.RegisterFrameAndReadBack : Prop :=
  (∀ (s u : State) (i : Instr) (src dst : List SReg), registerOnly i = some (src, dst) → exec i s = .next u →
     (∀ a, u.memByte a = s.memByte a) ∧ u.mem = s.mem ∧ u.banks = s.banks ∧ u.dies = s.dies ∧ u.straits = s.straits ∧
     u.cycle = s.cycle ∧ u.cur = s.cur ∧ u.curCtx = s.curCtx ∧
     (∀ n, SReg.x n ∉ dst → u.me.xreg n.val = s.me.xreg n.val) ∧
     (∀ n, SReg.k n ∉ dst → u.myCore.kreg n.val = s.myCore.kreg n.val) ∧
     (∀ n, SReg.q n ∉ dst → SReg.q n ∉ src → u.me.queue n.val = s.me.queue n.val) ∧
     u.me.rndctl = s.me.rndctl ∧ u.me.v = s.me.v ∧ u.me.p = s.me.p ∧ u.me.tscr = s.me.tscr ∧ u.me.slots = s.me.slots ∧
     (∀ c, c ≠ s.cur → (u.core c).k = (s.core c).k) ∧
     (∀ c, (u.core c).berths = (s.core c).berths ∧ (u.core c).ctrs = (s.core c).ctrs ∧ (u.core c).inbox = (s.core c).inbox ∧
       (u.core c).streams = (s.core c).streams ∧ (u.core c).ptbase = (s.core c).ptbase ∧ (u.core c).tvec = (s.core c).tvec ∧
       (u.core c).l1 = (s.core c).l1 ∧ (u.core c).updates = (s.core c).updates ∧
       ∀ n, n ≠ 4 → (u.core c).tiles.getD n [] = (s.core c).tiles.getD n []) ∧
     (∀ c y, (c, y) ≠ (s.cur, s.curCtx) → (u.ctx c y).x = (s.ctx c y).x ∧ (u.ctx c y).q = (s.ctx c y).q ∧
       (u.ctx c y).v = (s.ctx c y).v ∧ (u.ctx c y).p = (s.ctx c y).p)) ∧
  (∀ (s : State) (w : W64),
     (s.me.xreg 0 = 0) ∧
     (∀ n : Fin 32, (put s (.x 0) w).me.xreg n.val = s.me.xreg n.val) ∧
     (∀ m n : Fin 32, m ≠ 0 → (put s (.x m) w).me.xreg n.val = if n = m then w else s.me.xreg n.val) ∧
     (∀ m n : Fin 8, (put s (.k m) w).myCore.kreg n.val = if n = m then w else s.myCore.kreg n.val) ∧
     (∀ m n : Fin 8, (put s (.q m) w).me.queue n.val =
       if n = m then s.me.queue m.val ++ [w] else s.me.queue n.val))

/-! ## Control (R107-R115) -/

/-- R107: the branches. The sources are read, and their queues popped, whether or not the branch is taken; a taken branch goes
to the slot tslot of the line loff lines away from its own, another goes on behind itself.
R108, R109 and R110: J and JAL go to their target, JR and JALR to the PC a register holds, read before the link is written;
a link is the PC of the instruction behind; LOOP counts its register down by 1 modulo 2^64 and goes to its target while the
count is not 0. -/
def Obligations.BranchesJumpsAndLoop : Prop :=
  ((∀ (a b : SReg) (l : BrTarget),
     head (.beq a b l) = some 0x0500 ∧ head (.bne a b l) = some 0x0501 ∧ head (.blt a b l) = some 0x0502 ∧
     head (.bge a b l) = some 0x0503 ∧ head (.bltn a b l) = some 0x0504 ∧ head (.bgen a b l) = some 0x0505 ∧
     head (.bz a l) = some 0x0506 ∧ head (.bnz a l) = some 0x0507) ∧
   (∀ (s t : State) (a b : SReg) (x y : W64) (l : BrTarget), takes s [a, b] = some ([x, y], t) →
     let go := fun (taken : Prop) [Decidable taken] =>
       goesOn t (if taken then target s.me.pc (l.loff.signExtend 58) l.tslot else following s)
     exec (.beq a b l) s = .next (go (x = y)) ∧ exec (.bne a b l) s = .next (go (x ≠ y)) ∧
     exec (.blt a b l) s = .next (go (x.toInt < y.toInt)) ∧ exec (.bge a b l) s = .next (go (y.toInt ≤ x.toInt)) ∧
     exec (.bltn a b l) s = .next (go (x.toNat < y.toNat)) ∧ exec (.bgen a b l) s = .next (go (y.toNat ≤ x.toNat))) ∧
   (∀ (s t : State) (a : SReg) (x : W64) (l : BrTarget), takes s [a] = some ([x], t) →
     let go := fun (taken : Prop) [Decidable taken] =>
       goesOn t (if taken then target s.me.pc (l.loff.signExtend 58) l.tslot else following s)
     exec (.bz a l) s = .next (go (x = 0)) ∧ exec (.bnz a l) s = .next (go (x ≠ 0)))) ∧
  ((∀ (d a : SReg) (l : JTarget) (b : BrTarget),
     head (.j l) = some 0x0A00 ∧ head (.jal d l) = some 0x0A01 ∧ head (.jr d) = some 0x0882 ∧ head (.jalr d a) = some 0x0883 ∧
     head (.loop a b) = some 0x0904) ∧
   (∀ (s : State) (l : JTarget), exec (.j l) s = .next (goesOn s (target s.me.pc (l.loff.signExtend 58) l.tslot))) ∧
   (∀ (s : State) (d : SReg) (l : JTarget), room s d = true →
     exec (.jal d l) s = .next (goesOn (put s d (following s)) (target s.me.pc (l.loff.signExtend 58) l.tslot))) ∧
   (∀ (s t : State) (d : SReg) (x : W64), takes s [d] = some ([x], t) → exec (.jr d) s = .next (goesOn t x)) ∧
   (∀ (s t : State) (d a : SReg) (x : W64), takes s [a] = some ([x], t) → room t d = true →
     exec (.jalr d a) s = .next (goesOn (put t d (following s)) x)) ∧
   (∀ (s t : State) (a : SReg) (x : W64) (l : BrTarget), (Instr.loop a l).wf = true → takes s [a] = some ([x], t) →
     exec (.loop a l) s =
       .next (goesOn (put t a (x - 1)) (if x = 1 then following s else target s.me.pc (l.loff.signExtend 58) l.tslot))))

/-- R36, R111, R215, R378: END, outside a trap handler, waits while the sequencer or the matrix slice still holds an instruction of
the firing. Then, for a firing in no gang and no joint row, the firing ends: its context no longer runs and holds no x, vector or
predicate register and no queue entry, the inbox slots of its mask are free, and keep registers, tiles and counters stand as they
were, memory too where the firing is no merge firing whose launch may write its record. A gang's leader ends every member's
firing once each member may end, a follower has done its part; a joined context acts as the leaving MJOIN of its row and ends with
the row's barrier; in a trap handler END is a fatal end, with the words of the trap for the revocation. -/
def Obligations.EndFreesTheFiring : Prop :=
  head .end_ = some 0x0805 ∧
  (∀ (s : State), quiet s = false → s.me.th = false →
    exec .end_ s = .next (s.updMe fun v => { v with wait := .ending, stalled := true, touch := [] })) ∧
  (∀ (s : State), quiet s = true → s.myCore.gang = none → s.me.join = .no → s.me.refuse = false → s.me.th = false →
    (∃ t, exec .end_ s = .next t ∧ ended t.me) ∧
    (s.mergeAt s.cur.siteId = none → ∃ t, exec .end_ s = .next t ∧
      (∀ i, i < 32 → s.me.slots.getLsbD i = true → t.myCore.inbox.find i = none) ∧
      (∀ i, s.me.slots.getLsbD i = false → t.myCore.inbox.find i = s.myCore.inbox.find i) ∧
      t.mem = s.mem ∧ t.myCore.k = s.myCore.k ∧ t.myCore.tiles = s.myCore.tiles ∧ t.myCore.ctrs = s.myCore.ctrs)) ∧
  (∀ (s : State) (g : Gang), s.myCore.gang = some g → quiet s = true → s.me.join = .no → s.me.th = false → s.me.wait ≠ .leaving →
    s.mergeAt s.cur.siteId = none →
    (g.members.head? = some (s.cur, s.curCtx) →
      ((∀ m ∈ g.members, mayFinish s m.1 m.2 = true) →
        ∃ t, exec .end_ s = .next t ∧ ∀ m ∈ g.members, ended (t.ctx m.1 m.2) ∧ (t.core m.1).gang = none) ∧
      ((∃ m ∈ g.members, mayFinish s m.1 m.2 = false) →
        exec .end_ s = .next (s.updMe fun v => { v with wait := .ending, stalled := true, touch := [] }))) ∧
    ((s.cur, s.curCtx) ∈ g.members → g.members.head? ≠ some (s.cur, s.curCtx) → exec .end_ s = .next (goesOn s s.me.pc))) ∧
  (∀ (s : State), s.myCore.gang = none → quiet s = true → s.me.join = .joined → s.me.th = false → s.me.refuse = false →
    s.mergeAt s.cur.siteId = none →
    ((∃ k, k < 4 ∧ k ≠ s.cur.core ∧ ∀ e ∈ (s.core { s.cur with core := k }).ctxs, e.2.join ≠ .leaving) →
      exec .end_ s = .next (s.updMe fun v => { v with join := .leaving, wait := .leaving, stalled := true, touch := [] })) ∧
    ((∀ k, k < 4 → k ≠ s.cur.core → ∃ e ∈ (s.core { s.cur with core := k }).ctxs, e.2.join = .leaving) → s.cur.core < 4 →
      ∃ t, exec .end_ s = .next t ∧ ended t.me ∧
        ∀ k y, k < 4 → k ≠ s.cur.core → (s.ctx { s.cur with core := k } y).join = .leaving →
          (t.ctx { s.cur with core := k } y).join = .no)) ∧
  (∀ (s : State), s.myCore.gang = none → s.me.th = true → s.mergeAt s.cur.siteId = none →
    ∃ t, exec .end_ s = .next t ∧ ended t.me ∧
      t.myCore.rev = s.myCore.rev ++ [{ cause := s.me.cause, epc := s.me.epc, va := s.me.faultva, handler := s.me.handler
                                        version := s.me.version, report := s.me.handler ≠ 255 }])

/-- R52, R54, R56, R112, R113, R114: GANG, at the last core of its group to arrive, makes the group a gang of 2^n members whose
STATUS bit 5 is set and which stand behind the leader's GANG; UNGANG by the leader takes every member out of it at the next
instruction, and outside a gang has no effect; ALIGN goes on once every other core of the cluster that runs a firing has reached
its PC, standing there or seen there since, and at the latest 64 cycles after it began to wait, and the other cores that wait at
the PC have then seen it there.
R115: SBAR. It makes one arrival; a core whose arrival is the last of its episode in the span goes on with the episode's
number in d, its clean L1 lines invalidated (the acquire of R259); another context waits with its number, and so does each member
of a gang until the next turn (that a gang's members have all arrived before one goes on is log 33's reading, the model's choice).
A context that waits goes on once every core of the span has made the episode's arrival. This is of a context whose earlier accesses
are done and whose core has no store unacknowledged and no update-only line (what the release of R258 waits for or sends home), and
whose beats reach the die of the span's first cluster, where the model counts the barrier (log 18: the model's choice). -/
def Obligations.GangsAlignAndSpanBarriers : Prop :=
  ((∀ n : Fin 3, head (.gang n) = some 0x0C80) ∧ head .ungang = some 0x0C01 ∧ head .align = some 0x0C02 ∧
   (∀ (s : State) (n : Fin 3) (x : CoreId → Nat), s.me.running = true → (∀ l, s.me.wait ≠ .gang l) → s.myCore.gang = none →
     s.myCore.gangWait = none → s.gangClash s.cur (n.val + 1) = [] → s.cur.core < 4 → x s.cur = s.curCtx →
     (n = 2 → s.enabled s.cur.siteId.partner = true ∧ s.cur.siteId.partner ∈ s.spanSites s.cur.siteId) →
     (∀ d ∈ gangCores (n.val + 1) s.cur, d ≠ s.cur → (s.core d).gangWait = some (x d, n.val + 1)) →
     ∃ t, exec (.gang n) s = .next t ∧ (gangCores (n.val + 1) s.cur).length = 2 ^ (n.val + 1) ∧
       ∀ d ∈ gangCores (n.val + 1) s.cur,
         (t.core d).gang = some { log := n.val + 1, members := (gangCores (n.val + 1) s.cur).map fun e => (e, x e) } ∧
         (t.ctx d (x d)).status.getLsbD 5 = true ∧ (t.ctx d (x d)).wait = .none ∧
         ∃ l, (gangCores (n.val + 1) s.cur).head? = some l ∧ (t.ctx d (x d)).pc = (s.ctx l (x l)).next) ∧
   (∀ (s : State), s.myCore.gang = none → exec .ungang s = .next (done s)) ∧
   (∀ (s : State) (g : Gang), s.myCore.gang = some g → g.members.head? = some (s.cur, s.curCtx) →
     ∃ t, exec .ungang s = .next t ∧ ∀ m ∈ g.members,
       (t.core m.1).gang = none ∧ (t.ctx m.1 m.2).status.getLsbD 5 = false ∧ (t.ctx m.1 m.2).pc = following s) ∧
   (∀ (s : State),
     (∀ k, k < 4 → k ≠ s.cur.core →
       (∀ e ∈ (s.core { s.cur with core := k }).ctxs, e.2.running = false) ∨
       (∃ e ∈ (s.core { s.cur with core := k }).ctxs, e.2.running = true ∧ e.2.pc = s.me.pc) ∨
       ∃ since seen, s.me.wait = .align since seen ∧ k ∈ seen) ∨
     (∃ since seen, s.me.wait = .align since seen ∧ since + 64 ≤ s.cycle) →
     ∃ t, exec .align s = .next t ∧ stands s t (following s) ∧ registersKept s t ∧ t.mem = s.mem ∧ t.banks = s.banks ∧
       ∀ c y since seen, c.siteId = s.cur.siteId → c.core < 4 → c ≠ s.cur → (s.ctx c y).wait = .align since seen →
         (s.ctx c y).pc = s.me.pc → ∃ l, (t.ctx c y).wait = .align since l ∧ s.cur.core ∈ l ∧ ∀ k ∈ seen, k ∈ l)) ∧
  ((∀ (d : SReg) (n : Fin 4), head (.sbar d n) = some 0x0C83) ∧
   (∀ (s : State) (d : SReg) (n : Fin 4) (k : Nat), quiet s = true → released s = true → State.reaches s s.cur (barrierDie s) = true →
     room s d = true → (∀ j e, s.me.wait ≠ .sbar j e) → k = s.myCore.sbar.getD n.val 0 + 1 →
     let arrived := (s.asked s.cur (barrierDie s)).updCore s.cur fun c => { c with sbar := c.sbar.put n.val k }
     (s.me.status.getLsbD 5 = false → (∀ c ∈ s.spanCores s.cur.siteId, c ≠ s.cur → k ≤ (s.core c).sbar.getD n.val 0) →
       exec (.sbar d n) s =
         .next (result (arrived.updCore s.cur fun c => { c with l1 := [] }) d (BitVec.ofNat 64 k))) ∧
     (s.me.status.getLsbD 5 = true ∨ (∃ c ∈ s.spanCores s.cur.siteId, c ≠ s.cur ∧ (s.core c).sbar.getD n.val 0 < k) →
       exec (.sbar d n) s = .next (arrived.updMe fun v => { v with wait := .sbar n.val k, stalled := true, touch := [] }))) ∧
   (∀ (s : State) (d : SReg) (n : Fin 4) (j k : Nat), s.me.wait = .sbar j k → room s d = true →
     (∀ c ∈ s.spanCores s.cur.siteId, k ≤ (s.core c).sbar.getD n.val 0) →
     exec (.sbar d n) s = .next (result (s.updCore s.cur fun c => { c with l1 := [] }) d (BitVec.ofNat 64 k))))

/-! ## Loads, stores, atomics, fences (R228-R276) -/

/-- R247, R248, R255, R259, R264: a load from the core's own berth. At a slot that holds a bank the firing may use, aligned, with
nothing on its way to the bytes, it writes the little-endian item, sign- or zero-extended, to its destination and goes on; bank
and memory bytes are not touched. It acquires where a HAND has just filled the slot or copies have landed the bytes (that
ranges of closed envelopes still count as landed is log 35's reading, the model's choice); LDACQ then acquires its scope.
R247, R248: a store into the core's own berth. It writes the low bytes of its data, or one nibble of one byte, at the
offset, and nothing else: every other byte of every bank, all of memory and every register are as before, and the context goes
on. STREL makes its release first. -/
def Obligations.LocalLoadsAndStores : Prop :=
  ((∀ (d a : SReg) (m : LoadImm) (n : SyncImm),
     head (.ldb d a m) = some 0x2A00 ∧ head (.ldbn d a m) = some 0x2A01 ∧ head (.ldh d a m) = some 0x2A02 ∧
     head (.ldhn d a m) = some 0x2A03 ∧ head (.ldw d a m) = some 0x2A04 ∧ head (.ldwn d a m) = some 0x2A05 ∧
     head (.ldd d a m) = some 0x2A06 ∧ head (.ldacq d a n) = some 0x2A07) ∧
   (∀ (s t : State) (i : Instr) (d a : SReg) (m : BitVec 22) (n : Nat) (x : W64) (b : BankId),
     loadShape i = some (d, a, m, n) → takes s [a] = some ([x], t) → room t d = true → s.me.wait = .none → alone s = true →
     opens s x b = true → calm s b = true → offset x m % n = 0 →
     exec i s = .next
       (result (acquired (landed (used t (x.extractLsb' 16 3).toNat) b (offset x m) n) (loadScope i)) d
         (loaded i (bankByte s b) (offset x m))))) ∧
  ((∀ (d a : SReg) (m : BitVec 22) (h : Bool) (n : SyncImm),
     head (.stb d a m) = some 0x2E00 ∧ head (.sth d a m) = some 0x2E01 ∧ head (.stw d a m) = some 0x2E02 ∧
     head (.std d a m) = some 0x2E03 ∧ head (.strel d a n) = some 0x2E04 ∧ head (.stnb d a m h) = some 0x2E05) ∧
   (∀ (s t : State) (i : Instr) (d a : SReg) (m : BitVec 22) (n : Nat) (x w : W64) (b : BankId),
     storeShape i = some (d, a, m, n) → takes s [a, d] = some ([x, w], t) → alone s = true → released s = true →
     opens s x b = true → calm s b = true → unprotected s b = true → Memory.wf (s.bank b).bytes = true → offset x m % n = 0 →
     ∃ u, exec i s = .next u ∧ stands s u (following s) ∧ bankBytesAre s u b (offset x m) n (byteOf w) ∧
       u.mem = s.mem ∧ memKept s u ∧ registersKept s u) ∧
   (∀ (s t : State) (d a : SReg) (m : BitVec 22) (hi : Bool) (x w : W64) (b : BankId),
     takes s [a, d] = some ([x, w], t) → alone s = true → opens s x b = true → calm s b = true → unprotected s b = true →
     Memory.wf (s.bank b).bytes = true →
     ∃ u, exec (.stnb d a m hi) s = .next u ∧ stands s u (following s) ∧
       bankBytesAre s u b (offset x m) 1 (fun _ =>
         let old := bankByte s b (offset x m)
         if hi then w.extractLsb' 0 4 ++ old.extractLsb' 0 4 else old.extractLsb' 4 4 ++ w.extractLsb' 0 4) ∧
       u.mem = s.mem ∧ memKept s u ∧ registersKept s u))

/-- R231-R241, R247, R248: a load or store of module memory through a global address that the tables map. The load reads the
bytes at their execution point (where L1 holds no copy of the line and the L2 slice holds it live); the store writes its
low bytes there and changes no other byte of memory and no bank, and memory keeps its canonical form. R246: STNB changes only its
nibble, in memory and in the core's clean copy of the line. R235: a store to host memory writes host memory. R335, R336, R430: a
store through a peer window leaves on the port of its roster entry, or is refused there, and stands unacknowledged. (That the bytes
of a global or host store stand at their execution point in the issuing step is log 8's reading, what host memory holds log 17's, and
the crossing of straits log 18's: the model's choices.) -/
def Obligations.GlobalAccessesReadAndWriteMemory : Prop :=
  (∀ (s t : State) (i : Instr) (d a : SReg) (m : BitVec 22) (n : Nat) (x : W64) (pa : Nat),
    loadShape i = some (d, a, m, n) → takes s [a] = some ([x], t) → room t d = true → s.me.wait = .none → alone s = true →
    maps s x m .load pa → soundHbm s pa n = true → noUpdates s = true → s.myCore.l1Find (pa / 64) = none →
    inArray s pa → globalSum x m % n = 0 → pa % n = 0 →
    ∃ u, exec i s = .next (result u d (loaded i s.memByte pa)) ∧ memKept s u ∧ u.mem = s.mem ∧ u.banks = s.banks ∧
      registersKept s u ∧ u.me.q = t.me.q) ∧
  (∀ (s t : State) (i : Instr) (d a : SReg) (m : BitVec 22) (n : Nat) (x w : W64) (pa : Nat),
    storeShape i = some (d, a, m, n) → takes s [a, d] = some ([x, w], t) → alone s = true → released s = true →
    maps s x m .store pa → soundHbm s pa n = true → s.takesWrite (pa / 64) = true → Memory.wf s.mem = true →
    globalSum x m % n = 0 → pa % n = 0 →
    ∃ u, exec i s = .next u ∧ stands s u (following s) ∧ memBytesAre s u pa n (byteOf w) ∧ Memory.wf u.mem = true ∧
      u.banks = s.banks ∧ registersKept s u) ∧
  (∀ (s t : State) (d a : SReg) (m : BitVec 22) (hi : Bool) (x w : W64) (pa : Nat),
    takes s [a, d] = some ([x, w], t) → alone s = true → s.myCore.updates = [] → maps s x m .store pa → soundHbm s pa 1 = true →
    s.takesWrite (pa / 64) = true → Memory.wf s.mem = true →
    ∃ u, exec (.stnb d a m hi) s = .next u ∧ stands s u (following s) ∧
      memBytesAre s u pa 1 (fun _ => withNibble (s.memByte pa) w hi) ∧ Memory.wf u.mem = true ∧ u.banks = s.banks ∧ registersKept s u ∧
      ∀ l, s.myCore.l1Find (pa / 64) = some l → ∃ l', u.myCore.l1Find (pa / 64) = some l' ∧
        ∀ o, o < 64 → lineByte l' o = if o = pa % 64 then withNibble (lineByte l o) w hi else lineByte l o) ∧
  (∀ (s t : State) (i : Instr) (d a : SReg) (m : BitVec 22) (n : Nat) (x w : W64) (pa : Nat),
    storeShape i = some (d, a, m, n) ∧ released s = true ∨ (∃ h, i = .stnb d a m h ∧ n = 1) → takes s [a, d] = some ([x, w], t) →
    alone s = true → maps s x m .store pa → 2 ^ 51 ≤ pa → pa < 2 ^ 52 → s.l2Find (pa / 64) = none → State.carriedTo s s.cur 0 = true →
    globalSum x m % n = 0 → pa % n = 0 →
    ∃ u, exec i s = .next u ∧ stands s u (following s) ∧
      ((∀ h, i ≠ .stnb d a m h) → memBytesAre s u pa n (byteOf w)) ∧
      (∀ h, i = .stnb d a m h → memBytesAre s u pa 1 fun _ => withNibble (s.memByte pa) w h) ∧
      (Memory.wf s.mem = true → Memory.wf u.mem = true) ∧ u.banks = s.banks ∧ registersKept s u) ∧
  (∀ (s t : State) (i : Instr) (d a : SReg) (m : BitVec 22) (n : Nat) (x w : W64) (p pa : Nat),
    storeShape i = some (d, a, m, n) ∧ released s = true ∨ (∃ h, i = .stnb d a m h ∧ n = 1) → takes s [a, d] = some ([x, w], t) →
    alone s = true → mapsPeer s x m p pa → globalSum x m % n = 0 →
    (s.myCore.unacked = 256 → (∀ e g j, i ≠ .strel e g j) → exec i s = .next (waits s)) ∧
    (s.myCore.unacked < 256 → (∀ r, ¬ rosterOpen s p pa r) →
      ∃ u, exec i s = .next u ∧ stands s u (following s) ∧ u.myCore.unacked = s.myCore.unacked + 1 ∧ u.mem = s.mem ∧
        u.banks = s.banks ∧ registersKept s u ∧
        u.acks = s.acks ++ [{ core := s.cur, ctx := s.curCtx, addr := BitVec.ofNat 64 (globalSum x m), refused := some 4 }]) ∧
    (∀ r, s.myCore.unacked < 256 → rosterOpen s p pa r → State.carriedTo s s.cur (r.port / 2) = true →
      ∃ (u : State) (out : Outside), exec i s = .next u ∧ stands s u (following s) ∧ u.myCore.unacked = s.myCore.unacked + 1 ∧ u.mem = s.mem ∧
        u.banks = s.banks ∧ registersKept s u ∧
        (let marked := (∃ e g j, i = .strel e g j) ∨ s.me.relMark = true
         ∃ k, (k = true ↔ marked) ∧
          out = match i with
            | .stnb _ _ _ h => .peerNibble r.port r.modul r.rpart (r.rbase * 65536 + pa % 2 ^ 46) (w.extractLsb' 0 4) h k
            | _ => .peerWrite r.port r.modul r.rpart (r.rbase * 65536 + pa % 2 ^ 46) ((List.range n).map (byteOf w)) k) ∧
        u.acks = s.acks ++ [{ core := s.cur, ctx := s.curCtx, addr := BitVec.ofNat 64 (globalSum x m), refused := none
                              peer := some r.port, queued := if (s.port r.port).up then none else some out }] ∧
        ((s.port r.port).up = true → u.outside.getLast? = some out) ∧
        ((s.port r.port).up = false → (∀ e g j, i ≠ .strel e g j) → u.outside = s.outside)))

/-- R243, R244, R248: a store through a fabric address of the span retires as it enters the fabric: it carries its bytes or
its nibble to the address as formed, the core's count of unacknowledged remote stores rises by 1, and no bank changes yet; with
256 of them unacknowledged it waits.
R186, R248, R270: a fabric load of the span sends one request that names its address, destination and firing, and its context
waits; once the value has come back, the instruction writes it and goes on; a refusal that has come back is its trap. -/
def Obligations.FabricStoresAndLoads : Prop :=
  ((∀ (s t : State) (i : Instr) (d a : SReg) (m : BitVec 22) (n : Nat) (x w : W64) (c : CoreId),
     (storeShape i = some (d, a, m, n) ∧ ((∀ e g j, i ≠ .strel e g j) ∨ released s = true) ∨ ∃ h, i = .stnb d a m h ∧ n = 1) →
     takes s [a, d] = some ([x, w], t) → alone s = true → reaches s x c → (displaced x m).toNat % n = 0 →
     (s.myCore.unacked < 256 →
       ∃ u k, exec i s = .next u ∧ stands s u (following s) ∧
         u.fwrites = s.fwrites ++
           [{ src := s.cur, ctx := s.curCtx, fid := s.me.fid, comp := s.me.compart, addr := displaced x m, kind := k }] ∧
         (∀ h, i = .stnb d a m h → k = .nibble (w.extractLsb' 0 4) h) ∧
         ((∀ h, i ≠ .stnb d a m h) → k = .bytes ((List.range n).map (byteOf w))) ∧
         u.myCore.unacked = s.myCore.unacked + 1 ∧ u.banks = s.banks ∧ u.mem = s.mem ∧ registersKept s u) ∧
     (s.myCore.unacked = 256 → exec i s = .next (waits s)))) ∧
  ((∀ (s t : State) (i : Instr) (d a : SReg) (m : BitVec 22) (n : Nat) (x : W64) (c : CoreId),
     loadShape i = some (d, a, m, n) → takes s [a] = some ([x], t) → pushable d = true → s.me.wait = .none → alone s = true →
     reaches s x c → (displaced x m).toNat % n = 0 →
     ∃ u r, exec i s = .next u ∧ u.freqs = s.freqs ++ [r] ∧ r.core = s.cur ∧ r.ctx = s.curCtx ∧ r.fid = s.me.fid ∧
       r.addr = displaced x m ∧ r.dest = d ∧ u.me.wait = .fabric r.id ∧ u.me.stalled = true ∧ u.me.pc = s.me.pc ∧
       u.me.num = s.me.num ∧ u.banks = s.banks ∧ u.mem = s.mem ∧ registersKept s u) ∧
   (∀ (s t : State) (i : Instr) (d a : SReg) (m : BitVec 22) (n : Nat) (x v : W64),
     loadShape i = some (d, a, m, n) → takes s [a] = some ([x], t) → room t d = true → s.me.wait = .value v →
     exec i s = .next (result (acquired t (loadScope i)) d v)) ∧
   (∀ (s t : State) (i : Instr) (d a : SReg) (m : BitVec 22) (n : Nat) (x : W64) (code info : Nat) (va : W64),
     loadShape i = some (d, a, m, n) → takes s [a] = some ([x], t) → pushable d = true → s.me.wait = .failed code info va →
     exec i s = .next (s.raiseInt code info va)))

/-- R248, R420, R428: the faults of a load or store address, in their order. A local or fabric base with a window above 10 or a
reserved bit set is a protection trap, cause 0x06; a fabric base of a cluster outside the span another; an empty slot a
detached-berth trap, cause 0x07; a bank whose tag does not allow the firing 0x06; a misaligned address, last, an alignment
trap, cause 0x04. FAULTVA is the address as formed. -/
def Obligations.AccessFaultsInOrder : Prop :=
  ∀ (s t : State) (i : Instr) (src : List SReg) (vs : List W64) (d a : SReg) (m : BitVec 22) (n : Nat) (x : W64),
    ((loadShape i = some (d, a, m, n) ∧ src = [a] ∧ pushable d = true) ∨
      (storeShape i = some (d, a, m, n) ∧ src = [a, d]) ∨ (∃ h, i = .stnb d a m h ∧ n = 1 ∧ src = [a, d])) →
    takes s src = some (x :: vs, t) → s.me.wait = .none →
    (x.getLsbD 63 = true → (10 < (x.extractLsb' 59 4).toNat ∨ x.extractLsb' 19 27 ≠ 0) →
      exec i s = .next (s.raiseInt 0x06 4 (displaced x m))) ∧
    (x.getLsbD 63 = true → (x.extractLsb' 59 4).toNat ≤ 10 → x.extractLsb' 19 27 = 0 →
      s.fabricCore s.cur.siteId (x.extractLsb' 48 11).toNat (x.extractLsb' 46 2).toNat = none →
      exec i s = .next (s.raiseInt 0x06 5 (displaced x m))) ∧
    (x.extractLsb' 32 32 = 0 → (10 < (x.extractLsb' 28 4).toNat ∨ x.extractLsb' 19 9 ≠ 0) →
      exec i s = .next (s.raiseInt 0x06 4 (displaced x m))) ∧
    (x.extractLsb' 32 32 = 0 → (x.extractLsb' 28 4).toNat ≤ 10 → x.extractLsb' 19 9 = 0 →
      s.myCore.berth (x.extractLsb' 16 3).toNat = none → exec i s = .next (s.raiseInt 0x07 0 (displaced x m))) ∧
    (∀ b, x.extractLsb' 32 32 = 0 → (x.extractLsb' 28 4).toNat ≤ 10 → x.extractLsb' 19 9 = 0 →
      s.myCore.berth (x.extractLsb' 16 3).toNat = some b → opens s x b = false →
      exec i s = .next (s.raiseInt 0x06 7 (displaced x m))) ∧
    (∀ b, opens s x b = true → offset x m % n ≠ 0 → exec i s = .next (s.raiseInt 0x04 0 (displaced x m))) ∧
    (∀ c, reaches s x c → (displaced x m).toNat % n ≠ 0 → exec i s = .next (s.raiseInt 0x04 0 (displaced x m))) ∧
    (x.getLsbD 63 = false → x.extractLsb' 32 32 ≠ 0 → 2 ^ 57 ≤ globalSum x m →
      exec i s = .next (s.raiseInt 0x05 1 (BitVec.ofNat 64 (globalSum x m))))

/-- R268, R269, R270: an atomic on the core's own berth, and one on module memory at the home slice. The destination takes the
old value, zero-extended, and the place takes the new one, in one step; no other byte changes. A release asked for has nothing
to wait for here, and an acquire of a scope wider than .core leaves the core no clean L1 line.
R271, R272: RED writes no register. On the core's own berth the word takes its new value at once; through a fabric address
it leaves as one remote write; on module memory the update is gathered in the core and memory stays as it is until the line is
sent home. -/
def Obligations.AtomicsAndReductions : Prop :=
  ((∀ (d a b c : SReg) (u : Bool) (f : AtomFlags),
     head (.cas d a b c f) = some 0x3180 ∧ head (.swap d a b f) = some 0x3181 ∧ head (.fadd d a b f) = some 0x3182 ∧
     head (.fand d a b f) = some 0x3183 ∧ head (.for_ d a b f) = some 0x3184 ∧ head (.fxor d a b f) = some 0x3185 ∧
     head (.fmin d a b u f) = some 0x3186 ∧ head (.fmax d a b u f) = some 0x3187) ∧
   (∀ (s t : State) (i : Instr) (d : SReg) (src : List SReg) (f : AtomFlags) (x y : W64) (zs : List W64) (b : BankId),
     atomShape i = some (d, src, f) → takes s src = some (x :: y :: zs, t) → room t d = true → s.me.wait = .none →
     alone s = true → released s = true → opens s x b = true → calm s b = true → unprotected s b = true →
     Memory.wf (s.bank b).bytes = true →
     let n := if f.w64 then 8 else 4
     let o := offset x 0
     let z := zs.headD 0
     let new : W64 :=
       if f.w64 then atomValue i (le8 (bankByte s b) o) y z
       else (atomValue i (le4 (bankByte s b) o) (y.extractLsb' 0 32) (z.extractLsb' 0 32)).zeroExtend 64
     o % n = 0 →
     ∃ u, exec i s = .next (result u d (if f.w64 then le8 (bankByte s b) o else (le4 (bankByte s b) o).zeroExtend 64)) ∧
       bankBytesAre s u b o n (byteOf new) ∧ u.mem = s.mem ∧ memKept s u ∧ registersKept s u ∧
       (f.acq = true → f.scope ≠ .core → u.myCore.l1 = [])) ∧
   (∀ (s t : State) (i : Instr) (d : SReg) (src : List SReg) (f : AtomFlags) (x y : W64) (zs : List W64) (pa : Nat),
     atomShape i = some (d, src, f) → takes s src = some (x :: y :: zs, t) → room t d = true → s.me.wait = .none →
     alone s = true → released s = true → maps s x 0 .atomic pa → noUpdates s = true → inArray s pa →
     let n := if f.w64 then 8 else 4
     let z := zs.headD 0
     let new : W64 :=
       if f.w64 then atomValue i (le8 s.memByte pa) y z
       else (atomValue i (le4 s.memByte pa) (y.extractLsb' 0 32) (z.extractLsb' 0 32)).zeroExtend 64
     soundHbm s pa n = true → x.toNat % n = 0 → pa % n = 0 →
     ∃ u, exec i s = .next (result u d (if f.w64 then le8 s.memByte pa else (le4 s.memByte pa).zeroExtend 64)) ∧
       memBytesAre s u pa n (byteOf new) ∧ u.mem = s.mem ∧ u.banks = s.banks ∧ registersKept s u ∧
       u.myCore.l1Find (pa / 64) = none ∧ (f.acq = true → f.scope ≠ .core → u.myCore.l1 = []))) ∧
  ((∀ (a b : SReg) (op : RedOp) (w : Bool), head (.red a b op w) = some 0x3500) ∧
   (∀ (s t : State) (a b : SReg) (op : RedOp) (wide : Bool) (x y : W64) (bk : BankId),
     takes s [a, b] = some ([x, y], t) → alone s = true → opens s x bk = true → calm s bk = true → unprotected s bk = true →
     Memory.wf (s.bank bk).bytes = true → offset x 0 % (if wide then 8 else 4) = 0 →
     ∃ u, exec (.red a b op wide) s = .next u ∧ stands s u (following s) ∧ u.mem = s.mem ∧ memKept s u ∧ registersKept s u ∧
       (∀ v, wide = true → redValue op (le8 (bankByte s bk) (offset x 0)) y = some v →
         bankBytesAre s u bk (offset x 0) 8 (byteOf v)) ∧
       (∀ v, wide = false → redValue op (le4 (bankByte s bk) (offset x 0)) (y.extractLsb' 0 32) = some v →
         bankBytesAre s u bk (offset x 0) 4 (byteOf (v.zeroExtend 64)))) ∧
   (∀ (s t : State) (a b : SReg) (op : RedOp) (wide : Bool) (x y : W64) (c : CoreId),
     takes s [a, b] = some ([x, y], t) → alone s = true → reaches s x c → x.toNat % (if wide then 8 else 4) = 0 →
     s.myCore.unacked < 256 →
     ∃ u, exec (.red a b op wide) s = .next u ∧ stands s u (following s) ∧
       u.fwrites = s.fwrites ++ [{ src := s.cur, ctx := s.curCtx, fid := s.me.fid, comp := s.me.compart, addr := x
                                   kind := .red op wide (if wide then y else (y.extractLsb' 0 32).zeroExtend 64) }] ∧
       u.myCore.unacked = s.myCore.unacked + 1 ∧ u.banks = s.banks ∧ u.mem = s.mem ∧ registersKept s u) ∧
   (∀ (s t : State) (a b : SReg) (op : RedOp) (wide : Bool) (x y : W64) (pa : Nat),
     takes s [a, b] = some ([x, y], t) → alone s = true → maps s x 0 .red pa →
     soundHbm s pa (if wide then 8 else 4) = true → s.myCore.updates = [] →
     x.toNat % (if wide then 8 else 4) = 0 → pa % (if wide then 8 else 4) = 0 →
     ∃ u, exec (.red a b op wide) s = .next u ∧ stands s u (following s) ∧
       u.myCore.updates = [{ addr := pa, op := op, w64 := wide
                             val := if wide then y else (y.extractLsb' 0 32).zeroExtend 64, fid := s.me.fid }] ∧
       memKept s u ∧ u.mem = s.mem ∧ u.banks = s.banks ∧ registersKept s u))

/-- R273-R276, R403: FENCE goes on once its release has nothing to wait for, then invalidates the clean L1 lines of its core when
it acquires wider than .core, an acquire after the vector and matrix reads that the context has made before it (R252, R259, R260: a
forwarded VLD or VLDG, a matrix instruction that has not consumed); SFENCE waits for the core's remote stores; IFENCE drops every line of its cluster's instruction
cache. A recorded refusal of a remote store is reported by a FENCE or SFENCE as a delivery fault, cause 0x0B.
R249: PFU changes no register and no byte, traps on no base and waits for nothing. With a local or fabric base, with a global base
that cannot be translated or that the tables map to a page that allows no load, to host memory or to a peer window, with a line
that L1 holds or that is bad it has no effect at all. Else it brings the line with its UC and DEAD into L1: at once where the line
stands in its home slice, by a request to that slice where it does not, by a walk first where no TLB holds the page. (That a request
takes its line only once the line is there, and that one step makes each, is log 13's: the model's choice.) -/
def Obligations.FencesAndPrefetch : Prop :=
  ((∀ (k : FenceKind) (sc : Scope), head (.fence k sc) = some 0x3880 ∧ head .sfence = some 0x3801 ∧ head .ifence = some 0x3802) ∧
   (∀ (s : State) (k : FenceKind) (sc : Scope), alone s = true → released s = true →
     (s.myCore.refusals.count = 0 →
       ∃ u, exec (.fence k sc) s = .next u ∧ stands s u (following s) ∧ memKept s u ∧ u.banks = s.banks ∧ registersKept s u ∧
         (sc ≠ .core → k ≠ .rel → u.myCore.l1 = []) ∧ (k = .rel → u.myCore.l1 = s.myCore.l1)) ∧
     (s.myCore.refusals.count ≠ 0 →
       ∃ u, exec (.fence k sc) s = .next u ∧ u = s.raiseInt 0x0B s.myCore.refusals.info s.myCore.refusals.addr)) ∧
   (∀ (s : State) (k : FenceKind) (sc : Scope), k ≠ .acq → quiet s = false ∨ (sc ≠ .core ∧ s.myCore.unacked ≠ 0) ∨
       (∃ w ∈ s.fwrites, w.src = s.cur ∧ w.ctx = s.curCtx) →
     exec (.fence k sc) s = .next (waits s)) ∧
   (∀ (s : State) (sc : Scope) (v : VInstr) (rest : List SeqEntry) (d : VReg) (a : SReg) (m : VMemImm) (base : W64) (b : BankId) (l : Nat),
     s.myCore.refusals.count = 0 → s.me.seq = { v := v } :: rest → v.instr = .vld d a m → v.sval = some base → v.num ≤ s.me.num →
     (base.extractLsb' 28 4).toNat ≤ 10 → s.myCore.berth (base.extractLsb' 16 3).toNat = some b → l < 16 →
     active s s.cur s.curCtx m.pred l = true → exec (.fence .acq sc) s = .next (waits s)) ∧
   (∀ (s : State) (sc : Scope) (e : MEntry), s.myCore.refusals.count = 0 → e ∈ s.myCore.slice → e.ctx = s.curCtx → e.cons = false →
     e.num ≤ s.me.num → e.feet ≠ [] → (∀ d a im r, e.instr ≠ .mstore d a im r) → exec (.fence .acq sc) s = .next (waits s)) ∧
   (∀ (s : State), s.myCore.unacked = 0 → s.myCore.refusals.count = 0 → exec .sfence s = .next (done s)) ∧
   (∀ (s : State), s.myCore.unacked ≠ 0 → exec .sfence s = .next (waits s)) ∧
   (∀ (s : State), s.myCore.unacked = 0 → s.myCore.refusals.count ≠ 0 →
     exec .sfence s = .next (s.raiseInt 0x0B s.myCore.refusals.info s.myCore.refusals.addr)) ∧
   (∀ (s : State), quiet s = true → s.myCore.unacked = 0 →
     ∃ u, exec .ifence s = .next u ∧ stands s u (following s) ∧ (u.cluster s.cur.siteId).icache = [] ∧ memKept s u ∧
       u.banks = s.banks ∧ registersKept s u)) ∧
  ((∀ (a : SReg) (m : LoadImm), head (.pfu a m) = some 0x2A08) ∧
   (∀ (s t : State) (a : SReg) (m : LoadImm) (x : W64), takes s [a] = some ([x], t) →
     x.getLsbD 63 = true ∨ x.extractLsb' 32 32 = 0 ∨ 2 ^ 57 ≤ globalSum x m.disp ∨ s.myCore.ptbase.getLsbD 0 = false ∨
       s.partOfSite s.cur.siteId = none →
     exec (.pfu a m) s = .next (done t)) ∧
   (∀ (s t : State) (a : SReg) (m : LoadImm) (x : W64) (p : Nat), takes s [a] = some ([x], t) → x.getLsbD 63 = false →
     x.extractLsb' 32 32 ≠ 0 → globalSum x m.disp < 2 ^ 57 → s.myCore.ptbase.getLsbD 0 = true → s.partOfSite s.cur.siteId = some p →
     s.tlbLookup s.cur p (rootPage s.myCore.ptbase) (globalSum x m.disp) = none → s.me.walkFail = none →
     ∃ u, exec (.pfu a m) s = .next u ∧ stands s u (following s) ∧ memKept s u ∧ u.mem = s.mem ∧ u.banks = s.banks ∧
       registersKept s u ∧
       { core := s.cur, fid := s.me.fid, part := p, root := s.myCore.ptbase, va := globalSum x m.disp / 65536 * 65536
         who := .pfu s.cur (globalSum x m.disp) m.uc.val m.dead s.me.sv s.me.compart } ∈ (u.die s.cur.die).walks) ∧
   (∀ (s t : State) (a : SReg) (m : LoadImm) (x : W64) (p : Nat) (e : TlbEntry), takes s [a] = some ([x], t) →
     x.getLsbD 63 = false → x.extractLsb' 32 32 ≠ 0 → globalSum x m.disp < 2 ^ 57 → s.myCore.ptbase.getLsbD 0 = true →
     s.partOfSite s.cur.siteId = some p → s.tlbLookup s.cur p (rootPage s.myCore.ptbase) (globalSum x m.disp) = some e →
     let pa := e.pa + (globalSum x m.disp - e.va)
     (e.peer = true ∨ 2 ^ 40 ≤ pa ∨ (s.pageError e (globalSum x m.disp) .load s.me.sv s.me.compart).isSome ∨
         (s.myCore.l1Find (pa / 64)).isSome ∨ (s.memError (64 * (pa / 64)) 64).isSome →
       exec (.pfu a m) s = .next (done t)) ∧
     (e.peer = false → pa < 2 ^ 40 → s.pageError e (globalSum x m.disp) .load s.me.sv s.me.compart = none →
       s.myCore.l1Find (pa / 64) = none → s.memError (64 * (pa / 64)) 64 = none →
       (inArray s pa → noUpdates s = true → State.reaches s s.cur (homeDie (pa / 64)) = true →
         ∃ u l, exec (.pfu a m) s = .next u ∧ stands s u (following s) ∧ memKept s u ∧ u.mem = s.mem ∧ u.banks = s.banks ∧
           registersKept s u ∧ u.myCore.l1Find (pa / 64) = some l ∧ l.uc = m.uc.val ∧ l.dead = m.dead ∧
           ∀ o, o < 64 → lineByte l o = s.memByte (64 * (pa / 64) + o)) ∧
       (s.l2Ready (pa / 64) = false →
         ∃ u, exec (.pfu a m) s = .next u ∧ stands s u (following s) ∧ memKept s u ∧ (Memory.wf s.mem = true → Memory.wf u.mem = true) ∧
           u.banks = s.banks ∧ registersKept s u ∧
           ∃ q ∈ (u.die (homeDie (pa / 64))).misses ++ (u.die (homeDie (pa / 64))).overflow, q.line = pa / 64 ∧
             { who := .pipe s.cur 0, want := .fill, pa := 64 * (pa / 64), uc := m.uc.val, dead := m.dead } ∈ q.reqs))))

/-! ## Messages and counters (R34-R46, R125-R128) -/

/-- R128 and R44: CSET binds and sets a counter of the core, CADD adds a signed number to it within 0 to 65,535, CRD reads
value, handler and the number of pending slots; each gives the old value. A counter that a CSET leaves at 0, or that a CADD
brings to 0, starts its handler with the pending slots, which it hands over, and takes the handler's RELOAD (here with an entry
that is valid and room in the ready queue). No other counter changes.
R127, R388: INB reads one word of an inbox slot that is in the firing's own mask, and 0 for any other slot; a slot of the mask
with an uncorrectable error is a trap, cause 0x0D, INFO 1 (that its FAULTVA is 0 is log 36's reading, the model's choice). -/
def Obligations.CountersAndInboxReads : Prop :=
  ((∀ (d a b : SReg) (n : Fin 64),
     head (.cset d a b n) = some 0x3D03 ∧ head (.cadd d a n) = some 0x3D04 ∧ head (.crd d n) = some 0x3D05) ∧
   (∀ (s t : State) (d a b : SReg) (n : Fin 64) (x y : W64), takes s [a, b] = some ([x, y], t) → room t d = true →
     x.extractLsb' 0 16 ≠ 0 →
     exec (.cset d a b n) s = .next
       (result (t.updCore s.cur (·.setCounter n.val
         { s.myCore.counter n.val with value := x.extractLsb' 0 16, handler := y.extractLsb' 0 8 }))
         d ((s.myCore.counter n.val).value.zeroExtend 64))) ∧
   (∀ (s t : State) (d a : SReg) (n : Fin 64) (x : W64) (v : BitVec 16), takes s [a] = some ([x], t) → room t d = true →
     (v.toNat : Int) = max 0 (min 65535 ((s.myCore.counter n.val).value.toNat + x.toInt)) →
     ¬(v = 0 ∧ (s.myCore.counter n.val).value ≠ 0) →
     exec (.cadd d a n) s = .next
       (result (t.updCore s.cur (·.setCounter n.val { s.myCore.counter n.val with value := v }))
         d ((s.myCore.counter n.val).value.zeroExtend 64))) ∧
   (∀ (s : State) (d : SReg) (n : Fin 64), room s d = true →
     let c := s.myCore.counter n.val
     let pending := ((List.range 32).filter fun i => c.pending.getLsbD i).length
     exec (.crd d n) s = .next
       (result s d (c.value.zeroExtend 64 ||| c.handler.zeroExtend 64 <<< 16 ||| BitVec.ofNat 64 pending <<< 24))) ∧
   (∀ (s t : State) (i : Instr) (d : SReg) (src : List SReg) (n : Fin 64) (x : W64) (ys : List W64) (h : BitVec 8),
     ((∃ a b, i = .cset d a b n ∧ src = [a, b] ∧ x.extractLsb' 0 16 = 0 ∧ h = (ys.headD 0).extractLsb' 0 8) ∨
       (∃ a, i = .cadd d a n ∧ src = [a] ∧ (s.myCore.counter n.val).value ≠ 0 ∧ h = (s.myCore.counter n.val).handler ∧
         (s.myCore.counter n.val).value.toNat + x.toInt ≤ 0)) →
     takes s src = some (x :: ys, t) → room t d = true →
     let e := (s.cluster s.cur.siteId).handlers.getD h.toNat 0
     e.getLsbD 96 = true → s.myCore.ready.length < 64 →
     ∃ u, exec i s = .next (result u d ((s.myCore.counter n.val).value.zeroExtend 64)) ∧
       u.myCore.counter n.val = { value := e.extractLsb' 64 16, handler := h, pending := 0 } ∧
       (∀ m, m ≠ n.val → u.myCore.counter m = s.myCore.counter m) ∧
       u.myCore.ready = s.myCore.ready ++
         [{ handler := h.toNat, entry := e, slots := (s.myCore.counter n.val).pending }] ∧
       u.me = t.me ∧ u.myCore.k = s.myCore.k ∧ u.myCore.inbox = s.myCore.inbox ∧ u.mem = s.mem ∧ u.banks = s.banks)) ∧
  ((∀ (d a : SReg) (w : Fin 8), head (.inb d a w) = some 0x3D02) ∧
   ∀ (s t : State) (d a : SReg) (w : Fin 8) (x : W64) (m : InSlot), takes s [a] = some ([x], t) → room t d = true →
     let slot := (x.extractLsb' 0 5).toNat
     (s.me.slots.getLsbD slot = false → exec (.inb d a w) s = .next (result t d 0)) ∧
     (s.me.slots.getLsbD slot = true → s.myCore.inbox.find slot = some m → m.bad = true →
       exec (.inb d a w) s = .next (s.raiseInt 0x0D 1 0)) ∧
     (s.me.slots.getLsbD slot = true → s.myCore.inbox.find slot = some m → m.bad = false →
       (w = 0 → exec (.inb d a w) s = .next (result t d m.msg.h0)) ∧
       (w = 1 → exec (.inb d a w) s = .next (result t d m.msg.h1)) ∧
       (2 ≤ w → m.msg.payload.length = 48 →
         exec (.inb d a w) s = .next (result t d (le8 (fun o => m.msg.payload.getD o 0) (8 * (w.val - 2)))))))

/-- R40, R41, R46, R125: SEND puts one message into the core's outbound queue, its header built from the operands and the
sender's own place, its payload 48 zero bytes or 48 bytes of the core's own berth; it writes the message's sequence number.
SENDT does the same where an entry is free that no running firing holds, and writes 0; where none is, it writes 1 and does
nothing else, popping nothing. -/
def Obligations.SendBuildsAMessage : Prop :=
  (∀ (d a b c : SReg) (f : SendFlags), head (.send d a b c f) = some 0x3D80 ∧ head (.sendt d a b c f) = some 0x3D81) ∧
  (∀ (s t : State) (d a b c : SReg) (f : SendFlags) (src : List SReg) (x y : W64) (zs : List W64) (try_ : Bool),
    src = (if f.zp then [a, b] else [a, b, c]) → takes s src = some (x :: y :: zs, t) → room t d = true →
    s.myCore.outq.length < 32 → s.cur.core < 4 →
    (f.merge = true → s.mayMerge s.cur.siteId = true) →
    (if try_ then s.myCore.reserved < 32 - s.myCore.outq.length else s.me.sent < s.me.sends) →
    (f.zp = false → alone s = true ∧ ∃ b, opens s (zs.headD 0) b = true ∧ calm s b = true ∧
      (zs.headD 0).extractLsb' 28 4 = 0 ∧ (zs.headD 0).toNat % 16 = 0 ∧ offset (zs.headD 0) 0 + 48 ≤ 0x10000) →
    ∃ u m, exec (if try_ then .sendt d a b c f else .send d a b c f) s =
        .next (result u d (if try_ then 0 else s.myCore.seqno.zeroExtend 64)) ∧
      u.myCore.outq.map (·.msg) = s.myCore.outq.map (·.msg) ++ [m] ∧ u.myCore.seqno = s.myCore.seqno + 1 ∧
      m.h0 = 0#11 ++ BitVec.ofNat 2 s.cur.core ++ BitVec.ofNat 11 (s.logical s.cur.siteId) ++ 0#6 ++
        BitVec.ofBool f.merge ++ BitVec.ofBool f.direct ++ 0#2 ++ y.extractLsb' 8 6 ++ y.extractLsb' 0 8 ++ 0#3 ++
        x.extractLsb' 46 2 ++ x.extractLsb' 48 11 ∧
      m.h1 = s.myCore.seqno.zeroExtend 64 ∧
      (f.zp = true → m.payload = List.replicate 48 0) ∧
      (f.zp = false → ∃ b, opens s (zs.headD 0) b = true ∧
        m.payload = (List.range 48).map fun i => bankByte s b (offset (zs.headD 0) 0 + i)) ∧
      u.me.sent = (if try_ then s.me.sent else s.me.sent + 1) ∧ u.me.x = s.me.x ∧ u.me.q = t.me.q ∧
      u.banks = s.banks ∧ u.mem = s.mem) ∧
  (∀ (s : State) (d a b c : SReg) (f : SendFlags),
    poppable a = true → poppable b = true → room s d = true → f.zp = true → f.merge = false →
    32 - s.myCore.outq.length ≤ s.myCore.reserved →
    exec (.sendt d a b c f) s = .next (result s d 1)) ∧
  (∀ (s t : State) (d a b c : SReg) (f : SendFlags) (vs : List W64),
    takes s [a, b] = some (vs, t) → pushable d = true → f.zp = true → f.merge = false → s.me.sends ≤ s.me.sent →
    exec (.send d a b c f) s = .next (s.raiseInt 0x0B 5 0))

/-- R43, R45, R126, R278, R356, R399, R400: a message of an engine or of another core that reaches a core, no earlier one of its
stream before it, its way over the straits open, no fault report and no stop token, goes into the lowest free inbox slot. With
DIRECT set it starts the handler its header names; otherwise its counter falls by 1 and keeps the slot pending, or, at 1, starts the
bound handler with every pending slot and takes its RELOAD. One that finds no handler starts the stray handler with its code in H1,
or, where that is not valid either, is discarded and counted. One that finds no slot, or the ready queue full, waits at the port. A
core's message that names no core of its span, or a handler of another compartment, is refused and recorded by its sender. A merge
message enters the merge engine. -/
def Obligations.MessageArrivalFillsASlot : Prop :=
  (∀ (s : State) (c : CoreId) (f : Flight) (m : MsgFrom) (rest : List Flight) (i : Nat),
    reachesPort s c f m rest → admitted s c f → i < 32 → (s.core c).inbox.find i = none →
    (∀ j, j < i → (s.core c).inbox.find j ≠ none) → (s.core c).ready.length < 64 →
    let n := (f.msg.h0.extractLsb' 24 6).toNat
    let ctr := counterOf s c f
    let h := handlerOf s c f
    let e := entryAt s c h
    (handled s c f →
      ∃ t, exec (.messageArrival c m) s = .next t ∧ departed t m rest ∧
        (t.core c).inbox.find i = some { msg := f.msg, report := f.report, comp := f.compart } ∧
        (f.msg.h0.getLsbD 32 = true →
          (t.core c).ready = (s.core c).ready ++ [{ handler := h, entry := e, slots := 1 <<< i }] ∧
          (t.core c).ctrs = (s.core c).ctrs) ∧
        (f.msg.h0.getLsbD 32 = false → 1 < ctr.value.toNat →
          (t.core c).ready = (s.core c).ready ∧
          (t.core c).counter n = { ctr with value := ctr.value - 1, pending := ctr.pending ||| 1 <<< i }) ∧
        (f.msg.h0.getLsbD 32 = false → ctr.value = 1 →
          (t.core c).ready = (s.core c).ready ++ [{ handler := h, entry := e, slots := ctr.pending ||| 1 <<< i }] ∧
          (t.core c).counter n = { ctr with value := e.extractLsb' 64 16, pending := 0 }) ∧
        t.mem = s.mem ∧ t.banks = s.banks) ∧
    ((entryAt s c 254).getLsbD 96 = true →
      (f.msg.h0.getLsbD 32 = true ∧ e.getLsbD 96 = false ∨ f.msg.h0.getLsbD 32 = false ∧ ctr.value = 0 →
        ∃ t, exec (.messageArrival c m) s = .next t ∧ departed t m rest ∧
          (t.core c).inbox.find i =
            some { msg := withStray f.msg (if f.msg.h0.getLsbD 32 then 1 else 2), report := f.report, comp := f.compart } ∧
          (t.core c).ready = (s.core c).ready ++ [{ handler := 254, entry := entryAt s c 254, slots := 1 <<< i }] ∧
          (t.core c).ctrs = (s.core c).ctrs) ∧
      (f.msg.h0.getLsbD 32 = false → ctr.value = 1 → e.getLsbD 96 = false →
        ∃ t, exec (.messageArrival c m) s = .next t ∧ departed t m rest ∧
          (t.core c).inbox.find i = some { msg := withStray f.msg 3, report := f.report, comp := f.compart } ∧
          (∀ j p, ctr.pending.getLsbD j = true → (s.core c).inbox.find j = some p →
            (t.core c).inbox.find j = some { p with msg := withStray p.msg 3 }) ∧
          (t.core c).ready = (s.core c).ready ++ [{ handler := 254, entry := entryAt s c 254, slots := ctr.pending ||| 1 <<< i }] ∧
          (t.core c).counter n = { ctr with value := e.extractLsb' 64 16, pending := 0 }))) ∧
  (∀ (s : State) (c : CoreId) (f : Flight) (m : MsgFrom) (rest : List Flight), reachesPort s c f m rest → admitted s c f →
    (entryAt s c 254).getLsbD 96 = false →
    f.msg.h0.getLsbD 32 = true ∧ (entryAt s c (handlerOf s c f)).getLsbD 96 = false ∨
      f.msg.h0.getLsbD 32 = false ∧ (counterOf s c f).value = 0 →
    ∃ t, exec (.messageArrival c m) s = .next t ∧ departed t m rest ∧ (t.core c).inbox = (s.core c).inbox ∧
      (t.core c).ready = (s.core c).ready ∧ (t.core c).ctrs = (s.core c).ctrs ∧
      ∀ l k, s.launchAt c.siteId = some l → s.launch l.id = some k → t.launch l.id = some { k with discard := k.discard + 1 }) ∧
  (∀ (s : State) (c : CoreId) (f : Flight) (m : MsgFrom) (rest : List Flight), reachesPort s c f m rest → admitted s c f →
    handled s c f →
    (∀ j, j < 32 → (s.core c).inbox.find j ≠ none) ∨
      ((f.msg.h0.getLsbD 32 = true ∨ (counterOf s c f).value = 1) ∧ 64 ≤ (s.core c).ready.length) →
    ∃ t, exec (.messageArrival c m) s = .next t ∧ departed t m rest ∧ (t.core c).portq = [f] ∧
      (t.core c).inbox = (s.core c).inbox ∧ (t.core c).ready = (s.core c).ready ∧ (t.core c).ctrs = (s.core c).ctrs) ∧
  (∀ (s : State) (c o : CoreId) (f : Flight) (m : MsgFrom) (rest : List Flight) (info : Nat), reachesPort s c f m rest →
    f.src = some o →
    info = 2 ∧ addressee s o f ≠ some c ∨
      info = 3 ∧ addressee s o f = some c ∧ (comparedWith s c f).getLsbD 96 = true ∧
        ((comparedWith s c f).extractLsb' 90 6).toNat ≠ f.compart →
    ∃ t, exec (.messageArrival c m) s = .next t ∧ departed t m rest ∧ (t.core c).inbox = (s.core c).inbox ∧
      (t.core c).ready = (s.core c).ready ∧ (t.core c).ctrs = (s.core c).ctrs ∧ (t.core c).portq = [] ∧
      (t.core o).refusals.count = (s.core o).refusals.count + 1 ∧
      ((s.core o).refusals.count = 0 → (t.core o).refusals.info = info ∧
        (t.core o).refusals.addr = 1#1 ++ 0#4 ++ f.msg.h0.extractLsb' 0 11 ++ f.msg.h0.extractLsb' 11 2 ++ 0#46) ∧
      ((s.core o).refusals.count ≠ 0 → (t.core o).refusals.info = (s.core o).refusals.info ∧
        (t.core o).refusals.addr = (s.core o).refusals.addr)) ∧
  (∀ (s : State) (c o : CoreId) (f : Flight) (rest : List Flight) (p : Span) (l : Launch) (n : SiteId),
    (s.core o).outq = f :: rest → f.dest = c → f.src = some o → f.merged = false → f.msg.h0.getLsbD 33 = true →
    (s.core o).stopped = false → (s.die o.die).fenced = false → (s.core c).portq = [] → s.spanAt o.siteId = some p →
    s.launch p.launch = some l → l.merge = some n → (s.die n.die).fenced = false →
    o.die = n.die ∨ s.routed ((s.partOfSite o.siteId).getD 0) o.die n.die = true →
    ∃ t, exec (.messageArrival c (.core o 0)) s = .next t ∧ (t.core o).outq = rest ∧
      (t.core c).inbox = (s.core c).inbox ∧ (t.core c).ready = (s.core c).ready ∧
      t.launch p.launch = some { l with mergeMsgs := l.mergeMsgs ++
        [{ slice := p.slice, score := s.spanCoreNo o, msg := f.msg, comp := f.compart }] })

/-- R35, R46, R48, R50, R265, R380: FIRING_START. The oldest ready firing (none of them with ready-queue precedence) takes the
lowest free context of a running core whose outbound queue has room for its SENDS beside those still reserved: the PC of its
entry, x1 the mask of its inbox slots, x2 its handler, every other x register, predicate and queue zero or empty, STATUS 1 (3
for handlers 254 and 255), no vector register bound; the core's clean L1 lines go. The new firing's RNDCTL is 1. (R48 lets any free
context take it; that it is the lowest-numbered is log 38, the model's choice.) -/
def Obligations.FiringStartsAsDescribed : Prop :=
  ∀ (s : State) (c : CoreId) (r : Ready) (rest : List Ready) (y : Nat),
    (s.core c).stopped = false → (s.die c.die).fenced = false → (s.core c).ready = r :: rest →
    (∀ q ∈ r :: rest, q.entry.getLsbD 88 = false) → y < 4 → (s.ctx c y).running = false →
    (∀ z, z < y → (s.ctx c z).running = true) →
    (r.entry.extractLsb' 80 8).toNat + (s.core c).reserved + (s.core c).outq.length ≤ 32 →
    ∃ t, exec (.firingStart c) s = .next t ∧ (t.core c).ready = rest ∧ (t.core c).l1 = [] ∧
      (t.ctx c y).running = true ∧ (t.ctx c y).pc = r.entry.extractLsb' 0 64 ∧
      (t.ctx c y).xreg 1 = r.slots.zeroExtend 64 ∧ (t.ctx c y).xreg 2 = BitVec.ofNat 64 r.handler ∧
      (∀ n, n ≠ 1 → n ≠ 2 → (t.ctx c y).xreg n = 0) ∧ (∀ n, (t.ctx c y).p.getD n 0 = 0) ∧ (t.ctx c y).v = [] ∧ (∀ n, (t.ctx c y).queue n = []) ∧
      (t.ctx c y).status = (if r.handler = 254 ∨ r.handler = 255 then 3 else 1) ∧ (t.ctx c y).rndctl = 1 ∧
      (t.ctx c y).slots = r.slots ∧ (t.ctx c y).compart = (r.entry.extractLsb' 90 6).toNat ∧
      (∀ z, z ≠ y → t.ctx c z = s.ctx c z) ∧ (t.core c).k = (s.core c).k ∧ t.mem = s.mem ∧ t.banks = s.banks

/-! ## Vector instructions (R50-R53, R68-R70, R129-R162) -/

/-- R70, R75, R131, R158, R171: the integer pipeline forwards every instruction of majors 0x10-0x1B but VLOOP and VSYNC into its
context's sequencer, where it captures the instruction's x or k operand and RNDCTL, and goes on without waiting for a result;
no lane, predicate or other register changes yet. A full sequencer makes it wait, and so does an acquiring access through a handed
slot that has not been made (R255, R259); a queue named against its direction takes the misuse trap 0x0A, an operand in an
uncorrectable row 0x0D (R388; that its FAULTVA is 0 is log 36's reading, the model's choice).
R159, R160: VLOOP takes as its body the k + 1 instructions retained most recently, oldest first, is forwarded, and traps,
cause 0x01, where fewer are retained (its INFO, and that it comes before a queue's misuse, are log 21's readings; that a gang's members
repeat together only bodies that all of them retain alike is log 33's: the model's choices); VSYNC goes on when the sequencer is empty and waits before. In the sequencer a count of
0 in bits 31:0 ends the VLOOP at once; another starts it at its body's first instruction. -/
def Obligations.VectorForwardingAndLoops : Prop :=
  (∀ (s : State) (i : Instr), forwards i = true → i.wf = true →
     (vectorQueuesOk i = true → operandSound s i = true → vectorRoom s = true →
       s.handWaits s.cur s.curCtx = false → exec i s = .next (done (({ s with ids := s.ids + 1 } : State).updMe fun v =>
         { v with seq := v.seq ++ [{ v := asForwarded s i }], hist := (asForwarded s i :: v.hist).take 16 }))) ∧
     (vectorQueuesOk i = true → operandSound s i = true →
       vectorRoom s = false ∨ s.handWaits s.cur s.curCtx = true → exec i s = .next (waits s)) ∧
     (vectorQueuesOk i = true → operandSound s i = false → exec i s = .next (s.raiseInt 0x0D 1 0)) ∧
     (vectorQueuesOk i = false → ∃ info, (info = 1 ∨ info = 2) ∧ exec i s = .next (s.raiseInt 0x0A info 0))) ∧
  ((∀ (s : State) (a : SReg) (k : Fin 16), vectorQueuesOk (.vloop a k) = true → operandSound s (.vloop a k) = true →
     s.me.seq.length < 16 → s.handWaits s.cur s.curCtx = false → k.val + 1 ≤ s.me.hist.length →
     exec (.vloop a k) s = .next (done (({ s with ids := s.ids + 1 } : State).updMe fun v =>
       { v with seq := v.seq ++ [{ v := asForwarded s (.vloop a k), body := loopBody s (k.val + 1) }] }))) ∧
   (∀ (s : State) (a : SReg) (k : Fin 16), s.me.hist.length ≤ k.val → exec (.vloop a k) s = .next (s.raiseInt 0x01 7 0)) ∧
   (∀ (s : State), s.me.seq = [] → exec .vsync s = .next (done s)) ∧
   (∀ (s : State), s.me.seq ≠ [] → exec .vsync s = .next (waits s)) ∧
   (∀ (s : State) (c : CoreId) (x : Nat) (e : SeqEntry) (rest : List SeqEntry) (w : W64),
     (s.ctx c x).seq = e :: rest → e.body ≠ [] → e.loop = none → mayRun s c x e.v → e.v.sval = some w →
     ∃ t, exec (.sequencerExecution c x) s = .next t ∧ t.mem = s.mem ∧ t.banks = s.banks ∧
       (t.ctx c x).v = (s.ctx c x).v ∧ (t.ctx c x).x = (s.ctx c x).x ∧
       (w.extractLsb' 0 32 = 0 → (t.ctx c x).seq = rest) ∧
       (w.extractLsb' 0 32 ≠ 0 →
         (t.ctx c x).seq = { e with loop := some { left := (w.extractLsb' 0 32).toNat, pos := 0 } } :: rest)))

/-- R69, R129, R130, R131, R135-R138, R141: an element-wise integer, logic or move instruction that is the oldest in its
sequencer gives every active lane of d the value of its entry from the modified lanes of a and b, all read before any is
written; inactive lanes, every other register, memory and banks are as before.
R133, R134, R135, R150, R171: the same for float arithmetic, fused forms, minima and maxima and the special functions, with the
rounding that RND, SAT and the RNDCTL captured at forwarding give.
R134: every arithmetic lane instruction with a NaN among its operands gives the canonical NaN 0x7FC00000, in every rounding
mode and with either SAT; so do the sums of opposite infinities, the product of zero and an infinity, and the quotients of two
zeros and of two infinities. A finite number divided by zero is the infinity of the signs. -/
def Obligations.VectorElementLanes : Prop :=
  (∀ (s : State) (c : CoreId) (x : Nat) (v : VInstr) (rest : List SeqEntry) (w : W64) (d a : VReg) (b : Option VSrc)
     (g : Option VReg) (m : SrcMod) (p : PReg) (F : Nat → W32),
     first s c x v rest → scalarIs s c x v w → lanewise v.instr = some (d, a, b, g, m, p) → v.instr.wf = true →
     (∀ i, i < 16 → wordLane v.instr (laneA s c x a m i) (match b with
       | some r => laneB s c x w r m i
       | none => 0) = some (F i)) →
     ∃ t, exec (.sequencerExecution c x) s = .next t ∧ writesLanes s t c x rest d (active s c x p) F) ∧
  (∀ (s : State) (c : CoreId) (x : Nat) (v : VInstr) (rest : List SeqEntry) (w : W64) (d a : VReg) (b : Option VSrc)
     (g : Option VReg) (m : SrcMod) (p : PReg) (F : Nat → W32),
     first s c x v rest → scalarIs s c x v w → lanewise v.instr = some (d, a, b, g, m, p) → v.instr.wf = true →
     (∀ i, i < 16 → floatLane v.instr v.rndctl (laneA s c x a m i)
       (match b with
         | some r => laneB s c x w r m i
         | none => 0)
       (match g with
         | some r => lane s c x r i
         | none => 0) = some (F i)) →
     ∃ t, exec (.sequencerExecution c x) s = .next t ∧ writesLanes s t c x rest d (active s c x p) F) ∧
  (∀ (mode : RMode) (sat : Bool) (a b c : W32),
     let nan := fun (w : W32) => w.extractLsb' 23 8 = 0xFF ∧ w.extractLsb' 0 23 ≠ 0
     let inf := fun (w : W32) => w.extractLsb' 0 31 = 0x7F800000
     let zero := fun (w : W32) => w.extractLsb' 0 31 = 0
     let sgn := fun (w : W32) => w.getLsbD 31
     (nan a ∨ nan b →
       laneAdd mode sat a b = 0x7FC00000 ∧ laneSub mode sat a b = 0x7FC00000 ∧ laneMul mode sat a b = 0x7FC00000 ∧
       laneDiv mode sat a b = 0x7FC00000) ∧
     (nan a ∨ nan b ∨ nan c → ∀ np nc, laneFma mode sat np nc a b c = 0x7FC00000) ∧
     (inf a → inf b → sgn a ≠ sgn b → laneAdd mode sat a b = 0x7FC00000) ∧
     (inf a → inf b → sgn a = sgn b → laneAdd mode sat a b = a ∧ laneSub mode sat a b = 0x7FC00000) ∧
     (inf a → zero b → laneMul mode sat a b = 0x7FC00000 ∧ laneMul mode sat b a = 0x7FC00000) ∧
     (zero a → zero b → laneDiv mode sat a b = 0x7FC00000) ∧ (inf a → inf b → laneDiv mode sat a b = 0x7FC00000) ∧
     (¬nan a → ¬inf a → ¬zero a → zero b →
       laneDiv mode sat a b = if sgn a = sgn b then 0x7F800000 else 0xFF800000))

/-- R139-R145: compares, selects, broadcasts, extracts, permutes and conversions that are the oldest in their sequencer. VSEL and
VXL write every lane; VCMP writes its predicate, 0 in inactive lanes; VEXT and the counts push one value into q4 or q5; VXL
records in its predicate which lanes received one. R149, R173: a stochastic VCVT draws once for each active lane, in ascending order
(what a lane converts to: RoundingAndConversion). -/
def Obligations.VectorCrossLanes : Prop :=
  ∀ (s : State) (c : CoreId) (x : Nat) (v : VInstr) (rest : List SeqEntry) (w : W64),
    first s c x v rest → scalarIs s c x v w → v.instr.wf = true →
    (∀ d a b m p, v.instr = .vsel d a b m p →
      ∃ t, exec (.sequencerExecution c x) s = .next t ∧ writesLanes s t c x rest d (fun _ => true)
        (fun i => if active s c x p i then laneA s c x a m i else laneB s c x w b m i)) ∧
    (∀ d a b m p cc, v.instr = .vcmp d a b m p cc .i32 ∨ v.instr = .vcmp d a b m p cc .n32 →
      ∃ t, exec (.sequencerExecution c x) s = .next t ∧ writesPred s t c x rest d (fun i =>
        let u := v.instr = .vcmp d a b m p cc .n32
        let y := asInt u (laneA s c x a m i)
        let z := asInt u (laneB s c x w b m i)
        active s c x p i && match cc with
          | .eq => y = z
          | .ne => y ≠ z
          | .lt => y < z
          | .le => y ≤ z
          | .gt => z < y
          | .ge => z ≤ y
          | .un => false)) ∧
    (∀ d a b m p cc, v.instr = .vcmp d a b m p cc .f32 →
      ∃ t, exec (.sequencerExecution c x) s = .next t ∧ writesPred s t c x rest d (fun i =>
        let y := f32.decode (laneA s c x a m i).toNat
        let z := f32.decode (laneB s c x w b m i).toNat
        active s c x p i &&
          if y.isNan || z.isNan then cc = .ne || cc = .un
          else match cc with
            | .eq => y.eq z
            | .ne => !y.eq z
            | .lt => y.lt z
            | .le => y.lt z || y.eq z
            | .gt => z.lt y
            | .ge => z.lt y || y.eq z
            | .un => false)) ∧
    (∀ d a p, v.instr = .vbcast d a p →
      ∃ t, exec (.sequencerExecution c x) s = .next t ∧ writesLanes s t c x rest d (active s c x p) (fun _ => w.extractLsb' 0 32)) ∧
    (∀ d a st p, v.instr = .viota d a st p →
      ∃ t, exec (.sequencerExecution c x) s = .next t ∧ writesLanes s t c x rest d (active s c x p)
        (fun i => w.extractLsb' 0 32 + BitVec.ofNat 32 i * st.signExtend 32)) ∧
    (∀ n a b m sx, v.instr = .vext (.q n) a b m sx → (s.ctx c x).queue n.val = [] →
      ∃ t, exec (.sequencerExecution c x) s = .next t ∧ pushes s t c x rest (.q n)
        (let l := laneA s c x a m ((w.extractLsb' 0 7).toNat % 16)
         if sx then l.signExtend 64 else l.zeroExtend 64)) ∧
    (∀ d a b e m p, v.instr = .vxl d a b e m p →
      let j := fun i => (laneB s c x 0 (.v b) m i).toNat
      let got := fun i => active s c x p i && j i < 16 && active s c x p (j i)
      ∃ t, exec (.sequencerExecution c x) s = .next t ∧ vectorFrame s t c x rest ∧
        ∀ i, i < 16 → lane t c x d i = (if got i then laneA s c x a m (j i) else laneA s c x a m i) ∧
          active t c x e i = got i) ∧
    (∀ d a b e m p, v.instr = .vperm d a b e m p →
      ∃ t, exec (.sequencerExecution c x) s = .next t ∧ writesLanes s t c x rest d (active s c x p) (fun i =>
        let j := (laneB s c x 0 (.v b) m i).toNat % 32
        if j < 16 then laneA s c x a m j else lane s c x e (j - 16))) ∧
    (∀ d a outTy frm m p r, v.instr = .vcvt d a outTy frm m p r →
      let q := convertRounding r v.rndctl
      let tb : Tables := { t0 := (s.core c).dt0, t1 := (s.core c).dt1 }
      let draws := q.1 = .sr && srTarget outTy
      ∃ t, exec (.sequencerExecution c x) s = .next t ∧ (t.core c).seed = drawOf s c x p draws 15 ∧
        writesLanes s t c x rest d (active s c x p) (fun i =>
          BitVec.ofNat 32 (convertLane tb outTy frm q.1 q.2 (drawOf s c x p draws i).toNat (laneA s c x a m i).toNat)))

/-- R133, R144, R161: VRED reduces the active lanes, the identity of the operation standing for the others, and pushes one value,
sign-extended for the signed operations; the predicate instructions work bit by bit, PCNT counts the one bits and PFIRST gives
the lowest, 16 where there is none. -/
def Obligations.ReductionsAndPredicates : Prop :=
  ∀ (s : State) (c : CoreId) (x : Nat) (v : VInstr) (rest : List SeqEntry),
    first s c x v rest → v.instr.wf = true →
    (∀ n a m p op, v.instr = .vred (.q n) a m p op → (s.ctx c x).queue n.val = [] →
      let fold := fun (f : W32 → W32 → W32) (unit : W32) =>
        ((List.range 16).map fun i => if active s c x p i then laneA s c x a m i else unit).foldl f unit
      ∃ t r, exec (.sequencerExecution c x) s = .next t ∧ pushes s t c x rest (.q n) r ∧
        (op = .addI → r = (fold (· + ·) 0).signExtend 64) ∧
        (op = .minI → r = (fold (fun y z => if y.toInt ≤ z.toInt then y else z) 0x7FFFFFFF).signExtend 64) ∧
        (op = .maxI → r = (fold (fun y z => if y.toInt ≤ z.toInt then z else y) 0x80000000).signExtend 64) ∧
        (op = .minN → r = (fold (fun y z => if y.toNat ≤ z.toNat then y else z) 0xFFFFFFFF).zeroExtend 64) ∧
        (op = .maxN → r = (fold (fun y z => if y.toNat ≤ z.toNat then z else y) 0).zeroExtend 64) ∧
        (op = .and → r = (fold (· &&& ·) 0xFFFFFFFF).zeroExtend 64) ∧
        (op = .or → r = (fold (· ||| ·) 0).zeroExtend 64) ∧
        (op = .xor → r = (fold (· ^^^ ·) 0).zeroExtend 64) ∧
        (op = .addF → ∀ l : Nat → W32, (∀ i, l i = if active s c x p i then laneA s c x a m i else 0x80000000) →
          let f := laneAdd .rne (v.rndctl.getLsbD 3)
          let four := fun k => f (f (l k) (l (k + 1))) (f (l (k + 2)) (l (k + 3)))
          r = (f (f (four 0) (four 4)) (f (four 8) (four 12))).zeroExtend 64)) ∧
    (∀ d a b, v.instr = .pand d a b →
      ∃ t, exec (.sequencerExecution c x) s = .next t ∧ writesPred s t c x rest d (fun i => active s c x a i && active s c x b i)) ∧
    (∀ d a b, v.instr = .por d a b →
      ∃ t, exec (.sequencerExecution c x) s = .next t ∧ writesPred s t c x rest d (fun i => active s c x a i || active s c x b i)) ∧
    (∀ d a b, v.instr = .pxor d a b →
      ∃ t, exec (.sequencerExecution c x) s = .next t ∧ writesPred s t c x rest d (fun i => active s c x a i != active s c x b i)) ∧
    (∀ d a, v.instr = .pnot d a →
      ∃ t, exec (.sequencerExecution c x) s = .next t ∧ writesPred s t c x rest d (fun i => !active s c x a i)) ∧
    (∀ n a, v.instr = .pcnt (.q n) a → (s.ctx c x).queue n.val = [] →
      ∃ t, exec (.sequencerExecution c x) s = .next t ∧ pushes s t c x rest (.q n)
        (BitVec.ofNat 64 ((List.range 16).filter fun i => active s c x a i).length)) ∧
    (∀ n a, v.instr = .pfirst (.q n) a → (s.ctx c x).queue n.val = [] →
      ∃ t k, exec (.sequencerExecution c x) s = .next t ∧ pushes s t c x rest (.q n) (BitVec.ofNat 64 k) ∧ k ≤ 16 ∧
        (∀ j, j < k → active s c x a j = false) ∧ (k < 16 → active s c x a k = true))

/-- R69, R131, R141-R144, R161, R162: an instruction of a gang of 2, 4 or 8 members, which all stand at it, executes over the gang's
32, 64 or 128 lanes at once: element-wise instructions and the lane moves read every member's lanes before any is written, the source
modifier, VXL and VPERM across members, and each member writes its own 16 lanes; VRED, VEXT, PCNT and PFIRST push one value into
every member's queue. (That VEXT takes the leader's lane number is log 33, the model's choice.) -/
def Obligations.GangVectorLanes : Prop :=
  ∀ (s : State) (c : CoreId) (x : Nat) (g : List (CoreId × Nat)) (i : Instr) (vs : Nat → VInstr) (rs : Nat → List SeqEntry)
    (ws : Nat → W64), together s g i vs rs ws → g.head? = some (c, x) → i.wf = true →
    let L := 16 * g.length
    (∀ d a b e m p (F : Nat → W32), lanewise i = some (d, a, b, e, m, p) →
      (∀ l, l < L →
        let y := gangA s g a m l
        let z := match b with
          | some r => gangB s g ws r m l
          | none => 0
        let u := match e with
          | some r => gangLane s g r l
          | none => 0
        wordLane i y z = some (F l) ∨ floatLane i (vs (l / 16)).rndctl y z u = some (F l)) →
      ∃ t, exec (.sequencerExecution c x) s = .next t ∧ gangWrites s t g rs d (gangActive s g p) F) ∧
    (∀ d a b m p, i = .vsel d a b m p →
      ∃ t, exec (.sequencerExecution c x) s = .next t ∧ gangWrites s t g rs d (fun _ => true)
        (fun l => if gangActive s g p l then gangA s g a m l else gangB s g ws b m l)) ∧
    (∀ d a st p, i = .viota d a st p →
      ∃ t, exec (.sequencerExecution c x) s = .next t ∧ gangWrites s t g rs d (gangActive s g p)
        (fun l => (ws (l / 16)).extractLsb' 0 32 + BitVec.ofNat 32 l * st.signExtend 32)) ∧
    (∀ d a b e m p, i = .vxl d a b e m p →
      let j := fun l => (gangB s g ws (.v b) m l).toNat
      let got := fun l => gangActive s g p l && j l < L && gangActive s g p (j l)
      ∃ t, exec (.sequencerExecution c x) s = .next t ∧ gangFrame s t g rs ∧
        ∀ l, l < L → gangLane t g d l = (if got l then gangA s g a m (j l) else gangA s g a m l) ∧ gangActive t g e l = (got l || e.val = 0)) ∧
    (∀ d a b e m p, i = .vperm d a b e m p →
      ∃ t, exec (.sequencerExecution c x) s = .next t ∧ gangWrites s t g rs d (gangActive s g p) (fun l =>
        let j := (gangB s g ws (.v b) m l).toNat % (2 * L)
        if j < L then gangA s g a m j else gangLane s g e (j - L))) ∧
    (∀ n a b m sx, i = .vext (.q n) a b m sx → (∀ m ∈ g, (s.ctx m.1 m.2).queue n.val = []) →
      ∃ t, exec (.sequencerExecution c x) s = .next t ∧ gangPushes s t g rs n.val
        (let l := gangLane s g a (gangIndex L m (((ws 0).extractLsb' 0 7).toNat % L))
         if sx then l.signExtend 64 else l.zeroExtend 64)) ∧
    (∀ n a m p op, i = .vred (.q n) a m p op → (∀ m ∈ g, (s.ctx m.1 m.2).queue n.val = []) →
      let v := fun unit l => if gangActive s g p l then gangA s g a m l else unit
      let k := if g.length = 2 then 5 else if g.length = 4 then 6 else 7
      (op = .addI → ∃ t, exec (.sequencerExecution c x) s = .next t ∧
        gangPushes s t g rs n.val ((treeOf (· + ·) (v 0) k 0).signExtend 64)) ∧
      (op = .maxN → ∃ t, exec (.sequencerExecution c x) s = .next t ∧
        gangPushes s t g rs n.val ((treeOf (fun y z => if y.toNat ≤ z.toNat then z else y) (v 0) k 0).zeroExtend 64)) ∧
      (op = .addF → (∀ j, j < g.length → (vs j).rndctl.getLsbD 3 = false) → ∃ t, exec (.sequencerExecution c x) s = .next t ∧
        gangPushes s t g rs n.val ((treeOf (laneAdd .rne false) (v 0x80000000) k 0).zeroExtend 64))) ∧
    (∀ n a, i = .pcnt (.q n) a → (∀ m ∈ g, (s.ctx m.1 m.2).queue n.val = []) →
      ∃ t, exec (.sequencerExecution c x) s = .next t ∧
        gangPushes s t g rs n.val (BitVec.ofNat 64 ((List.range L).filter (gangActive s g a)).length)) ∧
    (∀ n a, i = .pfirst (.q n) a → (∀ m ∈ g, (s.ctx m.1 m.2).queue n.val = []) →
      ∃ t k, exec (.sequencerExecution c x) s = .next t ∧ gangPushes s t g rs n.val (BitVec.ofNat 64 k) ∧ k ≤ L ∧
        (∀ j, j < k → gangActive s g a j = false) ∧ (k < L → gangActive s g a k = true))

/-- R133, R147, R163, R164, R170, R173: a finite value (-1)^neg m 2^e rounded into a format. Encoding k stands for the magnitude that
R163 gives it, the exponent going on above the largest finite encoding. Of the neighbours k and k + 1 of the magnitude, rounding takes
the one of its mode; the stochastic one takes the upper where t + r reaches 2^32. An encoding beyond the largest finite one is an
overflow: the largest finite value, an infinity, or e4m3's NaN. R145, R146: VCVT between integer types keeps the value, clamped with
SAT or its low bits without; a float or table code becomes the integer its mode rounds to, clamped, a NaN 0; equal types pass. -/
def Obligations.RoundingAndConversion : Prop :=
  (∀ (t : FFmt) (mode : RMode) (sat : Bool) (r : Nat) (neg : Bool) (m : Nat) (e b : Int) (k : Nat),
    t ∈ [f64, f32, f16, bf16, e5m2, e4m3, e2m1] → b ≤ e → b ≤ 1 - t.bias - t.f → m ≠ 0 →
    let x := m * 2 ^ (e - b).toNat
    let lo := gridUnits t b k
    let hi := gridUnits t b (k + 1)
    lo ≤ x → x < hi →
    let up := x ≠ lo ∧ match mode with
      | .rne => hi - x < x - lo ∨ (hi - x = x - lo ∧ k % 2 = 1)
      | .rz => False
      | .ru => neg = false
      | .rd => neg = true
      | .sr => 2 ^ 32 ≤ (x - lo) * 2 ^ 32 / (hi - lo) + r
    ∀ k' : Nat, (up → k' = k + 1) → (¬ up → k' = k) →
      (k' ≤ topCode t → t.convert mode sat r (.fin neg m e) = signOf t neg + k') ∧
      (topCode t < k' →
        let toInf := match mode with
          | .rne | .sr => True
          | .rz => False
          | .ru => neg = false
          | .rd => neg = true
        (sat = true ∨ ¬ toInf ∨ t = e2m1 → t.convert mode sat r (.fin neg m e) = signOf t neg + topCode t) ∧
        (sat = false → toInf → t ≠ e2m1 → t.convert mode sat r (.fin neg m e) = signOf t neg + topCode t + 1))) ∧
  (∀ (t : FFmt) (n : Nat) (b : Int), t ∈ [f64, f32, f16, bf16, e5m2, e4m3, e2m1] → b ≤ 1 - t.bias - t.f → n < 2 ^ (1 + t.e + t.f) →
    n % 2 ^ (t.e + t.f) ≤ topCode t →
    ∃ m e, t.decode n = .fin (decide (2 ^ (t.e + t.f) ≤ n)) m e ∧ b ≤ e ∧ m * 2 ^ (e - b).toNat = gridUnits t b (n % 2 ^ (t.e + t.f))) ∧
  (∀ (tb : Tables) (T F : CvtTy) (wT wF : Nat) (gT gF : Bool) (mode : RMode) (sat : Bool) (r n : Nat),
    intTy T = some (wT, gT) → intTy F = some (wF, gF) → T ≠ F →
    let v : Int := if gF then (BitVec.ofNat wF n).toInt else (BitVec.ofNat wF n).toNat
    convertLane tb T F mode sat r n =
      ((if sat then within (lowest wT gT) (highest wT gT) v else v) % 2 ^ wT).toNat) ∧
  (∀ (tb : Tables) (T F : CvtTy) (wT : Nat) (gT : Bool) (t : FFmt) (mode : RMode) (sat : Bool) (r n : Nat),
    intTy T = some (wT, gT) → floatTy F = some t →
    (t.decode (n % 2 ^ (1 + t.e + t.f)) = .nan → convertLane tb T F mode sat r n = 0) ∧
    (∀ neg, t.decode (n % 2 ^ (1 + t.e + t.f)) = .inf neg →
      convertLane tb T F mode sat r n = ((if neg then lowest wT gT else highest wT gT) % 2 ^ wT).toNat) ∧
    (∀ neg m e (k : Nat), t.decode (n % 2 ^ (1 + t.e + t.f)) = .fin neg m e → mode ≠ .sr →
      let x := m * 2 ^ (e + 2048).toNat
      k * 2 ^ 2048 ≤ x → x < (k + 1) * 2 ^ 2048 →
      let up := x ≠ k * 2 ^ 2048 ∧ match mode with
        | .rne => (k + 1) * 2 ^ 2048 - x < x - k * 2 ^ 2048 ∨ ((k + 1) * 2 ^ 2048 - x = x - k * 2 ^ 2048 ∧ k % 2 = 1)
        | .rz => False
        | .ru => neg = false
        | .rd => neg = true
        | .sr => False
      ∀ k' : Nat, (up → k' = k + 1) → (¬ up → k' = k) →
        convertLane tb T F mode sat r n = (within (lowest wT gT) (highest wT gT) (if neg then -(k' : Int) else k') % 2 ^ wT).toNat)) ∧
  (∀ (tb : Tables) (T F : CvtTy) (t u : FFmt) (mode : RMode) (sat : Bool) (r n : Nat), floatTy T = some t → floatTy F = some u →
    let v := u.decode (n % 2 ^ (1 + u.e + u.f))
    (T = F → v ≠ .nan → convertLane tb T F mode sat r n = n % 2 ^ (1 + u.e + u.f)) ∧
    (v = .nan → convertLane tb T F mode sat r n = nanCode t) ∧
    (T ≠ F → v ≠ .nan → (mode ≠ .sr ∨ srTarget T = true) → convertLane tb T F mode sat r n = t.convert mode sat r v)) ∧
  (∀ (t : FFmt) (mode : RMode) (sat neg : Bool) (r : Nat), t ∈ [f64, f32, f16, bf16, e5m2, e4m3, e2m1] →
    t.convert mode sat r (.inf neg) = signOf t neg + topCode t + (if sat = true ∨ t = e2m1 then 0 else 1))

/-- R150, R151: the special functions. Their special results; VRCP and VRSQ at every finite input (the binary32 neighbours of the
exact value, the nearer one, the even one on a tie); the exact cases of VEXP2 and VLOG2; VTANH and VERF where they are 1; and their
correctly rounded values at some other inputs. -/
def Obligations.SpecialFunctionValues : Prop :=
  (∀ (f : FVal → FVal) (a : W32), f ∈ [rcpVal, rsqVal, exp2Val, log2Val, sinVal, cosVal, tanhVal, erfVal] →
    f32.decode a.toNat = .nan → laneSpecial f a = 0x7FC00000) ∧
  ([0x00000000, 0x80000000, 0x7F800000, 0xFF800000].map (laneSpecial rcpVal) = [0x7F800000, 0xFF800000, 0x00000000, 0x80000000]) ∧
  ([0x00000000, 0x80000000, 0x7F800000, 0xFF800000].map (laneSpecial rsqVal) = [0x7F800000, 0xFF800000, 0x00000000, 0x7FC00000]) ∧
  ([0x00000000, 0x80000000, 0x7F800000, 0xFF800000].map (laneSpecial exp2Val) = [0x3F800000, 0x3F800000, 0x7F800000, 0x00000000]) ∧
  ([0x00000000, 0x80000000, 0x7F800000, 0xFF800000].map (laneSpecial log2Val) = [0xFF800000, 0xFF800000, 0x7F800000, 0x7FC00000]) ∧
  ([0x00000000, 0x80000000, 0x7F800000, 0xFF800000].map (laneSpecial sinVal) = [0x00000000, 0x80000000, 0x7FC00000, 0x7FC00000]) ∧
  ([0x00000000, 0x80000000, 0x7F800000, 0xFF800000].map (laneSpecial cosVal) = [0x3F800000, 0x3F800000, 0x7FC00000, 0x7FC00000]) ∧
  ([0x00000000, 0x80000000, 0x7F800000, 0xFF800000].map (laneSpecial tanhVal) = [0x00000000, 0x80000000, 0x3F800000, 0xBF800000]) ∧
  ([0x00000000, 0x80000000, 0x7F800000, 0xFF800000].map (laneSpecial erfVal) = [0x00000000, 0x80000000, 0x3F800000, 0xBF800000]) ∧
  (∀ (a : W32) (m : Nat) (e : Int), m ≠ 0 → f32.decode a.toNat = .fin true m e →
    laneSpecial rsqVal a = 0x7FC00000 ∧ laneSpecial log2Val a = 0x7FC00000) ∧
  (∀ (a : W32) (neg : Bool) (m : Nat) (e b : Int) (k k' : Nat), f32.decode a.toNat = .fin neg m e → m ≠ 0 → b ≤ -149 → b ≤ -e →
    let one := 2 ^ (-e - b).toNat
    let lo := gridUnits f32 b k * m
    let hi := gridUnits f32 b (k + 1) * m
    lo ≤ one → one < hi →
    k' = (if one ≠ lo ∧ (hi - one < one - lo ∨ (hi - one = one - lo ∧ k % 2 = 1)) then k + 1 else k) →
    laneSpecial rcpVal a = BitVec.ofNat 32 (signOf f32 neg + Nat.min k' 0x7F800000)) ∧
  (∀ (a : W32) (m : Nat) (e b : Int) (k k' : Nat), f32.decode a.toNat = .fin false m e → m ≠ 0 → b ≤ -149 → 2 * b ≤ -e →
    let one := 2 ^ (-e - 2 * b).toNat
    let lo := gridUnits f32 b k
    let hi := gridUnits f32 b (k + 1)
    lo * lo * m ≤ one → one < hi * hi * m →
    k' = (if lo * lo * m ≠ one ∧ ((lo + hi) * (lo + hi) * m < 4 * one ∨ ((lo + hi) * (lo + hi) * m = 4 * one ∧ k % 2 = 1))
      then k + 1 else k) →
    laneSpecial rsqVal a = BitVec.ofNat 32 k') ∧
  (∀ (a : W32) (neg : Bool) (m : Nat) (e n : Int), f32.decode a.toNat = .fin neg m e → m ≠ 0 →
    (if neg then -(m : Int) else m) * 2 ^ (e + 149).toNat = n * 2 ^ 149 →
    laneSpecial exp2Val a =
      if 127 < n then 0x7F800000 else if -127 < n then BitVec.ofNat 32 ((n + 127).toNat * 2 ^ 23)
      else if -150 < n then BitVec.ofNat 32 (2 ^ (n + 149).toNat) else 0) ∧
  (∀ i : Nat, i < 254 → laneSpecial log2Val (BitVec.ofNat 32 ((i + 1) * 2 ^ 23)) = integerLane ((i : Int) - 126)) ∧
  (∀ a : W32, 0x41400000 ≤ (a.extractLsb' 0 31).toNat → (a.extractLsb' 0 31).toNat ≤ 0x7F800000 →
    laneSpecial tanhVal a = if a.getLsbD 31 then 0xBF800000 else 0x3F800000) ∧
  (∀ a : W32, 0x40A00000 ≤ (a.extractLsb' 0 31).toNat → (a.extractLsb' 0 31).toNat ≤ 0x7F800000 →
    laneSpecial erfVal a = if a.getLsbD 31 then 0xBF800000 else 0x3F800000) ∧
  ([0x3F000000, 0xBF400000, 0x4124CCCD, 0xC3078000, 0x33800000, 0xC3140000, 0x42FFFFFF].map (laneSpecial exp2Val) =
    [0x3FB504F3, 0x3F1837F0, 0x449D9625, 0x00002D41, 0x3F800000, 0x00000002, 0x7F7FFFA7]) ∧
  ([0x40400000, 0x3DCCCCCD, 0x3F800001, 0x3F7FFFFF, 0x00000003, 0x7F7FFFFF].map (laneSpecial log2Val) =
    [0x3FCAE00D, 0xC0549A78, 0x3438AA3A, 0xB3B8AA3C, 0xC3136A40, 0x43000000]) ∧
  ([0x3F800000, 0xC0200000, 0x42C80000, 0x7F7FFFFF, 0x40490FDB, 0x39800000].map (laneSpecial sinVal) =
    [0x3F576AA4, 0xBF193578, 0xBF01A12E, 0xBF0599B3, 0xB3BBBD2E, 0x39800000]) ∧
  ([0x3F800000, 0x40000000, 0xC2C80000, 0x7F7FFFFF, 0x3FC90FDB].map (laneSpecial cosVal) =
    [0x3F0A5140, 0xBED51133, 0x3F5CC0EE, 0x3F5A5F96, 0xB33BBD2E]) ∧
  ([0x3F000000, 0xBF800000, 0x40A00000, 0x41100000, 0x41102CB4, 0x41140000, 0x38000000].map (laneSpecial tanhVal) =
    [0x3EEC9A9F, 0xBF42F7D6, 0x3F7FFA0D, 0x3F7FFFFF, 0x3F800000, 0x3F800000, 0x38000000]) ∧
  ([0x3F000000, 0xBF800000, 0x40000000, 0x40600000, 0x407CCCCD, 0x38000000].map (laneSpecial erfVal) =
    [0x3F053F7B, 0xBF57BB3D, 0x3F7ECD71, 0x3F7FFFF4, 0x3F800000, 0x38106EBB])

/-- R72, R152-R155, R169: VLD and VST through a local address that opens a berth whose bytes nothing holds. Lane i stands at the
nibble position of its stride, modulo the bank; VLD gives each active lane the element widened by the window, every other lane and
register as before; VST writes each active lane narrowed by the window in RNDCTL's mode and saturation, the highest lane remaining
where two name one element, one draw for each active lane where it rounds stochastically, and no other nibble of any bank. -/
def Obligations.LocalVectorMemory : Prop :=
  ∀ (s : State) (c : CoreId) (x : Nat) (v : VInstr) (rest : List SeqEntry) (w : W64) (d : VReg) (a : SReg) (m : VMemImm) (b : BankId),
    first s c x v rest → scalarIs s c x v w → v.instr.wf = true → (s.core c).slice = [] → (∀ f ∈ s.fwrites, f.src ≠ c) →
    (∀ e ∈ s.banks, ∀ f ∈ e.2.waiting, f.src ≠ c) → opens (s.focus c x) w b = true → calm s b = true → unprotected s b = true →
    let o := (w.extractLsb' 0 16 + m.disp).toNat
    let win := (w.extractLsb' 28 4).toNat
    let nb := windowNibbles win
    let act := active s c x m.pred
    (2 * o % nb ≠ 0 → v.instr = .vld d a m ∨ v.instr = .vst d a m →
      exec (.sequencerExecution c x) s =
        .next (s.raiseStream c x 1 0x04 0 v.pc (0#32 ++ w.extractLsb' 16 16 ++ BitVec.ofNat 16 o))) ∧
    (2 * o % nb = 0 → v.instr = .vld d a m →
      ∃ t, exec (.sequencerExecution c x) s = .next t ∧ writesLanes s t c x rest d act
        (fun i => widened (s.core c) win (elementBits (bankByte s b) (placeOf o m nb i) nb))) ∧
    (2 * o % nb = 0 → v.instr = .vst d a m → Memory.wf (s.bank b).bytes = true →
      let sr := stochasticStore win v.rndctl
      ∃ t, exec (.sequencerExecution c x) s = .next t ∧ (t.ctx c x).seq = rest ∧ t.mem = s.mem ∧ registersKept s t ∧
        (∀ k, k ≠ b → t.bank k = s.bank k) ∧ Memory.wf (t.bank b).bytes = true ∧ (t.core c).seed = drawOf s c x m.pred sr 15 ∧
        elementsStored (bankByte s b) (bankByte t b) act (placeOf o m nb) nb
          (fun i => narrowed (s.core c) win v.rndctl (drawOf s c x m.pred sr i) (lane s c x d i)))

/-- R72, R156, R157: VLDG and VSTG through global addresses that the tables map to module memory: every active lane's base and scaled
offset name an element, which VLDG widens into the lane and VSTG writes narrowed, the highest lane remaining where two name one (here
with no line in the core's L1 and no update-only line, a loaded line in its home slice). A lane whose address is no global one, or is
misaligned, is a trap before any access. (That a store's bytes stand in memory in the executing step is log 8's reading, and that one
step makes all lanes log 37's: the model's choices.) -/
def Obligations.GlobalVectorMemory : Prop :=
  ∀ (s : State) (c : CoreId) (x : Nat) (v : VInstr) (rest : List SeqEntry) (w : W64) (d : VReg) (a : SReg) (b : VReg) (m : SrcMod)
    (g : GatherImm) (e : Nat → TlbEntry), first s c x v rest → scalarIs s c x v w → v.instr.wf = true →
    v.instr = .vldg d a b m g ∨ v.instr = .vstg d a b m g → noUpdates s = true → (s.core c).l1 = [] →
    (∀ k y, y ∈ (s.die k).l2 → y.dead = false) →
    let nb := windowNibbles (windowCode g.elt)
    let act := active s c x g.pred
    let at_ := fun i => gatherNibble w (laneB s c x 0 (.v b) m i) g.sh.val nb
    let va := fun i => at_ i / 2
    let pa := fun i => (e i).pa + (va i - (e i).va)
    let n := (nb + 1) / 2
    (∀ i, i < 16 → act i = true → 2 ^ 57 ≤ va i → (∀ j, j < i → act j = true → va j < 2 ^ 57) →
      exec (.sequencerExecution c x) s = .next (s.raiseStream c x 1 0x05 1 v.pc (BitVec.ofNat 64 (va i)))) ∧
    (∀ i, i < 16 → act i = true → (∀ j, j < 16 → act j = true → va j < 2 ^ 57) → va i % n ≠ 0 →
      (∀ j, j < i → act j = true → va j % n = 0) →
      exec (.sequencerExecution c x) s = .next (s.raiseStream c x 1 0x04 0 v.pc (BitVec.ofNat 64 (va i)))) ∧
    ((∀ i, i < 16 → act i = true → va i < 2 ^ 57 ∧ va i % n = 0 ∧ pa i % n = 0 ∧ (e i).peer = false ∧
        (∃ p, s.partOfSite c.siteId = some p ∧ (s.core c).ptbase.getLsbD 0 = true ∧
          s.tlbLookup c p (rootPage (s.core c).ptbase) (va i) = some (e i)) ∧
        soundHbm (s.focus c x) (pa i) n = true) →
      let P := fun i => 2 * pa i + at_ i % 2
      (v.instr = .vldg d a b m g →
        (∀ i, i < 16 → act i = true → s.pageError (e i) (va i) .load (s.ctx c x).sv (s.ctx c x).compart = none ∧ inArray s (pa i)) →
        ∃ t, exec (.sequencerExecution c x) s = .next t ∧ (t.ctx c x).seq = rest ∧ memKept s t ∧ t.mem = s.mem ∧ t.banks = s.banks ∧
          (∀ i, i < 16 → lane t c x d i =
            if act i then widened (s.core c) (windowCode g.elt) (elementBits s.memByte (P i) nb) else lane s c x d i) ∧
          ∀ r i, r ≠ d → lane t c x r i = lane s c x r i) ∧
      (v.instr = .vstg d a b m g → (s.core c).unacked ≤ 256 → Memory.wf s.mem = true →
        (∀ i, i < 16 → act i = true → s.pageError (e i) (va i) .store (s.ctx c x).sv (s.ctx c x).compart = none ∧
          s.takesWrite (pa i / 64) = true) →
        let sr := stochasticStore (windowCode g.elt) v.rndctl
        ∃ t, exec (.sequencerExecution c x) s = .next t ∧ (t.ctx c x).seq = rest ∧ t.banks = s.banks ∧ registersKept s t ∧
          Memory.wf t.mem = true ∧ (t.core c).seed = drawOf s c x g.pred sr 15 ∧
          elementsStored s.memByte t.memByte act P nb
            (fun i => narrowed (s.core c) (windowCode g.elt) v.rndctl (drawOf s c x g.pred sr i) (lane s c x d i))))

/-! ## The matrix slice (R201-R227) -/

/-- R203-R205, R213, R218-R227: a matrix instruction that passes its checks at issue enters the slice's buffer as its last
entry: ISSUED rises by 1 and the context goes on; no tile, bank or register changes yet. MSCALE sets the context's scale
sources as it issues. It waits where the slice is full, or where a first access through a slot that a HAND filled has still to be
made (R259; the model's reading, log 36), and is refused where the joint row was (R215).
R224: MWAIT goes on when every issued matrix instruction of the context is consumed (or done) and waits before; MSTAT writes
the three counts and whether the context stands in the joint row. -/
def Obligations.MatrixIssueAndCounts : Prop :=
  ((∀ (d : TileCode) (x a b : SReg) (i : MMemImm) (j : MmaImm) (r : RndSat) (n : Fin 4) (p q : Bool),
     head (.mzero d) = some 0x7080 ∧ head (.mload d a i) = some 0x7201 ∧ head (.mstore d a i r) = some 0x7202 ∧
     head (.mma d a b j) = some 0x7600 ∧ head .mjoin = some 0x7800 ∧ head (.mwait p) = some 0x7881 ∧
     head (.mstat x) = some 0x7882 ∧ head (.mscale a b p q) = some 0x7D00 ∧ head (.mstream a n p) = some 0x7D01 ∧
     head (.dtld x a p) = some 0x7D02) ∧
   (∀ (s : State), sliceRoom s = true →
     (∀ d, tileOk s d true = true → ∃ u, exec (.mzero d) s = .next u ∧ enters s u (.mzero d)) ∧
     (∀ d a i x m, noneBefore s = true → reads s a x → bankOperand s x m → fits m i.f64 → tileOk s d true = true →
       ∃ u, exec (.mload d a i) s = .next u ∧ enters s u (.mload d a i)) ∧
     (∀ d a i r x m, noneBefore s = true → reads s a x → bankOperand s x m → fits m i.f64 →
       (r.rnd = .sr → m.win ∈ [1, 2, 3, 7, 8]) → (m.win = 9 ∨ m.win = 10 → (r.rnd = .ctl ∨ r.rnd = .rne) ∧ r.sat = false) →
       ∃ u, exec (.mstore d a i r) s = .next u ∧ enters s u (.mstore d a i r)) ∧
     (∀ d a b i x y ma mb g, noneBefore s = true → reads s a x → reads s b y → bankOperand s x ma → bankOperand s y mb →
       pairs ma.win mb.win i.f64 = some g → tileOk s d true = true → fits ma i.f64 → fits mb i.f64 →
       (i.sc = true → ∀ v, s.me.scaleA = some v ∨ s.me.scaleB = some v → ∃ m, bankOperand s v m) →
       (∀ n, i.ss = some n → s.myCore.slice = [] ∧
         ((s.myCore.streams.getD n.val {}).live = true → ∃ m, bankOperand s (s.myCore.streams.getD n.val {}).addr m)) →
       ∃ u, exec (.mma d a b i) s = .next u ∧ enters s u (.mma d a b i)) ∧
     (s.me.status.getLsbD 2 = false → (∀ e ∈ s.myCore.ctxs, e.1 ≠ s.curCtx → e.2.join = .no) →
       (∀ e ∈ s.myCore.slice, e.ctx ≠ s.curCtx → e.instr ≠ .mjoin) → ∃ u, exec .mjoin s = .next u ∧ enters s u .mjoin) ∧
     (∀ a b ea eb x y, reads s a x → reads s b y → (ea = true → sourceOk s x) → (eb = true → sourceOk s y) →
       ∃ u, exec (.mscale a b ea eb) s = .next u ∧ enters s u (.mscale a b ea eb) ∧
         u.me.scaleA = (if ea then some x else none) ∧ u.me.scaleB = (if eb then some y else none)) ∧
     (∀ a n clr x, reads s a x →
       (clr = false → ∃ b, opens s x b = true ∧ x.extractLsb' 28 4 = 0 ∧ x.getLsbD 0 = false) →
       ∃ u, exec (.mstream a n clr) s = .next u ∧ enters s u (.mstream a n clr)) ∧
     (∀ d a p x m, noneBefore s = true → reads s a x → bankOperand s x m → m.win = 0 → m.off % 4 = 0 →
       (∀ n, d = .q n → 6 ≤ n.val) → ∃ u, exec (.dtld d a p) s = .next u ∧ enters s u (.dtld d a p))) ∧
   (∀ (s : State) (d : TileCode), tileOk s d true = true →
     (s.me.refuse = false → 8 ≤ (s.myCore.slice.filter fun e => !e.held).length ∨ s.handWaits s.cur s.curCtx = true →
       exec (.mzero d) s = .next (waits s)) ∧
     (s.me.refuse = true → (∀ e ∈ s.myCore.slice, e.ctx ≠ s.curCtx) → exec (.mzero d) s = .next (s.raiseInt 0x0C 4 0)))) ∧
  (∀ (s : State), s.me.refuse = false →
     (s.me.consumed = s.me.issued → exec (.mwait false) s = .next (done s)) ∧
     (s.me.done = s.me.issued → exec (.mwait true) s = .next (done s)) ∧
     (s.me.consumed ≠ s.me.issued → exec (.mwait false) s = .next (waits s)) ∧
     (s.me.done ≠ s.me.issued → exec (.mwait true) s = .next (waits s)) ∧
     (∀ d, statusRoom s d = true →
       exec (.mstat d) s = .next
         (result s d (0#15 ++ BitVec.ofBool (s.me.join ≠ .no) ++ s.me.issued ++ s.me.consumed ++ s.me.done))))

/-- R204, R206, R218-R220, R226, R227: MATRIX_SLICE_EXECUTION of the slice's first instruction, here with nothing in the way of
its bank. The slice begins it, one that reads no memory being consumed at once; MZERO writes +0 to its tile, MSTREAM sets its
stream; MLOAD and MSTORE move 32 rows of 32 elements through any window, or of binary64 words with a tile pair; MSTORE through a
fabric address leaves as remote stores, as many as may be unacknowledged; DTLD loads 128 entries and writes its status; a
consumed reader then leaves. (That the elements of one instruction move in one step is log 37, the model's choice.) -/
def Obligations.MatrixSliceExecutes : Prop :=
  ∀ (s : State) (c : CoreId) (e : MEntry) (rest : List MEntry), sliceReaches s c e rest →
    ∃ t, exec (.matrixSliceExecution c) s = .next t ∧
      (e.begun = false → e.cons = false → e.instr ≠ .mjoin →
        (t.core c).slice = { e with begun := true, cons := !e.reads } :: rest ∧
        (t.ctx c e.ctx).consumed = (if e.reads then (s.ctx c e.ctx).consumed else (s.ctx c e.ctx).consumed + 1) ∧
        tilesKept s t c 0 0 ∧ t.banks = s.banks ∧ sliceFrame s t c) ∧
      (∀ d, e.begun = true → e.cons = true → e.instr = .mzero d →
        leaves s t c e rest ∧ (∀ m n, element t c d.val m n = 0) ∧ tilesKept s t c d.val (d.val + 1) ∧
        t.banks = s.banks ∧ sliceFrame s t c) ∧
      (∀ a n clr, e.begun = true → e.cons = true → e.instr = .mstream a n clr →
        leaves s t c e rest ∧
        (t.core c).streams.getD n.val {} = (if clr then {} else { live := true, addr := e.addr, skip := 0, keep := 0 }) ∧
        (∀ m, m ≠ n.val → (t.core c).streams.getD m {} = (s.core c).streams.getD m {}) ∧
        tilesKept s t c 0 0 ∧ t.banks = s.banks ∧ sliceFrame s t c) ∧
      (∀ a b ea eb, e.begun = true → e.cons = true → e.instr = .mscale a b ea eb →
        leaves s t c e rest ∧ tilesKept s t c 0 0 ∧ t.banks = s.banks ∧ sliceFrame s t c) ∧
      (e.begun = true → e.cons = true → e.reads = true →
        leaves s t c e rest ∧ tilesKept s t c 0 0 ∧ t.banks = s.banks ∧ sliceFrame s t c) ∧
      (∀ d a i m, e.begun = true → e.cons = false → e.instr = .mload d a i → e.opA = some m → fits m i.f64 → calm s m.bank = true →
        let nb := tileNibbles m.win i.f64
        consumes s t c e rest ∧
        (∀ r n, r < 32 → n < 32 →
          let x := elementBits (bankByte s m.bank) (rowPlace m.off i.pitch.val nb r n) nb
          if i.f64 then tileWord t c d.val true r n = x else element t c d.val r n = tileLane (s.core c) m.win x) ∧
        tilesKept s t c d.val (d.val + if i.f64 then 2 else 1) ∧ t.banks = s.banks ∧ sliceFrame s t c) ∧
      (∀ d a i r m, e.begun = true → e.cons = true → e.instr = .mstore d a i r → e.opA = some m → fits m i.f64 →
        m.addr.getLsbD 63 = false → calm s m.bank = true → unprotected s m.bank = true → Memory.wf (s.bank m.bank).bytes = true →
        let nb := tileNibbles m.win i.f64
        leaves s t c e rest ∧
        tileStored (bankByte s m.bank) (bankByte t m.bank) (fun j => rowPlace m.off i.pitch.val nb (j / 32) (j % 32)) nb
          (storedElement s c e d.val i.f64 r m.win 0) ∧
        (∀ b o, b ≠ m.bank → bankByte t b o = bankByte s b o) ∧ tilesKept s t c 0 0 ∧ sliceFrame s t c) ∧
      (∀ d a i r m, e.begun = true → e.cons = true → e.instr = .mstore d a i r → e.opA = some m → fits m i.f64 →
        m.addr.getLsbD 63 = true → e.group < 1024 → (s.core c).unacked < 256 →
        let nb := tileNibbles m.win i.f64
        let k := Nat.min (256 - (s.core c).unacked) (1024 - e.group)
        (t.core c).unacked = (s.core c).unacked + k ∧ t.banks = s.banks ∧ tilesKept s t c 0 0 ∧ sliceFrame s t c ∧
        (if e.group + k = 1024 then leaves s t c e rest else (t.core c).slice = { e with group := e.group + k } :: rest) ∧
        ∃ ws, t.fwrites = s.fwrites ++ ws ∧ ws.length = k ∧ ∀ j w, ws[j]? = some w →
          let q := rowPlace m.off i.pitch.val nb ((e.group + j) / 32) ((e.group + j) % 32)
          let x := storedElement s c e d.val i.f64 r m.win e.group (e.group + j)
          w.src = c ∧ w.ctx = e.ctx ∧ w.comp = e.comp ∧ w.addr = m.addr.extractLsb' 16 48 ++ BitVec.ofNat 16 (q / 2) ∧
          w.kind = (if nb = 1 then .nibble (BitVec.ofNat 4 x) (decide (q % 2 = 1))
            else .bytes ((List.range (nb / 2)).map fun b => BitVec.ofNat 8 (x / 256 ^ b)))) ∧
      (∀ d a p m, e.begun = true → e.cons = false → e.instr = .dtld d a p → e.opA = some m → m.off % 4 = 0 →
        calm s m.bank = true → (s.ctx c e.ctx).seq = [] → (∀ n, d = .q n → (s.ctx c e.ctx).queue n.val = []) →
        let w := fun j => (le4 (bankByte s m.bank) ((m.off + 4 * j) % 65536)).extractLsb' 0 19
        let bad := fun j => (w j).getLsbD 18 = true ∨ (w j).extractLsb' 10 8 = 0xFF
        consumes s t c e rest ∧
        (∀ j, j < 128 → (if p then (t.core c).dt1 else (t.core c).dt0).getD j 0 = w j) ∧
        (if p then (t.core c).dt0 = (s.core c).dt0 else (t.core c).dt1 = (s.core c).dt1) ∧
        (∀ u : W64, ((∃ j, j < 128 ∧ bad j) → u = 1) →
          ((∀ j, j < 128 → ¬ bad j) → (∃ j, j < 127 ∧ (w (j + 1)).toNat ≤ (w j).toNat) → u = 2) →
          ((∀ j, j < 128 → ¬ bad j) → (∀ j, j < 127 → (w j).toNat < (w (j + 1)).toNat) → u = 0) →
          (∀ n, d = .x n → (t.ctx c e.ctx).x.getD n.val 0 = if n.val = 0 then (s.ctx c e.ctx).x.getD 0 0 else u) ∧
          (∀ n, d = .k n → (t.core c).k.getD n.val 0 = u) ∧ (∀ n, d = .q n → (t.ctx c e.ctx).queue n.val = [u])) ∧
        (∀ n : Nat, (∀ r, d = .x r → n ≠ r.val) → (t.ctx c e.ctx).x.getD n 0 = (s.ctx c e.ctx).x.getD n 0) ∧
        tilesKept s t c 0 0 ∧ t.banks = s.banks ∧ t.mem = s.mem)

/-- R175-R178, R207, R208, R211, R212, R222: one K-group of an MMA that the slice executes, its banks calm. The operand windows
decide the group's size. Where its skip stream keeps the group, every one of the 1,024 accumulators takes the exact sum of the
group's scaled products, rounded to nearest and added with a second rounding, or with binary64 operands one fused step into a tile
pair; a skipped group changes no tile. The stream goes on, and after the last group the MMA is consumed. -/
def Obligations.MatrixMultiplies : Prop :=
  (∀ (a b : Nat) (f : Bool) (wa wb : Window), windowOf a = some wa → windowOf b = some wb → pairing wa wb f = pairs a b f) ∧
  (∀ (s : State) (c : CoreId) (e : MEntry) (rest : List MEntry) (d : TileCode) (a b : SReg) (i : MmaImm) (ma mb : MOp) (g : Nat)
    (w : BitVec 16), sliceReaches s c e rest → e.begun = true → e.cons = false → e.instr = .mma d a b i → e.opA = some ma →
    e.opB = some mb → fits ma i.f64 → fits mb i.f64 → pairs ma.win mb.win i.f64 = some g → g * e.group < i.k →
    calm s ma.bank = true → calm s mb.bank = true → (∀ q, e.scA = some q ∨ e.scB = some q → calm s q.bank = true) →
    (∀ n, i.ss = some n → nextEntry s e ((s.core c).streams.getD n.val {}) w) →
    let k0 := g * e.group
    let k1 := Nat.min (k0 + g) i.k
    let stream := fun (u : State) (n : Fin 4) => (u.core c).streams.getD n.val {}
    let kept := match i.ss with
      | some n => (decision (stream s n) w).1
      | none => true
    ∃ t, exec (.matrixSliceExecution c) s = .next t ∧
      (kept = true → ∀ m n, m < 32 → n < 32 →
        if i.f64 then
          tileWord t c d.val true m n =
            f64.round .rne false (FVal.add .rne (productSum s c e i ma mb m n k0 k1) (f64.decode (tileWord s c d.val true m n)))
        else
          element t c d.val m n = BitVec.ofNat 32 (f32.round .rne false (FVal.add .rne (f32.decode (element s c d.val m n).toNat)
            (f32.decode (f32.round .rne false (productSum s c e i ma mb m n k0 k1)))))) ∧
      (kept = false → tilesKept s t c 0 0) ∧ tilesKept s t c d.val (d.val + if i.f64 then 2 else 1) ∧
      (∀ n : Fin 4, stream t n = if i.ss = some n then (decision (stream s n) w).2 else stream s n) ∧
      (t.core c).slice = { e with group := e.group + 1, cons := decide (i.k ≤ k1) } :: rest ∧
      (t.ctx c e.ctx).consumed = (if i.k ≤ k1 then (s.ctx c e.ctx).consumed + 1 else (s.ctx c e.ctx).consumed) ∧
      t.banks = s.banks ∧ sliceFrame s t c)

/-- R213, R214, R215: the joint row. A slice that begins MJOIN stands at its barrier and waits there until one context of each of the
four cores does; then all four are joined, or have left, and their MJOINs are done. A paired MMA waits until the other three
slices have reached theirs; the four then begin together where their A sides match, and otherwise every member takes a joint-refused
trap and the row dissolves. -/
def Obligations.JointRow : Prop :=
  (∀ (s : State) (c : CoreId) (e : MEntry) (rest : List MEntry), sliceReaches s c e rest → e.instr = .mjoin →
    (e.begun = false → e.cons = false →
      ∃ t, exec (.matrixSliceExecution c) s = .next t ∧ (t.core c).slice = { e with begun := true, cons := true } :: rest ∧
        (t.ctx c e.ctx).join = (if (s.ctx c e.ctx).join = .joined then .leaving else .joining) ∧
        (t.ctx c e.ctx).consumed = (s.ctx c e.ctx).consumed + 1 ∧ tilesKept s t c 0 0 ∧ t.banks = s.banks ∧ sliceFrame s t c) ∧
    (∀ j d, e.begun = true → (s.ctx c e.ctx).join = j → j = .joining ∨ j = .leaving → d ∈ c.siteId.cores →
      (∀ y ∈ (s.core d).ctxs, y.2.join ≠ j) → exec (.matrixSliceExecution c) s = .next s)) ∧
  (∀ (s : State) (n : SiteId) (h : CoreId → MEntry) (r : CoreId → List MEntry) (c : CoreId), rowReaches s n h r → c ∈ n.cores →
    (∀ j after, (j = .joining ∧ after = .joined) ∨ (j = .leaving ∧ after = .no) →
      (∀ d ∈ n.cores, (h d).instr = .mjoin ∧ (h d).begun = true ∧ (h d).cons = true ∧ (s.ctx d (h d).ctx).join = j ∧
        ∀ y ∈ (s.core d).ctxs, y.2.join = j → y.1 = (h d).ctx) →
      ∃ t, exec (.matrixSliceExecution c) s = .next t ∧ t.banks = s.banks ∧ t.mem = s.mem ∧
        ∀ d ∈ n.cores, leaves s t d (h d) (r d) ∧ (t.ctx d (h d).ctx).join = after ∧ tilesKept s t d 0 0) ∧
    (∀ (m : CoreId → MOp) (i : CoreId → MmaImm),
      (∀ d ∈ n.cores, (h d).paired = true ∧ (h d).begun = false ∧ (h d).opA = some (m d) ∧ (∃ t a b, (h d).instr = .mma t a b (i d)) ∧
        (s.ctx d (h d).ctx).join = .joined) →
      ((∀ d ∈ n.cores, ∀ k ∈ n.cores, sideOf (h d) (m d) (i d) = sideOf (h k) (m k) (i k)) →
        ∃ t, exec (.matrixSliceExecution c) s = .next t ∧ t.banks = s.banks ∧ t.mem = s.mem ∧
          ∀ d ∈ n.cores, (t.core d).slice = { h d with begun := true } :: r d ∧ (t.ctx d (h d).ctx) = s.ctx d (h d).ctx ∧
            tilesKept s t d 0 0) ∧
      (∀ k l, k ∈ n.cores → l ∈ n.cores → sideOf (h k) (m k) (i k) ≠ sideOf (h l) (m l) (i l) →
        (∀ d ∈ n.cores, (s.core d).tvec ≠ 0 ∧ (∀ y ∈ (s.core d).ctxs, y.2.trapPend = none ∧
          y.2.status.getLsbD 2 = false ∧ y.2.status.getLsbD 5 = false ∧ ∀ q ∈ y.2.seq, q.gangs = [])) →
        ∃ t, exec (.matrixSliceExecution c) s = .next t ∧ t.banks = s.banks ∧ t.mem = s.mem ∧
          ∀ d ∈ n.cores, (t.ctx d (h d).ctx).pc = (s.core d).tvec ∧ (t.ctx d (h d).ctx).epc = (h d).pc ∧
            (t.ctx d (h d).ctx).xpc = (s.ctx d (h d).ctx).pc ∧ (t.ctx d (h d).ctx).cause = 0x320C ∧
            (t.ctx d (h d).ctx).join = .no)) ∧
    (∀ d, (h c).paired = true → (h c).begun = false → (s.ctx c (h c).ctx).join = .joined → d ∈ n.cores →
      ((h d).paired = false ∨ (h d).begun = true ∨ (s.ctx d (h d).ctx).join ≠ .joined) →
      exec (.matrixSliceExecution c) s = .next s))

/-! ## Banks (R181-R200) -/

/-- R186-R191, R195: HAND waits while stores stand held at the bank's port that no copy and no region keeps there. With nothing of
the core on its way to the bank, as log 40 takes that, the bank leaves the issuing core's slot and stands in the
named slot at one moment, status 0, and the receiver's first access through the slot is to acquire; otherwise the status says why and nothing moves: 3 no bank, 4 a
speculative region, 5 outside the span, 1 out of reach, 2 the slot is taken.
R196, R199: BINFO describes a berth of the issuing core, or with REM of a core of the span; WMRD reads the watermark of the
bank in a slot, 0 for an empty one; PART 0 acquires. -/
def Obligations.HandAndBankDescriptions : Prop :=
  ((∀ (d a : SReg) (n : Fin 8), head (.hand d a n) = some 0x8102) ∧
   ∀ (s t : State) (d a : SReg) (n : Fin 8) (x : W64), takes s [a] = some ([x], t) → room t d = true → idleCore s = true →
     (s.myCore.berth n.val = none → exec (.hand d a n) s = .next (result t d 3)) ∧
     (∀ b, s.myCore.berth n.val = some b → (s.bank b).shadow = none → noCopies s b = true → (s.bank b).held ≠ [] →
       exec (.hand d a n) s = .next (waits s)) ∧
     (∀ b, s.myCore.berth n.val = some b → noHeld s b = true →
       ((s.bank b).shadow ≠ none → exec (.hand d a n) s = .next (result t d 4)) ∧
       ((s.bank b).shadow = none →
         (names s x = none → exec (.hand d a n) s = .next (result t d 5)) ∧
         (∀ k, names s x = some k →
           (s.reach b k.siteId = false → exec (.hand d a n) s = .next (result t d 1)) ∧
           (s.reach b k.siteId = true → (s.core k).berth (slotOf x) ≠ none → exec (.hand d a n) s = .next (result t d 2)) ∧
           (s.reach b k.siteId = true → (s.core k).berth (slotOf x) = none →
             exec (.hand d a n) s = .next
               (result ((t.updCore s.cur (·.setBerth n.val none)).updCore k fun q =>
                 { q.setBerth (slotOf x) (some b) with handed := slotOf x :: (q.setBerth (slotOf x) (some b)).handed }) d 0)))))) ∧
  ((∀ (d a : SReg) (p : Fin 3) (n : Fin 8) (r : Bool), head (.binfo d a r n) = some 0x8103 ∧ head (.wmrd d p n) = some 0x8088) ∧
   (∀ (s : State) (d a : SReg) (n : Fin 8), room s d = true →
     (∀ b, s.myCore.berth n.val = some b → b.num < 32 ∧ s.logical b.siteId < 2048) →
     exec (.binfo d a false n) s = .next (result s d (berthWord s s.cur n.val))) ∧
   (∀ (s t : State) (d a : SReg) (n : Fin 8) (x : W64), takes s [a] = some ([x], t) → room t d = true →
     (names s x = none → exec (.binfo d a true n) s = .next (result t d 0x5000000000000000)) ∧
     (∀ k, names s x = some k →
       (∀ b, (s.core k).berth (slotOf x) = some b → b.num < 32 ∧ s.logical b.siteId < 2048) →
       exec (.binfo d a true n) s = .next (result t d (berthWord s k (slotOf x))))) ∧
   (∀ (s : State) (d : SReg) (p : Fin 3) (n : Fin 8), room s d = true → s.myCore.berth n.val = none →
     exec (.wmrd d p n) s = .next (result s d 0)) ∧
   (∀ (s : State) (d : SReg) (n : Fin 8) (b : BankId), room s d = true → s.myCore.berth n.val = some b →
     let k := s.bank b
     k.wmW < 2 ^ 17 → k.wmChan < 4 → k.wmStart < 2 ^ 16 → k.wmEnd < 2 ^ 17 →
     exec (.wmrd d 0 n) s = .next
       (result (s.updCore s.cur fun q => { q with l1 := [] }) d
         (0#41 ++ BitVec.ofBool (copyWaits k) ++ BitVec.ofNat 2 k.wmChan ++ BitVec.ofBool k.wmFroz ++
           BitVec.ofBool k.wmSusp ++ BitVec.ofBool k.wmOpen ++ BitVec.ofNat 17 k.wmW)) ∧
     exec (.wmrd d 1 n) s = .next (result s d (0#31 ++ BitVec.ofNat 17 k.wmEnd ++ BitVec.ofNat 16 k.wmStart)) ∧
     exec (.wmrd d 2 n) s = .next (result s d (k.wmId.zeroExtend 64))))

/-- R192, R193, R197, R198: BCLR makes every byte of the core's view of the bank read 0, once the stores that the port took before it
have been applied; on a speculative berth it waits for no other core's MMA (log 40, the model's choice). SPEC opens a region whose shadow takes
the bank's contents; SCOMMIT puts the shadow in the berth with what it holds and the original goes to its pool; SABORT keeps
the original as it stands and the shadow goes to its pool. Their statuses say what stands in the way, with nothing changed. -/
def Obligations.ClearAndSpeculate : Prop :=
  (∀ (d : SReg) (n : Fin 8), head (.bclr d n) = some 0x8084 ∧ head (.spec d n) = some 0x8085 ∧
    head (.scommit d n) = some 0x8086 ∧ head (.sabort d n) = some 0x8087) ∧
  (∀ (s : State) (d : SReg) (n : Fin 8), room s d = true → s.myCore.berth n.val = none →
    exec (.bclr d n) s = .next (result s d 3) ∧ exec (.spec d n) s = .next (result s d 3) ∧
    exec (.scommit d n) s = .next (result s d 3) ∧ exec (.sabort d n) s = .next (result s d 3)) ∧
  (∀ (s : State) (d : SReg) (n : Fin 8) (b : BankId), room s d = true → idleCore s = true → s.myCore.berth n.val = some b →
    (noCopies s b = false → exec (.bclr d n) s = .next (result s d 7)) ∧
    ((s.bank b).shadow = none → noCopies s b = true → (s.bank b).held ≠ [] → exec (.bclr d n) s = .next (waits s)) ∧
    (noCopies s b = true → ((s.bank b).shadow = none → unprotected s b = true ∧ noHeld s b = true) →
      ∃ u, exec (.bclr d n) s = .next (result u d 0) ∧ (∀ o, bankByte u ((s.bank b).shadow.getD b) o = 0) ∧
        banksKept s u [(s.bank b).shadow.getD b] ∧ u.cores = s.cores ∧ u.mem = s.mem) ∧
    ((s.bank b).shadow ≠ none → exec (.spec d n) s = .next (result s d 4)) ∧
    ((s.bank b).shadow = none →
      exec (.scommit d n) s = .next (result s d 8) ∧ exec (.sabort d n) s = .next (result s d 8) ∧
      (noCopies s b = false → exec (.spec d n) s = .next (result s d 7)) ∧
      (noCopies s b = true → s.shadowFor s.cur.siteId = none ∨ s.quotaFull s.cur.siteId = true →
        exec (.spec d n) s = .next (result s d 6)) ∧
      (∀ sh, noCopies s b = true → (s.bank b).st = .berthed → s.shadowFor s.cur.siteId = some sh →
        s.quotaFull s.cur.siteId = false →
        ∃ u, exec (.spec d n) s = .next (result u d 0) ∧ (u.bank b).shadow = some sh ∧ (u.bank sh).st = .shadow ∧
          (u.bank sh).tag = (s.bank b).tag ∧ (∀ o, bankByte u sh o = bankByte s b o) ∧
          (∀ o, bankByte u b o = bankByte s b o) ∧ banksKept s u [b, sh] ∧ u.cores = s.cores ∧ u.mem = s.mem)) ∧
    (∀ sh, (s.bank b).shadow = some sh → sh ≠ b → noCopies s b = true → noHeld s b = true → unprotected s b = true →
      (∃ u, exec (.scommit d n) s = .next (result u d 0) ∧ u.myCore.berth n.val = some sh ∧
        (∀ m, m ≠ n.val → u.myCore.berth m = s.myCore.berth m) ∧ (∀ o, bankByte u sh o = bankByte s sh o) ∧
        (u.bank sh).st = .berthed ∧ (u.bank sh).tag = (s.bank b).tag ∧ (u.bank sh).shadow = none ∧
        (u.bank b).st = (if (s.bank b).retire then .disabled else .free) ∧ (u.bank b).tag = 0 ∧
        banksKept s u [b, sh] ∧ u.mem = s.mem) ∧
      (∃ u, exec (.sabort d n) s = .next (result u d 0) ∧ (∀ o, bankByte u b o = bankByte s b o) ∧
        (u.bank b).shadow = none ∧ (u.bank b).st = (s.bank b).st ∧ (u.bank b).tag = (s.bank b).tag ∧
        (u.bank sh).st = (if (s.bank sh).retire then .disabled else .free) ∧ (u.bank sh).tag = 0 ∧
        banksKept s u [b, sh] ∧ u.cores = s.cores ∧ u.mem = s.mem)))

/-- R184, R200, R355, R372: BERTH puts a free or revoked bank into a named slot with the supervisor's tag, cleared where CLR
asks or the tag changes; UNBERTH returns a slot's bank to its pool; both take a privilege trap, cause 0x03, in a user firing. -/
def Obligations.SupervisorBerths : Prop :=
  (∀ (d a b : SReg) (c : Bool), head (.berth d a b c) = some 0x8100 ∧ head (.unberth d a c) = some 0x8101) ∧
  (∀ (s : State) (d a b : SReg) (c : Bool), poppable a = true → poppable b = true → pushable d = true →
    s.me.status.getLsbD 1 = false →
    exec (.berth d a b c) s = .next (s.raiseInt 0x03 0 0) ∧ exec (.unberth d a c) s = .next (s.raiseInt 0x03 0 0)) ∧
  (∀ (s t : State) (d a b : SReg) (c : Bool) (x y : W64), takes s [a, b] = some ([x, y], t) → room t d = true →
    s.me.status.getLsbD 1 = true →
    (names s x = none ∨ s.namedBank y = none → exec (.berth d a b c) s = .next (result t d 5)) ∧
    (∀ k bk, names s x = some k → s.namedBank y = some bk →
      (s.reach bk k.siteId = false → exec (.berth d a b c) s = .next (s.raiseInt 0x12 0 0)) ∧
      (s.reach bk k.siteId = true →
        (((s.bank bk).st ≠ .free ∧ (s.bank bk).st ≠ .revoked) ∨ s.quotaFull s.cur.siteId = true →
          exec (.berth d a b c) s = .next (result t d 6)) ∧
        ((s.bank bk).st = .free ∨ (s.bank bk).st = .revoked → s.quotaFull s.cur.siteId = false →
          ((s.core k).berth (slotOf x) ≠ none → exec (.berth d a b c) s = .next (result t d 2)) ∧
          ((s.core k).berth (slotOf x) = none → noHeld s bk = true →
            ∃ u, exec (.berth d a b c) s = .next (result u d 0) ∧ (u.core k).berth (slotOf x) = some bk ∧
              (u.bank bk).st = .berthed ∧ (u.bank bk).tag = s.me.compart ∧
              (∀ o, bankByte u bk o = if c ∨ (s.bank bk).tag ≠ s.me.compart then 0 else bankByte s bk o) ∧
              banksKept s u [bk] ∧ (∀ q, q ≠ k → u.core q = t.core q) ∧ u.mem = s.mem))))) ∧
  (∀ (s t : State) (d a : SReg) (c : Bool) (x : W64), takes s [a] = some ([x], t) → room t d = true →
    s.me.status.getLsbD 1 = true →
    (names s x = none → exec (.unberth d a c) s = .next (result t d 5)) ∧
    (∀ k, names s x = some k →
      ((s.core k).berth (slotOf x) = none → exec (.unberth d a c) s = .next (result t d 3)) ∧
      (∀ b, (s.core k).berth (slotOf x) = some b →
        ((s.bank b).shadow ≠ none → exec (.unberth d a c) s = .next (result t d 4)) ∧
        ((s.bank b).shadow = none → noCopies s b = false → exec (.unberth d a c) s = .next (result t d 7)) ∧
        ((s.bank b).shadow = none → noCopies s b = true → noHeld s b = true → unprotected s b = true →
          (s.core k).slice = [] → (∀ z, z < 4 → (s.ctx k z).seq = []) → s.me.seq = [] →
          (∀ e ∈ (s.core k).ctxs, e.2.touch = []) →
          ∃ u, exec (.unberth d a c) s = .next (result u d 0) ∧ (u.core k).berth (slotOf x) = none ∧
            (u.bank b).st = (if (s.bank b).retire then .disabled else .free) ∧ (u.bank b).tag = 0 ∧
            (c = true ∨ (s.bank b).tag ≠ 0 → ∀ o, bankByte u b o = 0) ∧
            banksKept s u [b] ∧ (∀ q, q ≠ k → u.core q = t.core q) ∧ u.mem = s.mem))))

/-! ## Landing-order copies (R289-R314) -/

/-- R290, R296, R299, R303, R310, R360, R431: CPYQ and CPYQT take a request from x(n) to x(n + 3). An acceptable one, with a place
in the channel and in its bank's queue and the release made, gets the next transfer ID, which xn takes, stands last in the channel and
in its bank's queue, and opens its envelope where nothing is before it; no byte moves yet. Through a sluice the firing and the
banks must be its own, and the bytes are deducted from ALLOW; else cause 0x0F, and nothing is accepted. Without a place
CPYQ waits and CPYQT writes 0x8000_0000_0000_0001 for the channel or ...2 for the bank and does nothing else. A request at fault
traps, its checks in R310's order. A request register in an uncorrectable row traps, cause 0x0D (R388; that FAULTVA is 0 is log 36,
the model's choice).
R289, R297, R306, R311-R314: CPYS, CPYR, CPYW and CPYST on a copy of the core's own channel. An ID that is not outstanding gives
status 1; CPYS suspends a copy that waits or stands at a 512-byte boundary (0), W then at that boundary, says that it is suspended
(2), frozen (3) or landed (4) already, and waits for another, whose stop brings it its status; CPYR lets a suspended one land on (0),
another is no such (5). CPYW of a completed one acquires and writes 0; it waits, or gives 3 or 2, for a frozen or suspended one before it (a
frozen one first: log 40, the model's choice). CPYST reads state, progress (landed behind an older copy: log 40), XDONE and record. -/
def Obligations.CopyRequestsAndControl : Prop :=
  ((∀ (d : Fin 28), head (.cpyq d) = some 0x8480 ∧ head (.cpyqt d) = some 0x8481) ∧
   ∀ (s : State) (d : Fin 28) (src dst : Option BankId),
     let n := d.val + 1
     let p := request s n src dst
     let spoilt := (List.range 4).any fun j => s.me.bad.contains (.x (n + j))
     let traps := fun (code info : Nat) (va : W64) =>
       exec (.cpyq d) s = .next (s.raiseInt code info va) ∧ exec (.cpyqt d) s = .next (s.raiseInt code info va)
     let ready := s.myCore.chan.places.length < 4 ∧ (∀ b, dst = some b → (s.bank b).queue.length < 8) ∧ quiet s = true ∧ released s = true
     (spoilt = true → traps 0x0D 1 0) ∧
     (spoilt = false → p.fieldsOk = false → traps 0x01 7 0) ∧
     (spoilt = false → p.fieldsOk = true → (∃ a b, endsAt s p.w0 a ∧ endsAt s p.w1 b) →
       (p.sluice = 0 → ∀ v b, v = p.w0 ∨ v = p.w1 → v.extractLsb' 32 32 = 0 → s.myCore.berth (slotOf v) = some b →
         tagOpen s s.me.compart b) →
       (p.w0.extractLsb' 0 2 ≠ 0 → traps 0x04 0 p.w0) ∧
       (p.w0.extractLsb' 0 2 = 0 → p.w1.extractLsb' 0 2 ≠ 0 → traps 0x04 0 p.w1) ∧
       (p.w0.extractLsb' 0 2 = 0 → p.w1.extractLsb' 0 2 = 0 → ∀ toBank : Bool,
         (toBank = true ↔ p.w1.getLsbD 63 = true ∨ p.w1.extractLsb' 32 32 = 0) →
         (p.limitsOk toBank = false → traps 0x01 7 0) ∧
         (p.limitsOk toBank = true →
           (p.mkind ≠ 0 → s.spanCoreCount s.cur.siteId ≤ p.mdest → traps 0x06 5 0) ∧
           (p.mkind = 0 ∨ p.mdest < s.spanCoreCount s.cur.siteId →
             ∀ k, endsAt s p.w0 (some k) → (s.core k).berth (slotOf p.w0) = none → traps 0x07 0 p.w0)))) ∧
     (spoilt = false → acceptable s p →
     (∀ (try_ : Bool) (q : Sluice), ready → (p.sluice = 0 ∧ q = {} ∨ p.sluice ≠ 0 ∧ sluiceOf s p q ∧ lets s s.me.compart p q) →
       let r := { p with sfrom := if p.sluice = 0 then 0 else q.frm, sto := if p.sluice = 0 then 0 else q.into }
       ∃ u, exec (if try_ then .cpyqt d else .cpyq d) s = .next (result u (.x (Fin.ofNat 32 n)) (p.id.zeroExtend 64)) ∧
         u.myCore.chan.places = s.myCore.chan.places ++ [r] ∧ u.myCore.chan.next = p.id + 1 ∧
         u.myCore.chan.done = s.myCore.chan.done ∧ u.me = s.me ∧ u.mem = s.mem ∧
         (∀ b o, bankByte u b o = bankByte s b o) ∧
         (p.sluice = 0 → u.lantern = s.lantern) ∧
         (p.sluice ≠ 0 → sluiceOf u p { q with allow := BitVec.ofNat 48 (q.allow.toNat - p.rb * p.rows * p.planes) }) ∧
         (∀ b, dst = some b →
           (∃ k, (u.bank b).queue = (s.bank b).queue ++ [{ core := s.cur, id := p.id, start := p.start, stop := p.stopAt, order := k }]) ∧
           ((s.bank b).queue = [] → (s.bank b).wmOpen = false → (s.bank b).shadow = none →
             (∀ r ∈ s.myCore.chan.places, r.id ≠ p.id) →
             (u.bank b).wmOpen = true ∧ (u.bank b).wmW = p.start ∧ (u.bank b).wmStart = p.start ∧ (u.bank b).wmEnd = p.stopAt ∧
               (u.bank b).wmChan = s.cur.core ∧ (u.bank b).wmId = p.id ∧ (u.bank b).wmFroz = false ∧
               (u.bank b).wmSusp = false))) ∧
     (∀ q, ready → p.sluice ≠ 0 → sluiceOf s p q →
       let f := s.me.compart
       let mine := f = q.frm ∨ f = q.into ∨ f = 63
       let from_ := ∀ b, src = some b → (s.bank b).tag = q.frm
       let into_ := ∀ b, dst = some b → (s.bank b).tag = q.into
       (¬mine → traps 0x0F 1 0) ∧ (mine → ¬from_ → traps 0x0F 2 p.w0) ∧ (mine → from_ → ¬into_ → traps 0x0F 2 p.w1) ∧
       (mine → from_ → into_ → q.allow.toNat < p.rb * p.rows * p.planes → traps 0x0F 3 0)) ∧
     (s.myCore.chan.places.length < 4 → (∀ b, dst = some b → (s.bank b).queue.length < 8) → quiet s = false →
       exec (.cpyq d) s = .next (waits s) ∧ exec (.cpyqt d) s = .next (waits s)) ∧
     (4 ≤ s.myCore.chan.places.length →
       exec (.cpyq d) s = .next (waits s) ∧
       exec (.cpyqt d) s = .next (result s (.x (Fin.ofNat 32 n)) 0x8000000000000001)) ∧
     (∀ b, s.myCore.chan.places.length < 4 → dst = some b → 8 ≤ (s.bank b).queue.length →
       exec (.cpyq d) s = .next (waits s) ∧
       exec (.cpyqt d) s = .next (result s (.x (Fin.ofNat 32 n)) 0x8000000000000002)))) ∧
  ((∀ (d a : SReg) (p : Fin 4), head (.cpys d a) = some 0x8482 ∧ head (.cpyr d a) = some 0x8483 ∧
     head (.cpyw d a) = some 0x8484 ∧ head (.cpyst d a p) = some 0x8485) ∧
   ∀ (s t : State) (d a : SReg) (x : W64), takes s [a] = some ([x], t) → room t d = true →
     let id := x.extractLsb' 0 32
     (s.me.wait = .none → (before id s.myCore.chan.next = false ∨ before id s.myCore.chan.done = true) →
       exec (.cpys d a) s = .next (result t d 1)) ∧
     ((before id s.myCore.chan.next = false ∨ before id s.myCore.chan.done = true) →
       exec (.cpyr d a) s = .next (result t d 1)) ∧
     (∀ p, s.me.wait = .none → outstanding s id p →
       let boundary := (p.pos - 1) / 512 * 512 + 512
       let there := p.began = true ∧ (p.pos - 1) / 512 < p.nextUnit / 512
       (p.st = .suspended → exec (.cpys d a) s = .next (result t d 2)) ∧
       (p.st = .frozen → exec (.cpys d a) s = .next (result t d 3)) ∧
       (p.st = .landed → exec (.cpys d a) s = .next (result t d 4)) ∧
       (p.st = .waiting ∨ p.st = .landing ∧ there →
         ∃ u, exec (.cpys d a) s = .next (result u d 0) ∧ (copyOf u s.cur id).map (·.st) = some .suspended ∧ u.mem = s.mem ∧
           (there → p.start ≤ boundary → (copyOf u s.cur id).map (·.pos) = some boundary ∧ ∀ b, p.dst = some b → (u.bank b).wmW = boundary) ∧
           (∀ b o, bankByte u b o = bankByte s b o) ∧ { u.me with heldWait := t.me.heldWait } = t.me ∧ u.myCore.k = s.myCore.k) ∧
       (p.st = .landing → ¬there →
         ∃ u, exec (.cpys d a) s = .next u ∧ (copyOf u s.cur id).map (·.stop) = some true ∧ u.me.wait = .stopping id ∧
           u.me.pc = s.me.pc ∧ u.me.x = s.me.x ∧ u.me.q = s.me.q ∧ u.mem = s.mem ∧ u.banks = s.banks)) ∧
     (∀ j, s.me.wait = .stopping j → exec (.cpys d a) s = .next (waits s)) ∧
     (∀ w, s.me.wait = .value w → exec (.cpys d a) s = .next (result t d w)) ∧
     (∀ p, outstanding s id p →
       (p.st ≠ .suspended → exec (.cpyr d a) s = .next (result t d 5)) ∧
       (p.st = .suspended →
         ∃ u, exec (.cpyr d a) s = .next (result u d 0) ∧
           (copyOf u s.cur id).map (·.st) = some (if p.began then .landing else .waiting) ∧ u.mem = s.mem ∧
           (∀ b o, bankByte u b o = bankByte s b o) ∧ u.me = t.me ∧ u.myCore.k = s.myCore.k)) ∧
     (before id s.myCore.chan.next = false → exec (.cpyw d a) s = .next (result t d 1)) ∧
     (before id s.myCore.chan.next = true → before id s.myCore.chan.done = true →
       exec (.cpyw d a) s = .next (result (t.updCore s.cur fun k => { k with l1 := [] }) d 0)) ∧
     (before id s.myCore.chan.next = true → before id s.myCore.chan.done = false →
       let upTo := s.myCore.chan.places.filter fun p => p.id = id || before p.id id
       (upTo.any (·.st = .frozen) = true → exec (.cpyw d a) s = .next (result t d 3)) ∧
       ((∀ e ∈ s.cores, ∀ p ∈ e.2.chan.places, p.st ≠ .frozen) → upTo.any (·.st = .suspended) = true →
         exec (.cpyw d a) s = .next (result t d 2)) ∧
       ((∀ e ∈ s.cores, ∀ p ∈ e.2.chan.places, p.st ≠ .frozen ∧ p.st ≠ .suspended) → exec (.cpyw d a) s = .next (waits s))) ∧
     (before id s.myCore.chan.next = false → exec (.cpyst d a 0) s = .next (result t d 7) ∧
       exec (.cpyst d a 1) s = .next (result t d 0)) ∧
     (before id s.myCore.chan.next = true → copyOf s s.cur id = none →
       exec (.cpyst d a 0) s = .next (result t d 0) ∧ exec (.cpyst d a 1) s = .next (result t d 0)) ∧
     (∀ p, before id s.myCore.chan.next = true → copyOf s s.cur id = some p →
       exec (.cpyst d a 0) s = .next
         (result t d ((if p.dst.isNone then 8 else 0) + (match p.st with
           | .waiting => 1
           | .landing => 2
           | .suspended => 3
           | .frozen => 4
           | .landed => 5))) ∧
       (p.dst = none → exec (.cpyst d a 1) s = .next (result t d (BitVec.ofNat 64 p.pos))) ∧
       (∀ b, p.dst = some b →
         let own := (s.bank b).wmOpen = true ∧ ∃ q qs, (s.bank b).queue = q :: qs ∧ q.core = s.cur ∧ q.id = p.id
         (own → exec (.cpyst d a 1) s = .next (result t d (BitVec.ofNat 64 (s.bank b).wmW))) ∧
         (¬own → exec (.cpyst d a 1) s = .next (result t d (BitVec.ofNat 64 (if p.stopAt ≤ p.pos then p.stopAt else p.start)))))) ∧
     exec (.cpyst d a 2) s = .next (result t d (s.myCore.chan.next ++ s.myCore.chan.done)) ∧
     exec (.cpyst d a 3) s = .next (result t d (s.myCore.chan.record.getD 0 0)))

/-- R291, R295, R298-R302, R305-R308, R312, R360, R408, R431: LANDING_UNIT of the channel's first copy, from one bank into another
whose envelope it has open: the next unit's covered bytes take their source bytes, through the swizzle asked for, no other byte of any
bank changes, and the watermark rises to the unit's end; a copy that has come to its end is landed, one asked to stop is suspended at
the 512-byte boundary, and each CPYS that waits for it has its status. A unit for module or host memory is written to its page; a page
that is not in the sluice's TO freezes the copy. COPY_COMPLETION completes a landed copy that is the oldest: DONE passes its ID, its
place is free, and the message it asks for sets out. -/
def Obligations.LandingAndCompletion : Prop :=
  (∀ (s : State) (c : CoreId) (p : Copy) (rest : List Copy) (a b : BankId) (q : QCopy) (qs : List QCopy), landsNext s c p rest →
    State.reaches s c a.die = true → State.carriedTo s c b.die = true → p.src = some a → p.dst = some b → a ≠ b → calm s a = true →
    (s.bank b).wmOpen = true → (s.bank b).queue = q :: qs → q.core = c → q.id = p.id → (s.bank b).bad = [] → (s.bank b).held = [] →
    unprotected s b = true → Memory.wf (s.bank b).bytes = true → p.stopAt ≤ 65536 →
    let u := p.nextUnit
    let e := u + p.unit
    let after := { p with prog := e - p.start }
    let stops := p.stop = true ∧ (e - 1) / 512 < after.nextUnit / 512
    ∃ t, exec (.landingUnit c) s = .next t ∧ t.mem = s.mem ∧
      (∀ o, bankByte t b o = if u ≤ landsAt p o ∧ landsAt p o < e then (match p.sourceOf (landsAt p o) with
        | some sa => bankByte s a sa
        | none => bankByte s b o) else bankByte s b o) ∧
      (∀ k, k ≠ b → t.bank k = s.bank k) ∧
      (e < p.stopAt → ¬stops → (t.bank b).wmOpen = true ∧ (t.bank b).wmW = e ∧
        (copyOf t c p.id).map (fun r => (r.st, r.pos)) = some (.landing, e)) ∧
      (e < p.stopAt → stops → (t.bank b).wmOpen = true ∧ (t.bank b).wmW = (e - 1) / 512 * 512 + 512 ∧ (t.bank b).wmSusp = true ∧
        (copyOf t c p.id).map (·.st) = some .suspended ∧
        ∀ x, (s.ctx c x).wait = .stopping p.id → (t.ctx c x).wait = .value 0) ∧
      (p.stopAt ≤ e → (copyOf t c p.id).map (·.st) = some .landed ∧ (t.bank b).queue = qs ∧
        ∀ x, (s.ctx c x).wait = .stopping p.id → (t.ctx c x).wait = .value 4)) ∧
  (∀ (s : State) (c : CoreId) (p : Copy) (rest : List Copy) (a : BankId) (e : TlbEntry) (pa : Nat), landsNext s c p rest →
    State.reaches s c a.die = true → p.src = some a → p.dst = none → p.swz = false → calm s a = true → unitOn s c p e pa →
    let u := p.nextUnit
    let covered := fun da => u ≤ da ∧ da < u + 64 ∧ ∃ sa, p.sourceOf da = some sa
    let freezes := fun (code info : Nat) => ∃ t, exec (.landingUnit c) s = .next t ∧ (copyOf t c p.id).map (·.st) = some .frozen ∧
      t.mem = s.mem ∧ t.banks = s.banks ∧ (t.core c).chan.record = [p.id ++ BitVec.ofNat 32 (info * 4096 + 0x100 + code),
        BitVec.ofNat 64 u, BitVec.ofNat 64 (u - p.first), p.w1]
    (s.copyPage p e p.nextByte true = none → Memory.wf s.mem = true →
      (isHbm pa = true ∧ pa / 64 * 64 + 64 ≤ 2 ^ 40 ∧ (s.die (homeDie (pa / 64))).fenced = false ∧ s.takesWrite (pa / 64) = true ∧
          pa % 64 = p.nextByte % 64 ∧ State.carriedTo s c (homeDie (pa / 64)) = true ∨
        2 ^ 51 ≤ pa ∧ pa + 64 ≤ 2 ^ 52 ∧ s.l2Find (pa / 64) = none ∧ p.uc = 0 ∧ pa % 64 = p.nextByte % 64 ∧ State.carriedTo s c 0 = true) →
      ∃ t, exec (.landingUnit c) s = .next t ∧ t.banks = s.banks ∧
        (∀ da sa, covered da → p.sourceOf da = some sa → t.memByte (pa + (da - p.nextByte)) = bankByte s a sa) ∧
        (∀ x, (∀ da, covered da → x ≠ pa + (da - p.nextByte)) → t.memByte x = s.memByte x) ∧
        (p.uc ≠ 0 → ∃ l, t.l2Find (pa / 64) = some l ∧ l.uc = p.uc ∧ l.dead = p.dead) ∧
        (p.stopAt ≤ u + 64 → (copyOf t c p.id).map (·.st) = some .landed)) ∧
    (e.w = false ∨ (e.sv = true ∧ p.sv = false) → freezes 0x06 1) ∧
    (∀ k, e.w = true → (e.sv = true → p.sv = true) → isDeviceTop pa = false → s.effective e p.nextByte = some k → p.sluice ≠ 0 →
      k ≠ p.sto → freezes 0x0F 4)) ∧
  (∀ (s : State) (c : CoreId) (p : Copy) (rest : List Copy), (s.core c).chan.places = p :: rest → p.st = .landed →
    (∀ r, rest.head? = some r → r.st ≠ .landed) →
    ∃ t, exec (.copyCompletion c) s = .next t ∧ (t.core c).chan.places = rest ∧ (t.core c).chan.done = p.id + 1 ∧
      (t.core c).chan.next = (s.core c).chan.next ∧ t.mem = s.mem ∧ t.banks = s.banks ∧
      (p.mkind = 0 → t.engine = s.engine) ∧
      (p.mkind ≠ 0 → p.retired = false → ∀ k, s.spanCore c.siteId p.mdest = some k → s.logical k.siteId < 2048 →
        ∃ f, t.engine = s.engine ++ [f] ∧ f.dest = k ∧ f.msg.h1 = p.id.zeroExtend 64 ∧
          f.msg.h0.extractLsb' 16 8 = BitVec.ofNat 8 p.hidx ∧ f.msg.h0.extractLsb' 24 6 = BitVec.ofNat 6 p.ctr))

/-- R277-R288, R413: TURN asks the arbiter for a split, clamped to at least four groups each way (status 0, or 1 when clamped;
2 no end of the strait, 3 no allotment, 4 fewer than eight groups); TURNQ reads allotment, directions and pending target; THRD
PART 2 the number of windows, the other parts the beats that the partition's transfers have taken inbound and outbound, 0 where
there are none (the beats of one transfer are free: DESIGN CHOICE, log 18); the count of a gang's TURN is its leader's (DEDUCED,
log 33). At a whole microsecond every strait makes its window: a group keeps its
direction where no target, initial split or loss is pending, and a single pending target draws the split nearer by at most
eight groups. A turning group carries its new direction once drain and slack are over. -/
def Obligations.StraitTurns : Prop :=
  (∀ (d a : SReg) (n : Fin 10) (p : Fin 3), head (.turn d a n) = some 0x8900 ∧ head (.turnq d n) = some 0x8901 ∧
    head (.thrd d n p) = some 0x8902) ∧
  (∀ (s t : State) (d a : SReg) (n : Fin 10) (x y : W64), takes s [a] = some ([y], t) → room t d = true → windowsMade s →
    (match s.myGang.head? with
      | none => x = y
      | some l => if l = (s.cur, s.curCtx) then x = y else
        ∃ r, a = .x r ∧ x = (s.ctx l.1 l.2).xreg r.val ∧ (s.ctx l.1 l.2).bad.contains (.x r.val) = false) →
    let lo := s.cur.die = (straitDies n.val).1
    let hi := s.cur.die = (straitDies n.val).2
    let A := (lanesOf s n.val s.myPart).length
    let k := (x.extractLsb' 0 6).toNat
    let g := Nat.min (Nat.max k 4) (A - 4)
    let c := if lo then g else A - g
    (¬lo → ¬hi → exec (.turn d a n) s = .next (result t d 2)) ∧
    ((lo ∨ hi) → A = 0 → exec (.turn d a n) s = .next (result t d 3)) ∧
    ((lo ∨ hi) → 0 < A → A < 8 → exec (.turn d a n) s = .next (result t d 4)) ∧
    ((lo ∨ hi) → 8 ≤ A → s.straits.length = 10 →
      ∃ u, exec (.turn d a n) s = .next (result u d (if g = k then 0 else 1)) ∧ u.me = t.me ∧ u.mem = s.mem ∧
        u.cores = t.cores ∧
        (u.strait n.val).pending.find s.myPart = (if c = (s.strait n.val).split s.myPart then none else some c) ∧
        (u.strait n.val).lanes = (s.strait n.val).lanes)) ∧
  (∀ (s : State) (d : SReg) (n : Fin 10), room s d = true → windowsMade s → (lanesOf s n.val s.myPart).length ≤ 32 →
    (∀ k, (s.strait n.val).pending.find s.myPart = some k → k ≤ (lanesOf s n.val s.myPart).length) →
    (lanesOf s n.val s.myPart).all steady = true →
    let lo := s.cur.die = (straitDies n.val).1
    let hi := s.cur.die = (straitDies n.val).2
    let A := (lanesOf s n.val s.myPart).length
    let a := towardLo s n.val s.myPart
    let b := towardHi s n.val s.myPart
    (¬lo → ¬hi → exec (.turnq d n) s = .next (result s d 2)) ∧
    ((lo ∨ hi) → A = 0 → exec (.turnq d n) s = .next (result s d 3)) ∧
    ((lo ∨ hi) → 0 < A → exec (.turnq d n) s = .next
      (result s d (BitVec.ofNat 64 (A * 2 ^ 7 + (if lo then a else b) * 2 ^ 13 + (if lo then b else a) * 2 ^ 19 +
        (match (s.strait n.val).pending.find s.myPart with
          | some k => (if lo then k else A - k) * 2 ^ 31 + 2 ^ 37
          | none => 0)))))) ∧
  (∀ (s : State) (d : SReg) (n : Fin 10) (p : Fin 3), room s d = true → windowsMade s →
    (exec (.thrd d n 2) s = .next (result s d (BitVec.ofNat 64 s.windows))) ∧
    (p ≠ 2 → lanesOf s n.val s.myPart = [] ∨ (s.cur.die ≠ (straitDies n.val).1 ∧ s.cur.die ≠ (straitDies n.val).2) →
      exec (.thrd d n p) s = .next (result s d 0)) ∧
    (p ≠ 2 → lanesOf s n.val s.myPart ≠ [] → s.cur.die = (straitDies n.val).1 ∨ s.cur.die = (straitDies n.val).2 →
      exec (.thrd d n p) s = .next
        (result s d (BitVec.ofNat 64 ((s.strait n.val).beats n.val s.myPart
          (if p = 0 then decide (s.cur.die = (straitDies n.val).1) else decide (s.cur.die ≠ (straitDies n.val).1))))) ∧
      ((s.strait n.val).xfers = [] → exec (.thrd d n p) s = .next (result s d 0)))) ∧
  (∀ (s : State), 1000 * (s.windows + 1) ≤ s.rtime → s.straits.length = 10 →
    ∃ t, exec .turnWindow s = .next t ∧ t.windows = s.windows + 1 ∧ t.mem = s.mem ∧ t.banks = s.banks ∧
      ∀ n, n < 10 → (s.strait n).initial = [] → (∀ l ∈ (s.strait n).lanes, l.retire = false) →
        ((s.strait n).pending = [] →
          (t.strait n).lanes.map (fun l => (l.dir.final, l.owner)) = (s.strait n).lanes.map fun l => (l.dir.final, l.owner)) ∧
        (∀ p k, (s.strait n).pending = [(p, k)] → (s.strait n).lanes.all steady = true →
          8 ≤ (lanesOf s n p).length → 4 ≤ k → k + 4 ≤ (lanesOf s n p).length →
          (t.strait n).split p = (if towardLo s n p ≤ k then Nat.min k (towardLo s n p + 8)
            else Nat.max k (towardLo s n p - 8)))) ∧
  (∀ (s : State) (n g since : Nat) (l : Lane) (lo : Bool), n < s.straits.length → (s.strait n).lanes[g]? = some l →
    l.dir = .turning lo since → since + 80 ≤ s.rtime →
    ∃ t, exec (.groupTurnComplete n g) s = .next t ∧
      (t.strait n).lanes[g]? = some { l with dir := if lo then .toLo else .toHi } ∧
      (∀ h, h ≠ g → (t.strait n).lanes[h]? = (s.strait n).lanes[h]?) ∧ t.mem = s.mem ∧ t.cores = s.cores)

/-! ## System registers, traps, privilege (R372-R395) -/

/-- R171, R174, R232, R297, R351, R352, R370, R372, R379, R380, R382: SYSR reads a system register, SYSW writes the writable fields of one
and gives its old value; EPC, XPC, CAUSE, FAULTVA, TVEC, TSCR and PTBASE need supervisor level, else a privilege trap, cause
0x03; a SYSW to a read-only register changes nothing. -/
def Obligations.SystemRegisters : Prop :=
  (∀ (d a : SReg) (r : Fin 256), head (.sysr d r) = some 0x8D02 ∧ head (.sysw d a r) = some 0x8D03) ∧
  (∀ (s : State) (d a : SReg) (r : Fin 256), poppable a = true → pushable d = true → s.me.status.getLsbD 1 = false →
    ((1 ≤ r.val ∧ r.val ≤ 9) ∨ r.val = 0x1E) →
    exec (.sysr d r) s = .next (s.raiseInt 0x03 0 0) ∧ exec (.sysw d a r) s = .next (s.raiseInt 0x03 0 0)) ∧
  (∀ (s : State) (d : SReg), room s d = true →
    exec (.sysr d 0x00) s = .next (result s d s.me.status) ∧
    exec (.sysr d 0x12) s = .next (result s d s.me.rndctl) ∧
    (s.me.seq = [] → exec (.sysr d 0x13) s = .next (result s d (s.myCore.seed.zeroExtend 64))) ∧
    exec (.sysr d 0x14) s = .next (result s d (BitVec.ofNat 64 s.cycle)) ∧
    exec (.sysr d 0x1C) s = .next (result s d (BitVec.ofNat 64 s.me.compart)) ∧
    (s.me.status.getLsbD 5 = false → exec (.sysr d 0x11) s = .next (result s d 0)) ∧
    (s.cur.core < 4 → s.cur.site < 132 → s.cur.die < 8 → s.spanCluster s.cur.siteId < 1024 →
      s.logical s.cur.siteId < 2048 →
      exec (.sysr d 0x10) s = .next
        (result s d (0#7 ++ BitVec.ofNat 11 (s.logical s.cur.siteId) ++ BitVec.ofNat 12 (s.spanCoreNo s.cur) ++
          BitVec.ofNat 10 (s.spanCluster s.cur.siteId) ++ 0#11 ++ BitVec.ofNat 3 s.cur.die ++
          BitVec.ofNat 4 (s.cur.site / 12) ++ BitVec.ofNat 4 (s.cur.site % 12) ++ BitVec.ofNat 2 s.cur.core))) ∧
    exec (.sysr d 0x15) s = .next (result s d (thermWord (s.die s.cur.die))) ∧
    exec (.sysr d 0x1D) s = .next (result s d (BitVec.ofNat 64 (worldNumber s))) ∧
    (∀ g j, s.me.status.getLsbD 5 = true → s.myCore.gang = some g → g.members.Nodup → g.members[j]? = some (s.cur, s.curCtx) →
      exec (.sysr d 0x11) s = .next (result s d (BitVec.ofNat 64 (16 * j + 256 * g.log)))) ∧
    (∀ n : Fin 4,
      let h := (s.core { s.cur with core := n.val }).chan
      exec (.sysr d (Fin.ofNat 256 (0x18 + n.val))) s = .next
        (result (if h.passed then s.updCore s.cur fun k => { k with l1 := [] } else s) d (h.next ++ h.done))) ∧
    (s.me.status.getLsbD 1 = true →
      exec (.sysr d 0x01) s = .next (result s d s.me.epc) ∧ exec (.sysr d 0x02) s = .next (result s d s.me.xpc) ∧
      exec (.sysr d 0x03) s = .next (result s d s.me.cause) ∧ exec (.sysr d 0x04) s = .next (result s d s.me.faultva) ∧
      exec (.sysr d 0x05) s = .next (result s d s.myCore.tvec) ∧
      exec (.sysr d 0x1E) s = .next (result s d s.myCore.ptbase) ∧
      (∀ n : Fin 4, exec (.sysr d (Fin.ofNat 256 (6 + n.val))) s = .next (result s d (s.me.tscr.getD n.val 0))))) ∧
  (∀ (s t : State) (d a : SReg) (w : W64), takes s [a] = some ([w], t) → room t d = true →
    (∃ u, exec (.sysw d a 0x00) s = .next (done u) ∧
      u = (put t d s.me.status).updMe fun v =>
        { v with status := 0#58 ++ v.status.extractLsb' 4 2 ++ 0#1 ++ v.status.extractLsb' 1 2 ++ w.extractLsb' 0 1 }) ∧
    exec (.sysw d a 0x12) s = .next (done ((put t d s.me.rndctl).updMe fun v =>
      { v with rndctl := 0#60 ++ w.extractLsb' 3 1 ++
                 (if w.extractLsb' 0 3 = 0 ∨ w.extractLsb' 0 3 = 6 ∨ w.extractLsb' 0 3 = 7 then v.rndctl.extractLsb' 0 3
                  else w.extractLsb' 0 3) })) ∧
    (s.me.seq = [] → exec (.sysw d a 0x13) s = .next (done ((put t d (s.myCore.seed.zeroExtend 64)).updCore s.cur fun k =>
      { k with seed := if w.extractLsb' 0 32 = 0 then 1 else w.extractLsb' 0 32 }))) ∧
    exec (.sysw d a 0x14) s = .next (result t d (BitVec.ofNat 64 s.cycle)) ∧
    exec (.sysw d a 0x15) s = .next (result t d (thermWord (s.die s.cur.die))) ∧
    exec (.sysw d a 0x1C) s = .next (result t d (BitVec.ofNat 64 s.me.compart)) ∧
    exec (.sysw d a 0x1D) s = .next (result t d (BitVec.ofNat 64 (worldNumber s))) ∧
    (s.me.status.getLsbD 5 = false → exec (.sysw d a 0x11) s = .next (result t d 0)) ∧
    (∀ g j, s.me.status.getLsbD 5 = true → s.myCore.gang = some g → g.members.Nodup → g.members[j]? = some (s.cur, s.curCtx) →
      exec (.sysw d a 0x11) s = .next (result t d (BitVec.ofNat 64 (16 * j + 256 * g.log)))) ∧
    (∀ v, exec (.sysr d 0x10) s = .next (result s d v) → exec (.sysw d a 0x10) s = .next (result t d v)) ∧
    (∀ n : Fin 4,
      let h := (s.core { s.cur with core := n.val }).chan
      exec (.sysw d a (Fin.ofNat 256 (0x18 + n.val))) s = .next (result t d (h.next ++ h.done))) ∧
    (s.me.status.getLsbD 1 = true →
      exec (.sysw d a 0x01) s = .next (result t d s.me.epc) ∧
      exec (.sysw d a 0x03) s = .next (result t d s.me.cause) ∧
      exec (.sysw d a 0x04) s = .next (result t d s.me.faultva) ∧
      exec (.sysw d a 0x02) s = .next (done ((put t d s.me.xpc).updMe fun v => { v with xpc := w })) ∧
      exec (.sysw d a 0x05) s = .next (done ((put t d s.myCore.tvec).updCore s.cur fun k => { k with tvec := w })) ∧
      exec (.sysw d a 0x1E) s = .next (done ((put t d s.myCore.ptbase).updCore s.cur fun k =>
        { k with ptbase := 0#12 ++ w.extractLsb' 12 40 ++ 0#11 ++ w.extractLsb' 0 1 })) ∧
      (∀ n : Fin 4, exec (.sysw d a (Fin.ofNat 256 (6 + n.val))) s = .next
        (done ((put t d (s.me.tscr.getD n.val 0)).updMe fun v => { v with tscr := v.tscr.put n.val w })))))

/-- R373-R375, R378, R381, R391: taking a trap. A fault of the integer pipeline enters the handler at once where nothing stands
in its way, EPC and XPC at the instruction; TRAP does the same with XPC at the next instruction, its operand in FAULTVA and its
code in INFO; a trap that waited enters by TRAP_ENTRY in the order of the traps; where TVEC is 0 or a handler is running already
TRAP_ENTRY ends the firing instead, and the revocation of its core's banks is pending. -/
def Obligations.TrapEntry : Prop :=
  (∀ (a : SReg) (k : Fin 16), head (.trap a k) = some 0x8C80) ∧
  (∀ (s : State) (code info : Nat) (va : W64), code < 256 → info < 16 → trapReady s s.cur s.curCtx →
    entersTrap s (s.raiseInt code info va) s.cur s.curCtx code info 0 s.me.pc s.me.pc va) ∧
  (∀ (s t : State) (a : SReg) (k : Fin 16) (x : W64), takes s [a] = some ([x], t) → trapReady s s.cur s.curCtx →
    ∃ u, exec (.trap a k) s = .next u ∧ entersTrap s u s.cur s.curCtx 0x11 k.val 0 s.me.pc (following s) x) ∧
  (∀ (s : State) (c : CoreId) (x : Nat) (i : TrapInfo), (s.ctx c x).trapPend = some i → (s.core c).stopped = false →
    (s.die c.die).fenced = false →
    (∀ e ∈ (s.core c).ctxs, (e.1 ≠ x → e.2.running = true → e.2.status.getLsbD 2 = false) ∧
      ∀ j, e.2.trapPend = some j → i.order ≤ j.order) →
    (i.code < 256 → i.info < 16 → i.stream < 4 → (s.core c).tvec ≠ 0 → (s.ctx c x).status.getLsbD 2 = false →
      ∃ t, exec (.trapEntry c x) s = .next t ∧ entersTrap s t c x i.code i.info i.stream i.epc i.xpc i.va) ∧
    ((s.core c).tvec = 0 ∨ (s.ctx c x).status.getLsbD 2 = true →
      ∃ t r, exec (.trapEntry c x) s = .next t ∧ (t.ctx c x).running = false ∧ (t.core c).rev = (s.core c).rev ++ [r] ∧
        r.cause.extractLsb' 0 8 = BitVec.ofNat 8 i.code ∧ r.epc = i.epc ∧ r.va = i.va ∧ r.handler = (s.ctx c x).handler ∧
        (∀ y, y ≠ x → (t.ctx c y).running = (s.ctx c y).running) ∧ t.mem = s.mem))

/-- R392, R405, R423, R424: SRET in a handler goes on at XPC at the saved level, TH clear, what the trap held aside taken up
again; outside one it takes a privilege trap. A context without progress for 2^24 cycles takes the watchdog's trap, and a load or
atomic it waited for is abandoned. At the moment
of revocation every bank of the core leaves its berth for the revoked list, its contents kept, and the report sets out. -/
def Obligations.ReturnWatchdogRevocation : Prop :=
  head .sret = some 0x8C01 ∧
  (∀ (s : State), s.me.status.getLsbD 2 = true →
    ∃ u, exec .sret s = .next u ∧ u.me.pc = s.me.xpc ∧
      u.me.status = 0#58 ++ s.me.status.extractLsb' 5 1 ++ s.me.status.extractLsb' 4 1 ++ 0#1 ++ 0#1 ++
        s.me.status.extractLsb' 4 1 ++ s.me.status.extractLsb' 0 1 ∧
      u.me.seq = s.me.seq ∧ u.me.x = s.me.x ∧ u.me.v = s.me.v ∧ u.me.p = s.me.p ∧
      u.me.q = s.me.q ∧ u.me.epc = s.me.epc ∧ u.me.cause = s.me.cause ∧ u.me.num = s.me.num + 1 ∧
      (∀ e ∈ u.myCore.slice, e.ctx = s.curCtx → e.held = false) ∧ u.mem = s.mem ∧ u.banks = s.banks) ∧
  (∀ (s : State), s.me.status.getLsbD 2 = false → exec .sret s = .next (s.raiseInt 0x03 0 0)) ∧
  (∀ (s : State) (c : CoreId) (x : Nat), (s.ctx c x).running = true → (s.ctx c x).wait = .none → trapReady s c x →
    (s.core c).stopped = false → (s.die c.die).fenced = false → (s.ctx c x).watch + 2 ^ 24 ≤ s.cycle →
    ∃ t, exec (.watchdog c x) s = .next t ∧ entersTrap s t c x 0x0E 1 0 (s.ctx c x).pc (s.ctx c x).pc 0) ∧
  (∀ (s : State) (c : CoreId) (x id : Nat), (s.ctx c x).running = true → (s.ctx c x).wait = .fabric id ∨ (s.ctx c x).wait = .host id →
    trapReady s c x → (s.core c).stopped = false → (s.die c.die).fenced = false → (s.ctx c x).watch + 2 ^ 24 ≤ s.cycle →
    ∃ t, exec (.watchdog c x) s = .next t ∧ (t.ctx c x).pc = (s.core c).tvec ∧ (t.ctx c x).epc = (s.ctx c x).pc ∧
      (t.ctx c x).cause = 0x100E ∧ t.mem = s.mem ∧
      ((s.ctx c x).wait = .fabric id → (∀ r ∈ t.freqs, r.id ≠ id) ∧ (∀ r ∈ t.fresps, r.req.id ≠ id) ∧
        ∀ b, ∀ w ∈ (t.bank b).held ++ (t.bank b).waiting, ∀ r, w.kind = .access r → r.id ≠ id) ∧
      ((s.ctx c x).wait = .host id → ∀ r ∈ t.hreqs, r.id ≠ id)) ∧
  (∀ (s : State) (c : CoreId) (r : RevPend) (rest : List RevPend), (s.core c).rev = r :: rest → (s.core c).slice = [] →
    (∀ y, y < 4 → (s.ctx c y).seq = []) → (∀ e ∈ (s.core c).ctxs, e.2.touch = []) →
    (∀ i b, i < 8 → (s.core c).berth i = some b → unprotected s b = true ∧ (s.bank b).shadow = none) →
    ∃ t, exec (.revocation c) s = .next t ∧ (t.core c).rev = rest ∧ (∀ i, i < 8 → (t.core c).berth i = none) ∧
      (∀ i b, i < 8 → (s.core c).berth i = some b → (t.bank b).st = .revoked ∧ (t.bank b).tag = (s.bank b).tag ∧
        ∀ o, bankByte t b o = bankByte s b o) ∧
      (∀ b, (∀ i, i < 8 → (s.core c).berth i ≠ some b) → t.bank b = s.bank b) ∧ t.mem = s.mem ∧
      (r.report = false → t.engine = s.engine) ∧ (r.report = true → ∃ f, t.engine = s.engine ++ [f]))

/-- R56, R394, R395: WFE waits until an event ends its wait or 4,096 cycles have passed; ALIGN_TIMEOUT and WFE_TIMEOUT end the
waits of 64 and 4,096 cycles. TLBI, at supervisor level, waits for the context's earlier stores and takes the page's, or all,
translations of its partition out of every TLB of the module; in a user firing it is a privilege trap. -/
def Obligations.WaitsAndTlbInvalidation : Prop :=
  head .wfe = some 0x8C05 ∧ (∀ (a : SReg) (all : Bool), head (.tlbi a all) = some 0x8D04) ∧
  (∀ (s : State),
    (s.me.wait = .woken → exec .wfe s = .next (done s)) ∧
    (∀ t, s.me.wait = .wfe t → t + 4096 ≤ s.cycle → exec .wfe s = .next (done s)) ∧
    (∀ t, s.me.wait = .wfe t → s.cycle < t + 4096 → exec .wfe s = .next (waits s)) ∧
    (s.me.wait = .none →
      exec .wfe s = .next (s.updMe fun v => { v with wait := .wfe s.cycle, stalled := true, touch := [] }))) ∧
  (∀ (s : State) (c : CoreId) (x t : Nat) (seen : List Nat), (s.ctx c x).wait = .align t seen → t + 64 ≤ s.cycle →
    exec (.alignTimeout c x) s = .next (s.updCtx c x fun v => { v with wait := .woken })) ∧
  (∀ (s : State) (c : CoreId) (x t : Nat), (s.ctx c x).wait = .wfe t → t + 4096 ≤ s.cycle →
    exec (.wfeTimeout c x) s = .next (s.updCtx c x fun v => { v with wait := .woken })) ∧
  (∀ (s : State) (a : SReg) (all : Bool), poppable a = true → s.me.status.getLsbD 1 = false →
    exec (.tlbi a all) s = .next (s.raiseInt 0x03 0 0)) ∧
  (∀ (s t : State) (a : SReg) (all : Bool) (x : W64), takes s [a] = some ([x], t) → s.me.status.getLsbD 1 = true →
    (storesBefore s = true ∨ s.myCore.unacked ≠ 0 → exec (.tlbi a all) s = .next (waits s)) ∧
    (storesBefore s = false → s.myCore.unacked = 0 →
    let stale := fun (e : TlbEntry) => e.part = s.myPart ∧
      (all = true ∨ (e.va < x.toNat / 65536 * 65536 + 65536 ∧ x.toNat / 65536 * 65536 < e.va + e.size))
    ∃ u, exec (.tlbi a all) s = .next (done u) ∧ u.me = t.me ∧ u.mem = s.mem ∧ u.banks = s.banks ∧
      (∀ c e, e ∈ (u.core c).tlb ↔ e ∈ (s.core c).tlb ∧ ¬stale e) ∧
      (∀ n e, e ∈ (u.cluster n).tlb ↔ e ∈ (s.cluster n).tlb ∧ ¬stale e) ∧
      (∀ d e, e ∈ (u.die d).tlb ↔ e ∈ (s.die d).tlb ∧ ¬stale e) ∧
      ∀ d w, w ∈ (u.die d).walks ↔
        w ∈ (s.die d).walks ∧ ¬(w.part = s.myPart ∧ (all = true ∨ w.va = x.toNat / 65536 * 65536))))

/-- R360, R362-R364, R437, R438: sealed contexts, for compartment 63 of a world outside a gang, an image on one page of host
memory. SEAL counts the save context's counter up, writes header, ciphertext and tag of the registers and bank bytes asked for
and nothing else; UNSEAL of an image that header, counter and tag accept gives them back; a refused one traps, cause 0x10, with
nothing taken. SLUICE sets a sluice and gives its old allowance. Another compartment takes a privilege trap. (The model's choices:
the image stands in host memory in the issuing step and is read back as plain memory, logs 8 and 17; a page of any permission
serves, log 22; a SEAL of a vector register in an uncorrectable row traps, log 36.) -/
def Obligations.SealedContexts : Prop :=
  (∀ (d a b : SReg) (i : SealImm) (n : Fin 15), head (.seal d a b i) = some 0x9100 ∧ head (.unseal d a b i) = some 0x9101 ∧
    head (.sluice d a b n) = some 0x9102) ∧
  (∀ (s : State) (d a b : SReg) (i : SealImm) (n : Fin 15), poppable a = true → poppable b = true → pushable d = true →
    s.me.compart ≠ 63 →
    exec (.seal d a b i) s = .next (s.raiseInt 0x03 0 0) ∧ exec (.unseal d a b i) s = .next (s.raiseInt 0x03 0 0) ∧
    exec (.sluice d a b n) s = .next (s.raiseInt 0x03 0 0)) ∧
  (∀ (s t : State) (d a b : SReg) (n : Fin 15) (x y : W64) (w : World), takes s [a, b] = some ([x, y], t) → room t d = true →
    s.me.compart = 63 → s.me.status.getLsbD 5 = false → s.myWorld = some w →
    let f := (x.extractLsb' 0 6).toNat
    let g := (x.extractLsb' 8 6).toNat
    (f = 0 ∨ f = 63 ∨ g = 0 ∨ g = 63 ∨ f = g → exec (.sluice d a b n) s = .next (s.raiseInt 0x0F 5 0)) ∧
    (f ≠ 0 → f ≠ 63 → g ≠ 0 → g ≠ 63 → f ≠ g →
      ∃ u, exec (.sluice d a b n) s = .next (result u d ((s.sluice (n.val + 1)).allow.zeroExtend 64)) ∧
        u.sluice (n.val + 1) = { frm := f, into := g, allow := y.extractLsb' 0 48 } ∧
        (∀ m, m ≠ n.val + 1 → u.sluice m = s.sluice m) ∧ u.cores = t.cores ∧ u.mem = s.mem)) ∧
  (∀ (s t : State) (d a b : SReg) (i : SealImm) (x : W64) (ys : List W64) (w : World) (pa : Nat) (k : BankId),
    takes s (if i.len.val = 0 then [a] else [a, b]) = some (x :: ys, t) → room t d = true →
    s.me.compart = 63 → s.me.status.getLsbD 5 = false → s.myWorld = some w → (∀ e ∈ s.me.v, e.2.length = 16) →
    alone s = true → (i.len.val ≠ 0 → sealRange s (ys.headD 0) i.len.val k) →
    let size := SealImm.bytes i
    let old := w.counter i.ctx.val
    (imageOn s x (80 + size) pa → released s = true → i.vr = true → (∃ r, r < 64 ∧ RegRow.v r ∈ s.me.bad) →
      exec (.seal d a b i) s = .next (s.raiseInt 0x0D 1 0)) ∧
    (imageOn s x (80 + size) pa → released s = true → State.carriedTo s s.cur 0 = true →
      (i.vr = true → ∀ r, r < 64 → RegRow.v r ∉ s.me.bad) →
      old ≠ BitVec.allOnes 64 → Memory.wf s.mem = true →
      let key := w.saveKey i.ctx.val
      let iv := sealNonce w.num i.ctx.val (old + 1)
      let pt := (if i.vr then (List.range 64).flatMap fun r => (List.range 16).flatMap fun l =>
          leBytes 4 (((s.me.v.find r).getD []).getD l 0).toNat else []) ++
        (List.range (1024 * i.len.val)).map fun o => bankByte s k (offset (ys.headD 0) 0 + o)
      let hdr := sealHeader w.num i (old + 1)
      ∃ u, exec (.seal d a b i) s = .next (result u d (old + 1)) ∧
        (List.range (80 + size)).map (fun o => cellGet u.mem (pa + o)) =
          hdr ++ gcmText key iv pt ++ gcmTag key iv hdr (gcmText key iv pt) ∧
        (∀ o, (o < pa ∨ pa + (80 + size) ≤ o) → cellGet u.mem o = cellGet s.mem o) ∧
        (u.myWorld.map fun v => v.counter i.ctx.val) = some (old + 1) ∧ u.banks = s.banks ∧ registersKept s u) ∧
    (imageOn s x (80 + size) pa → State.reaches s s.cur 0 = true → (i.len.val ≠ 0 → unprotected s k = true ∧ Memory.wf (s.bank k).bytes = true) →
      let img := s.memRead pa (80 + size)
      (sealAccepted w i img = false → exec (.unseal d a b i) s = .next (s.raiseInt 0x10 0 x)) ∧
      (sealAccepted w i img = true →
        let pt := gcmText (w.saveKey i.ctx.val) (sealNonce w.num i.ctx.val old) ((img.drop 64).take size)
        ∃ u, exec (.unseal d a b i) s = .next (result u d old) ∧
          (i.vr = true → ∀ r l, r.val < 64 → l < 16 → lane u s.cur s.curCtx r l = le4 (fun o => pt.getD o 0) (64 * r.val + 4 * l)) ∧
          (i.vr = false → u.me.v = s.me.v) ∧
          (i.len.val ≠ 0 → bankBytesAre s u k (offset (ys.headD 0) 0) (1024 * i.len.val)
            fun o => pt.getD ((if i.vr then 4096 else 0) + o) 0) ∧
          (i.len.val = 0 → u.banks = s.banks) ∧ u.mem = s.mem ∧ u.me.x = s.me.x ∧ u.me.p = s.me.p)))

/-! ## Traffic on the fabric, in memory and on the Coastline -/

/-- R186, R192, R243, R255, R271, R428, R440: a remote write that arrives at the port it names, with nothing in its way, changes the
bytes it carries and no other and is acknowledged; an empty slot (1) or the bank's tag (3) refuses it and nothing is written; it
waits behind arrivals that find the port full, and behind one for its slot that waits before whichever port; a speculative region
holds it at the port, and a held write is applied once nothing holds it. An acknowledgement lowers the
core's count of unacknowledged stores, and a refusal is recorded, the first with its INFO and address (R403).
R186, R248, R268, R270, R300, R420: a fabric load, LDACQ or atomic of 32 or 64 bits, CAS among them, takes effect at the bank
its address names, with nothing in the way: the load's value, or the atomic's old value with the new one written, sets out for the
context; a load of bytes that have still to
land waits at the port, bound to the bank; an empty slot is the trap 0x07. The outcome
then reaches the context that waits for it, which goes on with the value or takes the fault at its next turn. -/
def Obligations.FabricTrafficAtItsBank : Prop :=
  ((∀ (s : State) (w : FWrite) (rest : List FWrite), s.fwrites = w :: rest → (∀ r, w.kind ≠ .access r) →
     State.reaches s w.src (s.portDie w.src w.addr) = true →
     ∃ t, exec (.remoteWriteArrival 0) s = .next t ∧ t.fwrites = rest ∧ t.mem = s.mem ∧
       (¬slotClear s w.addr →
         t.acks = s.acks ∧ t.cores = s.cores ∧ (∃ b, (t.bank b).waiting = (s.bank b).waiting ++ [w]) ∧
           ∀ c o, bankByte t c o = bankByte s c o) ∧
       (slotClear s w.addr → bankOf s w.src w.addr = none →
         t.acks = s.acks ++ [{ core := w.src, ctx := w.ctx, addr := w.addr, refused := some 1 }] ∧ t.banks = s.banks ∧
           t.cores = s.cores) ∧
       (slotClear s w.addr → ∀ b, bankOf s w.src w.addr = some b →
         ((s.bank b).waiting = [] → firstAcquires s t w.src b) ∧
         ((s.bank b).waiting ≠ [] →
           t.acks = s.acks ∧ (t.bank b).waiting = (s.bank b).waiting ++ [w] ∧ (∀ c o, bankByte t c o = bankByte s c o)) ∧
         (¬tagOpen s w.comp b → (s.bank b).waiting = [] →
           t.acks = s.acks ++ [{ core := w.src, ctx := w.ctx, addr := w.addr, refused := some 3 }] ∧ t.banks = s.banks) ∧
         (tagOpen s w.comp b → calm s b = true → unprotected s b = true → Memory.wf (s.bank b).bytes = true →
           t.acks = s.acks ++ [{ core := w.src, ctx := w.ctx, addr := w.addr, refused := none }] ∧ writeDone s t b w) ∧
         (tagOpen s w.comp b → (s.bank b).shadow ≠ none → (s.bank b).wmFroz = false → (s.bank b).waiting = [] →
           (s.bank b).held.length < 64 →
           t.acks = s.acks ∧ (∃ o, (t.bank b).held = (s.bank b).held ++ [{ w with order := o }]) ∧
             ∀ c o, bankByte t c o = bankByte s c o))) ∧
   (∀ (s : State) (b : BankId) (w : FWrite) (rest : List FWrite), (s.bank b).held = w :: rest → (s.bank b).waiting = [] →
     (∀ r, w.kind ≠ .access r) →
     noCopies s b = true → (s.bank b).shadow = none → (s.bank b).bad = [] → unprotected s b = true →
     Memory.wf (s.bank b).bytes = true →
     ∃ t, exec (.heldWriteApply b 0) s = .next t ∧ (t.bank b).held = rest ∧ t.mem = s.mem ∧
       t.acks = s.acks ++ [{ core := w.src, ctx := w.ctx, addr := w.addr, refused := none }] ∧
       (∀ d, w.kind = .bytes d → ∀ c o, bankByte t c o =
         if c = b ∧ offsetOf w.addr ≤ o ∧ o < offsetOf w.addr + d.length then d.getD (o - offsetOf w.addr) 0
         else bankByte s c o)) ∧
   (∀ (s : State) (a : Ack) (rest : List Ack), s.acks = a :: rest → a.queued = none →
     ∃ t, exec (.storeAck 0 false) s = .next t ∧ t.acks = rest ∧ (t.core a.core).unacked = (s.core a.core).unacked - 1 ∧
       t.mem = s.mem ∧ t.banks = s.banks ∧
       (a.refused = none → (t.core a.core).refusals = (s.core a.core).refusals) ∧
       (∀ n, a.refused = some n → (t.core a.core).refusals.count = (s.core a.core).refusals.count + 1 ∧
         ((s.core a.core).refusals.count = 0 → (t.core a.core).refusals.info = n ∧ (t.core a.core).refusals.addr = a.addr)))) ∧
  ((∀ (s : State) (r : FReq) (rest : List FReq), s.freqs = r :: rest → r.bound = none → (∀ w ∈ s.fwrites, w.src ≠ r.core) →
     State.reaches s r.core (s.portDie r.core r.addr) = true → slotClear s r.addr →
     (bankOf s r.core r.addr = none →
       ∃ t, exec (.fabricAccessArrival 0) s = .next t ∧ t.freqs = rest ∧
         t.fresps = s.fresps ++ [{ req := r, value := 0, fault := some (0x07, 0) }] ∧ t.banks = s.banks ∧ t.mem = s.mem) ∧
     (∀ b n g, bankOf s r.core r.addr = some b → tagOpen s r.comp b → (s.bank b).waiting = [] → (s.bank b).wmFroz = false →
       r.kind = .load n g → (s.bank b).wmOpen = true →
       (∃ o, offsetOf r.addr ≤ o ∧ o < offsetOf r.addr + n ∧ (s.bank b).wmW ≤ o ∧ o < (s.bank b).wmEnd) →
       ∃ t, exec (.fabricAccessArrival 0) s = .next t ∧ t.freqs = rest ++ [{ r with bound := some b }] ∧ t.fresps = s.fresps ∧
         t.banks = s.banks ∧ t.mem = s.mem) ∧
     (∀ b, bankOf s r.core r.addr = some b → tagOpen s r.comp b → calm s b = true →
       (∀ n g v, (r.kind = .load n g ∨ g = false ∧ ∃ sc, r.kind = .acq n sc) →
         loadWord n g (bankByte s b) (offsetOf r.addr) = some v →
         ∃ t, exec (.fabricAccessArrival 0) s = .next t ∧ t.freqs = rest ∧
           t.fresps = s.fresps ++ [{ req := r, value := v, fault := none }] ∧ t.banks = s.banks ∧ t.mem = s.mem) ∧
       (∀ f n8 n4, unprotected s b = true → Memory.wf (s.bank b).bytes = true →
         let o8 := le8 (bankByte s b) (offsetOf r.addr)
         let o4 := le4 (bankByte s b) (offsetOf r.addr)
         ((∃ i v d x y, r.kind = .rmw i f v ∧ atomShape i = some (d, [x, y], f) ∧ n8 = atomValue i o8 v 0 ∧
             n4 = atomValue i o4 (v.extractLsb' 0 32) 0) ∨
           ∃ e c, r.kind = .cas f e c ∧ n8 = (if o8 = e then c else o8) ∧
             n4 = if o4 = e.extractLsb' 0 32 then c.extractLsb' 0 32 else o4) →
         ∃ t, exec (.fabricAccessArrival 0) s = .next t ∧ t.freqs = rest ∧
           t.fresps = s.fresps ++ [{ req := r, value := if f.w64 then o8 else o4.zeroExtend 64, fault := none }] ∧
           (f.w64 = true → bankBytesAre s t b (offsetOf r.addr) 8 (byteOf n8)) ∧
           (f.w64 = false → bankBytesAre s t b (offsetOf r.addr) 4 fun i => n4.extractLsb' (8 * i) 8) ∧ t.mem = s.mem))) ∧
   (∀ (s : State) (p : FResp) (rest : List FResp), s.fresps = p :: rest →
     (s.ctx p.req.core p.req.ctx).fid = p.req.fid → (s.ctx p.req.core p.req.ctx).wait = .fabric p.req.id →
     ∃ t, exec (.fabricLoadReturn 0) s = .next t ∧ t.fresps = rest ∧
       (p.fault = none → (t.ctx p.req.core p.req.ctx).wait = .value p.value) ∧
       (∀ code info, p.fault = some (code, info) →
         (t.ctx p.req.core p.req.ctx).wait = .failed code info p.req.addr) ∧
       (t.ctx p.req.core p.req.ctx).x = (s.ctx p.req.core p.req.ctx).x ∧ t.banks = s.banks ∧ t.mem = s.mem))

/-- R234, R236, R238-R241, R249, R254, R270: what moves between caches, memory and host keeps the bytes at their execution point. A
miss is served at its slice: the line stands in the array with its request's use count, a load has its value, an atomic of 64 bits
its old value with the new one written, and a load's or PFU's line stands in L1. A write-back changes no byte; a line lost at its
write-back reads as HBM has it (a line of no partition here); an update-only
line that goes home is merged and gone. A walk whose tables' lines stand in their slices puts its translation into the core's, the
cluster's and the die's TLBs, or leaves its fault with the context that asked; one whose lines do not asks for them and stays. A
host read gives the waiting context its value. The model's choice: a walk ends in one step, its lines once read (log 13), its entry goes
to all three TLBs at once (log 9), and a host read's data are what host memory holds from then on (log 17). -/
def Obligations.CachesAndWalks : Prop :=
  (∀ (s : State) (c : CoreId) (u : Update) (line : Nat), u.addr / 64 = line → (s.core c).updatesOn line = [u] →
    (∀ d, d ≠ c → (s.core d).updatesOn line = []) → goodHbm s u.addr (if u.w64 then 8 else 4) = true → Memory.wf s.mem = true →
    s.recallable line = true → s.lineFree line = true →
    ∃ t, exec (.redMerge line) s = .next t ∧ (∀ d, (t.core d).updatesOn line = []) ∧ t.banks = s.banks ∧
      (u.w64 = true → ∀ v, redValue u.op (le8 s.memByte u.addr) u.val = some v → memBytesAre s t u.addr 8 (byteOf v)) ∧
      (u.w64 = false → ∀ v, redValue u.op (le4 s.memByte u.addr) (u.val.extractLsb' 0 32) = some v →
        memBytesAre s t u.addr 4 fun i => v.extractLsb' (8 * i) 8)) ∧
  (∀ (s : State) (d : Nat) (m : Miss) (r : LineReq) (rest : List Miss), (s.die d).fenced = false → (s.die d).misses = m :: rest →
    (s.die d).overflow = [] → homeDie m.line = d → m.reqs = [r] → r.pa / 64 = m.line → s.l2Find m.line = none →
    s.servable m = true → plainHbm s (64 * m.line) 64 →
    ∃ t, exec (.l2MissFill d m.rank) s = .next t ∧ (t.die d).misses = rest ∧ Memory.wf t.mem = true ∧ t.banks = s.banks ∧
      (∃ l, t.l2Find m.line = some l ∧ l.uc = r.uc ∧ l.dead = r.dead) ∧
      (r.want = .look → memKept s t ∧ t.cores = s.cores) ∧
      (∀ c x, r.who = .pipe c x →
        (r.want = .fill → memKept s t ∧ ∀ y, t.ctx c y = s.ctx c y) ∧
        ((r.want = .fill ∨ ∃ n g, r.want = .value (.load n g) false ∧ r.pa % 64 + n ≤ 64) → (s.core c).l1Find m.line = none →
          ∃ l, (t.core c).l1Find m.line = some l ∧ l.uc = r.uc ∧ ∀ o, o < 64 → lineByte l o = s.memByte (64 * m.line + o)) ∧
        ((s.ctx c x).fid = r.fid → (s.ctx c x).wait = .line r.id →
          (∀ n g k v, r.want = .value (.load n g) k → r.pa % 64 + n ≤ 64 → loadWord n g s.memByte r.pa = some v →
            memKept s t ∧ (t.ctx c x).wait = .value v ∧ (t.ctx c x).x = (s.ctx c x).x) ∧
          (∀ i f v k dd a b, r.want = .value (.rmw i f v) k → atomShape i = some (dd, [a, b], f) → f.w64 = true →
            r.pa % 64 + 8 ≤ 64 →
            (t.ctx c x).wait = .value (le8 s.memByte r.pa) ∧
              memBytesAre s t r.pa 8 (byteOf (atomValue i (le8 s.memByte r.pa) v 0)))))) ∧
  (∀ (s : State) (line : Nat) (l : L2Line), (s.die (homeDie line)).fenced = false → s.l2Find line = some l → l.dirty ≠ [] →
    Memory.wf s.mem = true →
    (∃ t, exec (.l2Writeback line false) s = .next t ∧ memKept s t ∧ (t.l2Find line).map (·.dirty) = some [] ∧
      (∀ a, a / 64 = line → cellGet t.mem a = s.memByte a) ∧ (∀ a, a / 64 ≠ line → cellGet t.mem a = cellGet s.mem a) ∧
      t.banks = s.banks ∧ t.cores = s.cores) ∧
    (s.lineOwner line = none →
      ∃ t, exec (.l2Writeback line true) s = .next t ∧ t.l2Find line = none ∧ t.mem = s.mem ∧
        ∀ a, t.memByte a = if a / 64 = line then cellGet s.mem a else s.memByte a)) ∧
  (∀ (s : State) (d : Nat) (w : Walk) (rest : List Walk) (u : State), (s.die d).walks = w :: rest → (s.die d).fenced = false →
    let walked := walkBoth (s.viaOf w.core) (s.part w.part).s2root w.root w.part w.va (s.updDie d fun k => { k with walks := rest })
    ((u.missed = s.missed →
      (∀ e, walked = .ok e u → (∀ c ea uc dead sv comp, w.who ≠ .pfu c ea uc dead sv comp) →
        ∃ t, exec (.tableWalk d 0) s = .next t ∧ (t.die d).walks = rest ∧ t.banks = s.banks ∧
          e ∈ (t.core w.core).tlb ∧ e ∈ (t.cluster w.core.siteId).tlb ∧ e ∈ (t.die w.core.die).tlb ∧
            ∀ c y, t.ctx c y = s.ctx c y) ∧
      (∀ f c y, walked = .error f u → w.who = .pipe c y → (s.ctx c y).fid = w.fid →
        ∃ t, exec (.tableWalk d 0) s = .next t ∧ (t.die d).walks = rest ∧ t.banks = s.banks ∧
          (t.ctx c y).walkFail = some f ∧ (t.core w.core).tlb = (s.core w.core).tlb)) ∧
    (∀ ls, u.missed = ls ++ s.missed → ls ≠ [] → (∀ c ea uc dead sv comp, w.who ≠ .pfu c ea uc dead sv comp) →
      ((∃ e, walked = .ok e u) ∨ ∃ f, walked = .error f u) →
      ∃ t, exec (.tableWalk d 0) s = .next t ∧ (t.die d).walks = w :: rest ∧ t.cores = s.cores ∧ t.banks = s.banks ∧
        (Memory.wf s.mem = true → memKept s t) ∧
        ∀ l ∈ ls, s.l2Ready l = false → isHbm (64 * l) = true →
          ∃ m ∈ (t.die (homeDie l)).misses ++ (t.die (homeDie l)).overflow, m.line = l))) ∧
  (∀ (s : State) (h : HReq) (rest : List HReq) (n : Nat) (g : Bool) (data : List Byte) (v : W64), s.hreqs = h :: rest →
    h.kind = .load n g → h.size = n → data.length = n → 2 ^ 51 ≤ h.pa → Memory.wf s.mem = true →
    loadWord n g (fun i => data.getD i 0) 0 = some v → (s.ctx h.core h.ctx).fid = h.fid →
    (s.ctx h.core h.ctx).wait = .host h.id →
    ∃ t, exec (.hostReadCompletion 0 data) s = .next t ∧ t.hreqs = rest ∧ (t.ctx h.core h.ctx).wait = .value v ∧
      (∀ a, cellGet t.mem a = if h.pa ≤ a ∧ a < h.pa + n then data.getD (a - h.pa) 0 else cellGet s.mem a) ∧
      t.banks = s.banks)

/-- R246, R335-R337, R430: a write that comes in on a port in training, of whole bytes or of one nibble, takes effect where the
partition's roster and stage 2 allow it, here on one page of HBM with good words and its lines in reach, and changes nothing where they
do not; a read gives the bytes at their execution point, or nothing; each is answered either way. A link goes out of training,
its port fails after 1 ms, and both end when training returns. The model's choice (log 31): one turn drops the link, a later one
fails the port; the roster and page checks it takes; the incoming read and the nibble as turns of their own. -/
def Obligations.PeerPorts : Prop :=
  (∀ (s : State) (port m q p ia : Nat) (data : List Byte) (rel : Bool), s.powered = true → (s.port port).up = true →
    ((s.part p).admits m q true = false →
      exec (.peerIngressWrite port m q p ia data rel) s = .next { s with outside := s.outside ++ [.peerAck port false] }) ∧
    ((s.part p).admits m q false = false →
      ∀ n, turnExec (.peerRead port m q p ia n) s = .next { s with outside := s.outside ++ [.peerData port none] }) ∧
    (∀ pa u, (s.part p).admits m q true = true → State.peerPage p port true ia s = (some pa, u) →
      (0 < data.length → ia % 65536 + data.length ≤ 65536 → plainHbm s pa data.length →
        (s.peerWriteIn port m q p ia data).missed = s.missed →
        ∃ t, exec (.peerIngressWrite port m q p ia data rel) s = .next t ∧ memBytesAre s t pa data.length (fun i => data.getD i 0) ∧
          t.outside = s.outside ++ [.peerAck port true] ∧ t.cores = s.cores ∧ t.banks = s.banks) ∧
      (∀ v hi, plainHbm s pa 1 → (s.peerNibbleIn port m q p ia v hi).missed = s.missed →
        ∃ t, turnExec (.peerNibble port m q p ia v hi) s = .next t ∧ memBytesAre s t pa 1 (fun _ => nibbleOf (s.memByte pa) v hi) ∧
          t.outside = s.outside ++ [.peerAck port true] ∧ t.cores = s.cores ∧ t.banks = s.banks)) ∧
    (∀ pa u n, (s.part p).admits m q false = true → State.peerPage p port false ia s = (some pa, u) → 0 < n →
      ia % 65536 + n ≤ 65536 → plainHbm s pa n → (s.peerReadIn port m q p ia n).missed = s.missed →
      ∃ t, turnExec (.peerRead port m q p ia n) s = .next t ∧ memKept s t ∧ t.cores = s.cores ∧ t.banks = s.banks ∧
        t.outside = s.outside ++ [.peerData port (some ((List.range n).map fun i => s.memByte (pa + i)))])) ∧
  (∀ (s : State) (port : Nat), s.powered = true → (s.port port).up = true →
    ∃ t, exec (.peerLinkDown port) s = .next t ∧ (t.port port).up = false ∧ (t.port port).down = some s.rtime ∧
      t.mem = s.mem ∧ t.cores = s.cores) ∧
  (∀ (s : State) (port since : Nat), (s.port port).up = false → (s.port port).refuse = false →
    (s.port port).down = some since → since + 1000000 ≤ s.rtime →
    ∃ t, exec (.peerLinkDown port) s = .next t ∧ (t.port port).refuse = true ∧
      (∀ a ∈ t.acks, a.peer = some port → a.queued = none) ∧ t.mem = s.mem ∧ t.banks = s.banks) ∧
  (∀ (s : State) (port : Nat), (s.port port).up = false →
    ∃ t, exec (.linkTrainingReturns port) s = .next t ∧ (t.port port).up = true ∧ (t.port port).refuse = false ∧
      (∀ a ∈ t.acks, a.peer = some port → a.queued = none) ∧ t.mem = s.mem ∧ t.cores = s.cores)

/-! ## The host interface (R315, R325-R334, R365, R371, R417, R418) -/

/-- R315, R325, R327-R329, R331, R332, R365, R371, R417: the registers that the host writes. QCTL takes IRQ, VEC and CTX at once
and LOG2N from or to 0 alone, enabling from an empty ring; WBASE, FNERR's clearing, QBASE, PRBASE, PRCMD and the mailbox
arguments take their writes; an absent function takes none. A notify moves the tail unless it lies half the numbers ahead, when it is
ignored; a sealed one waits until COUNT has reached its number, and after 1 ms is dropped with FNERR code 3. The model's choice: a
LOG2N above 16 names no ring and is not taken (log 19); a write to PRCMD replaces a command that still waits (log 27); a sealed
notify's tail is looked at when it takes effect (log 28).
R329, R330, R418: BAR2. A write raises COUNT by its payload, and its bytes reach what WBASE places there, here on one page of
the physical function's window with good words that their slices take and give; a read gives the bytes at their execution points; one that
reaches nothing is told to FNERR, code 4, and a read of it completes with no data (log 19). -/
def Obligations.HostRegistersAndBar2 : Prop :=
  ((∀ (s : State) (f q : Nat) (v : W64), present s f → q < 64 →
     ∃ t, exec (.qctlWrite f q v) s = .next t ∧ queuesKept s t f q ∧ t.mem = s.mem ∧ t.cores = s.cores ∧
       exec (.registerWrite f (0x808 + 16 * q) v) s = .next t ∧
       (let k := s.queue f q
        let n := (v.extractLsb' 0 5).toNat
        let u := t.queue f q
        u.irq = v.getLsbD 25 ∧ u.vec = (v.extractLsb' 18 7).toNat ∧ u.ctx = (v.extractLsb' 16 2).toNat ∧ u.qbase = k.qbase ∧
        (n = 0 → u.log2n = 0 ∧ u.head = k.head ∧ u.tail = k.tail) ∧
        (16 < n → k.log2n = 0 → u.log2n = 0 ∧ u.head = k.head ∧ u.tail = k.tail) ∧
        (n ≠ 0 → n ≤ 16 → k.log2n = 0 → u.log2n = n ∧ u.head = 0 ∧ u.tail = 0) ∧
        (n ≠ 0 → k.log2n ≠ 0 → u.log2n = k.log2n ∧ u.head = k.head ∧ u.tail = k.tail))) ∧
   (∀ (s : State) (f off : Nat) (v : W64), ¬present s f → exec (.registerWrite f off v) s = .next s) ∧
   (∀ (s : State) (f q : Nat) (v : W64), present s f → q < 64 →
     (exec (.registerWrite f 0x018 v) s = .next (s.updFunc f fun k => { k with wbase := 0#12 ++ v.extractLsb' 36 16 ++ 0#36 })) ∧
     (v.getLsbD 0 = true →
       exec (.registerWrite f 0x020 v) s = .next (s.updFunc f fun k => { k with fnerr := k.fnerr &&& ~~~1 })) ∧
     ((s.queue f q).log2n = 0 →
       exec (.registerWrite f (0x800 + 16 * q) v) s = .next
         (s.updQueue f q fun k => { k with qbase := 0#7 ++ v.extractLsb' 8 49 ++ 0#8 })) ∧
     (exec (.registerWrite f (0x40000 + 0x1000 * q) v) s = exec (.plainNotify f q v) s) ∧
     (exec (.registerWrite f (0x40008 + 0x1000 * q) v) s = exec (.sealedNotify f q v) s)) ∧
   (∀ (s : State) (v : W64), present s 0 →
     exec (.registerWrite 0 0x80000 v) s = .next { s with prbase := 0#12 ++ v.extractLsb' 10 42 ++ 0#10 } ∧
     exec (.registerWrite 0 0x80008 v) s = .next { s with prcmd := 0#54 ++ v.extractLsb' 8 2 ++ 0#1 ++ v.extractLsb' 0 7 } ∧
     (∀ i : Fin 6, exec (.registerWrite 0 (0x81010 + 8 * i.val) v) s = .next
       { s with lantern := { s.lantern with args := s.lantern.args.put i.val v } }) ∧
     (s.lantern.cmd = none → s.lantern.started = true → v.extractLsb' 0 8 = 0x10 →
       exec (.registerWrite 0 0x81000 v) s = .next
         { s with lantern := { s.lantern with cmd := some 0x10, cargs := (List.range 6).map fun i => s.lantern.args.getD i 0 } })) ∧
   (∀ (s : State) (f q : Nat) (v : W64), present s f → q < 64 →
     exec (.plainNotify f q v) s = .next (s.updQueue f q fun k => notified k (v.extractLsb' 0 32)) ∧
     (reached s f (v.extractLsb' 32 32) = true →
       exec (.sealedNotify f q v) s = .next (s.updQueue f q fun k => notified k (v.extractLsb' 0 32))) ∧
     (reached s f (v.extractLsb' 32 32) = false →
       exec (.sealedNotify f q v) s = .next
         (s.updQueue f q fun k => { k with sealed := some (v.extractLsb' 0 32, v.extractLsb' 32 32, s.rtime) }))) ∧
   (∀ (s : State) (f q since : Nat) (tail seq : BitVec 32), (s.queue f q).sealed = some (tail, seq, since) →
     (reached s f seq = true →
       exec (.sealedNotifyEffect f q) s = .next
         (s.updQueue f q fun k => { k with tail := if (tail - k.tail).toNat < 2 ^ 31 then tail else k.tail, sealed := none })) ∧
     (reached s f seq = false → since + 1000000 ≤ s.rtime →
       ∃ t, exec (.notifyTimeout f q) s = .next t ∧ (t.queue f q).sealed = none ∧ (t.queue f q).tail = (s.queue f q).tail ∧
         errorTold s t f 3 q tail.toNat ∧ queuesKept s t f q ∧ t.mem = s.mem ∧ t.cores = s.cores))) ∧
  (∀ (s : State) (off : Nat) (data : List Byte), present s 0 → 0 < data.length → off + data.length ≤ 2 ^ 36 →
     off % 65536 + data.length ≤ 65536 →
     let pa := ((s.func 0).wbase.extractLsb' 36 16).toNat * 2 ^ 36 + off
     (plainHbm s pa data.length → isDeviceTop pa = false →
       ((s.bar2Write 0 off data).missed = s.missed → ∃ t, exec (.bar2Write 0 off data) s = .next t ∧ memBytesAre s t pa data.length (fun i => data.getD i 0) ∧
         (t.func 0).count = (s.func 0).count + BitVec.ofNat 32 data.length ∧ t.cores = s.cores ∧ t.banks = s.banks) ∧
       ((s.bar2Read 0 off data.length).missed = s.missed →
        ∃ t, exec (.bar2Read 0 off data.length) s = .next t ∧ memKept s t ∧ t.cores = s.cores ∧ t.banks = s.banks ∧ t.funcs = s.funcs ∧
         t.outside = s.outside ++ [.readData 0 off (some ((List.range data.length).map fun i => s.memByte (pa + i)))])) ∧
     (2 ^ 40 ≤ pa → pa < 2 ^ 51 →
       (∃ t, exec (.bar2Write 0 off data) s = .next t ∧ errorTold s t 0 4 0 (off / 16) ∧ memKept s t ∧ t.cores = s.cores) ∧
       ∃ t, exec (.bar2Read 0 off data.length) s = .next t ∧ errorTold s t 0 4 0 (off / 16) ∧ memKept s t ∧
         t.outside.getLast? = some (.readData 0 off none)))

/-! ## Lantern (R351, R357-R371, R386, R429) -/

/-- R18, R365, R367-R371, R386: POWER_UP and POWER_OFF; LOAD of a verified image behind the loader's; START once the seven
other images are there; the power states, the allowance and FAULTWIN within their limits, else RESULT 3 with nothing changed;
CHKPT asks for a checkpoint of the running context and stays busy; a command from 0x10 on before START is RESULT 5; the state
summary is written and GO cleared. An image verifies as RSASSA-PSS does over the SHA-256 of its header and body. The model's
choice: RESULT 5 of a second START, the order of LOAD's checks and RESULT 3 of arguments out of range (log 26); the ROM key, its
salt length and the count of the keys drawn (log 10). -/
def Obligations.LanternBringUpAndPower : Prop :=
  (∀ (s : State), s.powered = false →
    ∃ t, exec .powerUp s = .next t ∧ t.powered = true ∧ t.cores = [] ∧ t.banks = [] ∧ t.clusters = [] ∧ t.parts = [] ∧
      t.dies = [] ∧ t.lantern = { bootKey := s.lantern.keys, keys := s.lantern.keys + 17 } ∧ t.cycle = 0 ∧ t.rtime = 0 ∧ t.master = none ∧ t.mem = s.mem) ∧
  (∀ (s : State), s.powered = true → Memory.wf s.mem = true →
    ∃ t, exec .powerOff s = .next t ∧ t.powered = false ∧ t.cores = [] ∧ t.banks = [] ∧ t.lantern = { keys := s.lantern.keys } ∧
      ∀ a, cellGet t.mem a = if 2 ^ 51 ≤ a then cellGet s.mem a else 0) ∧
  (∀ (s : State), running s 0x01 → (s.lantern.started = true → exec .load s = .next (answered s 5)) ∧
    (∀ b, s.lantern.started = false → (argument s 1).toNat ≤ 448 + 2 ^ 24 →
      b = s.memRead (2 ^ 51 + (argument s 0).toNat % 2 ^ 51) (argument s 1).toNat →
      (imageOk b = false → exec .load s = .next (answered s 2)) ∧
      (imageOk b = true → (fieldAt b 4 2 = 1 ↔ s.lantern.images.any (fun i => i.target = 1) = false) →
        let verified := pssVerify Config.romKey.1 Config.romKey.2 Config.romSalt (sha256 (b.take 64 ++ b.drop 448)) ((b.drop 64).take 384)
        (verified = false → exec .load s = .next (answered s 1)) ∧
        (verified = true → exec .load s = .next
          (answered { s with lantern := { s.lantern with images := s.lantern.images.filter (fun i => i.target ≠ fieldAt b 4 2) ++
            [{ target := fieldAt b 4 2, version := fieldAt b 8 4, bytes := b }] } } 0))))) ∧
  (∀ (s : State), running s 0x02 →
    (s.lantern.started = true → exec .start s = .next (answered s 5)) ∧
    (s.lantern.started = false →
      ((∃ i, i < 7 ∧ s.lantern.images.any (fun j => j.target = i + 2) = false) → exec .start s = .next (answered s 3)) ∧
      ((∀ i, i < 7 → s.lantern.images.any (fun j => j.target = i + 2) = true) →
        ∃ t, exec .start s = .next t ∧ t.lantern.started = true ∧ t.lantern.result = 0 ∧ t.lantern.cmd = none ∧
          (∀ d, d < 8 → (s.die d).fenced = false → (∀ e, e < d → (s.die e).fenced = true) → t.master = some d) ∧
          t.mem = s.mem ∧ t.cores = s.cores))) ∧
  (∀ (s : State) (i : Instr) (code : Nat), s.powered = true → s.lantern.started = false → s.lantern.cmd = some code →
    ((i = .create ∧ code = 0x10) ∨ (i = .addCommand ∧ code = 0x11) ∨ (i = .assign ∧ code = 0x12) ∨ (i = .importCmd ∧ code = 0x13) ∨
      (i = .depart ∧ code = 0x14) ∨ (i = .evidence ∧ code = 0x18) ∨ (i = .faultwin ∧ code = 0x21)) →
    exec i s = .next (answered s 5)) ∧
  (∀ (s : State), powers s 1 →
    let d := (argument s 1).toNat
    let n := (argument s 2).toNat
    exec .clockStep s = .next (if d < 8 ∧ n < 4 then answered (s.updDie d fun k => { k with clock := n }) 0 else answered s 3)) ∧
  (∀ (s : State), powers s 2 →
    let n : SiteId := ⟨(argument s 1).toNat / 132, (argument s 1).toNat % 132⟩
    ((argument s 1).toNat < 1056 → argument s 2 = 1 → (∀ q ∈ s.spans, q.saved = false → n ∉ q.sites) →
      (∀ l ∈ s.launches, l.merge = some n → s.mergeSaved l = true) →
      (∀ e ∈ s.parts, e.2.run = .running → n ∉ e.2.clusters) →
      exec .clusterGate s = .next (answered (s.updCluster n fun k => { k with gated := true }) 0)) ∧
    ((argument s 1).toNat < 1056 → argument s 2 = 0 → (s.cluster n).gated = false → exec .clusterGate s = .next (answered s 0)) ∧
    ((argument s 1).toNat < 1056 → argument s 2 = 0 → (s.cluster n).gated = true →
      ∃ t, exec .clusterGate s = .next t ∧ (t.cluster n).gated = false ∧ (∀ i o, i < 32 → bankByte t ⟨n.die, n.site, i⟩ o = 0) ∧
        t.lantern.result = 0 ∧ t.lantern.cmd = none ∧ t.mem = s.mem) ∧
    (1056 ≤ (argument s 1).toNat ∨ (argument s 2 = 1 ∧ ∃ q ∈ s.spans, q.saved = false ∧ n ∈ q.sites) → exec .clusterGate s = .next (answered s 3))) ∧
  (∀ (s : State), powers s 3 →
    let st := (argument s 1).toNat
    (st < 16 → argument s 2 = 0 → exec .hbmSelfRefresh s = .next
      (answered (s.updDie (st / 2) fun k => if st % 2 = 1 then { k with refresh1 := false } else { k with refresh0 := false }) 0)) ∧
    (st < 16 → argument s 2 = 1 → (∀ e ∈ s.parts, e.2.run ≠ .running) → (s.die (st / 2)).l2 = [] →
      exec .hbmSelfRefresh s = .next
        (answered (s.updDie (st / 2) fun k => if st % 2 = 1 then { k with refresh1 := true } else { k with refresh0 := true }) 0)) ∧
    (16 ≤ st → exec .hbmSelfRefresh s = .next (answered s 3))) ∧
  (∀ (s : State), powers s 4 →
    let n := (argument s 1).toNat / 32
    let g := (argument s 1).toNat % 32
    (∀ l, n < 10 → (argument s 2).toNat < 2 → (s.strait n).lanes[g]? = some l → l.owner = none →
      exec .straitIdle s = .next
        (answered (s.updStrait n fun t => { t with lanes := t.lanes.modify g fun l => { l with idle := decide (argument s 2 = 1) } }) 0)) ∧
    (∀ l p, (s.strait n).lanes[g]? = some l → l.owner = some p → exec .straitIdle s = .next (answered s 3))) ∧
  (∀ (s : State), powers s 5 →
    let d := (argument s 1).toNat
    let w := (argument s 2).toNat
    let sum := ((List.range 8).map fun e => if e = d then w else (s.die e).allow.toNat).sum
    exec .allowance s = .next
      (if d < 8 ∧ 50 ≤ w ∧ w ≤ 1000 ∧ sum ≤ 4000 then answered (s.updDie d fun k => { k with allow := BitVec.ofNat 16 w }) 0
       else answered s 3)) ∧
  (∀ (s : State), running s 0x21 →
    let t := (argument s 0).toNat
    let n := (argument s 1).toNat
    exec .faultwin s = .next
      (if 1 ≤ t ∧ t ≤ 10000000 ∧ 1 ≤ n ∧ n ≤ 65535 then
         answered { s with lantern := { s.lantern with window := t, thresh := n } } 0
       else answered s 3)) ∧
  (∀ (s : State), running s 0x22 → (s.part (argument s 0).toNat).pre = none →
    let p := (argument s 0).toNat
    (p < 128 → (s.part p).ctx ≠ none →
      exec .chkpt s = .next (s.updPart p fun k => { k with pre := some { mode := .checkpoint, why := .chkpt } })) ∧
    (128 ≤ p ∨ (s.part p).ctx = none → exec .chkpt s = .next (answered s 3))) ∧
  (∀ (s : State), s.powered = true → s.lantern.sumGo = true → Memory.wf s.mem = true →
    ∃ t, exec .stateSummary s = .next t ∧ t.lantern.sumGo = false ∧
      (let a := 2 ^ 51 + s.lantern.sumAddr.toNat % 2 ^ 51
       le4 (cellGet t.mem) a = 0x53535A51 ∧ le4 (cellGet t.mem) (a + 24) = 64 ∧ le8 (cellGet t.mem) (a + 8) = BitVec.ofNat 64 s.rtime ∧
       le8 (cellGet t.mem) (a + 16) = BitVec.ofNat 64 s.rtime ∧
       (∀ b, (b < a ∨ a + 2 ^ 20 ≤ b) → cellGet t.mem b = cellGet s.mem b)) ∧ t.cores = s.cores ∧ t.banks = s.banks)

/-- R351, R353, R357, R358, R361, R363, R366, R429, R439: the world commands. CREATE makes a partition's world with compartment 63
alone in use, ADD brings a compartment into use, ASSIGN gives it zeroed pages of HBM, IMPORT decrypts a block into a page it
owns, DEPART takes a compartment out of use, the world with 63, EVIDENCE signs what stands; a command that finds its
conditions broken answers 3 with nothing changed but the traces of the reads it has made. The model's choice: the order of IMPORT's
checks, an owner that does not fit before a length (log 26); the keys, as the pairs of primes that Lantern draws (log 10). -/
def Obligations.WorldCommands : Prop :=
  (∀ (s : State), running s 0x10 → worldForm s 0 0 2 →
    ((∃ w ∈ s.lantern.worlds, w.part = (argument s 0).toNat ∨ w.num = worldNo s) → exec .create s = .next (answered s 3)) ∧
    ((∀ w ∈ s.lantern.worlds, w.part ≠ (argument s 0).toNat ∧ w.num ≠ worldNo s) →
      ∃ t k m, exec .create s = .next t ∧ t.lantern.result = 0 ∧ t.lantern.cmd = none ∧
        t.lantern.worlds = s.lantern.worlds ++
          [{ num := worldNo s, part := (argument s 0).toNat, comps := [(63, { meas := List.replicate 32 0, key := m })], key := k }] ∧
        t.lantern.reply.length = 388 ∧ t.lantern.reply.take 384 = beBytes 384 ((Config.primes k).1 * (Config.primes k).2) ∧ t.lantern.reply.drop 384 = [1, 0, 1, 0] ∧ t.mem = s.mem ∧ t.cores = s.cores)) ∧
  (∀ (s : State), running s 0x11 → worldForm s 1 62 2 →
    (inUse s 63 → ¬inUse s (compNo s) →
      ∃ t, exec .addCommand s = .next t ∧ t.lantern.result = 0 ∧ t.lantern.cmd = none ∧
        ((t.lantern.worlds.find? fun w => w.part = (argument s 0).toNat && w.num = worldNo s).bind fun w =>
          (w.comps.find (compNo s)).map (·.meas)) = some (List.replicate 32 0) ∧ t.mem = s.mem ∧ t.cores = s.cores) ∧
    (inUse s (compNo s) → exec .addCommand s = .next (answered s 3))) ∧
  (∀ (s u : State) (pa : Nat), running s 0x12 → worldForm s 1 63 5 → inUse s (compNo s) →
    (argument s 2).toNat % 65536 = 0 → argument s 3 = 65536 → (argument s 4).extractLsb' 1 63 = 0 →
    s.partRuns (argument s 0).toNat = false → pa % 65536 = 0 →
    State.worldPage (argument s 0).toNat s (argument s 2).toNat = (some pa, u) → u.missed = s.missed →
    (256 ≤ u.ownerEntry pa → exec .assign s = .next (answered u 3)) ∧
    (u.ownerEntry pa < 256 →
      ∃ t, exec .assign s = .next t ∧ t.lantern.result = 0 ∧ t.lantern.cmd = none ∧
        t.ownerEntry pa = worldNo s * 256 + compNo s ∧ (∀ a, a / 65536 = pa / 65536 → t.memByte a = 0) ∧
        t.banks = s.banks)) ∧
  (∀ (s u : State) (w : World) (pa : Nat), running s 0x13 → worldForm s 1 63 5 →
    (s.lantern.worlds.find? fun w => w.part = (argument s 0).toNat && w.num = worldNo s) = some w →
    w.comps.find (compNo s) ≠ none → (argument s 2).toNat % 64 = 0 → (argument s 4).toNat % 65536 = 0 →
    State.worldPage (argument s 0).toNat s (argument s 4).toNat = (some pa, u) → u.missed = s.missed → pa % 65536 = 0 →
    Memory.wf u.mem = true →
    let ia := (argument s 4).toNat
    let len := (argument s 3).toNat
    let b := u.memRead (2 ^ 51 + (argument s 2).toNat % 2 ^ 51) len
    let aad := leBytes 2 (worldNo s) ++ leBytes 1 (compNo s) ++ leBytes 8 ia
    (u.ownerEntry pa ≠ worldNo s * 256 + compNo s → exec .importCmd s = .next (answered u 3)) ∧
    (u.ownerEntry pa = worldNo s * 256 + compNo s → 0x1A1 ≤ len → len ≤ 0x1A0 + 65536 → len = 0x1A0 + fieldAt b 0x18C 4 →
      (importPlain w.key aad b = none → exec .importCmd s = .next (answered u 1)) ∧
      (∀ pt, importPlain w.key aad b = some pt → pt.length ≤ 65536 → (s.die (homeDie (pa / 64))).fenced = false →
        s.import.2.missed = s.missed →
        ∃ t, exec .importCmd s = .next t ∧ t.lantern.result = 0 ∧ t.lantern.cmd = none ∧
          memBytesAre u t pa pt.length (fun i => pt.getD i 0) ∧ t.banks = s.banks ∧ t.cores = u.cores))) ∧
  (∀ (s : State), running s 0x14 → worldForm s 1 63 2 → inUse s (compNo s) →
    (s.departRuns (argument s 0).toNat (compNo s) = true ∨ s.departCopies (argument s 0).toNat (compNo s) = true →
      exec .depart s = .next (answered s 3)) ∧
    (s.departRuns (argument s 0).toNat (compNo s) = false → s.departCopies (argument s 0).toNat (compNo s) = false →
      ∃ t, exec .depart s = .next t ∧ t.lantern.result = 0 ∧ t.lantern.cmd = none ∧
        (compNo s = 63 → ∀ w ∈ t.lantern.worlds, ¬(w.part = (argument s 0).toNat ∧ w.num = worldNo s)) ∧
        (compNo s ≠ 63 → ∀ w ∈ t.lantern.worlds, w.part = (argument s 0).toNat → w.num = worldNo s →
          w.comps.find (compNo s) = none) ∧
        (∀ c ∈ ((s.part (argument s 0).toNat).clusters.flatMap (·.cores)), ∀ l ∈ (t.core c).l1,
          departs (compNo s) l.comp = false))) ∧
  (∀ (s : State) (w : World), running s 0x18 → (s.lantern.worlds.find? fun w => w.num = (argument s 0).toNat) = some w →
    let c := (argument s 1).toNat
    let u := (s.compsRunning w.part).2
    u.missed = s.missed →
    ((c ≠ 0xFF ∧ w.comps.find c = none) → exec .evidence s = .next (answered u 3)) ∧
    (c = 0xFF ∨ w.comps.find c ≠ none →
      ∃ t st, exec .evidence s = .next t ∧ t.lantern.result = 0 ∧ t.lantern.cmd = none ∧
        t.lantern.reply.take 8 = leBytes 4 1 ++ leBytes 2 w.num ++ leBytes 1 c ++ leBytes 1 st ∧
        evidenceIs s w.part c (s.compsRunning w.part).1 st ∧
        (t.lantern.reply.drop 8).take 32 = (List.range 4).flatMap (fun i => leBytes 8 (argument s (2 + i)).toNat) ∧
        t.lantern.worlds = s.lantern.worlds ∧ t.mem = u.mem ∧ t.cores = u.cores ∧ t.banks = s.banks))

/-! ## Partitions and the distributors (R24-R32, R39, R103, R174, R315-R326, R333, R338, R398, R418, R432, R433) -/

/-- R325, R326, R338, R433: partition operations. APPLY takes a record's fields, its clusters, channels and groups while no
context of the partition runs, unless another defined record names one of them: FNERR code 7, nothing taken. RUN brings in
context 0 or the one that HALT stopped; HALT asks for the running context's pre-emption. The model's choice (log 27): the roots,
CTL and QUANTUM are taken at once even while a context runs, and a conflict is judged against the other records and what their
partitions hold. -/
def Obligations.PartitionOperations : Prop :=
  (∀ (s : State), asked s 1 → (recordByte s 0).getLsbD 0 = true →
    (∃ q n, q < 128 ∧ q ≠ named s ∧ (s.part q).defined = true ∧ n ∈ (s.part q).clusters ∧ n.die < 8 ∧ n.site < 132 ∧
      (recordByte s (0x20 + 32 * n.die + n.site / 8)).getLsbD (n.site % 8) = true) →
    ∃ t, exec .apply s = .next t ∧ t.prcmd = 0 ∧ errorTold s t 0 7 0 (named s) ∧ t.parts = s.parts ∧ t.straits = s.straits ∧
      t.cores = s.cores ∧ t.mem = s.mem) ∧
  (∀ (s : State), asked s 1 → windowsMade s →
    ((recordByte s 0).getLsbD 0 = true → s.claimMeets (named s) (recordClaim (s.recordBytes (named s) 1024)) = false) →
    ∃ t, exec .apply s = .next t ∧ t.prcmd = 0 ∧ partsKept s t (named s) ∧ t.cores = s.cores ∧ t.mem = s.mem ∧ t.banks = s.banks ∧
      (let k := t.part (named s)
       let old := s.part (named s)
       let ctl := le8 (recordByte s) 0x10
       k.defined = (recordByte s 0).getLsbD 0 ∧ k.s2root = le8 (recordByte s) 0 ∧ k.s1root = le8 (recordByte s) 8 ∧
       k.func = (ctl.extractLsb' 0 7).toNat ∧ k.nctx = (ctl.extractLsb' 8 2).toNat + 1 ∧ k.slmode = ctl.getLsbD 11 ∧
       k.tslice = (le4 (recordByte s) 0x18).toNat ∧ k.quantum = (le4 (recordByte s) 0x1C).toNat ∧
       k.run = old.run ∧ k.ctx = old.ctx ∧ k.pre = old.pre ∧
       (old.ctx ≠ none → k.clusters = old.clusters ∧ k.channels = old.channels ∧ t.straits = s.straits) ∧
       (old.ctx = none → (recordByte s 0).getLsbD 0 = false → k.clusters = [] ∧ k.channels = 0) ∧
       (old.ctx = none → (recordByte s 0).getLsbD 0 = true →
         ∀ n : SiteId, n ∈ k.clusters ↔ n.die < 8 ∧ n.site < 132 ∧
           (recordByte s (0x20 + 32 * n.die + n.site / 8)).getLsbD (n.site % 8) = true))) ∧
  (∀ (s : State), asked s 2 →
    ((s.part (named s)).defined = false ∨ (s.part (named s)).ctx ≠ none → exec .run s = .next { s with prcmd := 0 }) ∧
    ((s.part (named s)).defined = true → (s.part (named s)).ctx = none → s.images = [] → windowsMade s →
      ∃ t, exec .run s = .next t ∧ t.prcmd = 0 ∧ partsKept s t (named s) ∧
        (t.part (named s)).run = .running ∧
        (t.part (named s)).ctx = some (if (s.part (named s)).run = .never then 0 else (s.part (named s)).haltCtx) ∧
        (t.part (named s)).turnAt = s.rtime ∧ (t.part (named s)).pre = none ∧ t.cores = s.cores ∧ t.banks = s.banks ∧
        t.mem = s.mem)) ∧
  ∀ (s : State), asked s 3 → (s.part (named s)).pre = none →
    exec .halt s = .next (if (s.part (named s)).ctx = none then { s with prcmd := 0 }
      else s.updPart (named s) fun k => { k with pre := some { mode := turnMode s (named s), why := .halt } })

/-- R24-R26, R315-R320, R398, R418: an entry at HEAD is taken when the master may: AFTER waits for the launches of its queue; a
valid LAUNCH becomes active, its waits all to be satisfied before it is eligible, an invalid one places nothing; TLSET and
TLSIGNAL write their timeline, and one whose address does not allow it is skipped with FNERR code 8; an unknown kind, a reserved
byte, of a LAUNCH too, and an entry that cannot be read are skipped with codes 1, 2 and 5. A timeline that has reached the value
satisfies its wait, a first read that does not translate refuses the launch; one that has waited 2 ms rises one priority. The
model's choice (log 28): ARG is HEAD modulo the ring, and AFTER is looked at before a malformed entry. -/
def Obligations.EntriesAndTimelines : Prop :=
  (∀ (s : State) (p q : Nat), ¬entryStands s p q → exec (.takeEntry p q) s = .next s) ∧
  (∀ (s r : State) (p q : Nat), entryStands s p q → r.missed = s.missed →
    s.masterRead p ((s.queue (s.part p).func q).qbase.toNat + 256 * entryIndex s p q) 256 = (none, r) →
    ∃ t, exec (.takeEntry p q) s = .next t ∧ headMoved s t p q ∧ errorTold s t (s.part p).func 5 q (entryIndex s p q) ∧
      t.launches = s.launches ∧ t.mem = r.mem) ∧
  (∀ (s r : State) (p q : Nat) (b : List Byte), entryBytes s p q b r →
    let kind := fieldAt b 0 4
    let after := fieldAt b 4 1 % 2 = 1
    let clear : Prop := ¬(after ∧ ∃ l ∈ s.launches, l.part = p ∧ l.queue = q)
    let fn := (s.part p).func
    (¬clear → exec (.takeEntry p q) s = .next r) ∧
    (kind = 1 → 64 ≤ (s.launches.filter (·.part = p)).length → exec (.takeEntry p q) s = .next r) ∧
    (clear → (kind = 0 ∨ 3 < kind) →
      ∃ t, exec (.takeEntry p q) s = .next t ∧ headMoved s t p q ∧ errorTold s t fn 1 q (entryIndex s p q) ∧
        t.launches = s.launches ∧ t.mem = r.mem) ∧
    (clear → 1 ≤ kind → kind ≤ 3 → (kind = 1 → (s.launches.filter (·.part = p)).length < 64) → entryReserved b = false →
      ∃ t, exec (.takeEntry p q) s = .next t ∧ headMoved s t p q ∧ errorTold s t fn 2 q (entryIndex s p q) ∧
        t.launches = s.launches ∧ t.mem = r.mem) ∧
    (clear → kind = 1 → entryReserved b = true → descOk (b.drop 0x40) = true → (s.launches.filter (·.part = p)).length < 64 →
      (∀ m ∈ s.launches, m.id ≠ r.ids) →
      ∃ t l, exec (.takeEntry p q) s = .next t ∧ headMoved s t p q ∧ t.launches = s.launches ++ [l] ∧ t.mem = r.mem ∧
        l.part = p ∧ l.queue = q ∧ l.ctx = (s.queue fn q).ctx ∧ l.desc = parseDesc (b.drop 0x40) ∧ l.prio = l.desc.prio ∧
        l.slices = l.desc.cuts 0 * l.desc.cuts 1 * l.desc.cuts 2 ∧ l.sat = List.replicate l.desc.nwait false ∧
        (l.eligible = none ↔ l.desc.nwait ≠ 0) ∧ l.placedAny = false ∧
        (q < 64 → l.entry = BitVec.ofNat 6 q ++ 0#26 ++ (s.queue fn q).head)) ∧
    (clear → kind = 1 → entryReserved b = true → descOk (b.drop 0x40) = false → (s.launches.filter (·.part = p)).length < 64 →
      ∃ t, exec (.takeEntry p q) s = .next t ∧ headMoved s t p q ∧
        ∀ l ∈ t.launches, l ∈ s.launches ∨ l.stop = true ∧ l.cause = some 0x100 ∧ l.refusedAt = some s.rtime) ∧
    (∀ u, clear → 2 ≤ kind → kind ≤ 3 → entryReserved b = true →
      (fieldAt b 8 8 % 8 ≠ 0 ∨ (State.masterPage p true true (fieldAt b 8 8) r = (none, u) ∧ u.missed = s.missed)) →
      ∃ t, exec (.takeEntry p q) s = .next t ∧ headMoved s t p q ∧ errorTold s t fn 8 q (entryIndex s p q) ∧
        t.launches = s.launches ∧ t.banks = s.banks) ∧
    (∀ pa u, clear → 2 ≤ kind → kind ≤ 3 → entryReserved b = true → fieldAt b 8 8 % 8 = 0 →
      State.masterPage p true true (fieldAt b 8 8) r = (some pa, u) → plainHbm r pa 8 → (s.takeEntry p q).missed = s.missed →
      ∃ t, exec (.takeEntry p q) s = .next t ∧ headMoved s t p q ∧
        ((∀ l ∈ s.launches, ∀ x ∈ l.sat, x = true) → t.launches = s.launches ∧
          memBytesAre r t pa 8 (byteOf (BitVec.ofNat 64
            (if kind = 3 then fieldAt b 0x10 8 else Nat.max (le8 r.memByte pa).toNat (fieldAt b 0x10 8))))))) ∧
  (∀ (s : State) (id i : Nat) (l : Launch) (w : W64 × W64), ledBy s → s.launch id = some l → l.sat[i]? = some false →
    l.desc.waits[i]? = some w → l.eligible = none →
    (∀ pa u, State.masterPage l.part true false w.1.toNat s = (some pa, u) → plainHbm s pa 8 →
      (s.timelineRead id i).missed = s.missed →
      ((le8 s.memByte pa).toNat < w.2.toNat →
        ∃ t, exec (.timelineRead id i) s = .next t ∧
          t.launches = (s.updLaunch id fun l => { l with asked := i :: l.asked }).launches ∧ memKept s t) ∧
      (w.2.toNat ≤ (le8 s.memByte pa).toNat →
        ∃ t m, exec (.timelineRead id i) s = .next t ∧ t.launch id = some m ∧ m.sat = l.sat.set i true ∧
          (m.eligible = none ↔ ∃ x ∈ m.sat, x = false) ∧ memKept s t)) ∧
    (∀ u, State.masterPage l.part true false w.1.toNat s = (none, u) → u.missed = s.missed → i ∉ l.asked →
      ∃ t, exec (.timelineRead id i) s = .next t ∧
        ∀ m ∈ t.launches, m.id = id → m.stop = true ∧ m.cause = some 0x600 ∧ m.refusedAt = some s.rtime)) ∧
  ∀ (s : State) (id : Nat) (l : Launch), ledBy s → s.launch id = some l → l.eligible ≠ none → l.unplaced = true →
    l.agedAt + 2000000 ≤ s.rtime →
    exec (.priorityAging id) s = .next
      (if 1 < l.prio then s.updLaunch id fun l => { l with prio := l.prio - 1, agedAt := s.rtime } else s)

/-- R27, R30, R32, R39, R103, R174, R321, R322, R398, R432: a placement attempt at most every 32 cycles gives the lowest unplaced
slice of the chosen launch its clusters and charges its partition their number; a span's start reads its program, writes the
handler table and SEED, and a program that does not read ends the launch; a slice whose cores rest leaves no core, bank or span
behind and is counted; the merge engine delivers the next message of the lowest slice and sender. -/
def Obligations.PlacementAndSlices : Prop :=
  (∀ (s : State), s.cycle < s.lastPlace + 32 → exec .placement s = .next s) ∧
  (∀ (s : State) (l : Launch) (c : Cand), ledBy s → s.recheck = false → s.lastPlace + 32 ≤ s.cycle → s.images = [] → s.launches = [l] → 1 ≤ l.prio →
    l.prio ≤ 3 → l.eligible ≠ none → l.unplaced = true → l.part < 128 → 0 < s.credit l.part l.prio →
    (State.attempt { s with lastPlace := s.cycle } l).2 = some c → s.placement.missed = s.missed →
    ∃ t q, exec .placement s = .next t ∧ t.spans = s.spans ++ [q] ∧ q.launch = l.id ∧ q.part = l.part ∧ q.ctx = l.ctx ∧
      q.slice = l.nextSlice ∧ q.sites = c.sites ∧ q.started = false ∧ q.saved = false ∧
      t.credit l.part l.prio = s.credit l.part l.prio - c.sites.length ∧ t.lastPlace = s.cycle ∧
      (noUpdates s = true → t.mem = s.mem) ∧ ∃ m, t.launch l.id = some m ∧ m.placedAny = true ∧ (l.back = [] → m.next = l.next + 1)) ∧
  (∀ (s : State) (id : Nat) (q : Span) (l : Launch), s.powered = true → s.span id = some q → s.launch q.launch = some l →
    q.started = false → q.saved = false → (s.part q.part).stopsStart = false →
    (∀ g r c, s.readProgram l = (some g, r) → r.missed = s.missed → r.tableComp l.part g.table = some c →
      ∃ t, exec (.spanStart id) s = .next t ∧ (t.span id).map (·.started) = some true ∧
        (∀ n ∈ q.sites, (t.cluster n).handlers = g.table) ∧
        (∀ k ∈ coresOf q, (t.core k).seed = BitVec.ofNat 32 ((s.spanCoreNo k + 1) * 0x9E3779B9) ∧ (t.core k).slice = [] ∧
          (t.core k).tiles = [] ∧ (t.core k).k = []) ∧ t.mem = r.mem) ∧
    (∀ r, r.missed = s.missed →
      (s.readProgram l = (none, r) ∨ ∃ g, s.readProgram l = (some g, r) ∧ r.tableComp l.part g.table = none) →
      ∃ t, exec (.spanStart id) s = .next t ∧ (∀ m ∈ t.spans, m.id ≠ id) ∧
        ∀ m, t.launch q.launch = some m → m.stop = true ∧ m.back = l.back ++ [q.slice])) ∧
  (∀ (s : State) (id : Nat) (q : Span) (l : Launch), s.span id = some q → s.launch q.launch = some l → q.started = true →
    q.saved = false → (s.part q.part).pre = none →
    (∀ k ∈ coresOf q, s.coreRests k = true ∧ s.storesRest k = true ∧ s.homeward k = true ∧ s.active k = true) →
    ∃ t, exec (.sliceComplete id) s = .next t ∧ (∀ m ∈ t.spans, m.id ≠ id) ∧
      (∀ k ∈ coresOf q, (t.core k).berths = [] ∧ (t.core k).ctxs = [] ∧ (t.core k).inbox = []) ∧
      (∀ n ∈ q.sites, ∀ i, i < 32 → (t.bank ⟨n.die, n.site, i⟩).st = .free ∨ (t.bank ⟨n.die, n.site, i⟩).st = .disabled) ∧
      ∀ m, t.launch q.launch = some m → m.doneCnt = l.doneCnt + 1) ∧
  ∀ (s : State) (id i : Nat) (l : Launch) (n : SiteId) (m : MergeMsg), s.launch id = some l → l.merge = some n →
    s.mergeSaved l = false → s.active ⟨n.die, n.site, 0⟩ = true → l.mergeNext ∈ l.done → l.mergeMsgs.length ≤ 2 ^ 32 →
    l.mergeMsgs[i]? = some m → m.slice = l.mergeNext →
    (∀ j k, l.mergeMsgs[j]? = some k → k.slice = l.mergeNext → m.score < k.score ∨ m.score = k.score ∧ i ≤ j) →
    ∃ t, exec (.mergeDelivery id) s = .next t ∧
      (∃ f, t.engine = s.engine ++ [f] ∧ f.msg.payload = m.msg.payload ∧ f.msg.h1 = m.msg.h1 ∧
        f.msg.h0 = m.msg.h0.extractLsb' 53 11 ++ 0#13 ++ m.msg.h0.extractLsb' 35 5 ++ 1#1 ++ m.msg.h0.extractLsb' 0 34 ∧
        f.src = none ∧ f.compart = m.comp ∧ f.dest = ⟨n.die, n.site, 0⟩ ∧ f.merged = true) ∧
      (t.launch id).map (·.mergeMsgs) = some (l.mergeMsgs.eraseIdx i) ∧ t.mem = s.mem ∧ t.cores = s.cores

/-! ## Pre-emption and context exchange (R323, R326, R338-R349, R434, R435) -/

/-- R326, R338, R339, R342, R343, R345-R349, R434, R435: at the end of a turn another busy context is asked for, or the turn begins
anew; a stop rests every core of the running context, its L1 empty, or does not happen for want of room and FNERR code 6 tells;
an exchange saves every covered span with its cores' state of R342, then brings in the next context with the registers its image
holds, or leaves none after a HALT; a drain sends every core a token, becomes immediate after 200 us, and saves what has come to
rest; a checkpoint discards the spans and leaves their slices to be placed again. The model's choice (log 25): the exchange and the
drain's save wait for what they wait for besides R30's conditions (the slice at rest, update-only lines with their way home, stores
acknowledged), and a stop waits until covered spans have started. -/
def Obligations.PreemptionAndExchange : Prop :=
  (∀ (s : State) (p c : Nat), (s.part p).run = .running → (s.part p).ctx = some c → (s.part p).pre = none → c < (s.part p).nctx →
    ((s.part p).turnAt + 1000 * (s.part p).tslice ≤ s.rtime → otherBusy s p c →
      exec (.tsliceExpiry p) s = .next (s.updPart p fun k => { k with pre := some { mode := turnMode s p, why := .tslice } })) ∧
    ((s.part p).turnAt + 1000 * (s.part p).tslice ≤ s.rtime → ¬otherBusy s p c →
      exec (.tsliceExpiry p) s = .next (s.updPart p fun k => { k with turnAt := s.rtime })) ∧
    (s.rtime < (s.part p).turnAt + 1000 * (s.part p).tslice → exec (.tsliceExpiry p) s = .next s)) ∧
  (∀ (s : State) (p : Nat) (r : PreReq), preempting s p r → covering r → r.mode ≠ .drain → r.stopped = false → r.retry = 0 →
    (∀ q, stood s p q → q.started = true) →
    ((r.why = .tslice → r.tokens = false → s.nextCtx p ≠ none) →
      (r.mode = .checkpoint ∨ s.fits (s.coveredSites p r) (((s.comingCtx p r.why).map fun c => s.incoming p c).getD []) false = true) →
      ∃ t, exec (.preemptStop p) s = .next t ∧
        (∃ n, (t.part p).pre = some { r with stopped := true, coming := s.comingCtx p r.why, spans := n }) ∧
        (∀ q, stood s p q → ∀ k ∈ coresOf q, (t.core k).stopped = true ∧ (t.core k).l1 = []) ∧ partsKept s t p) ∧
    (r.why = .tslice → r.tokens = false → r.mode ≠ .drain → s.nextCtx p = none →
      exec (.preemptStop p) s = .next (s.updPart p fun k => { k with pre := none, turnAt := s.rtime, sliceTold := false })) ∧
    (∀ c, r.why = .tslice → r.tokens = false → r.told = false → r.mode = .immediate → s.nextCtx p = some c →
      s.fits (s.coveredSites p r) (s.incoming p c) false = false →
      ∃ t, exec (.preemptStop p) s = .next t ∧ (t.part p).pre = none ∧ (t.part p).turnAt = s.rtime ∧
        ((s.part p).sliceTold = false → errorTold s t 0 6 0 p) ∧ ((s.part p).sliceTold = true → t.funcs = s.funcs) ∧
        (t.part p).sliceTold = true ∧ t.cores = s.cores ∧ t.banks = s.banks ∧ t.mem = s.mem)) ∧
  (∀ (s : State) (p cur : Nat) (r : PreReq), preempting s p r → covering r → r.mode = .immediate → r.stopped = true →
    (s.part p).ctx = some cur → s.atRest (s.coveredCores p r) = true → (∀ k ∈ s.coveredCores p r, s.sliceRests k = true ∧ s.homeward k = true) →
    windowsMade s →
    (r.why = .halt →
      ∃ t, exec (.contextExchange p) s = .next t ∧ (t.part p).ctx = none ∧ (t.part p).run = .halted ∧ (t.part p).haltCtx = cur ∧
        (t.part p).pre = none ∧ (named s = p → s.prcmd.extractLsb' 8 2 = 3 → t.prcmd = 0) ∧
        (∀ q, stood s p q →
          (∃ m ∈ t.spans, m.id = q.id ∧ m.saved = true) ∧
            ∃ i ∈ t.images, i.span = some q.id ∧ i.part = p ∧ i.ctx = cur ∧ i.drained = false ∧ i.bad = false ∧
              ∀ k ∈ coresOf q, ∃ v, i.cores.find k = some v ∧ savedAs (s.core k) v) ∧
        ((∀ k ∈ s.coveredCores p r, (s.core k).updates = []) → t.mem = s.mem)) ∧
    (∀ c, (r.why = .tslice ∨ ∃ l, r.why = .urgentCtx c l) → r.coming = some c → c ≠ cur →
      (s.incoming p c = [] →
        ∃ t, exec (.contextExchange p) s = .next t ∧ (t.part p).ctx = some c ∧ (t.part p).turnAt = s.rtime ∧
          (t.part p).pre = none ∧ (∀ q, stood s p q → ∃ i ∈ t.images, i.span = some q.id ∧
            ∀ k ∈ coresOf q, ∃ v, i.cores.find k = some v ∧ savedAs (s.core k) v)) ∧
      (∀ i, s.incoming p c = [i] → s.canReturn i = true → i.bad = false → i.drained = false → (i.cores.map (·.1)).Nodup →
        ∃ t, exec (.contextExchange p) s = .next t ∧ (t.part p).ctx = some c ∧
          ∀ k v, i.cores.find k = some v →
            (t.core k).k = v.k ∧ (t.core k).tiles = v.tiles ∧ (t.core k).berths = v.berths ∧ (t.core k).inbox = v.inbox ∧
              (t.core k).stopped = v.stopped ∧
              ∀ x y, v.ctxs.find x = some y → (t.ctx k x).x = y.x ∧ (t.ctx k x).v = y.v ∧ (t.ctx k x).p = y.p ∧
                (t.ctx k x).q = y.q ∧ (t.ctx k x).pc = y.pc ∧ (t.ctx k x).status = y.status ∧ (t.ctx k x).running = y.running))) ∧
  (∀ (s : State) (p : Nat) (r : PreReq), preempting s p r → covering r → r.mode = .drain →
    (r.tokens = false → r.retry = 0 → (∀ q, stood s p q → q.started = true) →
      ∃ t, exec (.drainStart p) s = .next t ∧ (t.part p).pre = some { r with tokens := true, since := s.rtime } ∧
        (∀ q l, stood s p q → s.launch q.launch = some l → ∀ k ∈ coresOf q,
          ∃ f ∈ t.engine, f.dest = k ∧ f.src = none ∧ f.msg.payload = l.desc.startPayload q.slice) ∧
        t.cores = s.cores ∧ t.mem = s.mem ∧ t.banks = s.banks) ∧
    (r.tokens = true → r.since + 200000 ≤ s.rtime → (∃ k ∈ s.coveredCores p r, s.coreRests k = false) →
      exec (.drainOverrun p) s = .next (s.updPart p fun k => { k with pre := some { r with mode := .immediate } })) ∧
    (r.tokens = true → (∃ k ∈ s.coveredCores p r, s.coreRests k = false ∨ s.storesRest k = false ∨ s.homeward k = false) →
      exec (.drainComplete p) s = .next s) ∧
    (∀ cur, r.tokens = true → (∀ k ∈ s.coveredCores p r, s.coreRests k = true ∧ s.storesRest k = true ∧ s.homeward k = true) → s.images = [] →
      r.why = .halt → windowsMade s → (s.part p).ctx = some cur →
      ∃ t, exec (.drainComplete p) s = .next t ∧ (t.part p).ctx = none ∧ (t.part p).run = .halted ∧ (t.part p).haltCtx = cur ∧
        (t.part p).pre = none ∧
        ∀ q, stood s p q → ∃ i ∈ t.images, i.span = some q.id ∧ i.drained = true ∧
          ∀ k ∈ coresOf q, ∃ v, i.cores.find k = some v ∧ v.k = (s.core k).k ∧ v.tiles = (s.core k).tiles ∧
            v.inbox = (s.core k).inbox ∧ v.ctxs = [])) ∧
  (∀ (s : State) (p : Nat) (r : PreReq), preempting s p r → r.mode = .checkpoint → r.stopped = true → r.why = .chkpt →
    (∀ k ∈ s.coveredCores p r, s.sliceRests k = true) →
    ∃ t, exec (.checkpointDiscard p) s = .next t ∧ (t.part p).pre = none ∧ (t.part p).ctx = (s.part p).ctx ∧
      (∀ q, stood s p q → (∀ m ∈ t.spans, m.id ≠ q.id) ∧ (∀ m, t.launch q.launch = some m → q.slice ∈ m.back) ∧
        ∀ k ∈ coresOf q, (t.core k).ctxs = [] ∧ (t.core k).berths = [])) ∧
  ∀ (s : State) (p : Nat) (r : PreReq), preempting s p r → r.retry ≠ 0 →
    exec (.preemptRetry p) s = .next
      (if r.retry ≤ s.rtime then s.updPart p fun k => { k with pre := some { r with retry := 0 } } else s)

/-! ## Failures (R10, R237, R370, R386-R389, R404, R414-R416) -/

/-- R10, R237, R370, R386-R388, R404, R414, R415: an error is counted for its source, counts begin anew with a window, and a source
that passes the threshold is retired once; an uncorrectable row is known to its memory, bank, register or saved image, its
contents as they were; a retired cluster gives its
number and slices to a spare; the fourth missed heartbeat fences a die, whose cores run nothing more and whose addresses meet an
error; the lowest healthy die becomes master and ends the launches that were complete; a stack is hot above 85 degrees until it
falls below 80; a slice whose core leaves a message at its port is discarded. The model's choice: of which row an error is, the
agenda says (log 36); the spare of lowest number takes the place (log 19); the fourth missed heartbeat fences in the same step
(log 32). -/
def Obligations.FailuresAndRepair : Prop :=
  (∀ (s : State) (src : ErrSource), s.powered = true → s.windowPassed = false →
    let n := s.lantern.counts.getD src 0 + 1
    let counted : State := { s with lantern := { s.lantern with counts := s.lantern.counts.put src n } }
    (n ≤ s.lantern.thresh ∨ src ∈ s.lantern.retired → exec (.errorEvent src none) s = .next counted) ∧
    (s.lantern.thresh < n → src ∉ s.lantern.retired →
      ∃ t, exec (.errorEvent src none) s = .next t ∧ t.lantern.retired = src :: s.lantern.retired ∧
        match src with
        | .site m => (t.cluster m).retiring = true
        | .bank b => (t.bank b).retire = true ∧ ((s.bank b).st = .free → (t.bank b).st = .disabled) ∧
            ((s.bank b).st ≠ .free → (t.bank b).st = (s.bank b).st)
        | .group m g => ∀ l, (s.strait m).lanes[g]? = some l → (t.strait m).lanes[g]? = some { l with retire := true }
        | .row st r => (st, r) ∈ (t.die (st / 2)).repairs) ∧
    (∀ w, n ≤ s.lantern.thresh → exec (.errorEvent src (some (.mem w))) s = .next { counted with bad := w :: s.bad.filter (· ≠ w) }) ∧
    (∀ b w, n ≤ s.lantern.thresh →
      ∃ t, exec (.errorEvent src (some (.bank b w))) s = .next t ∧ w ∈ (t.bank b).bad ∧ banksKept s t [b] ∧ t.cores = s.cores ∧
        t.mem = s.mem) ∧
    (∀ c x k, n ≤ s.lantern.thresh →
      ∃ t, exec (.errorEvent src (some (.reg c x (.q k)))) s = .next t ∧
        (t.ctx c x).qbad.getD k 0 = ((s.ctx c x).queue k).length ∧ registersKept s t ∧ t.banks = s.banks ∧ t.mem = s.mem) ∧
    (∀ c x r, n ≤ s.lantern.thresh → (∀ k, r ≠ .q k) →
      ∃ t, exec (.errorEvent src (some (.reg c x r))) s = .next t ∧ r ∈ (t.ctx c x).bad ∧ registersKept s t ∧
        t.banks = s.banks ∧ t.mem = s.mem) ∧
    (∀ c r, n ≤ s.lantern.thresh →
      ∃ t, exec (.errorEvent src (some (.coreRow c r))) s = .next t ∧ r ∈ (t.core c).bad ∧ registersKept s t ∧
        t.banks = s.banks ∧ t.mem = s.mem) ∧
    (∀ m j i, n ≤ s.lantern.thresh → (s.images.filter fun i => (i.units.find m).isSome)[j]? = some i →
      ∃ t, exec (.errorEvent src (some (.shadow m j))) s = .next t ∧ { i with bad := true } ∈ t.images ∧ t.cores = s.cores ∧
        t.mem = s.mem)) ∧
  (∀ (s : State), exec .faultWindow s = .next
    (if s.lantern.began < s.rtime / (1000 * s.lantern.window) * (1000 * s.lantern.window) then
       { s with lantern := { s.lantern with counts := [], began := s.rtime } } else s)) ∧
  (∀ (s : State) (n m : SiteId), (s.cluster n).retiring = true → s.siteSt n = .enabled → (∀ q ∈ s.spans, n ∉ q.sites) →
    (∀ l ∈ s.launches, l.merge ≠ some n) → m.die = n.die → m.site < 132 → s.siteSt m = .spare →
    (∀ k, k < m.site → s.siteSt ⟨n.die, k⟩ ≠ .spare) →
    ∃ t, exec (.clusterRetirement n) s = .next t ∧ t.siteSt n = .disabled ∧ t.siteSt m = .enabled ∧
      (t.cluster n).retiring = false ∧
      (∀ p, (t.part p).clusters = (s.part p).clusters.map fun k => if k = n then m else k) ∧
      (∀ r, r < 128 → t.sliceOf n.die r = if s.sliceOf n.die r = n.site then m.site else s.sliceOf n.die r) ∧
      t.cores = s.cores ∧ t.banks = s.banks ∧ (Memory.wf s.mem = true → memKept s t)) ∧
  (∀ (s : State) (d : Nat), s.powered = true → s.lantern.started = true → (s.die d).fenced = false →
    exec (.heartbeat d true) s = .next (s.updDie d fun k => { k with hbMissed := 0 }) ∧
    ((s.die d).hbMissed < 3 →
      exec (.heartbeat d false) s = .next (s.updDie d fun k => { k with hbMissed := k.hbMissed + 1 })) ∧
    (3 ≤ (s.die d).hbMissed → ∃ t, exec (.heartbeat d false) s = .next t ∧ (t.die d).fenced = true)) ∧
  (∀ (s : State) (d : Nat), s.powered = true → (s.die d).fenced = false →
    ∃ t, exec (.dieFence d) s = .next t ∧ (t.die d).fenced = true ∧
      (∀ c : CoreId, c.die = d → ∀ x, (t.ctx c x).running = false) ∧
      (∀ pa n, pa < 2 ^ 40 → homeDie (pa / 64) = d → t.memError pa n = some (0x0D, 2)) ∧
      (s.master = some d → t.master = none ∧ t.election = some s.rtime) ∧ (s.master ≠ some d → t.master = s.master)) ∧
  (∀ (s : State) (d since : Nat), s.election = some since → d < 8 → (s.die d).fenced = false →
    (∀ e, e < d → (s.die e).fenced = true) →
    ∃ t, exec .masterElection s = .next t ∧ t.master = some d ∧ t.election = none ∧
      ((∀ l ∈ s.launches, s.launchDone l = false) → t = { s with master := some d, election := none }) ∧
      (∀ l, s.launches = [l] → s.powered = true → s.launchDone l = true →
        ((({ s with master := some d, election := none } : State).dropMerge l).writeRecord l (l.record s.rtime)).missed = s.missed →
        t.launches = [])) ∧
  (∀ (s : State) (d a b : Nat) (temp : BitVec 8), s.powered = true →
    ∃ t, exec (.temperatureChange d temp a b) s = .next t ∧ (t.die d).temp = temp ∧
      (85 < a → (t.die d).hot0 = true) ∧ (a < 80 → (t.die d).hot0 = false) ∧
      (80 ≤ a → a ≤ 85 → (t.die d).hot0 = (s.die d).hot0) ∧
      (85 < b → (t.die d).hot1 = true) ∧ (b < 80 → (t.die d).hot1 = false) ∧
      (80 ≤ b → b ≤ 85 → (t.die d).hot1 = (s.die d).hot1) ∧ t.cores = s.cores ∧ t.mem = s.mem) ∧
  (∀ (s : State) (st row : Nat), (st, row) ∈ (s.die (st / 2)).repairs →
    exec (.postPackageRepairDone st row) s = .next
      (s.updDie (st / 2) fun d => { d with repairs := d.repairs.filter (· ≠ (st, row)) })) ∧
  ∀ (s : State) (c : CoreId) (q : Span), s.spanAt c.siteId = some q → s.active c = true →
    (s.portStalled c = true →
      ∃ t, exec (.portStallDiscard c) s = .next t ∧ (∀ m ∈ t.spans, m.id ≠ q.id) ∧
        (∀ k ∈ coresOf q, (t.core k).ctxs = [] ∧ (t.core k).portq = []) ∧
        ∀ m, t.launch q.launch = some m → m.stop = true) ∧
    (s.portStalled c = false → exec (.portStallDiscard c) s = .next s)

/-! ## Encoding, the step, reset, and the forms that every step keeps -/

/-- R58, R59, R62-R69, R78, R194, R247, R268, R271, R285, R309, R362: words written out from the encodings: LDW x5, x8, 16, uc=3,
dead=1; STREL.64.sys x6, x9, 0; CAS.64 x17, x16, x0, x14; FADD.64.part.rel x0, x18, x19; RED.add.i.64 x8, x9; HAND x9, x4, 2;
SPEC x6, 3; CPYQ x8; CPYW x12, x8; TURN x9, x5, 6; SEAL x5, x6, x7, ctx=3, vr=1, len=16; END. -/
def Obligations.WrittenWordsDecode : Prop :=
  decodeInstr 0x2A04 0x1480000004C00010 = .ok (.ldw (.x 5) (.x 8) { disp := 16, uc := 3, dead := true }) ∧
  decodeInstr 0x2E04 0x1890000048000000 = .ok (.strel (.x 6) (.x 9) { disp := 0, w64 := true, scope := .sys }) ∧
  decodeInstr 0x3180 0x45000E000040 =
    .ok (.cas (.x 17) (.x 16) (.x 0) (.x 14) { w64 := true, acq := false, rel := false, scope := .core }) ∧
  decodeInstr 0x3182 0x0124C0000053 = .ok (.fadd (.x 0) (.x 18) (.x 19) { w64 := true, acq := false, rel := true, scope := .part }) ∧
  decodeInstr 0x3500 0x00824010 = .ok (.red (.x 8) (.x 9) .addI true) ∧
  decodeInstr 0x8102 0x24400002 = .ok (.hand (.x 9) (.x 4) 2) ∧ decodeInstr 0x8085 0x1803 = .ok (.spec (.x 6) 3) ∧
  decodeInstr 0x8480 0x2000 = .ok (.cpyq 7) ∧ decodeInstr 0x8484 0x3080 = .ok (.cpyw (.x 12) (.x 8)) ∧
  decodeInstr 0x8900 0x24500006 = .ok (.turn (.x 9) (.x 5) 6) ∧
  decodeInstr 0x9100 0x1461C390 = .ok (.seal (.x 5) (.x 6) (.x 7) { ctx := 3, vr := true, len := 16 }) ∧
  decodeInstr 0x0805 0 = .ok .end_

/-- R58-R69, R77, R78: every well-formed instruction with a code decodes from its own words, alone and from a line that holds it,
with every operand as it was. -/
def Obligations.EncodingRoundTrip : Prop :=
  ∀ (i : Instr) (h t : Nat), i.wf = true → encode i = some (h, t) →
    h < 2 ^ 16 ∧ t < 2 ^ (16 * bits h 7 3) ∧ decodeInstr h t = .ok i ∧ decodeLine (lineOf h t) 0 = .ok (1, i)

/-- R78, R105, R396: what the decoder accepts is a well-formed instruction, and the words are the instruction's own: no reserved bit,
unused field or second spelling is let through. -/
def Obligations.DecodedIsWellFormed : Prop :=
  ∀ (i : Instr) (h t : Nat), h < 2 ^ 16 → t < 2 ^ (16 * bits h 7 3) → decodeInstr h t = .ok i → i.wf = true ∧ encode i = some (h, t)

/-- R49, R60, R77, R78, R396: a step takes the turn at the head of the agenda. The turn of a core whose one running context stands
at a line, in its cluster's instruction cache or read at its home slice into it, executes the instruction decoded there, and time
passes; a line or slot that does not decode traps by the name of its first error, as does a cached line with an uncorrectable
error. An operation or event runs as the table has it. (That the agenda stands in State is the model's own choice, log 4; so is it
that a line read at its slice is installed and its instruction executed in one step, log 13.) -/
def Obligations.StepRunsDecoded : Prop :=
  (∀ (s : State) (i : Instr) (rest : List Turn), s.turns = .event i :: rest → i.wf = true → i.encoded = false →
    step s = andThen (exec i { s with turns := rest }) fun u => .next (u.tick 1)) ∧
  (∀ (s : State) (c : CoreId) (rest : List Turn) (p : Nat) (e : TlbEntry) (x : Nat), s.turns = .issue c :: rest →
    c.exist = true → s.active c = true → (s.core c).gang = none → s.mayIssue c = [x] →
    let pc := (s.ctx c x).pc
    pc.extractLsb' 57 7 = 0 → s.partOfSite c.siteId = some p → (s.core c).ptbase.getLsbD 0 = true →
    s.tlbLookup c p (rootPage (s.core c).ptbase) pc.toNat = some e →
    s.pageError e pc.toNat .fetch (s.ctx c x).sv (s.ctx c x).compart = none →
    let va := pc.toNat / 64 * 64
    let pa := (e.pa + (pc.toNat - e.va)) / 64 * 64
    let ahead := { s with turns := rest }
    let f := { ahead with cur := c, curCtx := x }
    let after := fun (u : State) => (if u.idleAfter ahead c x then u else u.updCore c fun k => { k with last := x }).tick 1
    let runs := fun (line : List Byte) (g : State) =>
      (∀ n i, decodeLine line (pc.toNat % 64) = .ok (n, i) →
        ∀ u, exec i (g.updMe fun v => { v with heads := n }) = .next u → step s = .next (after u)) ∧
      (∀ d, decodeLine line (pc.toNat % 64) = .error d →
        step s = .next (after (f.raiseInt d.cause d.info (if d.cause = 0x02 then pc else 0))))
    let cached := (s.cluster c.siteId).icache.find? fun m => m.part = e.part && m.va = va && m.pa = pa
    (∀ l, cached = some l → l.bad = false → runs (unpack l.data 0 64) f) ∧
    (∀ l, cached = some l → l.bad = true → step s = .next (after (f.raiseInt 0x0D 1 pc))) ∧
    (cached = none → pa + 64 ≤ 2 ^ 40 → s.memError pa 64 = none → c.die = homeDie (pa / 64) → s.l2Ready (pa / 64) = true →
      noUpdates s = true →
      runs ((List.range 64).map fun i => s.memByte (pa + i))
        ((f.l2Read (pa / 64)).updCluster c.siteId
          (·.addLine { part := e.part, va := va, pa := pa, data := packBytes ((List.range 64).map fun i => s.memByte (pa + i)) }))))

/-- R18, R48, R66, R181, R197, R279, R327, R329, R331, R365, R368, R386: the module at reset. No bank is berthed and every bank byte
reads 0; no firing runs; every strait has groups 0-15 toward hi and 16-31 toward lo, none allotted; START has not run, no image,
world, partition, queue, launch or span stands; the fault window is 1 s and 8 errors; the physical function's COUNT is 0.
(That memory lists nothing and so reads 0, every register's value, and that reset is the state with power right after step 1 of
R368, its clocks at 0, are the model's choices, logs 2, 3 and 1.) -/
def Obligations.ResetState : Prop :=
  let s := State.reset
  s.powered = true ∧ s.cycle = 0 ∧ s.rtime = 0 ∧ s.lantern.started = false ∧ s.lantern.cmd = none ∧ s.lantern.images = [] ∧
    s.lantern.worlds = [] ∧ s.lantern.window = 1000000 ∧ s.lantern.thresh = 8 ∧ s.master = none ∧ s.launches = [] ∧ s.spans = [] ∧
    s.images = [] ∧ (∀ b, (s.bank b).st = .free ∧ (s.bank b).tag = 0 ∧ ∀ o, bankByte s b o = 0) ∧
    (∀ c x, (s.ctx c x).running = false) ∧ (∀ c, (s.core c).tvec = 0 ∧ (s.core c).ready = []) ∧
    (∀ p, (s.part p).defined = false) ∧ (∀ f q, (s.queue f q).log2n = 0) ∧ (∀ f, (s.func f).count = 0 ∧ (s.func f).fnerr = 0) ∧
    (∀ n g, n < 10 → g < 32 → ∃ l, (s.strait n).lanes[g]? = some l ∧ l.owner = none ∧ l.dir = if g < 16 then .toHi else .toLo) ∧
    (∀ a, s.memByte a = 0) ∧ cellsOk s ∧ vectorsOk s

/-- Every step keeps the form of memory, banks, saved banks and L2 lines: rising addresses, no byte listed that reads 0 anyway,
each byte of a line once. (The form is the model's own.) -/
def Obligations.StepKeepsMemoryForm : Prop := ∀ (s t : State), cellsOk s → step s = .next t → cellsOk t

/-- R66: every step keeps every vector register, of the module and of saved images, at 16 lanes. -/
def Obligations.StepKeepsVectorLanes : Prop := ∀ (s t : State), vectorsOk s → step s = .next t → vectorsOk t
end

