-- ==== Sys2Proof/Laws/Crypto.lean ====
section
/-! SUPPORT. Lengths of what SEAL writes: AES blocks, GCM text and tag. -/
namespace Sys2Proof.Machine

theorem xorBytes_length (a b : List Byte) : (xorBytes a b).length = min a.length b.length := by simp [xorBytes]

theorem fitTo_length (n : Nat) (l : List Byte) : (fitTo n l).length = n := by simp [fitTo]; omega

/-- A list that the pieces fill exactly is cut into whole pieces. -/
theorem chunks_whole (k n : Nat) (l : List Byte) (h : l.length = k * n) : ∀ p ∈ chunks k n l, p.length = k := by
  induction n generalizing l with
  | zero => intro p hp; cases hp
  | succ n ih =>
    intro p hp
    have e : k * (n + 1) = k * n + k := Nat.mul_succ k n
    unfold chunks at hp
    split at hp
    · cases hp
    · rcases List.mem_cons.mp hp with rfl | hp
      · simp; omega
      · exact ih (l.drop k) (by simp; omega) p hp

/-- Every word of the key schedule has four bytes, and it grows by one word a round. -/
theorem aesExpand_words (n i : Nat) (rc : Byte) (w : List (List Byte)) (h : ∀ v ∈ w, v.length = 4) (h8 : 8 ≤ w.length) :
    (∀ v ∈ aesExpand n i rc w, v.length = 4) ∧ (aesExpand n i rc w).length = w.length + n := by
  induction n generalizing i rc w with
  | zero => exact ⟨h, rfl⟩
  | succ n ih =>
    match w, h8 with
    | v :: w, h8 =>
      have hv : v.length = 4 := h v (by simp)
      have h7 : (((v :: w).getD 7 []) : List Byte).length = 4 := by
        have q : 7 < (v :: w).length := by omega
        rw [List.getD_eq_getElem?_getD, List.getElem?_eq_getElem q]
        exact h _ (List.getElem_mem q)
      have key : ∀ t' : List Byte, t'.length = 4 → ∀ u ∈ xorBytes ((v :: w).getD 7 []) t' :: v :: w, u.length = 4 := by
        intro t' ht u hu
        rcases List.mem_cons.mp hu with rfl | hu
        · rw [xorBytes_length, h7, ht]; rfl
        · exact h u hu
      have ht : (if i % 8 = 0 then xorBytes ((v.drop 1 ++ v.take 1).map sbox) [rc, 0, 0, 0]
          else if i % 8 = 4 then v.map sbox else v).length = 4 := by
        split
        · rw [xorBytes_length]; simp [hv]
        · split
          · simp [hv]
          · exact hv
      have := ih (i + 1) (if i % 8 = 0 then xtime rc else rc) _ (key _ ht) (by simp at h8 ⊢; omega)
      refine ⟨this.1, ?_⟩
      rw [show (v :: w).length + (n + 1) = (xorBytes ((v :: w).getD 7 []) (if i % 8 = 0 then
        xorBytes ((v.drop 1 ++ v.take 1).map sbox) [rc, 0, 0, 0] else if i % 8 = 4 then v.map sbox else v) :: v :: w).length + n by
          simp; omega]
      exact this.2

theorem chunks_length (k n : Nat) (l : List Byte) (hk : 0 < k) (h : l.length = k * n) : (chunks k n l).length = n := by
  induction n generalizing l with
  | zero => rfl
  | succ n ih =>
    have e : k * (n + 1) = k * n + k := Nat.mul_succ k n
    unfold chunks
    split
    · rename_i q; simp at q; subst q; simp at h; omega
    · simp [ih (l.drop k) (by simp; omega)]

theorem flatten_length_of_words (k : Nat) (l : List (List Byte)) (h : ∀ v ∈ l, v.length = k) : l.flatten.length = k * l.length := by
  induction l with
  | nil => rfl
  | cons v l ih =>
    rw [List.flatten_cons, List.length_append, h v (by simp), ih (fun u hu => h u (by simp [hu]))]
    simp [Nat.mul_succ]; omega

/-- The fifteen round keys have sixteen bytes each. -/
theorem aesKeys_words (key : List Byte) : (∀ k ∈ aesKeys key, k.length = 16) ∧ (aesKeys key).length = 15 := by
  have h4 := chunks_whole 4 8 (fitTo 32 key) (fitTo_length 32 key)
  have h8 := chunks_length 4 8 (fitTo 32 key) (by decide) (fitTo_length 32 key)
  have h := aesExpand_words 52 8 1 (chunks 4 8 (fitTo 32 key)).reverse (fun v hv => h4 v (List.mem_reverse.mp hv)) (by simp [h8])
  have e : (aesExpand 52 8 1 (chunks 4 8 (fitTo 32 key)).reverse).reverse.flatten.length = 16 * 15 := by
    rw [flatten_length_of_words 4 _ (fun v hv => h.1 v (List.mem_reverse.mp hv)), List.length_reverse, h.2, List.length_reverse, h8]
  exact ⟨chunks_whole 16 15 _ e, chunks_length 16 15 _ (by decide) e⟩

theorem mixColumns_length (s : List Byte) (h : s.length = 16) : (mixColumns s).length = 16 := by
  have hc := chunks_length 4 4 s (by decide) (by omega)
  unfold mixColumns
  rw [List.flatMap_def, flatten_length_of_words 4]
  · simp [hc]
  · intro v hv
    obtain ⟨c, -, rfl⟩ := List.mem_map.mp hv
    simp [mixColumn]

theorem aesRounds_length (ks : List (List Byte)) (s : List Byte) (hk : ∀ k ∈ ks, k.length = 16) (hs : s.length = 16) :
    (aesRounds ks s).length = 16 := by
  induction ks generalizing s with
  | nil => exact hs
  | cons k ks ih =>
    have h1 : k.length = 16 := hk k (by simp)
    cases ks with
    | nil => simp [aesRounds, xorBytes_length, shiftRows, h1]
    | cons k2 ks =>
      apply ih
      · exact fun u hu => hk u (by simp [hu])
      · rw [xorBytes_length, mixColumns_length _ (by simp [shiftRows]), h1]; rfl

/-- A block of sixteen bytes stays one. -/
theorem aesBlock_length (key b : List Byte) (h : b.length = 16) : (aesBlock (aesKeys key) b).length = 16 := by
  have ⟨hk, hn⟩ := aesKeys_words key
  refine aesRounds_length _ _ (fun k q => hk k (List.mem_of_mem_drop q)) ?_
  rw [xorBytes_length, h]
  cases e : aesKeys key with
  | nil => simp [e] at hn
  | cons k ks => simp [hk k (by simp [e])]

/-- A tag has sixteen bytes under a nonce of twelve. -/
theorem gcmTag_length (key iv aad ct : List Byte) (h : iv.length = 12) : (gcmTag key iv aad ct).length = 16 := by
  have hb : ∀ n v, (beBytes n v).length = n := by
    intro n v
    rw [beBytes, List.length_reverse]
    induction n generalizing v with
    | zero => rfl
    | succ n ih => simp [leBytes, ih]
  unfold gcmTag
  rw [xorBytes_length, hb, aesBlock_length _ _ (by simp [h])]; rfl

end Sys2Proof.Machine
end

