-- ==== Sys2Proof/Laws/Launch.lean ====
section
/-! SUPPORT. Reads of the distributors: a range on one page of host memory is the bytes at its physical address, a program of zeros
is empty. -/
namespace Sys2Proof.Machine

theorem memRead_append (s : State) (pa k m : Nat) : s.memRead pa (k + m) = s.memRead pa k ++ s.memRead (pa + k) m := by
  induction k generalizing pa with
  | zero => simp [State.memRead]
  | succ k ih => simp [show k + 1 + m = (k + m) + 1 by omega, State.memRead, ih, show pa + (k + 1) = pa + 1 + k by omega]

/-- A read from the die of the host interface outside HBM changes nothing. -/
theorem readFrom_host (s : State) (v : Via) (pa n : Nat) (hv : v = none ∨ ∃ p, v = some (p, hostDie)) (h : 2 ^ 40 ≤ pa) :
    s.readFrom v pa n = (s.memRead pa n, s) := by
  have hb : isHbm pa = false := by simp [isHbm]; omega
  rcases hv with rfl | ⟨p, rfl⟩ <;> simp [State.readFrom, hb, State.viaReaches, State.viaAsked, dieOf]

/-- The line pieces of a range outside HBM, read in their order from the host interface's die, give the range's bytes and change
nothing. -/
theorem linePieces_read (s : State) (v : Via) (hv : v = none ∨ ∃ p, v = some (p, hostDie)) (f pa n : Nat) (a : List Byte)
    (h : 2 ^ 40 ≤ pa) (hf : n = 0 ∨ pa % 64 + n ≤ 64 * f) :
    (linePieces f pa n).foldl (fun a e => let (d, t) := a.2.readFrom v e.1 e.2; (a.1 ++ d, t)) (a, s) = (a ++ s.memRead pa n, s) := by
  induction f generalizing pa n a with
  | zero => simp [linePieces, show n = 0 by omega, State.memRead]
  | succ f ih =>
    unfold linePieces
    split
    · next h0 => simp [h0, State.memRead]
    · have hk : Nat.min n (64 - pa % 64) ≤ n := Nat.min_le_left _ _
      simp only [List.foldl_cons, readFrom_host s v pa _ hv h]
      have hc : Nat.min n (64 - pa % 64) = n ∨ Nat.min n (64 - pa % 64) = 64 - pa % 64 :=
        (Nat.le_total n (64 - pa % 64)).imp (fun g => Nat.min_eq_left g) fun g => Nat.min_eq_right g
      rw [ih _ _ _ (by omega) (by rcases hc with g | g <;> rw [g] <;> omega), List.append_assoc, ← memRead_append, Nat.add_sub_cancel' hk]

/-- A read of a master on the host interface's die within one page of host memory, its words good: the bytes that stand there, and
the state as it was. -/
theorem masterRead_host (s : State) (p va n pa : Nat) (hp : State.masterPage p true false va s = (some pa, s))
    (hm : s.master.getD hostDie = hostDie) (hn : 0 < n) (hf : va % 65536 + n ≤ 65536) (hh : 2 ^ 40 ≤ pa) (he : s.memError pa n = none) :
    s.masterRead p va n = (some (s.memRead pa n), s) := by
  have hk : Nat.min n (65536 - va % 65536) = n := Nat.min_eq_left (by omega)
  have hq : pagePieces (State.masterPage p true false) (n / 65536 + 2) va n s = (some [(pa, n)], s) := by
    obtain ⟨m, rfl⟩ : ∃ m, n = m + 1 := ⟨n - 1, by omega⟩
    rw [show (m + 1) / 65536 + 2 = ((m + 1) / 65536 + 1) + 1 from rfl]
    unfold pagePieces
    simp only [hk, hp, Nat.sub_self]
    unfold pagePieces
    rfl
  have hl := linePieces_read s (s.masterVia p) (.inr ⟨p, by rw [State.masterVia, hm]⟩) (n / 64 + 2) pa n [] hh (.inr (by omega))
  rw [State.masterRead, hq]
  simp only [State.piecesRead, List.any_cons, he, List.any_nil, Option.isSome_none, Bool.or_self, Bool.false_eq_true,
    if_false, lineCuts, List.flatMap_cons, List.flatMap_nil, List.append_nil]
  rw [hl]
  rfl

theorem leNat_zeros (l : List Byte) (h : ∀ b ∈ l, b = 0) : leNat l = 0 := by
  induction l with
  | nil => rfl
  | cons b l ih => simp [leNat, h b (by simp), ih fun c hc => h c (by simp [hc])]

theorem fieldAt_zeros (l : List Byte) (h : ∀ b ∈ l, b = 0) (o n : Nat) : fieldAt l o n = 0 :=
  leNat_zeros _ fun b hb => h b (List.mem_of_mem_drop (List.mem_of_mem_take hb))

/-- A handler table of zeros holds no entry. -/
theorem parseTable_zeros (l : List Byte) (h : ∀ b ∈ l, b = 0) : parseTable l = [] := by
  simp [parseTable, fieldAt_zeros l h]

/-- A directory of zeros holds no image. -/
theorem parseDir_zeros (l : List Byte) (h : ∀ b ∈ l, b = 0) : parseDir l = [] := by
  simp [parseDir, fieldAt_zeros l h]

/-- Bytes whose every listed cell lies elsewhere read 0. -/
theorem memRead_zeros (s : State) (pa n : Nat) (h : ∀ a, pa ≤ a → a < pa + n → s.memByte a = 0) : ∀ b ∈ s.memRead pa n, b = 0 := by
  induction n generalizing pa with
  | zero => intro b hb; cases hb
  | succ n ih =>
    intro b hb
    rcases List.mem_cons.mp hb with rfl | hb
    · exact h pa (by omega) (by omega)
    · exact ih (pa + 1) (fun a h1 h2 => h a (by omega) (by omega)) b hb

end Sys2Proof.Machine
end

