-- ==== Sys2Proof/Laws/State.lean ====
section
/-! SUPPORT. What each update of State, Core and Ctx leaves: one lemma for every field of every update, true by rfl, so that
no proof unfolds a record update. -/
namespace Sys2Proof.Machine


@[simp] theorem State.setCore_powered (s : State) (c : CoreId) (k : Core) : (s.setCore c k).powered = s.powered := rfl
@[simp] theorem State.setCore_cycle (s : State) (c : CoreId) (k : Core) : (s.setCore c k).cycle = s.cycle := rfl
@[simp] theorem State.setCore_rtime (s : State) (c : CoreId) (k : Core) : (s.setCore c k).rtime = s.rtime := rfl
@[simp] theorem State.setCore_banks (s : State) (c : CoreId) (k : Core) : (s.setCore c k).banks = s.banks := rfl
@[simp] theorem State.setCore_sites (s : State) (c : CoreId) (k : Core) : (s.setCore c k).sites = s.sites := rfl
@[simp] theorem State.setCore_clusters (s : State) (c : CoreId) (k : Core) : (s.setCore c k).clusters = s.clusters := rfl
@[simp] theorem State.setCore_dies (s : State) (c : CoreId) (k : Core) : (s.setCore c k).dies = s.dies := rfl
@[simp] theorem State.setCore_mem (s : State) (c : CoreId) (k : Core) : (s.setCore c k).mem = s.mem := rfl
@[simp] theorem State.setCore_bad (s : State) (c : CoreId) (k : Core) : (s.setCore c k).bad = s.bad := rfl
@[simp] theorem State.setCore_straits (s : State) (c : CoreId) (k : Core) : (s.setCore c k).straits = s.straits := rfl
@[simp] theorem State.setCore_windows (s : State) (c : CoreId) (k : Core) : (s.setCore c k).windows = s.windows := rfl
@[simp] theorem State.setCore_ports (s : State) (c : CoreId) (k : Core) : (s.setCore c k).ports = s.ports := rfl
@[simp] theorem State.setCore_parts (s : State) (c : CoreId) (k : Core) : (s.setCore c k).parts = s.parts := rfl
@[simp] theorem State.setCore_queues (s : State) (c : CoreId) (k : Core) : (s.setCore c k).queues = s.queues := rfl
@[simp] theorem State.setCore_launches (s : State) (c : CoreId) (k : Core) : (s.setCore c k).launches = s.launches := rfl
@[simp] theorem State.setCore_spans (s : State) (c : CoreId) (k : Core) : (s.setCore c k).spans = s.spans := rfl
@[simp] theorem State.setCore_images (s : State) (c : CoreId) (k : Core) : (s.setCore c k).images = s.images := rfl
@[simp] theorem State.setCore_funcs (s : State) (c : CoreId) (k : Core) : (s.setCore c k).funcs = s.funcs := rfl
@[simp] theorem State.setCore_lantern (s : State) (c : CoreId) (k : Core) : (s.setCore c k).lantern = s.lantern := rfl
@[simp] theorem State.setCore_prbase (s : State) (c : CoreId) (k : Core) : (s.setCore c k).prbase = s.prbase := rfl
@[simp] theorem State.setCore_prcmd (s : State) (c : CoreId) (k : Core) : (s.setCore c k).prcmd = s.prcmd := rfl
@[simp] theorem State.setCore_master (s : State) (c : CoreId) (k : Core) : (s.setCore c k).master = s.master := rfl
@[simp] theorem State.setCore_election (s : State) (c : CoreId) (k : Core) : (s.setCore c k).election = s.election := rfl
@[simp] theorem State.setCore_lastPart (s : State) (c : CoreId) (k : Core) : (s.setCore c k).lastPart = s.lastPart := rfl
@[simp] theorem State.setCore_lastPlace (s : State) (c : CoreId) (k : Core) : (s.setCore c k).lastPlace = s.lastPlace := rfl
@[simp] theorem State.setCore_fwrites (s : State) (c : CoreId) (k : Core) : (s.setCore c k).fwrites = s.fwrites := rfl
@[simp] theorem State.setCore_acks (s : State) (c : CoreId) (k : Core) : (s.setCore c k).acks = s.acks := rfl
@[simp] theorem State.setCore_freqs (s : State) (c : CoreId) (k : Core) : (s.setCore c k).freqs = s.freqs := rfl
@[simp] theorem State.setCore_fresps (s : State) (c : CoreId) (k : Core) : (s.setCore c k).fresps = s.fresps := rfl
@[simp] theorem State.setCore_hreqs (s : State) (c : CoreId) (k : Core) : (s.setCore c k).hreqs = s.hreqs := rfl
@[simp] theorem State.setCore_engine (s : State) (c : CoreId) (k : Core) : (s.setCore c k).engine = s.engine := rfl
@[simp] theorem State.setCore_fids (s : State) (c : CoreId) (k : Core) : (s.setCore c k).fids = s.fids := rfl
@[simp] theorem State.setCore_ids (s : State) (c : CoreId) (k : Core) : (s.setCore c k).ids = s.ids := rfl
@[simp] theorem State.setCore_cur (s : State) (c : CoreId) (k : Core) : (s.setCore c k).cur = s.cur := rfl
@[simp] theorem State.setCore_curCtx (s : State) (c : CoreId) (k : Core) : (s.setCore c k).curCtx = s.curCtx := rfl
@[simp] theorem State.setCore_draws (s : State) (c : CoreId) (k : Core) : (s.setCore c k).draws = s.draws := rfl
@[simp] theorem State.setCore_missed (s : State) (c : CoreId) (k : Core) : (s.setCore c k).missed = s.missed := rfl
@[simp] theorem State.setCore_recheck (s : State) (c : CoreId) (k : Core) : (s.setCore c k).recheck = s.recheck := rfl
@[simp] theorem State.setCore_turns (s : State) (c : CoreId) (k : Core) : (s.setCore c k).turns = s.turns := rfl
@[simp] theorem State.setCore_outside (s : State) (c : CoreId) (k : Core) : (s.setCore c k).outside = s.outside := rfl

@[simp] theorem State.updCore_powered (s : State) (c : CoreId) (f : Core → Core) : (s.updCore c f).powered = s.powered := rfl
@[simp] theorem State.updCore_cycle (s : State) (c : CoreId) (f : Core → Core) : (s.updCore c f).cycle = s.cycle := rfl
@[simp] theorem State.updCore_rtime (s : State) (c : CoreId) (f : Core → Core) : (s.updCore c f).rtime = s.rtime := rfl
@[simp] theorem State.updCore_banks (s : State) (c : CoreId) (f : Core → Core) : (s.updCore c f).banks = s.banks := rfl
@[simp] theorem State.updCore_sites (s : State) (c : CoreId) (f : Core → Core) : (s.updCore c f).sites = s.sites := rfl
@[simp] theorem State.updCore_clusters (s : State) (c : CoreId) (f : Core → Core) : (s.updCore c f).clusters = s.clusters := rfl
@[simp] theorem State.updCore_dies (s : State) (c : CoreId) (f : Core → Core) : (s.updCore c f).dies = s.dies := rfl
@[simp] theorem State.updCore_mem (s : State) (c : CoreId) (f : Core → Core) : (s.updCore c f).mem = s.mem := rfl
@[simp] theorem State.updCore_bad (s : State) (c : CoreId) (f : Core → Core) : (s.updCore c f).bad = s.bad := rfl
@[simp] theorem State.updCore_straits (s : State) (c : CoreId) (f : Core → Core) : (s.updCore c f).straits = s.straits := rfl
@[simp] theorem State.updCore_windows (s : State) (c : CoreId) (f : Core → Core) : (s.updCore c f).windows = s.windows := rfl
@[simp] theorem State.updCore_ports (s : State) (c : CoreId) (f : Core → Core) : (s.updCore c f).ports = s.ports := rfl
@[simp] theorem State.updCore_parts (s : State) (c : CoreId) (f : Core → Core) : (s.updCore c f).parts = s.parts := rfl
@[simp] theorem State.updCore_queues (s : State) (c : CoreId) (f : Core → Core) : (s.updCore c f).queues = s.queues := rfl
@[simp] theorem State.updCore_launches (s : State) (c : CoreId) (f : Core → Core) : (s.updCore c f).launches = s.launches := rfl
@[simp] theorem State.updCore_spans (s : State) (c : CoreId) (f : Core → Core) : (s.updCore c f).spans = s.spans := rfl
@[simp] theorem State.updCore_images (s : State) (c : CoreId) (f : Core → Core) : (s.updCore c f).images = s.images := rfl
@[simp] theorem State.updCore_funcs (s : State) (c : CoreId) (f : Core → Core) : (s.updCore c f).funcs = s.funcs := rfl
@[simp] theorem State.updCore_lantern (s : State) (c : CoreId) (f : Core → Core) : (s.updCore c f).lantern = s.lantern := rfl
@[simp] theorem State.updCore_prbase (s : State) (c : CoreId) (f : Core → Core) : (s.updCore c f).prbase = s.prbase := rfl
@[simp] theorem State.updCore_prcmd (s : State) (c : CoreId) (f : Core → Core) : (s.updCore c f).prcmd = s.prcmd := rfl
@[simp] theorem State.updCore_master (s : State) (c : CoreId) (f : Core → Core) : (s.updCore c f).master = s.master := rfl
@[simp] theorem State.updCore_election (s : State) (c : CoreId) (f : Core → Core) : (s.updCore c f).election = s.election := rfl
@[simp] theorem State.updCore_lastPart (s : State) (c : CoreId) (f : Core → Core) : (s.updCore c f).lastPart = s.lastPart := rfl
@[simp] theorem State.updCore_lastPlace (s : State) (c : CoreId) (f : Core → Core) : (s.updCore c f).lastPlace = s.lastPlace := rfl
@[simp] theorem State.updCore_fwrites (s : State) (c : CoreId) (f : Core → Core) : (s.updCore c f).fwrites = s.fwrites := rfl
@[simp] theorem State.updCore_acks (s : State) (c : CoreId) (f : Core → Core) : (s.updCore c f).acks = s.acks := rfl
@[simp] theorem State.updCore_freqs (s : State) (c : CoreId) (f : Core → Core) : (s.updCore c f).freqs = s.freqs := rfl
@[simp] theorem State.updCore_fresps (s : State) (c : CoreId) (f : Core → Core) : (s.updCore c f).fresps = s.fresps := rfl
@[simp] theorem State.updCore_hreqs (s : State) (c : CoreId) (f : Core → Core) : (s.updCore c f).hreqs = s.hreqs := rfl
@[simp] theorem State.updCore_engine (s : State) (c : CoreId) (f : Core → Core) : (s.updCore c f).engine = s.engine := rfl
@[simp] theorem State.updCore_fids (s : State) (c : CoreId) (f : Core → Core) : (s.updCore c f).fids = s.fids := rfl
@[simp] theorem State.updCore_ids (s : State) (c : CoreId) (f : Core → Core) : (s.updCore c f).ids = s.ids := rfl
@[simp] theorem State.updCore_cur (s : State) (c : CoreId) (f : Core → Core) : (s.updCore c f).cur = s.cur := rfl
@[simp] theorem State.updCore_curCtx (s : State) (c : CoreId) (f : Core → Core) : (s.updCore c f).curCtx = s.curCtx := rfl
@[simp] theorem State.updCore_draws (s : State) (c : CoreId) (f : Core → Core) : (s.updCore c f).draws = s.draws := rfl
@[simp] theorem State.updCore_missed (s : State) (c : CoreId) (f : Core → Core) : (s.updCore c f).missed = s.missed := rfl
@[simp] theorem State.updCore_recheck (s : State) (c : CoreId) (f : Core → Core) : (s.updCore c f).recheck = s.recheck := rfl
@[simp] theorem State.updCore_turns (s : State) (c : CoreId) (f : Core → Core) : (s.updCore c f).turns = s.turns := rfl
@[simp] theorem State.updCore_outside (s : State) (c : CoreId) (f : Core → Core) : (s.updCore c f).outside = s.outside := rfl

@[simp] theorem State.setCtx_powered (s : State) (c : CoreId) (x : Nat) (v : Ctx) : (s.setCtx c x v).powered = s.powered := rfl
@[simp] theorem State.setCtx_cycle (s : State) (c : CoreId) (x : Nat) (v : Ctx) : (s.setCtx c x v).cycle = s.cycle := rfl
@[simp] theorem State.setCtx_rtime (s : State) (c : CoreId) (x : Nat) (v : Ctx) : (s.setCtx c x v).rtime = s.rtime := rfl
@[simp] theorem State.setCtx_banks (s : State) (c : CoreId) (x : Nat) (v : Ctx) : (s.setCtx c x v).banks = s.banks := rfl
@[simp] theorem State.setCtx_sites (s : State) (c : CoreId) (x : Nat) (v : Ctx) : (s.setCtx c x v).sites = s.sites := rfl
@[simp] theorem State.setCtx_clusters (s : State) (c : CoreId) (x : Nat) (v : Ctx) : (s.setCtx c x v).clusters = s.clusters := rfl
@[simp] theorem State.setCtx_dies (s : State) (c : CoreId) (x : Nat) (v : Ctx) : (s.setCtx c x v).dies = s.dies := rfl
@[simp] theorem State.setCtx_mem (s : State) (c : CoreId) (x : Nat) (v : Ctx) : (s.setCtx c x v).mem = s.mem := rfl
@[simp] theorem State.setCtx_bad (s : State) (c : CoreId) (x : Nat) (v : Ctx) : (s.setCtx c x v).bad = s.bad := rfl
@[simp] theorem State.setCtx_straits (s : State) (c : CoreId) (x : Nat) (v : Ctx) : (s.setCtx c x v).straits = s.straits := rfl
@[simp] theorem State.setCtx_windows (s : State) (c : CoreId) (x : Nat) (v : Ctx) : (s.setCtx c x v).windows = s.windows := rfl
@[simp] theorem State.setCtx_ports (s : State) (c : CoreId) (x : Nat) (v : Ctx) : (s.setCtx c x v).ports = s.ports := rfl
@[simp] theorem State.setCtx_parts (s : State) (c : CoreId) (x : Nat) (v : Ctx) : (s.setCtx c x v).parts = s.parts := rfl
@[simp] theorem State.setCtx_queues (s : State) (c : CoreId) (x : Nat) (v : Ctx) : (s.setCtx c x v).queues = s.queues := rfl
@[simp] theorem State.setCtx_launches (s : State) (c : CoreId) (x : Nat) (v : Ctx) : (s.setCtx c x v).launches = s.launches := rfl
@[simp] theorem State.setCtx_spans (s : State) (c : CoreId) (x : Nat) (v : Ctx) : (s.setCtx c x v).spans = s.spans := rfl
@[simp] theorem State.setCtx_images (s : State) (c : CoreId) (x : Nat) (v : Ctx) : (s.setCtx c x v).images = s.images := rfl
@[simp] theorem State.setCtx_funcs (s : State) (c : CoreId) (x : Nat) (v : Ctx) : (s.setCtx c x v).funcs = s.funcs := rfl
@[simp] theorem State.setCtx_lantern (s : State) (c : CoreId) (x : Nat) (v : Ctx) : (s.setCtx c x v).lantern = s.lantern := rfl
@[simp] theorem State.setCtx_prbase (s : State) (c : CoreId) (x : Nat) (v : Ctx) : (s.setCtx c x v).prbase = s.prbase := rfl
@[simp] theorem State.setCtx_prcmd (s : State) (c : CoreId) (x : Nat) (v : Ctx) : (s.setCtx c x v).prcmd = s.prcmd := rfl
@[simp] theorem State.setCtx_master (s : State) (c : CoreId) (x : Nat) (v : Ctx) : (s.setCtx c x v).master = s.master := rfl
@[simp] theorem State.setCtx_election (s : State) (c : CoreId) (x : Nat) (v : Ctx) : (s.setCtx c x v).election = s.election := rfl
@[simp] theorem State.setCtx_lastPart (s : State) (c : CoreId) (x : Nat) (v : Ctx) : (s.setCtx c x v).lastPart = s.lastPart := rfl
@[simp] theorem State.setCtx_lastPlace (s : State) (c : CoreId) (x : Nat) (v : Ctx) : (s.setCtx c x v).lastPlace = s.lastPlace := rfl
@[simp] theorem State.setCtx_fwrites (s : State) (c : CoreId) (x : Nat) (v : Ctx) : (s.setCtx c x v).fwrites = s.fwrites := rfl
@[simp] theorem State.setCtx_acks (s : State) (c : CoreId) (x : Nat) (v : Ctx) : (s.setCtx c x v).acks = s.acks := rfl
@[simp] theorem State.setCtx_freqs (s : State) (c : CoreId) (x : Nat) (v : Ctx) : (s.setCtx c x v).freqs = s.freqs := rfl
@[simp] theorem State.setCtx_fresps (s : State) (c : CoreId) (x : Nat) (v : Ctx) : (s.setCtx c x v).fresps = s.fresps := rfl
@[simp] theorem State.setCtx_hreqs (s : State) (c : CoreId) (x : Nat) (v : Ctx) : (s.setCtx c x v).hreqs = s.hreqs := rfl
@[simp] theorem State.setCtx_engine (s : State) (c : CoreId) (x : Nat) (v : Ctx) : (s.setCtx c x v).engine = s.engine := rfl
@[simp] theorem State.setCtx_fids (s : State) (c : CoreId) (x : Nat) (v : Ctx) : (s.setCtx c x v).fids = s.fids := rfl
@[simp] theorem State.setCtx_ids (s : State) (c : CoreId) (x : Nat) (v : Ctx) : (s.setCtx c x v).ids = s.ids := rfl
@[simp] theorem State.setCtx_cur (s : State) (c : CoreId) (x : Nat) (v : Ctx) : (s.setCtx c x v).cur = s.cur := rfl
@[simp] theorem State.setCtx_curCtx (s : State) (c : CoreId) (x : Nat) (v : Ctx) : (s.setCtx c x v).curCtx = s.curCtx := rfl
@[simp] theorem State.setCtx_draws (s : State) (c : CoreId) (x : Nat) (v : Ctx) : (s.setCtx c x v).draws = s.draws := rfl
@[simp] theorem State.setCtx_missed (s : State) (c : CoreId) (x : Nat) (v : Ctx) : (s.setCtx c x v).missed = s.missed := rfl
@[simp] theorem State.setCtx_recheck (s : State) (c : CoreId) (x : Nat) (v : Ctx) : (s.setCtx c x v).recheck = s.recheck := rfl
@[simp] theorem State.setCtx_turns (s : State) (c : CoreId) (x : Nat) (v : Ctx) : (s.setCtx c x v).turns = s.turns := rfl
@[simp] theorem State.setCtx_outside (s : State) (c : CoreId) (x : Nat) (v : Ctx) : (s.setCtx c x v).outside = s.outside := rfl

@[simp] theorem State.updCtx_powered (s : State) (c : CoreId) (x : Nat) (f : Ctx → Ctx) : (s.updCtx c x f).powered = s.powered := rfl
@[simp] theorem State.updCtx_cycle (s : State) (c : CoreId) (x : Nat) (f : Ctx → Ctx) : (s.updCtx c x f).cycle = s.cycle := rfl
@[simp] theorem State.updCtx_rtime (s : State) (c : CoreId) (x : Nat) (f : Ctx → Ctx) : (s.updCtx c x f).rtime = s.rtime := rfl
@[simp] theorem State.updCtx_banks (s : State) (c : CoreId) (x : Nat) (f : Ctx → Ctx) : (s.updCtx c x f).banks = s.banks := rfl
@[simp] theorem State.updCtx_sites (s : State) (c : CoreId) (x : Nat) (f : Ctx → Ctx) : (s.updCtx c x f).sites = s.sites := rfl
@[simp] theorem State.updCtx_clusters (s : State) (c : CoreId) (x : Nat) (f : Ctx → Ctx) : (s.updCtx c x f).clusters = s.clusters := rfl
@[simp] theorem State.updCtx_dies (s : State) (c : CoreId) (x : Nat) (f : Ctx → Ctx) : (s.updCtx c x f).dies = s.dies := rfl
@[simp] theorem State.updCtx_mem (s : State) (c : CoreId) (x : Nat) (f : Ctx → Ctx) : (s.updCtx c x f).mem = s.mem := rfl
@[simp] theorem State.updCtx_bad (s : State) (c : CoreId) (x : Nat) (f : Ctx → Ctx) : (s.updCtx c x f).bad = s.bad := rfl
@[simp] theorem State.updCtx_straits (s : State) (c : CoreId) (x : Nat) (f : Ctx → Ctx) : (s.updCtx c x f).straits = s.straits := rfl
@[simp] theorem State.updCtx_windows (s : State) (c : CoreId) (x : Nat) (f : Ctx → Ctx) : (s.updCtx c x f).windows = s.windows := rfl
@[simp] theorem State.updCtx_ports (s : State) (c : CoreId) (x : Nat) (f : Ctx → Ctx) : (s.updCtx c x f).ports = s.ports := rfl
@[simp] theorem State.updCtx_parts (s : State) (c : CoreId) (x : Nat) (f : Ctx → Ctx) : (s.updCtx c x f).parts = s.parts := rfl
@[simp] theorem State.updCtx_queues (s : State) (c : CoreId) (x : Nat) (f : Ctx → Ctx) : (s.updCtx c x f).queues = s.queues := rfl
@[simp] theorem State.updCtx_launches (s : State) (c : CoreId) (x : Nat) (f : Ctx → Ctx) : (s.updCtx c x f).launches = s.launches := rfl
@[simp] theorem State.updCtx_spans (s : State) (c : CoreId) (x : Nat) (f : Ctx → Ctx) : (s.updCtx c x f).spans = s.spans := rfl
@[simp] theorem State.updCtx_images (s : State) (c : CoreId) (x : Nat) (f : Ctx → Ctx) : (s.updCtx c x f).images = s.images := rfl
@[simp] theorem State.updCtx_funcs (s : State) (c : CoreId) (x : Nat) (f : Ctx → Ctx) : (s.updCtx c x f).funcs = s.funcs := rfl
@[simp] theorem State.updCtx_lantern (s : State) (c : CoreId) (x : Nat) (f : Ctx → Ctx) : (s.updCtx c x f).lantern = s.lantern := rfl
@[simp] theorem State.updCtx_prbase (s : State) (c : CoreId) (x : Nat) (f : Ctx → Ctx) : (s.updCtx c x f).prbase = s.prbase := rfl
@[simp] theorem State.updCtx_prcmd (s : State) (c : CoreId) (x : Nat) (f : Ctx → Ctx) : (s.updCtx c x f).prcmd = s.prcmd := rfl
@[simp] theorem State.updCtx_master (s : State) (c : CoreId) (x : Nat) (f : Ctx → Ctx) : (s.updCtx c x f).master = s.master := rfl
@[simp] theorem State.updCtx_election (s : State) (c : CoreId) (x : Nat) (f : Ctx → Ctx) : (s.updCtx c x f).election = s.election := rfl
@[simp] theorem State.updCtx_lastPart (s : State) (c : CoreId) (x : Nat) (f : Ctx → Ctx) : (s.updCtx c x f).lastPart = s.lastPart := rfl
@[simp] theorem State.updCtx_lastPlace (s : State) (c : CoreId) (x : Nat) (f : Ctx → Ctx) : (s.updCtx c x f).lastPlace = s.lastPlace := rfl
@[simp] theorem State.updCtx_fwrites (s : State) (c : CoreId) (x : Nat) (f : Ctx → Ctx) : (s.updCtx c x f).fwrites = s.fwrites := rfl
@[simp] theorem State.updCtx_acks (s : State) (c : CoreId) (x : Nat) (f : Ctx → Ctx) : (s.updCtx c x f).acks = s.acks := rfl
@[simp] theorem State.updCtx_freqs (s : State) (c : CoreId) (x : Nat) (f : Ctx → Ctx) : (s.updCtx c x f).freqs = s.freqs := rfl
@[simp] theorem State.updCtx_fresps (s : State) (c : CoreId) (x : Nat) (f : Ctx → Ctx) : (s.updCtx c x f).fresps = s.fresps := rfl
@[simp] theorem State.updCtx_hreqs (s : State) (c : CoreId) (x : Nat) (f : Ctx → Ctx) : (s.updCtx c x f).hreqs = s.hreqs := rfl
@[simp] theorem State.updCtx_engine (s : State) (c : CoreId) (x : Nat) (f : Ctx → Ctx) : (s.updCtx c x f).engine = s.engine := rfl
@[simp] theorem State.updCtx_fids (s : State) (c : CoreId) (x : Nat) (f : Ctx → Ctx) : (s.updCtx c x f).fids = s.fids := rfl
@[simp] theorem State.updCtx_ids (s : State) (c : CoreId) (x : Nat) (f : Ctx → Ctx) : (s.updCtx c x f).ids = s.ids := rfl
@[simp] theorem State.updCtx_cur (s : State) (c : CoreId) (x : Nat) (f : Ctx → Ctx) : (s.updCtx c x f).cur = s.cur := rfl
@[simp] theorem State.updCtx_curCtx (s : State) (c : CoreId) (x : Nat) (f : Ctx → Ctx) : (s.updCtx c x f).curCtx = s.curCtx := rfl
@[simp] theorem State.updCtx_draws (s : State) (c : CoreId) (x : Nat) (f : Ctx → Ctx) : (s.updCtx c x f).draws = s.draws := rfl
@[simp] theorem State.updCtx_missed (s : State) (c : CoreId) (x : Nat) (f : Ctx → Ctx) : (s.updCtx c x f).missed = s.missed := rfl
@[simp] theorem State.updCtx_recheck (s : State) (c : CoreId) (x : Nat) (f : Ctx → Ctx) : (s.updCtx c x f).recheck = s.recheck := rfl
@[simp] theorem State.updCtx_turns (s : State) (c : CoreId) (x : Nat) (f : Ctx → Ctx) : (s.updCtx c x f).turns = s.turns := rfl
@[simp] theorem State.updCtx_outside (s : State) (c : CoreId) (x : Nat) (f : Ctx → Ctx) : (s.updCtx c x f).outside = s.outside := rfl

@[simp] theorem State.setMe_powered (s : State) (v : Ctx) : (s.setMe v).powered = s.powered := rfl
@[simp] theorem State.setMe_cycle (s : State) (v : Ctx) : (s.setMe v).cycle = s.cycle := rfl
@[simp] theorem State.setMe_rtime (s : State) (v : Ctx) : (s.setMe v).rtime = s.rtime := rfl
@[simp] theorem State.setMe_banks (s : State) (v : Ctx) : (s.setMe v).banks = s.banks := rfl
@[simp] theorem State.setMe_sites (s : State) (v : Ctx) : (s.setMe v).sites = s.sites := rfl
@[simp] theorem State.setMe_clusters (s : State) (v : Ctx) : (s.setMe v).clusters = s.clusters := rfl
@[simp] theorem State.setMe_dies (s : State) (v : Ctx) : (s.setMe v).dies = s.dies := rfl
@[simp] theorem State.setMe_mem (s : State) (v : Ctx) : (s.setMe v).mem = s.mem := rfl
@[simp] theorem State.setMe_bad (s : State) (v : Ctx) : (s.setMe v).bad = s.bad := rfl
@[simp] theorem State.setMe_straits (s : State) (v : Ctx) : (s.setMe v).straits = s.straits := rfl
@[simp] theorem State.setMe_windows (s : State) (v : Ctx) : (s.setMe v).windows = s.windows := rfl
@[simp] theorem State.setMe_ports (s : State) (v : Ctx) : (s.setMe v).ports = s.ports := rfl
@[simp] theorem State.setMe_parts (s : State) (v : Ctx) : (s.setMe v).parts = s.parts := rfl
@[simp] theorem State.setMe_queues (s : State) (v : Ctx) : (s.setMe v).queues = s.queues := rfl
@[simp] theorem State.setMe_launches (s : State) (v : Ctx) : (s.setMe v).launches = s.launches := rfl
@[simp] theorem State.setMe_spans (s : State) (v : Ctx) : (s.setMe v).spans = s.spans := rfl
@[simp] theorem State.setMe_images (s : State) (v : Ctx) : (s.setMe v).images = s.images := rfl
@[simp] theorem State.setMe_funcs (s : State) (v : Ctx) : (s.setMe v).funcs = s.funcs := rfl
@[simp] theorem State.setMe_lantern (s : State) (v : Ctx) : (s.setMe v).lantern = s.lantern := rfl
@[simp] theorem State.setMe_prbase (s : State) (v : Ctx) : (s.setMe v).prbase = s.prbase := rfl
@[simp] theorem State.setMe_prcmd (s : State) (v : Ctx) : (s.setMe v).prcmd = s.prcmd := rfl
@[simp] theorem State.setMe_master (s : State) (v : Ctx) : (s.setMe v).master = s.master := rfl
@[simp] theorem State.setMe_election (s : State) (v : Ctx) : (s.setMe v).election = s.election := rfl
@[simp] theorem State.setMe_lastPart (s : State) (v : Ctx) : (s.setMe v).lastPart = s.lastPart := rfl
@[simp] theorem State.setMe_lastPlace (s : State) (v : Ctx) : (s.setMe v).lastPlace = s.lastPlace := rfl
@[simp] theorem State.setMe_fwrites (s : State) (v : Ctx) : (s.setMe v).fwrites = s.fwrites := rfl
@[simp] theorem State.setMe_acks (s : State) (v : Ctx) : (s.setMe v).acks = s.acks := rfl
@[simp] theorem State.setMe_freqs (s : State) (v : Ctx) : (s.setMe v).freqs = s.freqs := rfl
@[simp] theorem State.setMe_fresps (s : State) (v : Ctx) : (s.setMe v).fresps = s.fresps := rfl
@[simp] theorem State.setMe_hreqs (s : State) (v : Ctx) : (s.setMe v).hreqs = s.hreqs := rfl
@[simp] theorem State.setMe_engine (s : State) (v : Ctx) : (s.setMe v).engine = s.engine := rfl
@[simp] theorem State.setMe_fids (s : State) (v : Ctx) : (s.setMe v).fids = s.fids := rfl
@[simp] theorem State.setMe_ids (s : State) (v : Ctx) : (s.setMe v).ids = s.ids := rfl
@[simp] theorem State.setMe_cur (s : State) (v : Ctx) : (s.setMe v).cur = s.cur := rfl
@[simp] theorem State.setMe_curCtx (s : State) (v : Ctx) : (s.setMe v).curCtx = s.curCtx := rfl
@[simp] theorem State.setMe_draws (s : State) (v : Ctx) : (s.setMe v).draws = s.draws := rfl
@[simp] theorem State.setMe_missed (s : State) (v : Ctx) : (s.setMe v).missed = s.missed := rfl
@[simp] theorem State.setMe_recheck (s : State) (v : Ctx) : (s.setMe v).recheck = s.recheck := rfl
@[simp] theorem State.setMe_turns (s : State) (v : Ctx) : (s.setMe v).turns = s.turns := rfl
@[simp] theorem State.setMe_outside (s : State) (v : Ctx) : (s.setMe v).outside = s.outside := rfl

@[simp] theorem State.updMe_powered (s : State) (f : Ctx → Ctx) : (s.updMe f).powered = s.powered := rfl
@[simp] theorem State.updMe_cycle (s : State) (f : Ctx → Ctx) : (s.updMe f).cycle = s.cycle := rfl
@[simp] theorem State.updMe_rtime (s : State) (f : Ctx → Ctx) : (s.updMe f).rtime = s.rtime := rfl
@[simp] theorem State.updMe_banks (s : State) (f : Ctx → Ctx) : (s.updMe f).banks = s.banks := rfl
@[simp] theorem State.updMe_sites (s : State) (f : Ctx → Ctx) : (s.updMe f).sites = s.sites := rfl
@[simp] theorem State.updMe_clusters (s : State) (f : Ctx → Ctx) : (s.updMe f).clusters = s.clusters := rfl
@[simp] theorem State.updMe_dies (s : State) (f : Ctx → Ctx) : (s.updMe f).dies = s.dies := rfl
@[simp] theorem State.updMe_mem (s : State) (f : Ctx → Ctx) : (s.updMe f).mem = s.mem := rfl
@[simp] theorem State.updMe_bad (s : State) (f : Ctx → Ctx) : (s.updMe f).bad = s.bad := rfl
@[simp] theorem State.updMe_straits (s : State) (f : Ctx → Ctx) : (s.updMe f).straits = s.straits := rfl
@[simp] theorem State.updMe_windows (s : State) (f : Ctx → Ctx) : (s.updMe f).windows = s.windows := rfl
@[simp] theorem State.updMe_ports (s : State) (f : Ctx → Ctx) : (s.updMe f).ports = s.ports := rfl
@[simp] theorem State.updMe_parts (s : State) (f : Ctx → Ctx) : (s.updMe f).parts = s.parts := rfl
@[simp] theorem State.updMe_queues (s : State) (f : Ctx → Ctx) : (s.updMe f).queues = s.queues := rfl
@[simp] theorem State.updMe_launches (s : State) (f : Ctx → Ctx) : (s.updMe f).launches = s.launches := rfl
@[simp] theorem State.updMe_spans (s : State) (f : Ctx → Ctx) : (s.updMe f).spans = s.spans := rfl
@[simp] theorem State.updMe_images (s : State) (f : Ctx → Ctx) : (s.updMe f).images = s.images := rfl
@[simp] theorem State.updMe_funcs (s : State) (f : Ctx → Ctx) : (s.updMe f).funcs = s.funcs := rfl
@[simp] theorem State.updMe_lantern (s : State) (f : Ctx → Ctx) : (s.updMe f).lantern = s.lantern := rfl
@[simp] theorem State.updMe_prbase (s : State) (f : Ctx → Ctx) : (s.updMe f).prbase = s.prbase := rfl
@[simp] theorem State.updMe_prcmd (s : State) (f : Ctx → Ctx) : (s.updMe f).prcmd = s.prcmd := rfl
@[simp] theorem State.updMe_master (s : State) (f : Ctx → Ctx) : (s.updMe f).master = s.master := rfl
@[simp] theorem State.updMe_election (s : State) (f : Ctx → Ctx) : (s.updMe f).election = s.election := rfl
@[simp] theorem State.updMe_lastPart (s : State) (f : Ctx → Ctx) : (s.updMe f).lastPart = s.lastPart := rfl
@[simp] theorem State.updMe_lastPlace (s : State) (f : Ctx → Ctx) : (s.updMe f).lastPlace = s.lastPlace := rfl
@[simp] theorem State.updMe_fwrites (s : State) (f : Ctx → Ctx) : (s.updMe f).fwrites = s.fwrites := rfl
@[simp] theorem State.updMe_acks (s : State) (f : Ctx → Ctx) : (s.updMe f).acks = s.acks := rfl
@[simp] theorem State.updMe_freqs (s : State) (f : Ctx → Ctx) : (s.updMe f).freqs = s.freqs := rfl
@[simp] theorem State.updMe_fresps (s : State) (f : Ctx → Ctx) : (s.updMe f).fresps = s.fresps := rfl
@[simp] theorem State.updMe_hreqs (s : State) (f : Ctx → Ctx) : (s.updMe f).hreqs = s.hreqs := rfl
@[simp] theorem State.updMe_engine (s : State) (f : Ctx → Ctx) : (s.updMe f).engine = s.engine := rfl
@[simp] theorem State.updMe_fids (s : State) (f : Ctx → Ctx) : (s.updMe f).fids = s.fids := rfl
@[simp] theorem State.updMe_ids (s : State) (f : Ctx → Ctx) : (s.updMe f).ids = s.ids := rfl
@[simp] theorem State.updMe_cur (s : State) (f : Ctx → Ctx) : (s.updMe f).cur = s.cur := rfl
@[simp] theorem State.updMe_curCtx (s : State) (f : Ctx → Ctx) : (s.updMe f).curCtx = s.curCtx := rfl
@[simp] theorem State.updMe_draws (s : State) (f : Ctx → Ctx) : (s.updMe f).draws = s.draws := rfl
@[simp] theorem State.updMe_missed (s : State) (f : Ctx → Ctx) : (s.updMe f).missed = s.missed := rfl
@[simp] theorem State.updMe_recheck (s : State) (f : Ctx → Ctx) : (s.updMe f).recheck = s.recheck := rfl
@[simp] theorem State.updMe_turns (s : State) (f : Ctx → Ctx) : (s.updMe f).turns = s.turns := rfl
@[simp] theorem State.updMe_outside (s : State) (f : Ctx → Ctx) : (s.updMe f).outside = s.outside := rfl

@[simp] theorem State.setBank_powered (s : State) (b : BankId) (v : Bank) : (s.setBank b v).powered = s.powered := rfl
@[simp] theorem State.setBank_cycle (s : State) (b : BankId) (v : Bank) : (s.setBank b v).cycle = s.cycle := rfl
@[simp] theorem State.setBank_rtime (s : State) (b : BankId) (v : Bank) : (s.setBank b v).rtime = s.rtime := rfl
@[simp] theorem State.setBank_cores (s : State) (b : BankId) (v : Bank) : (s.setBank b v).cores = s.cores := rfl
@[simp] theorem State.setBank_sites (s : State) (b : BankId) (v : Bank) : (s.setBank b v).sites = s.sites := rfl
@[simp] theorem State.setBank_clusters (s : State) (b : BankId) (v : Bank) : (s.setBank b v).clusters = s.clusters := rfl
@[simp] theorem State.setBank_dies (s : State) (b : BankId) (v : Bank) : (s.setBank b v).dies = s.dies := rfl
@[simp] theorem State.setBank_mem (s : State) (b : BankId) (v : Bank) : (s.setBank b v).mem = s.mem := rfl
@[simp] theorem State.setBank_bad (s : State) (b : BankId) (v : Bank) : (s.setBank b v).bad = s.bad := rfl
@[simp] theorem State.setBank_straits (s : State) (b : BankId) (v : Bank) : (s.setBank b v).straits = s.straits := rfl
@[simp] theorem State.setBank_windows (s : State) (b : BankId) (v : Bank) : (s.setBank b v).windows = s.windows := rfl
@[simp] theorem State.setBank_ports (s : State) (b : BankId) (v : Bank) : (s.setBank b v).ports = s.ports := rfl
@[simp] theorem State.setBank_parts (s : State) (b : BankId) (v : Bank) : (s.setBank b v).parts = s.parts := rfl
@[simp] theorem State.setBank_queues (s : State) (b : BankId) (v : Bank) : (s.setBank b v).queues = s.queues := rfl
@[simp] theorem State.setBank_launches (s : State) (b : BankId) (v : Bank) : (s.setBank b v).launches = s.launches := rfl
@[simp] theorem State.setBank_spans (s : State) (b : BankId) (v : Bank) : (s.setBank b v).spans = s.spans := rfl
@[simp] theorem State.setBank_images (s : State) (b : BankId) (v : Bank) : (s.setBank b v).images = s.images := rfl
@[simp] theorem State.setBank_funcs (s : State) (b : BankId) (v : Bank) : (s.setBank b v).funcs = s.funcs := rfl
@[simp] theorem State.setBank_lantern (s : State) (b : BankId) (v : Bank) : (s.setBank b v).lantern = s.lantern := rfl
@[simp] theorem State.setBank_prbase (s : State) (b : BankId) (v : Bank) : (s.setBank b v).prbase = s.prbase := rfl
@[simp] theorem State.setBank_prcmd (s : State) (b : BankId) (v : Bank) : (s.setBank b v).prcmd = s.prcmd := rfl
@[simp] theorem State.setBank_master (s : State) (b : BankId) (v : Bank) : (s.setBank b v).master = s.master := rfl
@[simp] theorem State.setBank_election (s : State) (b : BankId) (v : Bank) : (s.setBank b v).election = s.election := rfl
@[simp] theorem State.setBank_lastPart (s : State) (b : BankId) (v : Bank) : (s.setBank b v).lastPart = s.lastPart := rfl
@[simp] theorem State.setBank_lastPlace (s : State) (b : BankId) (v : Bank) : (s.setBank b v).lastPlace = s.lastPlace := rfl
@[simp] theorem State.setBank_fwrites (s : State) (b : BankId) (v : Bank) : (s.setBank b v).fwrites = s.fwrites := rfl
@[simp] theorem State.setBank_acks (s : State) (b : BankId) (v : Bank) : (s.setBank b v).acks = s.acks := rfl
@[simp] theorem State.setBank_freqs (s : State) (b : BankId) (v : Bank) : (s.setBank b v).freqs = s.freqs := rfl
@[simp] theorem State.setBank_fresps (s : State) (b : BankId) (v : Bank) : (s.setBank b v).fresps = s.fresps := rfl
@[simp] theorem State.setBank_hreqs (s : State) (b : BankId) (v : Bank) : (s.setBank b v).hreqs = s.hreqs := rfl
@[simp] theorem State.setBank_engine (s : State) (b : BankId) (v : Bank) : (s.setBank b v).engine = s.engine := rfl
@[simp] theorem State.setBank_fids (s : State) (b : BankId) (v : Bank) : (s.setBank b v).fids = s.fids := rfl
@[simp] theorem State.setBank_ids (s : State) (b : BankId) (v : Bank) : (s.setBank b v).ids = s.ids := rfl
@[simp] theorem State.setBank_cur (s : State) (b : BankId) (v : Bank) : (s.setBank b v).cur = s.cur := rfl
@[simp] theorem State.setBank_curCtx (s : State) (b : BankId) (v : Bank) : (s.setBank b v).curCtx = s.curCtx := rfl
@[simp] theorem State.setBank_draws (s : State) (b : BankId) (v : Bank) : (s.setBank b v).draws = s.draws := rfl
@[simp] theorem State.setBank_missed (s : State) (b : BankId) (v : Bank) : (s.setBank b v).missed = s.missed := rfl
@[simp] theorem State.setBank_recheck (s : State) (b : BankId) (v : Bank) : (s.setBank b v).recheck = s.recheck := rfl
@[simp] theorem State.setBank_turns (s : State) (b : BankId) (v : Bank) : (s.setBank b v).turns = s.turns := rfl
@[simp] theorem State.setBank_outside (s : State) (b : BankId) (v : Bank) : (s.setBank b v).outside = s.outside := rfl

@[simp] theorem State.updBank_powered (s : State) (b : BankId) (f : Bank → Bank) : (s.updBank b f).powered = s.powered := rfl
@[simp] theorem State.updBank_cycle (s : State) (b : BankId) (f : Bank → Bank) : (s.updBank b f).cycle = s.cycle := rfl
@[simp] theorem State.updBank_rtime (s : State) (b : BankId) (f : Bank → Bank) : (s.updBank b f).rtime = s.rtime := rfl
@[simp] theorem State.updBank_cores (s : State) (b : BankId) (f : Bank → Bank) : (s.updBank b f).cores = s.cores := rfl
@[simp] theorem State.updBank_sites (s : State) (b : BankId) (f : Bank → Bank) : (s.updBank b f).sites = s.sites := rfl
@[simp] theorem State.updBank_clusters (s : State) (b : BankId) (f : Bank → Bank) : (s.updBank b f).clusters = s.clusters := rfl
@[simp] theorem State.updBank_dies (s : State) (b : BankId) (f : Bank → Bank) : (s.updBank b f).dies = s.dies := rfl
@[simp] theorem State.updBank_mem (s : State) (b : BankId) (f : Bank → Bank) : (s.updBank b f).mem = s.mem := rfl
@[simp] theorem State.updBank_bad (s : State) (b : BankId) (f : Bank → Bank) : (s.updBank b f).bad = s.bad := rfl
@[simp] theorem State.updBank_straits (s : State) (b : BankId) (f : Bank → Bank) : (s.updBank b f).straits = s.straits := rfl
@[simp] theorem State.updBank_windows (s : State) (b : BankId) (f : Bank → Bank) : (s.updBank b f).windows = s.windows := rfl
@[simp] theorem State.updBank_ports (s : State) (b : BankId) (f : Bank → Bank) : (s.updBank b f).ports = s.ports := rfl
@[simp] theorem State.updBank_parts (s : State) (b : BankId) (f : Bank → Bank) : (s.updBank b f).parts = s.parts := rfl
@[simp] theorem State.updBank_queues (s : State) (b : BankId) (f : Bank → Bank) : (s.updBank b f).queues = s.queues := rfl
@[simp] theorem State.updBank_launches (s : State) (b : BankId) (f : Bank → Bank) : (s.updBank b f).launches = s.launches := rfl
@[simp] theorem State.updBank_spans (s : State) (b : BankId) (f : Bank → Bank) : (s.updBank b f).spans = s.spans := rfl
@[simp] theorem State.updBank_images (s : State) (b : BankId) (f : Bank → Bank) : (s.updBank b f).images = s.images := rfl
@[simp] theorem State.updBank_funcs (s : State) (b : BankId) (f : Bank → Bank) : (s.updBank b f).funcs = s.funcs := rfl
@[simp] theorem State.updBank_lantern (s : State) (b : BankId) (f : Bank → Bank) : (s.updBank b f).lantern = s.lantern := rfl
@[simp] theorem State.updBank_prbase (s : State) (b : BankId) (f : Bank → Bank) : (s.updBank b f).prbase = s.prbase := rfl
@[simp] theorem State.updBank_prcmd (s : State) (b : BankId) (f : Bank → Bank) : (s.updBank b f).prcmd = s.prcmd := rfl
@[simp] theorem State.updBank_master (s : State) (b : BankId) (f : Bank → Bank) : (s.updBank b f).master = s.master := rfl
@[simp] theorem State.updBank_election (s : State) (b : BankId) (f : Bank → Bank) : (s.updBank b f).election = s.election := rfl
@[simp] theorem State.updBank_lastPart (s : State) (b : BankId) (f : Bank → Bank) : (s.updBank b f).lastPart = s.lastPart := rfl
@[simp] theorem State.updBank_lastPlace (s : State) (b : BankId) (f : Bank → Bank) : (s.updBank b f).lastPlace = s.lastPlace := rfl
@[simp] theorem State.updBank_fwrites (s : State) (b : BankId) (f : Bank → Bank) : (s.updBank b f).fwrites = s.fwrites := rfl
@[simp] theorem State.updBank_acks (s : State) (b : BankId) (f : Bank → Bank) : (s.updBank b f).acks = s.acks := rfl
@[simp] theorem State.updBank_freqs (s : State) (b : BankId) (f : Bank → Bank) : (s.updBank b f).freqs = s.freqs := rfl
@[simp] theorem State.updBank_fresps (s : State) (b : BankId) (f : Bank → Bank) : (s.updBank b f).fresps = s.fresps := rfl
@[simp] theorem State.updBank_hreqs (s : State) (b : BankId) (f : Bank → Bank) : (s.updBank b f).hreqs = s.hreqs := rfl
@[simp] theorem State.updBank_engine (s : State) (b : BankId) (f : Bank → Bank) : (s.updBank b f).engine = s.engine := rfl
@[simp] theorem State.updBank_fids (s : State) (b : BankId) (f : Bank → Bank) : (s.updBank b f).fids = s.fids := rfl
@[simp] theorem State.updBank_ids (s : State) (b : BankId) (f : Bank → Bank) : (s.updBank b f).ids = s.ids := rfl
@[simp] theorem State.updBank_cur (s : State) (b : BankId) (f : Bank → Bank) : (s.updBank b f).cur = s.cur := rfl
@[simp] theorem State.updBank_curCtx (s : State) (b : BankId) (f : Bank → Bank) : (s.updBank b f).curCtx = s.curCtx := rfl
@[simp] theorem State.updBank_draws (s : State) (b : BankId) (f : Bank → Bank) : (s.updBank b f).draws = s.draws := rfl
@[simp] theorem State.updBank_missed (s : State) (b : BankId) (f : Bank → Bank) : (s.updBank b f).missed = s.missed := rfl
@[simp] theorem State.updBank_recheck (s : State) (b : BankId) (f : Bank → Bank) : (s.updBank b f).recheck = s.recheck := rfl
@[simp] theorem State.updBank_turns (s : State) (b : BankId) (f : Bank → Bank) : (s.updBank b f).turns = s.turns := rfl
@[simp] theorem State.updBank_outside (s : State) (b : BankId) (f : Bank → Bank) : (s.updBank b f).outside = s.outside := rfl

@[simp] theorem State.setCluster_powered (s : State) (n : SiteId) (v : Cluster) : (s.setCluster n v).powered = s.powered := rfl
@[simp] theorem State.setCluster_cycle (s : State) (n : SiteId) (v : Cluster) : (s.setCluster n v).cycle = s.cycle := rfl
@[simp] theorem State.setCluster_rtime (s : State) (n : SiteId) (v : Cluster) : (s.setCluster n v).rtime = s.rtime := rfl
@[simp] theorem State.setCluster_cores (s : State) (n : SiteId) (v : Cluster) : (s.setCluster n v).cores = s.cores := rfl
@[simp] theorem State.setCluster_banks (s : State) (n : SiteId) (v : Cluster) : (s.setCluster n v).banks = s.banks := rfl
@[simp] theorem State.setCluster_sites (s : State) (n : SiteId) (v : Cluster) : (s.setCluster n v).sites = s.sites := rfl
@[simp] theorem State.setCluster_dies (s : State) (n : SiteId) (v : Cluster) : (s.setCluster n v).dies = s.dies := rfl
@[simp] theorem State.setCluster_mem (s : State) (n : SiteId) (v : Cluster) : (s.setCluster n v).mem = s.mem := rfl
@[simp] theorem State.setCluster_bad (s : State) (n : SiteId) (v : Cluster) : (s.setCluster n v).bad = s.bad := rfl
@[simp] theorem State.setCluster_straits (s : State) (n : SiteId) (v : Cluster) : (s.setCluster n v).straits = s.straits := rfl
@[simp] theorem State.setCluster_windows (s : State) (n : SiteId) (v : Cluster) : (s.setCluster n v).windows = s.windows := rfl
@[simp] theorem State.setCluster_ports (s : State) (n : SiteId) (v : Cluster) : (s.setCluster n v).ports = s.ports := rfl
@[simp] theorem State.setCluster_parts (s : State) (n : SiteId) (v : Cluster) : (s.setCluster n v).parts = s.parts := rfl
@[simp] theorem State.setCluster_queues (s : State) (n : SiteId) (v : Cluster) : (s.setCluster n v).queues = s.queues := rfl
@[simp] theorem State.setCluster_launches (s : State) (n : SiteId) (v : Cluster) : (s.setCluster n v).launches = s.launches := rfl
@[simp] theorem State.setCluster_spans (s : State) (n : SiteId) (v : Cluster) : (s.setCluster n v).spans = s.spans := rfl
@[simp] theorem State.setCluster_images (s : State) (n : SiteId) (v : Cluster) : (s.setCluster n v).images = s.images := rfl
@[simp] theorem State.setCluster_funcs (s : State) (n : SiteId) (v : Cluster) : (s.setCluster n v).funcs = s.funcs := rfl
@[simp] theorem State.setCluster_lantern (s : State) (n : SiteId) (v : Cluster) : (s.setCluster n v).lantern = s.lantern := rfl
@[simp] theorem State.setCluster_prbase (s : State) (n : SiteId) (v : Cluster) : (s.setCluster n v).prbase = s.prbase := rfl
@[simp] theorem State.setCluster_prcmd (s : State) (n : SiteId) (v : Cluster) : (s.setCluster n v).prcmd = s.prcmd := rfl
@[simp] theorem State.setCluster_master (s : State) (n : SiteId) (v : Cluster) : (s.setCluster n v).master = s.master := rfl
@[simp] theorem State.setCluster_election (s : State) (n : SiteId) (v : Cluster) : (s.setCluster n v).election = s.election := rfl
@[simp] theorem State.setCluster_lastPart (s : State) (n : SiteId) (v : Cluster) : (s.setCluster n v).lastPart = s.lastPart := rfl
@[simp] theorem State.setCluster_lastPlace (s : State) (n : SiteId) (v : Cluster) : (s.setCluster n v).lastPlace = s.lastPlace := rfl
@[simp] theorem State.setCluster_fwrites (s : State) (n : SiteId) (v : Cluster) : (s.setCluster n v).fwrites = s.fwrites := rfl
@[simp] theorem State.setCluster_acks (s : State) (n : SiteId) (v : Cluster) : (s.setCluster n v).acks = s.acks := rfl
@[simp] theorem State.setCluster_freqs (s : State) (n : SiteId) (v : Cluster) : (s.setCluster n v).freqs = s.freqs := rfl
@[simp] theorem State.setCluster_fresps (s : State) (n : SiteId) (v : Cluster) : (s.setCluster n v).fresps = s.fresps := rfl
@[simp] theorem State.setCluster_hreqs (s : State) (n : SiteId) (v : Cluster) : (s.setCluster n v).hreqs = s.hreqs := rfl
@[simp] theorem State.setCluster_engine (s : State) (n : SiteId) (v : Cluster) : (s.setCluster n v).engine = s.engine := rfl
@[simp] theorem State.setCluster_fids (s : State) (n : SiteId) (v : Cluster) : (s.setCluster n v).fids = s.fids := rfl
@[simp] theorem State.setCluster_ids (s : State) (n : SiteId) (v : Cluster) : (s.setCluster n v).ids = s.ids := rfl
@[simp] theorem State.setCluster_cur (s : State) (n : SiteId) (v : Cluster) : (s.setCluster n v).cur = s.cur := rfl
@[simp] theorem State.setCluster_curCtx (s : State) (n : SiteId) (v : Cluster) : (s.setCluster n v).curCtx = s.curCtx := rfl
@[simp] theorem State.setCluster_draws (s : State) (n : SiteId) (v : Cluster) : (s.setCluster n v).draws = s.draws := rfl
@[simp] theorem State.setCluster_missed (s : State) (n : SiteId) (v : Cluster) : (s.setCluster n v).missed = s.missed := rfl
@[simp] theorem State.setCluster_recheck (s : State) (n : SiteId) (v : Cluster) : (s.setCluster n v).recheck = s.recheck := rfl
@[simp] theorem State.setCluster_turns (s : State) (n : SiteId) (v : Cluster) : (s.setCluster n v).turns = s.turns := rfl
@[simp] theorem State.setCluster_outside (s : State) (n : SiteId) (v : Cluster) : (s.setCluster n v).outside = s.outside := rfl

@[simp] theorem State.updCluster_powered (s : State) (n : SiteId) (f : Cluster → Cluster) : (s.updCluster n f).powered = s.powered := rfl
@[simp] theorem State.updCluster_cycle (s : State) (n : SiteId) (f : Cluster → Cluster) : (s.updCluster n f).cycle = s.cycle := rfl
@[simp] theorem State.updCluster_rtime (s : State) (n : SiteId) (f : Cluster → Cluster) : (s.updCluster n f).rtime = s.rtime := rfl
@[simp] theorem State.updCluster_cores (s : State) (n : SiteId) (f : Cluster → Cluster) : (s.updCluster n f).cores = s.cores := rfl
@[simp] theorem State.updCluster_banks (s : State) (n : SiteId) (f : Cluster → Cluster) : (s.updCluster n f).banks = s.banks := rfl
@[simp] theorem State.updCluster_sites (s : State) (n : SiteId) (f : Cluster → Cluster) : (s.updCluster n f).sites = s.sites := rfl
@[simp] theorem State.updCluster_dies (s : State) (n : SiteId) (f : Cluster → Cluster) : (s.updCluster n f).dies = s.dies := rfl
@[simp] theorem State.updCluster_mem (s : State) (n : SiteId) (f : Cluster → Cluster) : (s.updCluster n f).mem = s.mem := rfl
@[simp] theorem State.updCluster_bad (s : State) (n : SiteId) (f : Cluster → Cluster) : (s.updCluster n f).bad = s.bad := rfl
@[simp] theorem State.updCluster_straits (s : State) (n : SiteId) (f : Cluster → Cluster) : (s.updCluster n f).straits = s.straits := rfl
@[simp] theorem State.updCluster_windows (s : State) (n : SiteId) (f : Cluster → Cluster) : (s.updCluster n f).windows = s.windows := rfl
@[simp] theorem State.updCluster_ports (s : State) (n : SiteId) (f : Cluster → Cluster) : (s.updCluster n f).ports = s.ports := rfl
@[simp] theorem State.updCluster_parts (s : State) (n : SiteId) (f : Cluster → Cluster) : (s.updCluster n f).parts = s.parts := rfl
@[simp] theorem State.updCluster_queues (s : State) (n : SiteId) (f : Cluster → Cluster) : (s.updCluster n f).queues = s.queues := rfl
@[simp] theorem State.updCluster_launches (s : State) (n : SiteId) (f : Cluster → Cluster) : (s.updCluster n f).launches = s.launches := rfl
@[simp] theorem State.updCluster_spans (s : State) (n : SiteId) (f : Cluster → Cluster) : (s.updCluster n f).spans = s.spans := rfl
@[simp] theorem State.updCluster_images (s : State) (n : SiteId) (f : Cluster → Cluster) : (s.updCluster n f).images = s.images := rfl
@[simp] theorem State.updCluster_funcs (s : State) (n : SiteId) (f : Cluster → Cluster) : (s.updCluster n f).funcs = s.funcs := rfl
@[simp] theorem State.updCluster_lantern (s : State) (n : SiteId) (f : Cluster → Cluster) : (s.updCluster n f).lantern = s.lantern := rfl
@[simp] theorem State.updCluster_prbase (s : State) (n : SiteId) (f : Cluster → Cluster) : (s.updCluster n f).prbase = s.prbase := rfl
@[simp] theorem State.updCluster_prcmd (s : State) (n : SiteId) (f : Cluster → Cluster) : (s.updCluster n f).prcmd = s.prcmd := rfl
@[simp] theorem State.updCluster_master (s : State) (n : SiteId) (f : Cluster → Cluster) : (s.updCluster n f).master = s.master := rfl
@[simp] theorem State.updCluster_election (s : State) (n : SiteId) (f : Cluster → Cluster) : (s.updCluster n f).election = s.election := rfl
@[simp] theorem State.updCluster_lastPart (s : State) (n : SiteId) (f : Cluster → Cluster) : (s.updCluster n f).lastPart = s.lastPart := rfl
@[simp] theorem State.updCluster_lastPlace (s : State) (n : SiteId) (f : Cluster → Cluster) : (s.updCluster n f).lastPlace = s.lastPlace := rfl
@[simp] theorem State.updCluster_fwrites (s : State) (n : SiteId) (f : Cluster → Cluster) : (s.updCluster n f).fwrites = s.fwrites := rfl
@[simp] theorem State.updCluster_acks (s : State) (n : SiteId) (f : Cluster → Cluster) : (s.updCluster n f).acks = s.acks := rfl
@[simp] theorem State.updCluster_freqs (s : State) (n : SiteId) (f : Cluster → Cluster) : (s.updCluster n f).freqs = s.freqs := rfl
@[simp] theorem State.updCluster_fresps (s : State) (n : SiteId) (f : Cluster → Cluster) : (s.updCluster n f).fresps = s.fresps := rfl
@[simp] theorem State.updCluster_hreqs (s : State) (n : SiteId) (f : Cluster → Cluster) : (s.updCluster n f).hreqs = s.hreqs := rfl
@[simp] theorem State.updCluster_engine (s : State) (n : SiteId) (f : Cluster → Cluster) : (s.updCluster n f).engine = s.engine := rfl
@[simp] theorem State.updCluster_fids (s : State) (n : SiteId) (f : Cluster → Cluster) : (s.updCluster n f).fids = s.fids := rfl
@[simp] theorem State.updCluster_ids (s : State) (n : SiteId) (f : Cluster → Cluster) : (s.updCluster n f).ids = s.ids := rfl
@[simp] theorem State.updCluster_cur (s : State) (n : SiteId) (f : Cluster → Cluster) : (s.updCluster n f).cur = s.cur := rfl
@[simp] theorem State.updCluster_curCtx (s : State) (n : SiteId) (f : Cluster → Cluster) : (s.updCluster n f).curCtx = s.curCtx := rfl
@[simp] theorem State.updCluster_draws (s : State) (n : SiteId) (f : Cluster → Cluster) : (s.updCluster n f).draws = s.draws := rfl
@[simp] theorem State.updCluster_missed (s : State) (n : SiteId) (f : Cluster → Cluster) : (s.updCluster n f).missed = s.missed := rfl
@[simp] theorem State.updCluster_recheck (s : State) (n : SiteId) (f : Cluster → Cluster) : (s.updCluster n f).recheck = s.recheck := rfl
@[simp] theorem State.updCluster_turns (s : State) (n : SiteId) (f : Cluster → Cluster) : (s.updCluster n f).turns = s.turns := rfl
@[simp] theorem State.updCluster_outside (s : State) (n : SiteId) (f : Cluster → Cluster) : (s.updCluster n f).outside = s.outside := rfl

@[simp] theorem State.setDie_powered (s : State) (d : Nat) (v : Die) : (s.setDie d v).powered = s.powered := rfl
@[simp] theorem State.setDie_cycle (s : State) (d : Nat) (v : Die) : (s.setDie d v).cycle = s.cycle := rfl
@[simp] theorem State.setDie_rtime (s : State) (d : Nat) (v : Die) : (s.setDie d v).rtime = s.rtime := rfl
@[simp] theorem State.setDie_cores (s : State) (d : Nat) (v : Die) : (s.setDie d v).cores = s.cores := rfl
@[simp] theorem State.setDie_banks (s : State) (d : Nat) (v : Die) : (s.setDie d v).banks = s.banks := rfl
@[simp] theorem State.setDie_sites (s : State) (d : Nat) (v : Die) : (s.setDie d v).sites = s.sites := rfl
@[simp] theorem State.setDie_clusters (s : State) (d : Nat) (v : Die) : (s.setDie d v).clusters = s.clusters := rfl
@[simp] theorem State.setDie_mem (s : State) (d : Nat) (v : Die) : (s.setDie d v).mem = s.mem := rfl
@[simp] theorem State.setDie_bad (s : State) (d : Nat) (v : Die) : (s.setDie d v).bad = s.bad := rfl
@[simp] theorem State.setDie_straits (s : State) (d : Nat) (v : Die) : (s.setDie d v).straits = s.straits := rfl
@[simp] theorem State.setDie_windows (s : State) (d : Nat) (v : Die) : (s.setDie d v).windows = s.windows := rfl
@[simp] theorem State.setDie_ports (s : State) (d : Nat) (v : Die) : (s.setDie d v).ports = s.ports := rfl
@[simp] theorem State.setDie_parts (s : State) (d : Nat) (v : Die) : (s.setDie d v).parts = s.parts := rfl
@[simp] theorem State.setDie_queues (s : State) (d : Nat) (v : Die) : (s.setDie d v).queues = s.queues := rfl
@[simp] theorem State.setDie_launches (s : State) (d : Nat) (v : Die) : (s.setDie d v).launches = s.launches := rfl
@[simp] theorem State.setDie_spans (s : State) (d : Nat) (v : Die) : (s.setDie d v).spans = s.spans := rfl
@[simp] theorem State.setDie_images (s : State) (d : Nat) (v : Die) : (s.setDie d v).images = s.images := rfl
@[simp] theorem State.setDie_funcs (s : State) (d : Nat) (v : Die) : (s.setDie d v).funcs = s.funcs := rfl
@[simp] theorem State.setDie_lantern (s : State) (d : Nat) (v : Die) : (s.setDie d v).lantern = s.lantern := rfl
@[simp] theorem State.setDie_prbase (s : State) (d : Nat) (v : Die) : (s.setDie d v).prbase = s.prbase := rfl
@[simp] theorem State.setDie_prcmd (s : State) (d : Nat) (v : Die) : (s.setDie d v).prcmd = s.prcmd := rfl
@[simp] theorem State.setDie_master (s : State) (d : Nat) (v : Die) : (s.setDie d v).master = s.master := rfl
@[simp] theorem State.setDie_election (s : State) (d : Nat) (v : Die) : (s.setDie d v).election = s.election := rfl
@[simp] theorem State.setDie_lastPart (s : State) (d : Nat) (v : Die) : (s.setDie d v).lastPart = s.lastPart := rfl
@[simp] theorem State.setDie_lastPlace (s : State) (d : Nat) (v : Die) : (s.setDie d v).lastPlace = s.lastPlace := rfl
@[simp] theorem State.setDie_fwrites (s : State) (d : Nat) (v : Die) : (s.setDie d v).fwrites = s.fwrites := rfl
@[simp] theorem State.setDie_acks (s : State) (d : Nat) (v : Die) : (s.setDie d v).acks = s.acks := rfl
@[simp] theorem State.setDie_freqs (s : State) (d : Nat) (v : Die) : (s.setDie d v).freqs = s.freqs := rfl
@[simp] theorem State.setDie_fresps (s : State) (d : Nat) (v : Die) : (s.setDie d v).fresps = s.fresps := rfl
@[simp] theorem State.setDie_hreqs (s : State) (d : Nat) (v : Die) : (s.setDie d v).hreqs = s.hreqs := rfl
@[simp] theorem State.setDie_engine (s : State) (d : Nat) (v : Die) : (s.setDie d v).engine = s.engine := rfl
@[simp] theorem State.setDie_fids (s : State) (d : Nat) (v : Die) : (s.setDie d v).fids = s.fids := rfl
@[simp] theorem State.setDie_ids (s : State) (d : Nat) (v : Die) : (s.setDie d v).ids = s.ids := rfl
@[simp] theorem State.setDie_cur (s : State) (d : Nat) (v : Die) : (s.setDie d v).cur = s.cur := rfl
@[simp] theorem State.setDie_curCtx (s : State) (d : Nat) (v : Die) : (s.setDie d v).curCtx = s.curCtx := rfl
@[simp] theorem State.setDie_draws (s : State) (d : Nat) (v : Die) : (s.setDie d v).draws = s.draws := rfl
@[simp] theorem State.setDie_missed (s : State) (d : Nat) (v : Die) : (s.setDie d v).missed = s.missed := rfl
@[simp] theorem State.setDie_recheck (s : State) (d : Nat) (v : Die) : (s.setDie d v).recheck = s.recheck := rfl
@[simp] theorem State.setDie_turns (s : State) (d : Nat) (v : Die) : (s.setDie d v).turns = s.turns := rfl
@[simp] theorem State.setDie_outside (s : State) (d : Nat) (v : Die) : (s.setDie d v).outside = s.outside := rfl

@[simp] theorem State.updDie_powered (s : State) (d : Nat) (f : Die → Die) : (s.updDie d f).powered = s.powered := rfl
@[simp] theorem State.updDie_cycle (s : State) (d : Nat) (f : Die → Die) : (s.updDie d f).cycle = s.cycle := rfl
@[simp] theorem State.updDie_rtime (s : State) (d : Nat) (f : Die → Die) : (s.updDie d f).rtime = s.rtime := rfl
@[simp] theorem State.updDie_cores (s : State) (d : Nat) (f : Die → Die) : (s.updDie d f).cores = s.cores := rfl
@[simp] theorem State.updDie_banks (s : State) (d : Nat) (f : Die → Die) : (s.updDie d f).banks = s.banks := rfl
@[simp] theorem State.updDie_sites (s : State) (d : Nat) (f : Die → Die) : (s.updDie d f).sites = s.sites := rfl
@[simp] theorem State.updDie_clusters (s : State) (d : Nat) (f : Die → Die) : (s.updDie d f).clusters = s.clusters := rfl
@[simp] theorem State.updDie_mem (s : State) (d : Nat) (f : Die → Die) : (s.updDie d f).mem = s.mem := rfl
@[simp] theorem State.updDie_bad (s : State) (d : Nat) (f : Die → Die) : (s.updDie d f).bad = s.bad := rfl
@[simp] theorem State.updDie_straits (s : State) (d : Nat) (f : Die → Die) : (s.updDie d f).straits = s.straits := rfl
@[simp] theorem State.updDie_windows (s : State) (d : Nat) (f : Die → Die) : (s.updDie d f).windows = s.windows := rfl
@[simp] theorem State.updDie_ports (s : State) (d : Nat) (f : Die → Die) : (s.updDie d f).ports = s.ports := rfl
@[simp] theorem State.updDie_parts (s : State) (d : Nat) (f : Die → Die) : (s.updDie d f).parts = s.parts := rfl
@[simp] theorem State.updDie_queues (s : State) (d : Nat) (f : Die → Die) : (s.updDie d f).queues = s.queues := rfl
@[simp] theorem State.updDie_launches (s : State) (d : Nat) (f : Die → Die) : (s.updDie d f).launches = s.launches := rfl
@[simp] theorem State.updDie_spans (s : State) (d : Nat) (f : Die → Die) : (s.updDie d f).spans = s.spans := rfl
@[simp] theorem State.updDie_images (s : State) (d : Nat) (f : Die → Die) : (s.updDie d f).images = s.images := rfl
@[simp] theorem State.updDie_funcs (s : State) (d : Nat) (f : Die → Die) : (s.updDie d f).funcs = s.funcs := rfl
@[simp] theorem State.updDie_lantern (s : State) (d : Nat) (f : Die → Die) : (s.updDie d f).lantern = s.lantern := rfl
@[simp] theorem State.updDie_prbase (s : State) (d : Nat) (f : Die → Die) : (s.updDie d f).prbase = s.prbase := rfl
@[simp] theorem State.updDie_prcmd (s : State) (d : Nat) (f : Die → Die) : (s.updDie d f).prcmd = s.prcmd := rfl
@[simp] theorem State.updDie_master (s : State) (d : Nat) (f : Die → Die) : (s.updDie d f).master = s.master := rfl
@[simp] theorem State.updDie_election (s : State) (d : Nat) (f : Die → Die) : (s.updDie d f).election = s.election := rfl
@[simp] theorem State.updDie_lastPart (s : State) (d : Nat) (f : Die → Die) : (s.updDie d f).lastPart = s.lastPart := rfl
@[simp] theorem State.updDie_lastPlace (s : State) (d : Nat) (f : Die → Die) : (s.updDie d f).lastPlace = s.lastPlace := rfl
@[simp] theorem State.updDie_fwrites (s : State) (d : Nat) (f : Die → Die) : (s.updDie d f).fwrites = s.fwrites := rfl
@[simp] theorem State.updDie_acks (s : State) (d : Nat) (f : Die → Die) : (s.updDie d f).acks = s.acks := rfl
@[simp] theorem State.updDie_freqs (s : State) (d : Nat) (f : Die → Die) : (s.updDie d f).freqs = s.freqs := rfl
@[simp] theorem State.updDie_fresps (s : State) (d : Nat) (f : Die → Die) : (s.updDie d f).fresps = s.fresps := rfl
@[simp] theorem State.updDie_hreqs (s : State) (d : Nat) (f : Die → Die) : (s.updDie d f).hreqs = s.hreqs := rfl
@[simp] theorem State.updDie_engine (s : State) (d : Nat) (f : Die → Die) : (s.updDie d f).engine = s.engine := rfl
@[simp] theorem State.updDie_fids (s : State) (d : Nat) (f : Die → Die) : (s.updDie d f).fids = s.fids := rfl
@[simp] theorem State.updDie_ids (s : State) (d : Nat) (f : Die → Die) : (s.updDie d f).ids = s.ids := rfl
@[simp] theorem State.updDie_cur (s : State) (d : Nat) (f : Die → Die) : (s.updDie d f).cur = s.cur := rfl
@[simp] theorem State.updDie_curCtx (s : State) (d : Nat) (f : Die → Die) : (s.updDie d f).curCtx = s.curCtx := rfl
@[simp] theorem State.updDie_draws (s : State) (d : Nat) (f : Die → Die) : (s.updDie d f).draws = s.draws := rfl
@[simp] theorem State.updDie_missed (s : State) (d : Nat) (f : Die → Die) : (s.updDie d f).missed = s.missed := rfl
@[simp] theorem State.updDie_recheck (s : State) (d : Nat) (f : Die → Die) : (s.updDie d f).recheck = s.recheck := rfl
@[simp] theorem State.updDie_turns (s : State) (d : Nat) (f : Die → Die) : (s.updDie d f).turns = s.turns := rfl
@[simp] theorem State.updDie_outside (s : State) (d : Nat) (f : Die → Die) : (s.updDie d f).outside = s.outside := rfl

@[simp] theorem State.setPart_powered (s : State) (p : Nat) (v : Part) : (s.setPart p v).powered = s.powered := rfl
@[simp] theorem State.setPart_cycle (s : State) (p : Nat) (v : Part) : (s.setPart p v).cycle = s.cycle := rfl
@[simp] theorem State.setPart_rtime (s : State) (p : Nat) (v : Part) : (s.setPart p v).rtime = s.rtime := rfl
@[simp] theorem State.setPart_cores (s : State) (p : Nat) (v : Part) : (s.setPart p v).cores = s.cores := rfl
@[simp] theorem State.setPart_banks (s : State) (p : Nat) (v : Part) : (s.setPart p v).banks = s.banks := rfl
@[simp] theorem State.setPart_sites (s : State) (p : Nat) (v : Part) : (s.setPart p v).sites = s.sites := rfl
@[simp] theorem State.setPart_clusters (s : State) (p : Nat) (v : Part) : (s.setPart p v).clusters = s.clusters := rfl
@[simp] theorem State.setPart_dies (s : State) (p : Nat) (v : Part) : (s.setPart p v).dies = s.dies := rfl
@[simp] theorem State.setPart_mem (s : State) (p : Nat) (v : Part) : (s.setPart p v).mem = s.mem := rfl
@[simp] theorem State.setPart_bad (s : State) (p : Nat) (v : Part) : (s.setPart p v).bad = s.bad := rfl
@[simp] theorem State.setPart_straits (s : State) (p : Nat) (v : Part) : (s.setPart p v).straits = s.straits := rfl
@[simp] theorem State.setPart_windows (s : State) (p : Nat) (v : Part) : (s.setPart p v).windows = s.windows := rfl
@[simp] theorem State.setPart_ports (s : State) (p : Nat) (v : Part) : (s.setPart p v).ports = s.ports := rfl
@[simp] theorem State.setPart_queues (s : State) (p : Nat) (v : Part) : (s.setPart p v).queues = s.queues := rfl
@[simp] theorem State.setPart_launches (s : State) (p : Nat) (v : Part) : (s.setPart p v).launches = s.launches := rfl
@[simp] theorem State.setPart_spans (s : State) (p : Nat) (v : Part) : (s.setPart p v).spans = s.spans := rfl
@[simp] theorem State.setPart_images (s : State) (p : Nat) (v : Part) : (s.setPart p v).images = s.images := rfl
@[simp] theorem State.setPart_funcs (s : State) (p : Nat) (v : Part) : (s.setPart p v).funcs = s.funcs := rfl
@[simp] theorem State.setPart_lantern (s : State) (p : Nat) (v : Part) : (s.setPart p v).lantern = s.lantern := rfl
@[simp] theorem State.setPart_prbase (s : State) (p : Nat) (v : Part) : (s.setPart p v).prbase = s.prbase := rfl
@[simp] theorem State.setPart_prcmd (s : State) (p : Nat) (v : Part) : (s.setPart p v).prcmd = s.prcmd := rfl
@[simp] theorem State.setPart_master (s : State) (p : Nat) (v : Part) : (s.setPart p v).master = s.master := rfl
@[simp] theorem State.setPart_election (s : State) (p : Nat) (v : Part) : (s.setPart p v).election = s.election := rfl
@[simp] theorem State.setPart_lastPart (s : State) (p : Nat) (v : Part) : (s.setPart p v).lastPart = s.lastPart := rfl
@[simp] theorem State.setPart_lastPlace (s : State) (p : Nat) (v : Part) : (s.setPart p v).lastPlace = s.lastPlace := rfl
@[simp] theorem State.setPart_fwrites (s : State) (p : Nat) (v : Part) : (s.setPart p v).fwrites = s.fwrites := rfl
@[simp] theorem State.setPart_acks (s : State) (p : Nat) (v : Part) : (s.setPart p v).acks = s.acks := rfl
@[simp] theorem State.setPart_freqs (s : State) (p : Nat) (v : Part) : (s.setPart p v).freqs = s.freqs := rfl
@[simp] theorem State.setPart_fresps (s : State) (p : Nat) (v : Part) : (s.setPart p v).fresps = s.fresps := rfl
@[simp] theorem State.setPart_hreqs (s : State) (p : Nat) (v : Part) : (s.setPart p v).hreqs = s.hreqs := rfl
@[simp] theorem State.setPart_engine (s : State) (p : Nat) (v : Part) : (s.setPart p v).engine = s.engine := rfl
@[simp] theorem State.setPart_fids (s : State) (p : Nat) (v : Part) : (s.setPart p v).fids = s.fids := rfl
@[simp] theorem State.setPart_ids (s : State) (p : Nat) (v : Part) : (s.setPart p v).ids = s.ids := rfl
@[simp] theorem State.setPart_cur (s : State) (p : Nat) (v : Part) : (s.setPart p v).cur = s.cur := rfl
@[simp] theorem State.setPart_curCtx (s : State) (p : Nat) (v : Part) : (s.setPart p v).curCtx = s.curCtx := rfl
@[simp] theorem State.setPart_draws (s : State) (p : Nat) (v : Part) : (s.setPart p v).draws = s.draws := rfl
@[simp] theorem State.setPart_missed (s : State) (p : Nat) (v : Part) : (s.setPart p v).missed = s.missed := rfl
@[simp] theorem State.setPart_recheck (s : State) (p : Nat) (v : Part) : (s.setPart p v).recheck = s.recheck := rfl
@[simp] theorem State.setPart_turns (s : State) (p : Nat) (v : Part) : (s.setPart p v).turns = s.turns := rfl
@[simp] theorem State.setPart_outside (s : State) (p : Nat) (v : Part) : (s.setPart p v).outside = s.outside := rfl

@[simp] theorem State.updPart_powered (s : State) (p : Nat) (f : Part → Part) : (s.updPart p f).powered = s.powered := rfl
@[simp] theorem State.updPart_cycle (s : State) (p : Nat) (f : Part → Part) : (s.updPart p f).cycle = s.cycle := rfl
@[simp] theorem State.updPart_rtime (s : State) (p : Nat) (f : Part → Part) : (s.updPart p f).rtime = s.rtime := rfl
@[simp] theorem State.updPart_cores (s : State) (p : Nat) (f : Part → Part) : (s.updPart p f).cores = s.cores := rfl
@[simp] theorem State.updPart_banks (s : State) (p : Nat) (f : Part → Part) : (s.updPart p f).banks = s.banks := rfl
@[simp] theorem State.updPart_sites (s : State) (p : Nat) (f : Part → Part) : (s.updPart p f).sites = s.sites := rfl
@[simp] theorem State.updPart_clusters (s : State) (p : Nat) (f : Part → Part) : (s.updPart p f).clusters = s.clusters := rfl
@[simp] theorem State.updPart_dies (s : State) (p : Nat) (f : Part → Part) : (s.updPart p f).dies = s.dies := rfl
@[simp] theorem State.updPart_mem (s : State) (p : Nat) (f : Part → Part) : (s.updPart p f).mem = s.mem := rfl
@[simp] theorem State.updPart_bad (s : State) (p : Nat) (f : Part → Part) : (s.updPart p f).bad = s.bad := rfl
@[simp] theorem State.updPart_straits (s : State) (p : Nat) (f : Part → Part) : (s.updPart p f).straits = s.straits := rfl
@[simp] theorem State.updPart_windows (s : State) (p : Nat) (f : Part → Part) : (s.updPart p f).windows = s.windows := rfl
@[simp] theorem State.updPart_ports (s : State) (p : Nat) (f : Part → Part) : (s.updPart p f).ports = s.ports := rfl
@[simp] theorem State.updPart_queues (s : State) (p : Nat) (f : Part → Part) : (s.updPart p f).queues = s.queues := rfl
@[simp] theorem State.updPart_launches (s : State) (p : Nat) (f : Part → Part) : (s.updPart p f).launches = s.launches := rfl
@[simp] theorem State.updPart_spans (s : State) (p : Nat) (f : Part → Part) : (s.updPart p f).spans = s.spans := rfl
@[simp] theorem State.updPart_images (s : State) (p : Nat) (f : Part → Part) : (s.updPart p f).images = s.images := rfl
@[simp] theorem State.updPart_funcs (s : State) (p : Nat) (f : Part → Part) : (s.updPart p f).funcs = s.funcs := rfl
@[simp] theorem State.updPart_lantern (s : State) (p : Nat) (f : Part → Part) : (s.updPart p f).lantern = s.lantern := rfl
@[simp] theorem State.updPart_prbase (s : State) (p : Nat) (f : Part → Part) : (s.updPart p f).prbase = s.prbase := rfl
@[simp] theorem State.updPart_prcmd (s : State) (p : Nat) (f : Part → Part) : (s.updPart p f).prcmd = s.prcmd := rfl
@[simp] theorem State.updPart_master (s : State) (p : Nat) (f : Part → Part) : (s.updPart p f).master = s.master := rfl
@[simp] theorem State.updPart_election (s : State) (p : Nat) (f : Part → Part) : (s.updPart p f).election = s.election := rfl
@[simp] theorem State.updPart_lastPart (s : State) (p : Nat) (f : Part → Part) : (s.updPart p f).lastPart = s.lastPart := rfl
@[simp] theorem State.updPart_lastPlace (s : State) (p : Nat) (f : Part → Part) : (s.updPart p f).lastPlace = s.lastPlace := rfl
@[simp] theorem State.updPart_fwrites (s : State) (p : Nat) (f : Part → Part) : (s.updPart p f).fwrites = s.fwrites := rfl
@[simp] theorem State.updPart_acks (s : State) (p : Nat) (f : Part → Part) : (s.updPart p f).acks = s.acks := rfl
@[simp] theorem State.updPart_freqs (s : State) (p : Nat) (f : Part → Part) : (s.updPart p f).freqs = s.freqs := rfl
@[simp] theorem State.updPart_fresps (s : State) (p : Nat) (f : Part → Part) : (s.updPart p f).fresps = s.fresps := rfl
@[simp] theorem State.updPart_hreqs (s : State) (p : Nat) (f : Part → Part) : (s.updPart p f).hreqs = s.hreqs := rfl
@[simp] theorem State.updPart_engine (s : State) (p : Nat) (f : Part → Part) : (s.updPart p f).engine = s.engine := rfl
@[simp] theorem State.updPart_fids (s : State) (p : Nat) (f : Part → Part) : (s.updPart p f).fids = s.fids := rfl
@[simp] theorem State.updPart_ids (s : State) (p : Nat) (f : Part → Part) : (s.updPart p f).ids = s.ids := rfl
@[simp] theorem State.updPart_cur (s : State) (p : Nat) (f : Part → Part) : (s.updPart p f).cur = s.cur := rfl
@[simp] theorem State.updPart_curCtx (s : State) (p : Nat) (f : Part → Part) : (s.updPart p f).curCtx = s.curCtx := rfl
@[simp] theorem State.updPart_draws (s : State) (p : Nat) (f : Part → Part) : (s.updPart p f).draws = s.draws := rfl
@[simp] theorem State.updPart_missed (s : State) (p : Nat) (f : Part → Part) : (s.updPart p f).missed = s.missed := rfl
@[simp] theorem State.updPart_recheck (s : State) (p : Nat) (f : Part → Part) : (s.updPart p f).recheck = s.recheck := rfl
@[simp] theorem State.updPart_turns (s : State) (p : Nat) (f : Part → Part) : (s.updPart p f).turns = s.turns := rfl
@[simp] theorem State.updPart_outside (s : State) (p : Nat) (f : Part → Part) : (s.updPart p f).outside = s.outside := rfl

@[simp] theorem State.updFunc_powered (s : State) (n : Nat) (f : Func → Func) : (s.updFunc n f).powered = s.powered := rfl
@[simp] theorem State.updFunc_cycle (s : State) (n : Nat) (f : Func → Func) : (s.updFunc n f).cycle = s.cycle := rfl
@[simp] theorem State.updFunc_rtime (s : State) (n : Nat) (f : Func → Func) : (s.updFunc n f).rtime = s.rtime := rfl
@[simp] theorem State.updFunc_cores (s : State) (n : Nat) (f : Func → Func) : (s.updFunc n f).cores = s.cores := rfl
@[simp] theorem State.updFunc_banks (s : State) (n : Nat) (f : Func → Func) : (s.updFunc n f).banks = s.banks := rfl
@[simp] theorem State.updFunc_sites (s : State) (n : Nat) (f : Func → Func) : (s.updFunc n f).sites = s.sites := rfl
@[simp] theorem State.updFunc_clusters (s : State) (n : Nat) (f : Func → Func) : (s.updFunc n f).clusters = s.clusters := rfl
@[simp] theorem State.updFunc_dies (s : State) (n : Nat) (f : Func → Func) : (s.updFunc n f).dies = s.dies := rfl
@[simp] theorem State.updFunc_mem (s : State) (n : Nat) (f : Func → Func) : (s.updFunc n f).mem = s.mem := rfl
@[simp] theorem State.updFunc_bad (s : State) (n : Nat) (f : Func → Func) : (s.updFunc n f).bad = s.bad := rfl
@[simp] theorem State.updFunc_straits (s : State) (n : Nat) (f : Func → Func) : (s.updFunc n f).straits = s.straits := rfl
@[simp] theorem State.updFunc_windows (s : State) (n : Nat) (f : Func → Func) : (s.updFunc n f).windows = s.windows := rfl
@[simp] theorem State.updFunc_ports (s : State) (n : Nat) (f : Func → Func) : (s.updFunc n f).ports = s.ports := rfl
@[simp] theorem State.updFunc_parts (s : State) (n : Nat) (f : Func → Func) : (s.updFunc n f).parts = s.parts := rfl
@[simp] theorem State.updFunc_queues (s : State) (n : Nat) (f : Func → Func) : (s.updFunc n f).queues = s.queues := rfl
@[simp] theorem State.updFunc_launches (s : State) (n : Nat) (f : Func → Func) : (s.updFunc n f).launches = s.launches := rfl
@[simp] theorem State.updFunc_spans (s : State) (n : Nat) (f : Func → Func) : (s.updFunc n f).spans = s.spans := rfl
@[simp] theorem State.updFunc_images (s : State) (n : Nat) (f : Func → Func) : (s.updFunc n f).images = s.images := rfl
@[simp] theorem State.updFunc_lantern (s : State) (n : Nat) (f : Func → Func) : (s.updFunc n f).lantern = s.lantern := rfl
@[simp] theorem State.updFunc_prbase (s : State) (n : Nat) (f : Func → Func) : (s.updFunc n f).prbase = s.prbase := rfl
@[simp] theorem State.updFunc_prcmd (s : State) (n : Nat) (f : Func → Func) : (s.updFunc n f).prcmd = s.prcmd := rfl
@[simp] theorem State.updFunc_master (s : State) (n : Nat) (f : Func → Func) : (s.updFunc n f).master = s.master := rfl
@[simp] theorem State.updFunc_election (s : State) (n : Nat) (f : Func → Func) : (s.updFunc n f).election = s.election := rfl
@[simp] theorem State.updFunc_lastPart (s : State) (n : Nat) (f : Func → Func) : (s.updFunc n f).lastPart = s.lastPart := rfl
@[simp] theorem State.updFunc_lastPlace (s : State) (n : Nat) (f : Func → Func) : (s.updFunc n f).lastPlace = s.lastPlace := rfl
@[simp] theorem State.updFunc_fwrites (s : State) (n : Nat) (f : Func → Func) : (s.updFunc n f).fwrites = s.fwrites := rfl
@[simp] theorem State.updFunc_acks (s : State) (n : Nat) (f : Func → Func) : (s.updFunc n f).acks = s.acks := rfl
@[simp] theorem State.updFunc_freqs (s : State) (n : Nat) (f : Func → Func) : (s.updFunc n f).freqs = s.freqs := rfl
@[simp] theorem State.updFunc_fresps (s : State) (n : Nat) (f : Func → Func) : (s.updFunc n f).fresps = s.fresps := rfl
@[simp] theorem State.updFunc_hreqs (s : State) (n : Nat) (f : Func → Func) : (s.updFunc n f).hreqs = s.hreqs := rfl
@[simp] theorem State.updFunc_engine (s : State) (n : Nat) (f : Func → Func) : (s.updFunc n f).engine = s.engine := rfl
@[simp] theorem State.updFunc_fids (s : State) (n : Nat) (f : Func → Func) : (s.updFunc n f).fids = s.fids := rfl
@[simp] theorem State.updFunc_ids (s : State) (n : Nat) (f : Func → Func) : (s.updFunc n f).ids = s.ids := rfl
@[simp] theorem State.updFunc_cur (s : State) (n : Nat) (f : Func → Func) : (s.updFunc n f).cur = s.cur := rfl
@[simp] theorem State.updFunc_curCtx (s : State) (n : Nat) (f : Func → Func) : (s.updFunc n f).curCtx = s.curCtx := rfl
@[simp] theorem State.updFunc_draws (s : State) (n : Nat) (f : Func → Func) : (s.updFunc n f).draws = s.draws := rfl
@[simp] theorem State.updFunc_missed (s : State) (n : Nat) (f : Func → Func) : (s.updFunc n f).missed = s.missed := rfl
@[simp] theorem State.updFunc_recheck (s : State) (n : Nat) (f : Func → Func) : (s.updFunc n f).recheck = s.recheck := rfl
@[simp] theorem State.updFunc_turns (s : State) (n : Nat) (f : Func → Func) : (s.updFunc n f).turns = s.turns := rfl
@[simp] theorem State.updFunc_outside (s : State) (n : Nat) (f : Func → Func) : (s.updFunc n f).outside = s.outside := rfl

@[simp] theorem State.updQueue_powered (s : State) (fn q : Nat) (f : Queue → Queue) : (s.updQueue fn q f).powered = s.powered := rfl
@[simp] theorem State.updQueue_cycle (s : State) (fn q : Nat) (f : Queue → Queue) : (s.updQueue fn q f).cycle = s.cycle := rfl
@[simp] theorem State.updQueue_rtime (s : State) (fn q : Nat) (f : Queue → Queue) : (s.updQueue fn q f).rtime = s.rtime := rfl
@[simp] theorem State.updQueue_cores (s : State) (fn q : Nat) (f : Queue → Queue) : (s.updQueue fn q f).cores = s.cores := rfl
@[simp] theorem State.updQueue_banks (s : State) (fn q : Nat) (f : Queue → Queue) : (s.updQueue fn q f).banks = s.banks := rfl
@[simp] theorem State.updQueue_sites (s : State) (fn q : Nat) (f : Queue → Queue) : (s.updQueue fn q f).sites = s.sites := rfl
@[simp] theorem State.updQueue_clusters (s : State) (fn q : Nat) (f : Queue → Queue) : (s.updQueue fn q f).clusters = s.clusters := rfl
@[simp] theorem State.updQueue_dies (s : State) (fn q : Nat) (f : Queue → Queue) : (s.updQueue fn q f).dies = s.dies := rfl
@[simp] theorem State.updQueue_mem (s : State) (fn q : Nat) (f : Queue → Queue) : (s.updQueue fn q f).mem = s.mem := rfl
@[simp] theorem State.updQueue_bad (s : State) (fn q : Nat) (f : Queue → Queue) : (s.updQueue fn q f).bad = s.bad := rfl
@[simp] theorem State.updQueue_straits (s : State) (fn q : Nat) (f : Queue → Queue) : (s.updQueue fn q f).straits = s.straits := rfl
@[simp] theorem State.updQueue_windows (s : State) (fn q : Nat) (f : Queue → Queue) : (s.updQueue fn q f).windows = s.windows := rfl
@[simp] theorem State.updQueue_ports (s : State) (fn q : Nat) (f : Queue → Queue) : (s.updQueue fn q f).ports = s.ports := rfl
@[simp] theorem State.updQueue_parts (s : State) (fn q : Nat) (f : Queue → Queue) : (s.updQueue fn q f).parts = s.parts := rfl
@[simp] theorem State.updQueue_launches (s : State) (fn q : Nat) (f : Queue → Queue) : (s.updQueue fn q f).launches = s.launches := rfl
@[simp] theorem State.updQueue_spans (s : State) (fn q : Nat) (f : Queue → Queue) : (s.updQueue fn q f).spans = s.spans := rfl
@[simp] theorem State.updQueue_images (s : State) (fn q : Nat) (f : Queue → Queue) : (s.updQueue fn q f).images = s.images := rfl
@[simp] theorem State.updQueue_funcs (s : State) (fn q : Nat) (f : Queue → Queue) : (s.updQueue fn q f).funcs = s.funcs := rfl
@[simp] theorem State.updQueue_lantern (s : State) (fn q : Nat) (f : Queue → Queue) : (s.updQueue fn q f).lantern = s.lantern := rfl
@[simp] theorem State.updQueue_prbase (s : State) (fn q : Nat) (f : Queue → Queue) : (s.updQueue fn q f).prbase = s.prbase := rfl
@[simp] theorem State.updQueue_prcmd (s : State) (fn q : Nat) (f : Queue → Queue) : (s.updQueue fn q f).prcmd = s.prcmd := rfl
@[simp] theorem State.updQueue_master (s : State) (fn q : Nat) (f : Queue → Queue) : (s.updQueue fn q f).master = s.master := rfl
@[simp] theorem State.updQueue_election (s : State) (fn q : Nat) (f : Queue → Queue) : (s.updQueue fn q f).election = s.election := rfl
@[simp] theorem State.updQueue_lastPart (s : State) (fn q : Nat) (f : Queue → Queue) : (s.updQueue fn q f).lastPart = s.lastPart := rfl
@[simp] theorem State.updQueue_lastPlace (s : State) (fn q : Nat) (f : Queue → Queue) : (s.updQueue fn q f).lastPlace = s.lastPlace := rfl
@[simp] theorem State.updQueue_fwrites (s : State) (fn q : Nat) (f : Queue → Queue) : (s.updQueue fn q f).fwrites = s.fwrites := rfl
@[simp] theorem State.updQueue_acks (s : State) (fn q : Nat) (f : Queue → Queue) : (s.updQueue fn q f).acks = s.acks := rfl
@[simp] theorem State.updQueue_freqs (s : State) (fn q : Nat) (f : Queue → Queue) : (s.updQueue fn q f).freqs = s.freqs := rfl
@[simp] theorem State.updQueue_fresps (s : State) (fn q : Nat) (f : Queue → Queue) : (s.updQueue fn q f).fresps = s.fresps := rfl
@[simp] theorem State.updQueue_hreqs (s : State) (fn q : Nat) (f : Queue → Queue) : (s.updQueue fn q f).hreqs = s.hreqs := rfl
@[simp] theorem State.updQueue_engine (s : State) (fn q : Nat) (f : Queue → Queue) : (s.updQueue fn q f).engine = s.engine := rfl
@[simp] theorem State.updQueue_fids (s : State) (fn q : Nat) (f : Queue → Queue) : (s.updQueue fn q f).fids = s.fids := rfl
@[simp] theorem State.updQueue_ids (s : State) (fn q : Nat) (f : Queue → Queue) : (s.updQueue fn q f).ids = s.ids := rfl
@[simp] theorem State.updQueue_cur (s : State) (fn q : Nat) (f : Queue → Queue) : (s.updQueue fn q f).cur = s.cur := rfl
@[simp] theorem State.updQueue_curCtx (s : State) (fn q : Nat) (f : Queue → Queue) : (s.updQueue fn q f).curCtx = s.curCtx := rfl
@[simp] theorem State.updQueue_draws (s : State) (fn q : Nat) (f : Queue → Queue) : (s.updQueue fn q f).draws = s.draws := rfl
@[simp] theorem State.updQueue_missed (s : State) (fn q : Nat) (f : Queue → Queue) : (s.updQueue fn q f).missed = s.missed := rfl
@[simp] theorem State.updQueue_recheck (s : State) (fn q : Nat) (f : Queue → Queue) : (s.updQueue fn q f).recheck = s.recheck := rfl
@[simp] theorem State.updQueue_turns (s : State) (fn q : Nat) (f : Queue → Queue) : (s.updQueue fn q f).turns = s.turns := rfl
@[simp] theorem State.updQueue_outside (s : State) (fn q : Nat) (f : Queue → Queue) : (s.updQueue fn q f).outside = s.outside := rfl

@[simp] theorem State.updPort_powered (s : State) (n : Nat) (f : Port → Port) : (s.updPort n f).powered = s.powered := rfl
@[simp] theorem State.updPort_cycle (s : State) (n : Nat) (f : Port → Port) : (s.updPort n f).cycle = s.cycle := rfl
@[simp] theorem State.updPort_rtime (s : State) (n : Nat) (f : Port → Port) : (s.updPort n f).rtime = s.rtime := rfl
@[simp] theorem State.updPort_cores (s : State) (n : Nat) (f : Port → Port) : (s.updPort n f).cores = s.cores := rfl
@[simp] theorem State.updPort_banks (s : State) (n : Nat) (f : Port → Port) : (s.updPort n f).banks = s.banks := rfl
@[simp] theorem State.updPort_sites (s : State) (n : Nat) (f : Port → Port) : (s.updPort n f).sites = s.sites := rfl
@[simp] theorem State.updPort_clusters (s : State) (n : Nat) (f : Port → Port) : (s.updPort n f).clusters = s.clusters := rfl
@[simp] theorem State.updPort_dies (s : State) (n : Nat) (f : Port → Port) : (s.updPort n f).dies = s.dies := rfl
@[simp] theorem State.updPort_mem (s : State) (n : Nat) (f : Port → Port) : (s.updPort n f).mem = s.mem := rfl
@[simp] theorem State.updPort_bad (s : State) (n : Nat) (f : Port → Port) : (s.updPort n f).bad = s.bad := rfl
@[simp] theorem State.updPort_straits (s : State) (n : Nat) (f : Port → Port) : (s.updPort n f).straits = s.straits := rfl
@[simp] theorem State.updPort_windows (s : State) (n : Nat) (f : Port → Port) : (s.updPort n f).windows = s.windows := rfl
@[simp] theorem State.updPort_parts (s : State) (n : Nat) (f : Port → Port) : (s.updPort n f).parts = s.parts := rfl
@[simp] theorem State.updPort_queues (s : State) (n : Nat) (f : Port → Port) : (s.updPort n f).queues = s.queues := rfl
@[simp] theorem State.updPort_launches (s : State) (n : Nat) (f : Port → Port) : (s.updPort n f).launches = s.launches := rfl
@[simp] theorem State.updPort_spans (s : State) (n : Nat) (f : Port → Port) : (s.updPort n f).spans = s.spans := rfl
@[simp] theorem State.updPort_images (s : State) (n : Nat) (f : Port → Port) : (s.updPort n f).images = s.images := rfl
@[simp] theorem State.updPort_funcs (s : State) (n : Nat) (f : Port → Port) : (s.updPort n f).funcs = s.funcs := rfl
@[simp] theorem State.updPort_lantern (s : State) (n : Nat) (f : Port → Port) : (s.updPort n f).lantern = s.lantern := rfl
@[simp] theorem State.updPort_prbase (s : State) (n : Nat) (f : Port → Port) : (s.updPort n f).prbase = s.prbase := rfl
@[simp] theorem State.updPort_prcmd (s : State) (n : Nat) (f : Port → Port) : (s.updPort n f).prcmd = s.prcmd := rfl
@[simp] theorem State.updPort_master (s : State) (n : Nat) (f : Port → Port) : (s.updPort n f).master = s.master := rfl
@[simp] theorem State.updPort_election (s : State) (n : Nat) (f : Port → Port) : (s.updPort n f).election = s.election := rfl
@[simp] theorem State.updPort_lastPart (s : State) (n : Nat) (f : Port → Port) : (s.updPort n f).lastPart = s.lastPart := rfl
@[simp] theorem State.updPort_lastPlace (s : State) (n : Nat) (f : Port → Port) : (s.updPort n f).lastPlace = s.lastPlace := rfl
@[simp] theorem State.updPort_fwrites (s : State) (n : Nat) (f : Port → Port) : (s.updPort n f).fwrites = s.fwrites := rfl
@[simp] theorem State.updPort_acks (s : State) (n : Nat) (f : Port → Port) : (s.updPort n f).acks = s.acks := rfl
@[simp] theorem State.updPort_freqs (s : State) (n : Nat) (f : Port → Port) : (s.updPort n f).freqs = s.freqs := rfl
@[simp] theorem State.updPort_fresps (s : State) (n : Nat) (f : Port → Port) : (s.updPort n f).fresps = s.fresps := rfl
@[simp] theorem State.updPort_hreqs (s : State) (n : Nat) (f : Port → Port) : (s.updPort n f).hreqs = s.hreqs := rfl
@[simp] theorem State.updPort_engine (s : State) (n : Nat) (f : Port → Port) : (s.updPort n f).engine = s.engine := rfl
@[simp] theorem State.updPort_fids (s : State) (n : Nat) (f : Port → Port) : (s.updPort n f).fids = s.fids := rfl
@[simp] theorem State.updPort_ids (s : State) (n : Nat) (f : Port → Port) : (s.updPort n f).ids = s.ids := rfl
@[simp] theorem State.updPort_cur (s : State) (n : Nat) (f : Port → Port) : (s.updPort n f).cur = s.cur := rfl
@[simp] theorem State.updPort_curCtx (s : State) (n : Nat) (f : Port → Port) : (s.updPort n f).curCtx = s.curCtx := rfl
@[simp] theorem State.updPort_draws (s : State) (n : Nat) (f : Port → Port) : (s.updPort n f).draws = s.draws := rfl
@[simp] theorem State.updPort_missed (s : State) (n : Nat) (f : Port → Port) : (s.updPort n f).missed = s.missed := rfl
@[simp] theorem State.updPort_recheck (s : State) (n : Nat) (f : Port → Port) : (s.updPort n f).recheck = s.recheck := rfl
@[simp] theorem State.updPort_turns (s : State) (n : Nat) (f : Port → Port) : (s.updPort n f).turns = s.turns := rfl
@[simp] theorem State.updPort_outside (s : State) (n : Nat) (f : Port → Port) : (s.updPort n f).outside = s.outside := rfl

@[simp] theorem State.updStrait_powered (s : State) (n : Nat) (f : Strait → Strait) : (s.updStrait n f).powered = s.powered := rfl
@[simp] theorem State.updStrait_cycle (s : State) (n : Nat) (f : Strait → Strait) : (s.updStrait n f).cycle = s.cycle := rfl
@[simp] theorem State.updStrait_rtime (s : State) (n : Nat) (f : Strait → Strait) : (s.updStrait n f).rtime = s.rtime := rfl
@[simp] theorem State.updStrait_cores (s : State) (n : Nat) (f : Strait → Strait) : (s.updStrait n f).cores = s.cores := rfl
@[simp] theorem State.updStrait_banks (s : State) (n : Nat) (f : Strait → Strait) : (s.updStrait n f).banks = s.banks := rfl
@[simp] theorem State.updStrait_sites (s : State) (n : Nat) (f : Strait → Strait) : (s.updStrait n f).sites = s.sites := rfl
@[simp] theorem State.updStrait_clusters (s : State) (n : Nat) (f : Strait → Strait) : (s.updStrait n f).clusters = s.clusters := rfl
@[simp] theorem State.updStrait_dies (s : State) (n : Nat) (f : Strait → Strait) : (s.updStrait n f).dies = s.dies := rfl
@[simp] theorem State.updStrait_mem (s : State) (n : Nat) (f : Strait → Strait) : (s.updStrait n f).mem = s.mem := rfl
@[simp] theorem State.updStrait_bad (s : State) (n : Nat) (f : Strait → Strait) : (s.updStrait n f).bad = s.bad := rfl
@[simp] theorem State.updStrait_windows (s : State) (n : Nat) (f : Strait → Strait) : (s.updStrait n f).windows = s.windows := rfl
@[simp] theorem State.updStrait_ports (s : State) (n : Nat) (f : Strait → Strait) : (s.updStrait n f).ports = s.ports := rfl
@[simp] theorem State.updStrait_parts (s : State) (n : Nat) (f : Strait → Strait) : (s.updStrait n f).parts = s.parts := rfl
@[simp] theorem State.updStrait_queues (s : State) (n : Nat) (f : Strait → Strait) : (s.updStrait n f).queues = s.queues := rfl
@[simp] theorem State.updStrait_launches (s : State) (n : Nat) (f : Strait → Strait) : (s.updStrait n f).launches = s.launches := rfl
@[simp] theorem State.updStrait_spans (s : State) (n : Nat) (f : Strait → Strait) : (s.updStrait n f).spans = s.spans := rfl
@[simp] theorem State.updStrait_images (s : State) (n : Nat) (f : Strait → Strait) : (s.updStrait n f).images = s.images := rfl
@[simp] theorem State.updStrait_funcs (s : State) (n : Nat) (f : Strait → Strait) : (s.updStrait n f).funcs = s.funcs := rfl
@[simp] theorem State.updStrait_lantern (s : State) (n : Nat) (f : Strait → Strait) : (s.updStrait n f).lantern = s.lantern := rfl
@[simp] theorem State.updStrait_prbase (s : State) (n : Nat) (f : Strait → Strait) : (s.updStrait n f).prbase = s.prbase := rfl
@[simp] theorem State.updStrait_prcmd (s : State) (n : Nat) (f : Strait → Strait) : (s.updStrait n f).prcmd = s.prcmd := rfl
@[simp] theorem State.updStrait_master (s : State) (n : Nat) (f : Strait → Strait) : (s.updStrait n f).master = s.master := rfl
@[simp] theorem State.updStrait_election (s : State) (n : Nat) (f : Strait → Strait) : (s.updStrait n f).election = s.election := rfl
@[simp] theorem State.updStrait_lastPart (s : State) (n : Nat) (f : Strait → Strait) : (s.updStrait n f).lastPart = s.lastPart := rfl
@[simp] theorem State.updStrait_lastPlace (s : State) (n : Nat) (f : Strait → Strait) : (s.updStrait n f).lastPlace = s.lastPlace := rfl
@[simp] theorem State.updStrait_fwrites (s : State) (n : Nat) (f : Strait → Strait) : (s.updStrait n f).fwrites = s.fwrites := rfl
@[simp] theorem State.updStrait_acks (s : State) (n : Nat) (f : Strait → Strait) : (s.updStrait n f).acks = s.acks := rfl
@[simp] theorem State.updStrait_freqs (s : State) (n : Nat) (f : Strait → Strait) : (s.updStrait n f).freqs = s.freqs := rfl
@[simp] theorem State.updStrait_fresps (s : State) (n : Nat) (f : Strait → Strait) : (s.updStrait n f).fresps = s.fresps := rfl
@[simp] theorem State.updStrait_hreqs (s : State) (n : Nat) (f : Strait → Strait) : (s.updStrait n f).hreqs = s.hreqs := rfl
@[simp] theorem State.updStrait_engine (s : State) (n : Nat) (f : Strait → Strait) : (s.updStrait n f).engine = s.engine := rfl
@[simp] theorem State.updStrait_fids (s : State) (n : Nat) (f : Strait → Strait) : (s.updStrait n f).fids = s.fids := rfl
@[simp] theorem State.updStrait_ids (s : State) (n : Nat) (f : Strait → Strait) : (s.updStrait n f).ids = s.ids := rfl
@[simp] theorem State.updStrait_cur (s : State) (n : Nat) (f : Strait → Strait) : (s.updStrait n f).cur = s.cur := rfl
@[simp] theorem State.updStrait_curCtx (s : State) (n : Nat) (f : Strait → Strait) : (s.updStrait n f).curCtx = s.curCtx := rfl
@[simp] theorem State.updStrait_draws (s : State) (n : Nat) (f : Strait → Strait) : (s.updStrait n f).draws = s.draws := rfl
@[simp] theorem State.updStrait_missed (s : State) (n : Nat) (f : Strait → Strait) : (s.updStrait n f).missed = s.missed := rfl
@[simp] theorem State.updStrait_recheck (s : State) (n : Nat) (f : Strait → Strait) : (s.updStrait n f).recheck = s.recheck := rfl
@[simp] theorem State.updStrait_turns (s : State) (n : Nat) (f : Strait → Strait) : (s.updStrait n f).turns = s.turns := rfl
@[simp] theorem State.updStrait_outside (s : State) (n : Nat) (f : Strait → Strait) : (s.updStrait n f).outside = s.outside := rfl

@[simp] theorem State.updLaunch_powered (s : State) (id : Nat) (f : Launch → Launch) : (s.updLaunch id f).powered = s.powered := rfl
@[simp] theorem State.updLaunch_cycle (s : State) (id : Nat) (f : Launch → Launch) : (s.updLaunch id f).cycle = s.cycle := rfl
@[simp] theorem State.updLaunch_rtime (s : State) (id : Nat) (f : Launch → Launch) : (s.updLaunch id f).rtime = s.rtime := rfl
@[simp] theorem State.updLaunch_cores (s : State) (id : Nat) (f : Launch → Launch) : (s.updLaunch id f).cores = s.cores := rfl
@[simp] theorem State.updLaunch_banks (s : State) (id : Nat) (f : Launch → Launch) : (s.updLaunch id f).banks = s.banks := rfl
@[simp] theorem State.updLaunch_sites (s : State) (id : Nat) (f : Launch → Launch) : (s.updLaunch id f).sites = s.sites := rfl
@[simp] theorem State.updLaunch_clusters (s : State) (id : Nat) (f : Launch → Launch) : (s.updLaunch id f).clusters = s.clusters := rfl
@[simp] theorem State.updLaunch_dies (s : State) (id : Nat) (f : Launch → Launch) : (s.updLaunch id f).dies = s.dies := rfl
@[simp] theorem State.updLaunch_mem (s : State) (id : Nat) (f : Launch → Launch) : (s.updLaunch id f).mem = s.mem := rfl
@[simp] theorem State.updLaunch_bad (s : State) (id : Nat) (f : Launch → Launch) : (s.updLaunch id f).bad = s.bad := rfl
@[simp] theorem State.updLaunch_straits (s : State) (id : Nat) (f : Launch → Launch) : (s.updLaunch id f).straits = s.straits := rfl
@[simp] theorem State.updLaunch_windows (s : State) (id : Nat) (f : Launch → Launch) : (s.updLaunch id f).windows = s.windows := rfl
@[simp] theorem State.updLaunch_ports (s : State) (id : Nat) (f : Launch → Launch) : (s.updLaunch id f).ports = s.ports := rfl
@[simp] theorem State.updLaunch_parts (s : State) (id : Nat) (f : Launch → Launch) : (s.updLaunch id f).parts = s.parts := rfl
@[simp] theorem State.updLaunch_queues (s : State) (id : Nat) (f : Launch → Launch) : (s.updLaunch id f).queues = s.queues := rfl
@[simp] theorem State.updLaunch_spans (s : State) (id : Nat) (f : Launch → Launch) : (s.updLaunch id f).spans = s.spans := rfl
@[simp] theorem State.updLaunch_images (s : State) (id : Nat) (f : Launch → Launch) : (s.updLaunch id f).images = s.images := rfl
@[simp] theorem State.updLaunch_funcs (s : State) (id : Nat) (f : Launch → Launch) : (s.updLaunch id f).funcs = s.funcs := rfl
@[simp] theorem State.updLaunch_lantern (s : State) (id : Nat) (f : Launch → Launch) : (s.updLaunch id f).lantern = s.lantern := rfl
@[simp] theorem State.updLaunch_prbase (s : State) (id : Nat) (f : Launch → Launch) : (s.updLaunch id f).prbase = s.prbase := rfl
@[simp] theorem State.updLaunch_prcmd (s : State) (id : Nat) (f : Launch → Launch) : (s.updLaunch id f).prcmd = s.prcmd := rfl
@[simp] theorem State.updLaunch_master (s : State) (id : Nat) (f : Launch → Launch) : (s.updLaunch id f).master = s.master := rfl
@[simp] theorem State.updLaunch_election (s : State) (id : Nat) (f : Launch → Launch) : (s.updLaunch id f).election = s.election := rfl
@[simp] theorem State.updLaunch_lastPart (s : State) (id : Nat) (f : Launch → Launch) : (s.updLaunch id f).lastPart = s.lastPart := rfl
@[simp] theorem State.updLaunch_lastPlace (s : State) (id : Nat) (f : Launch → Launch) : (s.updLaunch id f).lastPlace = s.lastPlace := rfl
@[simp] theorem State.updLaunch_fwrites (s : State) (id : Nat) (f : Launch → Launch) : (s.updLaunch id f).fwrites = s.fwrites := rfl
@[simp] theorem State.updLaunch_acks (s : State) (id : Nat) (f : Launch → Launch) : (s.updLaunch id f).acks = s.acks := rfl
@[simp] theorem State.updLaunch_freqs (s : State) (id : Nat) (f : Launch → Launch) : (s.updLaunch id f).freqs = s.freqs := rfl
@[simp] theorem State.updLaunch_fresps (s : State) (id : Nat) (f : Launch → Launch) : (s.updLaunch id f).fresps = s.fresps := rfl
@[simp] theorem State.updLaunch_hreqs (s : State) (id : Nat) (f : Launch → Launch) : (s.updLaunch id f).hreqs = s.hreqs := rfl
@[simp] theorem State.updLaunch_engine (s : State) (id : Nat) (f : Launch → Launch) : (s.updLaunch id f).engine = s.engine := rfl
@[simp] theorem State.updLaunch_fids (s : State) (id : Nat) (f : Launch → Launch) : (s.updLaunch id f).fids = s.fids := rfl
@[simp] theorem State.updLaunch_ids (s : State) (id : Nat) (f : Launch → Launch) : (s.updLaunch id f).ids = s.ids := rfl
@[simp] theorem State.updLaunch_cur (s : State) (id : Nat) (f : Launch → Launch) : (s.updLaunch id f).cur = s.cur := rfl
@[simp] theorem State.updLaunch_curCtx (s : State) (id : Nat) (f : Launch → Launch) : (s.updLaunch id f).curCtx = s.curCtx := rfl
@[simp] theorem State.updLaunch_draws (s : State) (id : Nat) (f : Launch → Launch) : (s.updLaunch id f).draws = s.draws := rfl
@[simp] theorem State.updLaunch_missed (s : State) (id : Nat) (f : Launch → Launch) : (s.updLaunch id f).missed = s.missed := rfl
@[simp] theorem State.updLaunch_recheck (s : State) (id : Nat) (f : Launch → Launch) : (s.updLaunch id f).recheck = s.recheck := rfl
@[simp] theorem State.updLaunch_turns (s : State) (id : Nat) (f : Launch → Launch) : (s.updLaunch id f).turns = s.turns := rfl
@[simp] theorem State.updLaunch_outside (s : State) (id : Nat) (f : Launch → Launch) : (s.updLaunch id f).outside = s.outside := rfl

@[simp] theorem State.updSpan_powered (s : State) (id : Nat) (f : Span → Span) : (s.updSpan id f).powered = s.powered := rfl
@[simp] theorem State.updSpan_cycle (s : State) (id : Nat) (f : Span → Span) : (s.updSpan id f).cycle = s.cycle := rfl
@[simp] theorem State.updSpan_rtime (s : State) (id : Nat) (f : Span → Span) : (s.updSpan id f).rtime = s.rtime := rfl
@[simp] theorem State.updSpan_cores (s : State) (id : Nat) (f : Span → Span) : (s.updSpan id f).cores = s.cores := rfl
@[simp] theorem State.updSpan_banks (s : State) (id : Nat) (f : Span → Span) : (s.updSpan id f).banks = s.banks := rfl
@[simp] theorem State.updSpan_sites (s : State) (id : Nat) (f : Span → Span) : (s.updSpan id f).sites = s.sites := rfl
@[simp] theorem State.updSpan_clusters (s : State) (id : Nat) (f : Span → Span) : (s.updSpan id f).clusters = s.clusters := rfl
@[simp] theorem State.updSpan_dies (s : State) (id : Nat) (f : Span → Span) : (s.updSpan id f).dies = s.dies := rfl
@[simp] theorem State.updSpan_mem (s : State) (id : Nat) (f : Span → Span) : (s.updSpan id f).mem = s.mem := rfl
@[simp] theorem State.updSpan_bad (s : State) (id : Nat) (f : Span → Span) : (s.updSpan id f).bad = s.bad := rfl
@[simp] theorem State.updSpan_straits (s : State) (id : Nat) (f : Span → Span) : (s.updSpan id f).straits = s.straits := rfl
@[simp] theorem State.updSpan_windows (s : State) (id : Nat) (f : Span → Span) : (s.updSpan id f).windows = s.windows := rfl
@[simp] theorem State.updSpan_ports (s : State) (id : Nat) (f : Span → Span) : (s.updSpan id f).ports = s.ports := rfl
@[simp] theorem State.updSpan_parts (s : State) (id : Nat) (f : Span → Span) : (s.updSpan id f).parts = s.parts := rfl
@[simp] theorem State.updSpan_queues (s : State) (id : Nat) (f : Span → Span) : (s.updSpan id f).queues = s.queues := rfl
@[simp] theorem State.updSpan_launches (s : State) (id : Nat) (f : Span → Span) : (s.updSpan id f).launches = s.launches := rfl
@[simp] theorem State.updSpan_images (s : State) (id : Nat) (f : Span → Span) : (s.updSpan id f).images = s.images := rfl
@[simp] theorem State.updSpan_funcs (s : State) (id : Nat) (f : Span → Span) : (s.updSpan id f).funcs = s.funcs := rfl
@[simp] theorem State.updSpan_lantern (s : State) (id : Nat) (f : Span → Span) : (s.updSpan id f).lantern = s.lantern := rfl
@[simp] theorem State.updSpan_prbase (s : State) (id : Nat) (f : Span → Span) : (s.updSpan id f).prbase = s.prbase := rfl
@[simp] theorem State.updSpan_prcmd (s : State) (id : Nat) (f : Span → Span) : (s.updSpan id f).prcmd = s.prcmd := rfl
@[simp] theorem State.updSpan_master (s : State) (id : Nat) (f : Span → Span) : (s.updSpan id f).master = s.master := rfl
@[simp] theorem State.updSpan_election (s : State) (id : Nat) (f : Span → Span) : (s.updSpan id f).election = s.election := rfl
@[simp] theorem State.updSpan_lastPart (s : State) (id : Nat) (f : Span → Span) : (s.updSpan id f).lastPart = s.lastPart := rfl
@[simp] theorem State.updSpan_lastPlace (s : State) (id : Nat) (f : Span → Span) : (s.updSpan id f).lastPlace = s.lastPlace := rfl
@[simp] theorem State.updSpan_fwrites (s : State) (id : Nat) (f : Span → Span) : (s.updSpan id f).fwrites = s.fwrites := rfl
@[simp] theorem State.updSpan_acks (s : State) (id : Nat) (f : Span → Span) : (s.updSpan id f).acks = s.acks := rfl
@[simp] theorem State.updSpan_freqs (s : State) (id : Nat) (f : Span → Span) : (s.updSpan id f).freqs = s.freqs := rfl
@[simp] theorem State.updSpan_fresps (s : State) (id : Nat) (f : Span → Span) : (s.updSpan id f).fresps = s.fresps := rfl
@[simp] theorem State.updSpan_hreqs (s : State) (id : Nat) (f : Span → Span) : (s.updSpan id f).hreqs = s.hreqs := rfl
@[simp] theorem State.updSpan_engine (s : State) (id : Nat) (f : Span → Span) : (s.updSpan id f).engine = s.engine := rfl
@[simp] theorem State.updSpan_fids (s : State) (id : Nat) (f : Span → Span) : (s.updSpan id f).fids = s.fids := rfl
@[simp] theorem State.updSpan_ids (s : State) (id : Nat) (f : Span → Span) : (s.updSpan id f).ids = s.ids := rfl
@[simp] theorem State.updSpan_cur (s : State) (id : Nat) (f : Span → Span) : (s.updSpan id f).cur = s.cur := rfl
@[simp] theorem State.updSpan_curCtx (s : State) (id : Nat) (f : Span → Span) : (s.updSpan id f).curCtx = s.curCtx := rfl
@[simp] theorem State.updSpan_draws (s : State) (id : Nat) (f : Span → Span) : (s.updSpan id f).draws = s.draws := rfl
@[simp] theorem State.updSpan_missed (s : State) (id : Nat) (f : Span → Span) : (s.updSpan id f).missed = s.missed := rfl
@[simp] theorem State.updSpan_recheck (s : State) (id : Nat) (f : Span → Span) : (s.updSpan id f).recheck = s.recheck := rfl
@[simp] theorem State.updSpan_turns (s : State) (id : Nat) (f : Span → Span) : (s.updSpan id f).turns = s.turns := rfl
@[simp] theorem State.updSpan_outside (s : State) (id : Nat) (f : Span → Span) : (s.updSpan id f).outside = s.outside := rfl

@[simp] theorem State.updLantern_powered (s : State) (f : Lantern → Lantern) : (s.updLantern f).powered = s.powered := rfl
@[simp] theorem State.updLantern_cycle (s : State) (f : Lantern → Lantern) : (s.updLantern f).cycle = s.cycle := rfl
@[simp] theorem State.updLantern_rtime (s : State) (f : Lantern → Lantern) : (s.updLantern f).rtime = s.rtime := rfl
@[simp] theorem State.updLantern_cores (s : State) (f : Lantern → Lantern) : (s.updLantern f).cores = s.cores := rfl
@[simp] theorem State.updLantern_banks (s : State) (f : Lantern → Lantern) : (s.updLantern f).banks = s.banks := rfl
@[simp] theorem State.updLantern_sites (s : State) (f : Lantern → Lantern) : (s.updLantern f).sites = s.sites := rfl
@[simp] theorem State.updLantern_clusters (s : State) (f : Lantern → Lantern) : (s.updLantern f).clusters = s.clusters := rfl
@[simp] theorem State.updLantern_dies (s : State) (f : Lantern → Lantern) : (s.updLantern f).dies = s.dies := rfl
@[simp] theorem State.updLantern_mem (s : State) (f : Lantern → Lantern) : (s.updLantern f).mem = s.mem := rfl
@[simp] theorem State.updLantern_bad (s : State) (f : Lantern → Lantern) : (s.updLantern f).bad = s.bad := rfl
@[simp] theorem State.updLantern_straits (s : State) (f : Lantern → Lantern) : (s.updLantern f).straits = s.straits := rfl
@[simp] theorem State.updLantern_windows (s : State) (f : Lantern → Lantern) : (s.updLantern f).windows = s.windows := rfl
@[simp] theorem State.updLantern_ports (s : State) (f : Lantern → Lantern) : (s.updLantern f).ports = s.ports := rfl
@[simp] theorem State.updLantern_parts (s : State) (f : Lantern → Lantern) : (s.updLantern f).parts = s.parts := rfl
@[simp] theorem State.updLantern_queues (s : State) (f : Lantern → Lantern) : (s.updLantern f).queues = s.queues := rfl
@[simp] theorem State.updLantern_launches (s : State) (f : Lantern → Lantern) : (s.updLantern f).launches = s.launches := rfl
@[simp] theorem State.updLantern_spans (s : State) (f : Lantern → Lantern) : (s.updLantern f).spans = s.spans := rfl
@[simp] theorem State.updLantern_images (s : State) (f : Lantern → Lantern) : (s.updLantern f).images = s.images := rfl
@[simp] theorem State.updLantern_funcs (s : State) (f : Lantern → Lantern) : (s.updLantern f).funcs = s.funcs := rfl
@[simp] theorem State.updLantern_prbase (s : State) (f : Lantern → Lantern) : (s.updLantern f).prbase = s.prbase := rfl
@[simp] theorem State.updLantern_prcmd (s : State) (f : Lantern → Lantern) : (s.updLantern f).prcmd = s.prcmd := rfl
@[simp] theorem State.updLantern_master (s : State) (f : Lantern → Lantern) : (s.updLantern f).master = s.master := rfl
@[simp] theorem State.updLantern_election (s : State) (f : Lantern → Lantern) : (s.updLantern f).election = s.election := rfl
@[simp] theorem State.updLantern_lastPart (s : State) (f : Lantern → Lantern) : (s.updLantern f).lastPart = s.lastPart := rfl
@[simp] theorem State.updLantern_lastPlace (s : State) (f : Lantern → Lantern) : (s.updLantern f).lastPlace = s.lastPlace := rfl
@[simp] theorem State.updLantern_fwrites (s : State) (f : Lantern → Lantern) : (s.updLantern f).fwrites = s.fwrites := rfl
@[simp] theorem State.updLantern_acks (s : State) (f : Lantern → Lantern) : (s.updLantern f).acks = s.acks := rfl
@[simp] theorem State.updLantern_freqs (s : State) (f : Lantern → Lantern) : (s.updLantern f).freqs = s.freqs := rfl
@[simp] theorem State.updLantern_fresps (s : State) (f : Lantern → Lantern) : (s.updLantern f).fresps = s.fresps := rfl
@[simp] theorem State.updLantern_hreqs (s : State) (f : Lantern → Lantern) : (s.updLantern f).hreqs = s.hreqs := rfl
@[simp] theorem State.updLantern_engine (s : State) (f : Lantern → Lantern) : (s.updLantern f).engine = s.engine := rfl
@[simp] theorem State.updLantern_fids (s : State) (f : Lantern → Lantern) : (s.updLantern f).fids = s.fids := rfl
@[simp] theorem State.updLantern_ids (s : State) (f : Lantern → Lantern) : (s.updLantern f).ids = s.ids := rfl
@[simp] theorem State.updLantern_cur (s : State) (f : Lantern → Lantern) : (s.updLantern f).cur = s.cur := rfl
@[simp] theorem State.updLantern_curCtx (s : State) (f : Lantern → Lantern) : (s.updLantern f).curCtx = s.curCtx := rfl
@[simp] theorem State.updLantern_draws (s : State) (f : Lantern → Lantern) : (s.updLantern f).draws = s.draws := rfl
@[simp] theorem State.updLantern_missed (s : State) (f : Lantern → Lantern) : (s.updLantern f).missed = s.missed := rfl
@[simp] theorem State.updLantern_recheck (s : State) (f : Lantern → Lantern) : (s.updLantern f).recheck = s.recheck := rfl
@[simp] theorem State.updLantern_turns (s : State) (f : Lantern → Lantern) : (s.updLantern f).turns = s.turns := rfl
@[simp] theorem State.updLantern_outside (s : State) (f : Lantern → Lantern) : (s.updLantern f).outside = s.outside := rfl

/-! ## A core -/

@[simp] theorem Core.setCtx_k (k : Core) (x : Nat) (v : Ctx) : (k.setCtx x v).k = k.k := rfl
@[simp] theorem Core.updCtx_k (k : Core) (x : Nat) (f : Ctx → Ctx) : (k.updCtx x f).k = k.k := rfl
@[simp] theorem Core.setCtx_last (k : Core) (x : Nat) (v : Ctx) : (k.setCtx x v).last = k.last := rfl
@[simp] theorem Core.updCtx_last (k : Core) (x : Nat) (f : Ctx → Ctx) : (k.updCtx x f).last = k.last := rfl
@[simp] theorem Core.setCtx_ready (k : Core) (x : Nat) (v : Ctx) : (k.setCtx x v).ready = k.ready := rfl
@[simp] theorem Core.updCtx_ready (k : Core) (x : Nat) (f : Ctx → Ctx) : (k.updCtx x f).ready = k.ready := rfl
@[simp] theorem Core.setCtx_inbox (k : Core) (x : Nat) (v : Ctx) : (k.setCtx x v).inbox = k.inbox := rfl
@[simp] theorem Core.updCtx_inbox (k : Core) (x : Nat) (f : Ctx → Ctx) : (k.updCtx x f).inbox = k.inbox := rfl
@[simp] theorem Core.setCtx_ctrs (k : Core) (x : Nat) (v : Ctx) : (k.setCtx x v).ctrs = k.ctrs := rfl
@[simp] theorem Core.updCtx_ctrs (k : Core) (x : Nat) (f : Ctx → Ctx) : (k.updCtx x f).ctrs = k.ctrs := rfl
@[simp] theorem Core.setCtx_outq (k : Core) (x : Nat) (v : Ctx) : (k.setCtx x v).outq = k.outq := rfl
@[simp] theorem Core.updCtx_outq (k : Core) (x : Nat) (f : Ctx → Ctx) : (k.updCtx x f).outq = k.outq := rfl
@[simp] theorem Core.setCtx_portq (k : Core) (x : Nat) (v : Ctx) : (k.setCtx x v).portq = k.portq := rfl
@[simp] theorem Core.updCtx_portq (k : Core) (x : Nat) (f : Ctx → Ctx) : (k.updCtx x f).portq = k.portq := rfl
@[simp] theorem Core.setCtx_portSince (k : Core) (x : Nat) (v : Ctx) : (k.setCtx x v).portSince = k.portSince := rfl
@[simp] theorem Core.updCtx_portSince (k : Core) (x : Nat) (f : Ctx → Ctx) : (k.updCtx x f).portSince = k.portSince := rfl
@[simp] theorem Core.setCtx_seqno (k : Core) (x : Nat) (v : Ctx) : (k.setCtx x v).seqno = k.seqno := rfl
@[simp] theorem Core.updCtx_seqno (k : Core) (x : Nat) (f : Ctx → Ctx) : (k.updCtx x f).seqno = k.seqno := rfl
@[simp] theorem Core.setCtx_unacked (k : Core) (x : Nat) (v : Ctx) : (k.setCtx x v).unacked = k.unacked := rfl
@[simp] theorem Core.updCtx_unacked (k : Core) (x : Nat) (f : Ctx → Ctx) : (k.updCtx x f).unacked = k.unacked := rfl
@[simp] theorem Core.setCtx_refusals (k : Core) (x : Nat) (v : Ctx) : (k.setCtx x v).refusals = k.refusals := rfl
@[simp] theorem Core.updCtx_refusals (k : Core) (x : Nat) (f : Ctx → Ctx) : (k.updCtx x f).refusals = k.refusals := rfl
@[simp] theorem Core.setCtx_sbar (k : Core) (x : Nat) (v : Ctx) : (k.setCtx x v).sbar = k.sbar := rfl
@[simp] theorem Core.updCtx_sbar (k : Core) (x : Nat) (f : Ctx → Ctx) : (k.updCtx x f).sbar = k.sbar := rfl
@[simp] theorem Core.setCtx_gang (k : Core) (x : Nat) (v : Ctx) : (k.setCtx x v).gang = k.gang := rfl
@[simp] theorem Core.updCtx_gang (k : Core) (x : Nat) (f : Ctx → Ctx) : (k.updCtx x f).gang = k.gang := rfl
@[simp] theorem Core.setCtx_ptbase (k : Core) (x : Nat) (v : Ctx) : (k.setCtx x v).ptbase = k.ptbase := rfl
@[simp] theorem Core.updCtx_ptbase (k : Core) (x : Nat) (f : Ctx → Ctx) : (k.updCtx x f).ptbase = k.ptbase := rfl
@[simp] theorem Core.setCtx_tvec (k : Core) (x : Nat) (v : Ctx) : (k.setCtx x v).tvec = k.tvec := rfl
@[simp] theorem Core.updCtx_tvec (k : Core) (x : Nat) (f : Ctx → Ctx) : (k.updCtx x f).tvec = k.tvec := rfl
@[simp] theorem Core.setCtx_seed (k : Core) (x : Nat) (v : Ctx) : (k.setCtx x v).seed = k.seed := rfl
@[simp] theorem Core.updCtx_seed (k : Core) (x : Nat) (f : Ctx → Ctx) : (k.updCtx x f).seed = k.seed := rfl
@[simp] theorem Core.setCtx_berths (k : Core) (x : Nat) (v : Ctx) : (k.setCtx x v).berths = k.berths := rfl
@[simp] theorem Core.updCtx_berths (k : Core) (x : Nat) (f : Ctx → Ctx) : (k.updCtx x f).berths = k.berths := rfl
@[simp] theorem Core.setCtx_handed (k : Core) (x : Nat) (v : Ctx) : (k.setCtx x v).handed = k.handed := rfl
@[simp] theorem Core.updCtx_handed (k : Core) (x : Nat) (f : Ctx → Ctx) : (k.updCtx x f).handed = k.handed := rfl
@[simp] theorem Core.setCtx_tiles (k : Core) (x : Nat) (v : Ctx) : (k.setCtx x v).tiles = k.tiles := rfl
@[simp] theorem Core.updCtx_tiles (k : Core) (x : Nat) (f : Ctx → Ctx) : (k.updCtx x f).tiles = k.tiles := rfl
@[simp] theorem Core.setCtx_streams (k : Core) (x : Nat) (v : Ctx) : (k.setCtx x v).streams = k.streams := rfl
@[simp] theorem Core.updCtx_streams (k : Core) (x : Nat) (f : Ctx → Ctx) : (k.updCtx x f).streams = k.streams := rfl
@[simp] theorem Core.setCtx_dt0 (k : Core) (x : Nat) (v : Ctx) : (k.setCtx x v).dt0 = k.dt0 := rfl
@[simp] theorem Core.updCtx_dt0 (k : Core) (x : Nat) (f : Ctx → Ctx) : (k.updCtx x f).dt0 = k.dt0 := rfl
@[simp] theorem Core.setCtx_dt1 (k : Core) (x : Nat) (v : Ctx) : (k.setCtx x v).dt1 = k.dt1 := rfl
@[simp] theorem Core.updCtx_dt1 (k : Core) (x : Nat) (f : Ctx → Ctx) : (k.updCtx x f).dt1 = k.dt1 := rfl
@[simp] theorem Core.setCtx_slice (k : Core) (x : Nat) (v : Ctx) : (k.setCtx x v).slice = k.slice := rfl
@[simp] theorem Core.updCtx_slice (k : Core) (x : Nat) (f : Ctx → Ctx) : (k.updCtx x f).slice = k.slice := rfl
@[simp] theorem Core.setCtx_chan (k : Core) (x : Nat) (v : Ctx) : (k.setCtx x v).chan = k.chan := rfl
@[simp] theorem Core.updCtx_chan (k : Core) (x : Nat) (f : Ctx → Ctx) : (k.updCtx x f).chan = k.chan := rfl
@[simp] theorem Core.setCtx_l1 (k : Core) (x : Nat) (v : Ctx) : (k.setCtx x v).l1 = k.l1 := rfl
@[simp] theorem Core.updCtx_l1 (k : Core) (x : Nat) (f : Ctx → Ctx) : (k.updCtx x f).l1 = k.l1 := rfl
@[simp] theorem Core.setCtx_updates (k : Core) (x : Nat) (v : Ctx) : (k.setCtx x v).updates = k.updates := rfl
@[simp] theorem Core.updCtx_updates (k : Core) (x : Nat) (f : Ctx → Ctx) : (k.updCtx x f).updates = k.updates := rfl
@[simp] theorem Core.setCtx_tlb (k : Core) (x : Nat) (v : Ctx) : (k.setCtx x v).tlb = k.tlb := rfl
@[simp] theorem Core.updCtx_tlb (k : Core) (x : Nat) (f : Ctx → Ctx) : (k.updCtx x f).tlb = k.tlb := rfl
@[simp] theorem Core.setCtx_rev (k : Core) (x : Nat) (v : Ctx) : (k.setCtx x v).rev = k.rev := rfl
@[simp] theorem Core.updCtx_rev (k : Core) (x : Nat) (f : Ctx → Ctx) : (k.updCtx x f).rev = k.rev := rfl
@[simp] theorem Core.setCtx_vplace (k : Core) (x : Nat) (v : Ctx) : (k.setCtx x v).vplace = k.vplace := rfl
@[simp] theorem Core.updCtx_vplace (k : Core) (x : Nat) (f : Ctx → Ctx) : (k.updCtx x f).vplace = k.vplace := rfl
@[simp] theorem Core.setCtx_bad (k : Core) (x : Nat) (v : Ctx) : (k.setCtx x v).bad = k.bad := rfl
@[simp] theorem Core.updCtx_bad (k : Core) (x : Nat) (f : Ctx → Ctx) : (k.updCtx x f).bad = k.bad := rfl
@[simp] theorem Core.setCtx_fatals (k : Core) (x : Nat) (v : Ctx) : (k.setCtx x v).fatals = k.fatals := rfl
@[simp] theorem Core.updCtx_fatals (k : Core) (x : Nat) (f : Ctx → Ctx) : (k.updCtx x f).fatals = k.fatals := rfl
@[simp] theorem Core.setCtx_stopped (k : Core) (x : Nat) (v : Ctx) : (k.setCtx x v).stopped = k.stopped := rfl
@[simp] theorem Core.updCtx_stopped (k : Core) (x : Nat) (f : Ctx → Ctx) : (k.updCtx x f).stopped = k.stopped := rfl
@[simp] theorem Core.setBerth_ctxs (k : Core) (i : Nat) (b : Option BankId) : (k.setBerth i b).ctxs = k.ctxs := rfl
@[simp] theorem Core.setBerth_k (k : Core) (i : Nat) (b : Option BankId) : (k.setBerth i b).k = k.k := rfl
@[simp] theorem Core.setBerth_last (k : Core) (i : Nat) (b : Option BankId) : (k.setBerth i b).last = k.last := rfl
@[simp] theorem Core.setBerth_ready (k : Core) (i : Nat) (b : Option BankId) : (k.setBerth i b).ready = k.ready := rfl
@[simp] theorem Core.setBerth_inbox (k : Core) (i : Nat) (b : Option BankId) : (k.setBerth i b).inbox = k.inbox := rfl
@[simp] theorem Core.setBerth_ctrs (k : Core) (i : Nat) (b : Option BankId) : (k.setBerth i b).ctrs = k.ctrs := rfl
@[simp] theorem Core.setBerth_outq (k : Core) (i : Nat) (b : Option BankId) : (k.setBerth i b).outq = k.outq := rfl
@[simp] theorem Core.setBerth_portq (k : Core) (i : Nat) (b : Option BankId) : (k.setBerth i b).portq = k.portq := rfl
@[simp] theorem Core.setBerth_portSince (k : Core) (i : Nat) (b : Option BankId) : (k.setBerth i b).portSince = k.portSince := rfl
@[simp] theorem Core.setBerth_seqno (k : Core) (i : Nat) (b : Option BankId) : (k.setBerth i b).seqno = k.seqno := rfl
@[simp] theorem Core.setBerth_unacked (k : Core) (i : Nat) (b : Option BankId) : (k.setBerth i b).unacked = k.unacked := rfl
@[simp] theorem Core.setBerth_refusals (k : Core) (i : Nat) (b : Option BankId) : (k.setBerth i b).refusals = k.refusals := rfl
@[simp] theorem Core.setBerth_sbar (k : Core) (i : Nat) (b : Option BankId) : (k.setBerth i b).sbar = k.sbar := rfl
@[simp] theorem Core.setBerth_gang (k : Core) (i : Nat) (b : Option BankId) : (k.setBerth i b).gang = k.gang := rfl
@[simp] theorem Core.setBerth_ptbase (k : Core) (i : Nat) (b : Option BankId) : (k.setBerth i b).ptbase = k.ptbase := rfl
@[simp] theorem Core.setBerth_tvec (k : Core) (i : Nat) (b : Option BankId) : (k.setBerth i b).tvec = k.tvec := rfl
@[simp] theorem Core.setBerth_seed (k : Core) (i : Nat) (b : Option BankId) : (k.setBerth i b).seed = k.seed := rfl
@[simp] theorem Core.setBerth_tiles (k : Core) (i : Nat) (b : Option BankId) : (k.setBerth i b).tiles = k.tiles := rfl
@[simp] theorem Core.setBerth_streams (k : Core) (i : Nat) (b : Option BankId) : (k.setBerth i b).streams = k.streams := rfl
@[simp] theorem Core.setBerth_dt0 (k : Core) (i : Nat) (b : Option BankId) : (k.setBerth i b).dt0 = k.dt0 := rfl
@[simp] theorem Core.setBerth_dt1 (k : Core) (i : Nat) (b : Option BankId) : (k.setBerth i b).dt1 = k.dt1 := rfl
@[simp] theorem Core.setBerth_slice (k : Core) (i : Nat) (b : Option BankId) : (k.setBerth i b).slice = k.slice := rfl
@[simp] theorem Core.setBerth_chan (k : Core) (i : Nat) (b : Option BankId) : (k.setBerth i b).chan = k.chan := rfl
@[simp] theorem Core.setBerth_l1 (k : Core) (i : Nat) (b : Option BankId) : (k.setBerth i b).l1 = k.l1 := rfl
@[simp] theorem Core.setBerth_updates (k : Core) (i : Nat) (b : Option BankId) : (k.setBerth i b).updates = k.updates := rfl
@[simp] theorem Core.setBerth_tlb (k : Core) (i : Nat) (b : Option BankId) : (k.setBerth i b).tlb = k.tlb := rfl
@[simp] theorem Core.setBerth_rev (k : Core) (i : Nat) (b : Option BankId) : (k.setBerth i b).rev = k.rev := rfl
@[simp] theorem Core.setBerth_vplace (k : Core) (i : Nat) (b : Option BankId) : (k.setBerth i b).vplace = k.vplace := rfl
@[simp] theorem Core.setBerth_bad (k : Core) (i : Nat) (b : Option BankId) : (k.setBerth i b).bad = k.bad := rfl
@[simp] theorem Core.setBerth_fatals (k : Core) (i : Nat) (b : Option BankId) : (k.setBerth i b).fatals = k.fatals := rfl
@[simp] theorem Core.setBerth_stopped (k : Core) (i : Nat) (b : Option BankId) : (k.setBerth i b).stopped = k.stopped := rfl
@[simp] theorem Core.setCounter_ctxs (k : Core) (i : Nat) (v : Counter) : (k.setCounter i v).ctxs = k.ctxs := rfl
@[simp] theorem Core.setCounter_k (k : Core) (i : Nat) (v : Counter) : (k.setCounter i v).k = k.k := rfl
@[simp] theorem Core.setCounter_last (k : Core) (i : Nat) (v : Counter) : (k.setCounter i v).last = k.last := rfl
@[simp] theorem Core.setCounter_ready (k : Core) (i : Nat) (v : Counter) : (k.setCounter i v).ready = k.ready := rfl
@[simp] theorem Core.setCounter_inbox (k : Core) (i : Nat) (v : Counter) : (k.setCounter i v).inbox = k.inbox := rfl
@[simp] theorem Core.setCounter_outq (k : Core) (i : Nat) (v : Counter) : (k.setCounter i v).outq = k.outq := rfl
@[simp] theorem Core.setCounter_portq (k : Core) (i : Nat) (v : Counter) : (k.setCounter i v).portq = k.portq := rfl
@[simp] theorem Core.setCounter_portSince (k : Core) (i : Nat) (v : Counter) : (k.setCounter i v).portSince = k.portSince := rfl
@[simp] theorem Core.setCounter_seqno (k : Core) (i : Nat) (v : Counter) : (k.setCounter i v).seqno = k.seqno := rfl
@[simp] theorem Core.setCounter_unacked (k : Core) (i : Nat) (v : Counter) : (k.setCounter i v).unacked = k.unacked := rfl
@[simp] theorem Core.setCounter_refusals (k : Core) (i : Nat) (v : Counter) : (k.setCounter i v).refusals = k.refusals := rfl
@[simp] theorem Core.setCounter_sbar (k : Core) (i : Nat) (v : Counter) : (k.setCounter i v).sbar = k.sbar := rfl
@[simp] theorem Core.setCounter_gang (k : Core) (i : Nat) (v : Counter) : (k.setCounter i v).gang = k.gang := rfl
@[simp] theorem Core.setCounter_ptbase (k : Core) (i : Nat) (v : Counter) : (k.setCounter i v).ptbase = k.ptbase := rfl
@[simp] theorem Core.setCounter_tvec (k : Core) (i : Nat) (v : Counter) : (k.setCounter i v).tvec = k.tvec := rfl
@[simp] theorem Core.setCounter_seed (k : Core) (i : Nat) (v : Counter) : (k.setCounter i v).seed = k.seed := rfl
@[simp] theorem Core.setCounter_berths (k : Core) (i : Nat) (v : Counter) : (k.setCounter i v).berths = k.berths := rfl
@[simp] theorem Core.setCounter_handed (k : Core) (i : Nat) (v : Counter) : (k.setCounter i v).handed = k.handed := rfl
@[simp] theorem Core.setCounter_tiles (k : Core) (i : Nat) (v : Counter) : (k.setCounter i v).tiles = k.tiles := rfl
@[simp] theorem Core.setCounter_streams (k : Core) (i : Nat) (v : Counter) : (k.setCounter i v).streams = k.streams := rfl
@[simp] theorem Core.setCounter_dt0 (k : Core) (i : Nat) (v : Counter) : (k.setCounter i v).dt0 = k.dt0 := rfl
@[simp] theorem Core.setCounter_dt1 (k : Core) (i : Nat) (v : Counter) : (k.setCounter i v).dt1 = k.dt1 := rfl
@[simp] theorem Core.setCounter_slice (k : Core) (i : Nat) (v : Counter) : (k.setCounter i v).slice = k.slice := rfl
@[simp] theorem Core.setCounter_chan (k : Core) (i : Nat) (v : Counter) : (k.setCounter i v).chan = k.chan := rfl
@[simp] theorem Core.setCounter_l1 (k : Core) (i : Nat) (v : Counter) : (k.setCounter i v).l1 = k.l1 := rfl
@[simp] theorem Core.setCounter_updates (k : Core) (i : Nat) (v : Counter) : (k.setCounter i v).updates = k.updates := rfl
@[simp] theorem Core.setCounter_tlb (k : Core) (i : Nat) (v : Counter) : (k.setCounter i v).tlb = k.tlb := rfl
@[simp] theorem Core.setCounter_rev (k : Core) (i : Nat) (v : Counter) : (k.setCounter i v).rev = k.rev := rfl
@[simp] theorem Core.setCounter_vplace (k : Core) (i : Nat) (v : Counter) : (k.setCounter i v).vplace = k.vplace := rfl
@[simp] theorem Core.setCounter_bad (k : Core) (i : Nat) (v : Counter) : (k.setCounter i v).bad = k.bad := rfl
@[simp] theorem Core.setCounter_fatals (k : Core) (i : Nat) (v : Counter) : (k.setCounter i v).fatals = k.fatals := rfl
@[simp] theorem Core.setCounter_stopped (k : Core) (i : Nat) (v : Counter) : (k.setCounter i v).stopped = k.stopped := rfl

/-! ## A context -/

@[simp] theorem Ctx.goto_running (v : Ctx) (n : Nat) (a : W64) : (v.goto n a).running = v.running := rfl
@[simp] theorem Ctx.goto_fid (v : Ctx) (n : Nat) (a : W64) : (v.goto n a).fid = v.fid := rfl
@[simp] theorem Ctx.goto_heads (v : Ctx) (n : Nat) (a : W64) : (v.goto n a).heads = v.heads := rfl
@[simp] theorem Ctx.goto_x (v : Ctx) (n : Nat) (a : W64) : (v.goto n a).x = v.x := rfl
@[simp] theorem Ctx.goto_v (v : Ctx) (n : Nat) (a : W64) : (v.goto n a).v = v.v := rfl
@[simp] theorem Ctx.goto_p (v : Ctx) (n : Nat) (a : W64) : (v.goto n a).p = v.p := rfl
@[simp] theorem Ctx.goto_q (v : Ctx) (n : Nat) (a : W64) : (v.goto n a).q = v.q := rfl
@[simp] theorem Ctx.goto_rndctl (v : Ctx) (n : Nat) (a : W64) : (v.goto n a).rndctl = v.rndctl := rfl
@[simp] theorem Ctx.goto_status (v : Ctx) (n : Nat) (a : W64) : (v.goto n a).status = v.status := rfl
@[simp] theorem Ctx.goto_epc (v : Ctx) (n : Nat) (a : W64) : (v.goto n a).epc = v.epc := rfl
@[simp] theorem Ctx.goto_xpc (v : Ctx) (n : Nat) (a : W64) : (v.goto n a).xpc = v.xpc := rfl
@[simp] theorem Ctx.goto_cause (v : Ctx) (n : Nat) (a : W64) : (v.goto n a).cause = v.cause := rfl
@[simp] theorem Ctx.goto_faultva (v : Ctx) (n : Nat) (a : W64) : (v.goto n a).faultva = v.faultva := rfl
@[simp] theorem Ctx.goto_tscr (v : Ctx) (n : Nat) (a : W64) : (v.goto n a).tscr = v.tscr := rfl
@[simp] theorem Ctx.goto_slots (v : Ctx) (n : Nat) (a : W64) : (v.goto n a).slots = v.slots := rfl
@[simp] theorem Ctx.goto_handler (v : Ctx) (n : Nat) (a : W64) : (v.goto n a).handler = v.handler := rfl
@[simp] theorem Ctx.goto_prio (v : Ctx) (n : Nat) (a : W64) : (v.goto n a).prio = v.prio := rfl
@[simp] theorem Ctx.goto_version (v : Ctx) (n : Nat) (a : W64) : (v.goto n a).version = v.version := rfl
@[simp] theorem Ctx.goto_compart (v : Ctx) (n : Nat) (a : W64) : (v.goto n a).compart = v.compart := rfl
@[simp] theorem Ctx.goto_sends (v : Ctx) (n : Nat) (a : W64) : (v.goto n a).sends = v.sends := rfl
@[simp] theorem Ctx.goto_sent (v : Ctx) (n : Nat) (a : W64) : (v.goto n a).sent = v.sent := rfl
@[simp] theorem Ctx.goto_trapPend (v : Ctx) (n : Nat) (a : W64) : (v.goto n a).trapPend = v.trapPend := rfl
@[simp] theorem Ctx.goto_seq (v : Ctx) (n : Nat) (a : W64) : (v.goto n a).seq = v.seq := rfl
@[simp] theorem Ctx.goto_hist (v : Ctx) (n : Nat) (a : W64) : (v.goto n a).hist = v.hist := rfl
@[simp] theorem Ctx.goto_heldWait (v : Ctx) (n : Nat) (a : W64) : (v.goto n a).heldWait = v.heldWait := rfl
@[simp] theorem Ctx.goto_heldPc (v : Ctx) (n : Nat) (a : W64) : (v.goto n a).heldPc = v.heldPc := rfl
@[simp] theorem Ctx.goto_issued (v : Ctx) (n : Nat) (a : W64) : (v.goto n a).issued = v.issued := rfl
@[simp] theorem Ctx.goto_consumed (v : Ctx) (n : Nat) (a : W64) : (v.goto n a).consumed = v.consumed := rfl
@[simp] theorem Ctx.goto_done (v : Ctx) (n : Nat) (a : W64) : (v.goto n a).done = v.done := rfl
@[simp] theorem Ctx.goto_scaleA (v : Ctx) (n : Nat) (a : W64) : (v.goto n a).scaleA = v.scaleA := rfl
@[simp] theorem Ctx.goto_scaleB (v : Ctx) (n : Nat) (a : W64) : (v.goto n a).scaleB = v.scaleB := rfl
@[simp] theorem Ctx.goto_join (v : Ctx) (n : Nat) (a : W64) : (v.goto n a).join = v.join := rfl
@[simp] theorem Ctx.goto_refuse (v : Ctx) (n : Nat) (a : W64) : (v.goto n a).refuse = v.refuse := rfl
@[simp] theorem Ctx.goto_ports (v : Ctx) (n : Nat) (a : W64) : (v.goto n a).ports = v.ports := rfl
@[simp] theorem Ctx.goto_relMark (v : Ctx) (n : Nat) (a : W64) : (v.goto n a).relMark = v.relMark := rfl
@[simp] theorem Ctx.goto_seqFail (v : Ctx) (n : Nat) (a : W64) : (v.goto n a).seqFail = v.seqFail := rfl
@[simp] theorem Ctx.goto_touchAt (v : Ctx) (n : Nat) (a : W64) : (v.goto n a).touchAt = v.touchAt := rfl
@[simp] theorem Ctx.goto_bad (v : Ctx) (n : Nat) (a : W64) : (v.goto n a).bad = v.bad := rfl
@[simp] theorem Ctx.goto_qbad (v : Ctx) (n : Nat) (a : W64) : (v.goto n a).qbad = v.qbad := rfl
@[simp] theorem Ctx.goto_pc (v : Ctx) (n : Nat) (a : W64) : (v.goto n a).pc = a := rfl
@[simp] theorem Ctx.goto_num (v : Ctx) (n : Nat) (a : W64) : (v.goto n a).num = v.num + 1 := rfl
@[simp] theorem Ctx.goto_stalled (v : Ctx) (n : Nat) (a : W64) : (v.goto n a).stalled = false := rfl
@[simp] theorem Ctx.goto_wait (v : Ctx) (n : Nat) (a : W64) : (v.goto n a).wait = .none := rfl
@[simp] theorem Ctx.goto_watch (v : Ctx) (n : Nat) (a : W64) : (v.goto n a).watch = n := rfl
@[simp] theorem Ctx.goto_walkFail (v : Ctx) (n : Nat) (a : W64) : (v.goto n a).walkFail = none := rfl
@[simp] theorem Ctx.goto_touch (v : Ctx) (n : Nat) (a : W64) : (v.goto n a).touch = [] := rfl

end Sys2Proof.Machine
end

