-- ==== Sys2Proof/Laws/Tables.lean ====
section
/-! SUPPORT. Sparse tables: reading after a change; and the parts of the module, read after they were changed. -/
namespace Sys2Proof.Machine

/-! ## Tables -/

@[simp] theorem Tab.find_del_same {κ α : Type} [DecidableEq κ] (t : Tab κ α) (k : κ) : (t.del k).find k = none := by
  unfold Tab.del
  induction t with
  | nil => rfl
  | cons e t ih =>
    by_cases hk : e.1 = k
    · simpa [List.filter_cons, hk] using ih
    · simpa [List.filter_cons, hk, Tab.find] using ih

theorem Tab.find_del_other {κ α : Type} [DecidableEq κ] (t : Tab κ α) {j k : κ} (h : j ≠ k) : (t.del k).find j = t.find j := by
  have hkj : k ≠ j := fun e => h e.symm
  unfold Tab.del
  induction t with
  | nil => rfl
  | cons e t ih =>
    by_cases hk : e.1 = k
    · have : e.1 ≠ j := hk ▸ hkj
      rw [List.filter_cons_of_neg (by simp [hk]), ih]
      simp [Tab.find, this]
    · rw [List.filter_cons_of_pos (by simp [hk])]
      simp only [Tab.find, ih]

@[simp] theorem Tab.find_put_same {κ α : Type} [DecidableEq κ] (t : Tab κ α) (k : κ) (v : α) : (t.put k v).find k = some v := by
  simp [Tab.put, Tab.find]

theorem Tab.find_put_other {κ α : Type} [DecidableEq κ] (t : Tab κ α) {j k : κ} (v : α) (h : j ≠ k) :
    (t.put k v).find j = t.find j := by
  have : ¬ k = j := fun e => h e.symm
  simpa [Tab.put, Tab.find, this] using Tab.find_del_other t h

@[simp] theorem Tab.getD_put_same {κ α : Type} [DecidableEq κ] (t : Tab κ α) (k : κ) (v d : α) : (t.put k v).getD k d = v := by
  simp [Tab.getD]

theorem Tab.getD_put_other {κ α : Type} [DecidableEq κ] (t : Tab κ α) {j k : κ} (v d : α) (h : j ≠ k) :
    (t.put k v).getD j d = t.getD j d := by
  simp [Tab.getD, Tab.find_put_other t v h]

theorem Tab.getD_put {κ α : Type} [DecidableEq κ] (t : Tab κ α) (j k : κ) (v d : α) :
    (t.put k v).getD j d = if j = k then v else t.getD j d := by
  by_cases h : j = k
  · subst h; simp
  · simp [h, Tab.getD_put_other t v d h]

/-! ## Cores and contexts -/

@[simp] theorem State.core_setCore (s : State) (c : CoreId) (k : Core) : (s.setCore c k).core c = k := by
  simp [State.core, State.setCore]

theorem State.core_setCore_other (s : State) {c d : CoreId} (k : Core) (h : d ≠ c) : (s.setCore c k).core d = s.core d := by
  simp [State.core, State.setCore, Tab.getD_put_other _ _ _ h]

@[simp] theorem State.core_updCore (s : State) (c : CoreId) (f : Core → Core) : (s.updCore c f).core c = f (s.core c) := by
  simp [State.updCore]

theorem State.core_updCore_other (s : State) {c d : CoreId} (f : Core → Core) (h : d ≠ c) : (s.updCore c f).core d = s.core d :=
  State.core_setCore_other s _ h

@[simp] theorem Core.ctx_setCtx (k : Core) (x : Nat) (v : Ctx) : (k.setCtx x v).ctx x = v := by simp [Core.ctx, Core.setCtx]

theorem Core.ctx_setCtx_other (k : Core) {x y : Nat} (v : Ctx) (h : y ≠ x) : (k.setCtx x v).ctx y = k.ctx y := by
  simp [Core.ctx, Core.setCtx, Tab.getD_put_other _ _ _ h]

@[simp] theorem State.ctx_updCtx (s : State) (c : CoreId) (x : Nat) (f : Ctx → Ctx) : (s.updCtx c x f).ctx c x = f (s.ctx c x) := by
  simp [State.updCtx, State.setCtx, State.ctx, Core.ctx, Core.setCtx]

@[simp] theorem State.me_setMe (s : State) (v : Ctx) : (s.setMe v).me = v := by
  simp [State.me, State.setMe, State.setCtx, State.ctx]

@[simp] theorem State.me_updMe (s : State) (f : Ctx → Ctx) : (s.updMe f).me = f s.me := by simp [State.updMe]

@[simp] theorem State.core_updMe (s : State) (f : Ctx → Ctx) : (s.updMe f).core s.cur = s.myCore.setCtx s.curCtx (f s.me) := by
  simp [State.updMe, State.setMe, State.setCtx, State.myCore]

@[simp] theorem State.myCore_updMe (s : State) (f : Ctx → Ctx) : (s.updMe f).myCore = s.myCore.setCtx s.curCtx (f s.me) :=
  State.core_updMe s f

theorem State.core_updMe_other (s : State) {d : CoreId} (f : Ctx → Ctx) (h : d ≠ s.cur) : (s.updMe f).core d = s.core d :=
  State.core_setCore_other s _ h

theorem State.ctx_updMe_other (s : State) {x : Nat} (f : Ctx → Ctx) (h : x ≠ s.curCtx) :
    (s.updMe f).ctx s.cur x = s.ctx s.cur x := by
  simp [State.ctx, Core.ctx_setCtx_other _ _ h, State.myCore]

@[simp] theorem State.updMe_updMe (s : State) (f g : Ctx → Ctx) : ((s.updMe f).updMe g).me = g (f s.me) := by simp

/-! ## Banks, clusters, dies, partitions, functions -/

@[simp] theorem State.bank_setBank (s : State) (b : BankId) (v : Bank) : (s.setBank b v).bank b = v := by
  simp [State.bank, State.setBank]
theorem State.bank_setBank_other (s : State) {b c : BankId} (v : Bank) (h : c ≠ b) : (s.setBank b v).bank c = s.bank c := by
  simp [State.bank, State.setBank, Tab.getD_put_other _ _ _ h]
@[simp] theorem State.bank_updBank (s : State) (b : BankId) (f : Bank → Bank) : (s.updBank b f).bank b = f (s.bank b) := by
  simp [State.updBank]
theorem State.bank_updBank_other (s : State) {b c : BankId} (f : Bank → Bank) (h : c ≠ b) : (s.updBank b f).bank c = s.bank c :=
  State.bank_setBank_other s _ h
@[simp] theorem State.cluster_updCluster (s : State) (n : SiteId) (f : Cluster → Cluster) :
    (s.updCluster n f).cluster n = f (s.cluster n) := by simp [State.updCluster, State.setCluster, State.cluster]
@[simp] theorem State.die_updDie (s : State) (d : Nat) (f : Die → Die) : (s.updDie d f).die d = f (s.die d) := by
  simp [State.updDie, State.setDie, State.die]
@[simp] theorem State.part_updPart (s : State) (p : Nat) (f : Part → Part) : (s.updPart p f).part p = f (s.part p) := by
  simp [State.updPart, State.setPart, State.part]
@[simp] theorem State.func_updFunc (s : State) (n : Nat) (f : Func → Func) : (s.updFunc n f).func n = f (s.func n) := by
  simp [State.updFunc, State.func]
@[simp] theorem State.queue_updQueue (s : State) (n q : Nat) (f : Queue → Queue) :
    (s.updQueue n q f).queue n q = f (s.queue n q) := by simp [State.updQueue, State.queue]
@[simp] theorem State.port_updPort (s : State) (n : Nat) (f : Port → Port) : (s.updPort n f).port n = f (s.port n) := by
  simp [State.updPort, State.port]

end Sys2Proof.Machine
end

