-- ==== Sys2Proof/Laws/Memory.lean ====
section
/-! SUPPORT. Memory as a list of cells: what a read gives after a write, and that every memory operation keeps the canonical
form; reset memory has it. -/
namespace Sys2Proof.Machine

/-! ## Reading after writing -/

theorem cellGet_put_same (m : List Host.Cell) (lo a : Nat) (v : Byte) (h : cellsFrom lo m = true) : cellGet (cellPut m a v) a = v := by
  induction m generalizing lo with
  | nil => by_cases hv : v = 0#8 <;> simp [cellPut, cellGet, hv]
  | cons e t ih =>
    obtain ⟨b, w⟩ := e
    simp only [cellsFrom, Bool.and_eq_true, decide_eq_true_eq] at h
    have absent : ∀ (l : List Host.Cell) (k : Nat), cellsFrom k l = true → a < k → cellGet l a = 0 := by
      intro l
      induction l with
      | nil => intro k _ _; rfl
      | cons e l ihl =>
        intro k hk hlt
        obtain ⟨c, u⟩ := e
        simp only [cellsFrom, Bool.and_eq_true, decide_eq_true_eq] at hk
        have : c ≠ a := by omega
        simpa [cellGet, this] using ihl (c + 1) hk.2 (by omega)
    unfold cellPut
    split
    · by_cases hv : v = 0#8
      · have hb : b ≠ a := by omega
        simpa [hv, cellGet, hb] using absent t (b + 1) h.2 (by omega)
      · simp [hv, cellGet]
    · split
      · rename_i hab
        by_cases hv : v = 0#8
        · simpa [hv] using absent t (b + 1) h.2 (by omega)
        · simp [hv, cellGet]
      · have hb : b ≠ a := by omega
        simpa [cellGet, hb] using ih (b + 1) h.2

theorem cellGet_put_other (m : List Host.Cell) {a c : Nat} (v : Byte) (h : c ≠ a) : cellGet (cellPut m a v) c = cellGet m c := by
  have ha : a ≠ c := fun e => h e.symm
  induction m with
  | nil => by_cases hv : v = 0#8 <;> simp [cellPut, cellGet, hv, ha]
  | cons e t ih =>
    obtain ⟨b, w⟩ := e
    unfold cellPut
    split
    · by_cases hv : v = 0#8 <;> simp [hv, cellGet, ha]
    · split
      · rename_i hab
        have hbc : b ≠ c := by omega
        by_cases hv : v = 0#8 <;> simp [hv, cellGet, ha, hbc]
      · by_cases hb : b = c <;> simp [cellGet, hb, ih]

theorem cellGet_write_other (m : List Host.Cell) (a c : Nat) (vs : List Byte) (h : c < a ∨ a + vs.length ≤ c) :
    cellGet (cellWrite m a vs) c = cellGet m c := by
  induction vs generalizing m a with
  | nil => rfl
  | cons v vs ih =>
    simp only [List.length_cons] at h
    rw [cellWrite, ih _ _ (by omega), cellGet_put_other _ _ (by omega)]

/-! ## The canonical form -/

theorem cellsFrom_mono (m : List Host.Cell) {lo k : Nat} (h : k ≤ lo) (hm : cellsFrom lo m = true) : cellsFrom k m = true := by
  cases m with
  | nil => rfl
  | cons e t =>
    simp only [cellsFrom, Bool.and_eq_true, decide_eq_true_eq] at hm ⊢
    exact ⟨⟨by omega, hm.1.2⟩, hm.2⟩

theorem cellsFrom_put (m : List Host.Cell) {lo a : Nat} (v : Byte) (h : lo ≤ a) (hm : cellsFrom lo m = true) :
    cellsFrom lo (cellPut m a v) = true := by
  induction m generalizing lo with
  | nil => by_cases hv : v = 0#8 <;> simp [cellPut, cellsFrom, hv, h]
  | cons e t ih =>
    obtain ⟨b, w⟩ := e
    have hm' := hm
    simp only [cellsFrom, Bool.and_eq_true, decide_eq_true_eq] at hm
    unfold cellPut
    split
    · by_cases hv : v = 0#8
      · simpa [hv] using hm'
      · simp only [if_neg (show ¬ v = 0 from hv), cellsFrom, Bool.and_eq_true, decide_eq_true_eq]
        refine ⟨⟨h, by simpa using hv⟩, ⟨by omega, hm.1.2⟩, hm.2⟩
    · split
      · by_cases hv : v = 0#8
        · simpa [hv] using cellsFrom_mono t (by omega) hm.2
        · simp only [if_neg (show ¬ v = 0 from hv), cellsFrom, Bool.and_eq_true, decide_eq_true_eq]
          exact ⟨⟨h, by simpa using hv⟩, cellsFrom_mono t (by omega) hm.2⟩
      · simp only [cellsFrom, Bool.and_eq_true, decide_eq_true_eq]
        exact ⟨⟨hm.1.1, hm.1.2⟩, ih (by omega) hm.2⟩

theorem Memory.wf_put (m : List Host.Cell) (a : Nat) (v : Byte) (h : Memory.wf m = true) : Memory.wf (cellPut m a v) = true :=
  cellsFrom_put m v (Nat.zero_le a) h

theorem Memory.wf_write (m : List Host.Cell) (a : Nat) (vs : List Byte) (h : Memory.wf m = true) :
    Memory.wf (cellWrite m a vs) = true := by
  induction vs generalizing m a with
  | nil => exact h
  | cons v vs ih => exact ih _ _ (Memory.wf_put m a v h)

theorem cellsFrom_filter (m : List Host.Cell) (p : Host.Cell → Bool) {lo : Nat} (h : cellsFrom lo m = true) :
    cellsFrom lo (m.filter p) = true := by
  induction m generalizing lo with
  | nil => rfl
  | cons e t ih =>
    obtain ⟨b, w⟩ := e
    simp only [cellsFrom, Bool.and_eq_true, decide_eq_true_eq] at h
    by_cases hp : p (b, w) = true
    · simp only [List.filter_cons, hp, if_true, cellsFrom, Bool.and_eq_true, decide_eq_true_eq]
      exact ⟨h.1, ih h.2⟩
    · simp only [List.filter_cons, hp]
      exact cellsFrom_mono _ (by omega) (ih h.2)

theorem Memory.wf_filter (m : List Host.Cell) (p : Host.Cell → Bool) (h : Memory.wf m = true) : Memory.wf (m.filter p) = true :=
  cellsFrom_filter m p h

/-- Cells written one by one. -/
theorem Memory.wf_foldl_put {α : Type} (l : List α) (f : α → Nat) (g : α → Byte) (m : List Host.Cell) (h : Memory.wf m = true) :
    Memory.wf (l.foldl (fun m e => cellPut m (f e) (g e)) m) = true := by
  induction l generalizing m with
  | nil => exact h
  | cons e l ih => exact ih _ (Memory.wf_put m _ _ h)

theorem State.reset_mem_wf : Memory.wf State.reset.mem = true := by decide

/-! ## Cells and the L2 -/

theorem cellGet_put_of_wf (m : List Host.Cell) (a : Nat) (v : Byte) (h : Memory.wf m = true) : cellGet (cellPut m a v) a = v :=
  cellGet_put_same m 0 a v h

/-- Cells put from the back: the first listed wins. -/
theorem cellGet_foldr_put (m : List Host.Cell) (base : Nat) (l : Tab Nat Byte) (h : Memory.wf m = true) :
    Memory.wf (l.foldr (fun e m => cellPut m (base + e.1) e.2) m) = true ∧
    ∀ a, cellGet (l.foldr (fun e m => cellPut m (base + e.1) e.2) m) a =
      if base ≤ a then (Tab.find l (a - base)).getD (cellGet m a) else cellGet m a := by
  induction l with
  | nil => exact ⟨h, fun a => by simp [Tab.find]⟩
  | cons e l ih =>
    obtain ⟨k, v⟩ := e
    refine ⟨Memory.wf_put _ _ _ ih.1, fun a => ?_⟩
    rw [List.foldr_cons]
    by_cases hk : a = base + k
    · subst hk
      rw [cellGet_put_of_wf _ _ _ ih.1]
      simp [Tab.find]
    · rw [cellGet_put_other _ _ hk, ih.2]
      by_cases hb : base ≤ a
      · have : k ≠ a - base := by omega
        simp [hb, Tab.find, this]
      · simp [hb]

theorem Tab.find_filter_key (l : Tab Nat Byte) (p : Nat → Bool) (k : Nat) (hk : p k = true) :
    Tab.find (l.filter fun e => p e.1) k = Tab.find l k := by
  induction l with
  | nil => rfl
  | cons e l ih =>
    obtain ⟨j, v⟩ := e
    by_cases hj : p j = true
    · simp [hj, Tab.find, ih]
    · have : j ≠ k := fun e => hj (e ▸ hk)
      simp [hj, Tab.find, this, ih]

theorem Tab.find_filter_none (l : Tab Nat Byte) (p : Nat → Bool) (k : Nat) (hk : p k = false) :
    Tab.find (l.filter fun e => p e.1) k = none := by
  induction l with
  | nil => rfl
  | cons e l ih =>
    obtain ⟨j, v⟩ := e
    by_cases hj : p j = true
    · have : j ≠ k := fun e => by simp [e, hk] at hj
      simp [hj, Tab.find, this, ih]
    · simp [hj, ih]

/-- A drained line: its dirty bytes stand in HBM, every other byte as before. -/
theorem L2Line.drain_spec (l : L2Line) (m : List Host.Cell) (h : Memory.wf m = true) :
    Memory.wf (l.drain m) = true ∧
    ∀ a, cellGet (l.drain m) a = if a / 64 = l.line then (Tab.find l.dirty (a % 64)).getD (cellGet m a) else cellGet m a := by
  have q := cellGet_foldr_put m (64 * l.line) (l.dirty.filter fun e => decide (e.1 < 64)) h
  refine ⟨q.1, fun a => ?_⟩
  have hp : cellGet (l.drain m) a = _ := q.2 a
  rw [hp]
  by_cases ha : a / 64 = l.line
  · have h1 : 64 * l.line ≤ a := by omega
    have h2 : a - 64 * l.line = a % 64 := by omega
    rw [if_pos h1, h2, if_pos ha, Tab.find_filter_key l.dirty (fun k => decide (k < 64)) (a % 64) (by simp; omega)]
  · rw [if_neg ha]
    by_cases h1 : 64 * l.line ≤ a
    · rw [if_pos h1, Tab.find_filter_none l.dirty (fun k => decide (k < 64)) _ (by simp; omega)]; rfl
    · rw [if_neg h1]

theorem State.die_updDie_other (s : State) {d e : Nat} (f : Die → Die) (h : e ≠ d) : (s.updDie d f).die e = s.die e := by
  simp [State.updDie, State.setDie, State.die, Tab.getD_put_other _ _ _ h]

theorem find_filter_line (l : List L2Line) (line j : Nat) :
    (l.filter (·.line ≠ line)).find? (·.line = j) = if j = line then none else l.find? (·.line = j) := by
  induction l with
  | nil => simp
  | cons k l ih =>
    by_cases hk : k.line = line
    · rw [List.filter_cons_of_neg (by simp [hk]), ih]
      by_cases hj : j = line
      · simp [hj]
      · rw [if_neg hj, if_neg hj, List.find?_cons_of_neg (by simp; omega)]
    · rw [List.filter_cons_of_pos (by simpa using hk)]
      by_cases hj : k.line = j
      · rw [List.find?_cons_of_pos (by simpa using hj), List.find?_cons_of_pos (by simpa using hj), if_neg (by omega)]
      · rw [List.find?_cons_of_neg (by simpa using hj), List.find?_cons_of_neg (by simpa using hj), ih]

/-- After an eviction the line is gone from the array, and every other stands. -/
theorem State.l2Find_evict (s : State) (line j : Nat) : (s.evict line).l2Find j = if j = line then none else s.l2Find j := by
  cases h : s.l2Find line with
  | none => by_cases hj : j = line <;> simp [State.evict, hj, h]
  | some l =>
    have hd : ∀ d, ((s.evict line).die d) = (s.updDie (homeDie line) fun d => { d with l2 := d.l2.filter (·.line ≠ line) }).die d :=
      fun _ => by simp [State.evict, h, State.die]
    simp only [State.l2Find, hd]
    by_cases he : homeDie j = homeDie line
    · rw [he, State.die_updDie]
      exact find_filter_line _ _ _
    · have hj : j ≠ line := fun e => he (e ▸ rfl)
      rw [State.die_updDie_other _ _ he, if_neg hj]

/-- An eviction moves the line's bytes to HBM and changes no byte at its execution point. -/
theorem State.evict_spec (s : State) (line : Nat) (h : Memory.wf s.mem = true) :
    Memory.wf (s.evict line).mem = true ∧ ∀ a, (s.evict line).memByte a = s.memByte a := by
  cases hf : s.l2Find line with
  | none => simp [State.evict, hf, h]
  | some l =>
    have hl : l.line = line := by simpa using List.find?_some hf
    have hm : (s.evict line).mem = l.drain s.mem := by simp [State.evict, hf]
    have q := l.drain_spec s.mem h
    refine ⟨hm ▸ q.1, fun a => ?_⟩
    simp only [State.memByte, State.l2Find_evict, hm, q.2, hl]
    by_cases ha : a / 64 = line
    · simp [ha, hf]
    · simp [ha]

theorem State.makeWay_spec (s : State) (line : Nat) (h : Memory.wf s.mem = true) :
    Memory.wf (s.makeWay line).mem = true ∧ ∀ a, (s.makeWay line).memByte a = s.memByte a := by
  unfold State.makeWay
  split
  · exact ⟨h, fun _ => rfl⟩
  · split
    · exact s.evict_spec _ h
    · exact ⟨h, fun _ => rfl⟩

/-- A way is made free by another line's leaving. -/
theorem State.l2Find_makeWay (s : State) (line : Nat) (h : s.l2Find line = none) : (s.makeWay line).l2Find line = none := by
  unfold State.makeWay
  split
  · exact h
  · split
    · rw [State.l2Find_evict]; split <;> simp [h]
    · exact h

/-! ## The operations keep the canonical form -/

theorem State.updL2_wf (s : State) (line comp : Nat) (f : L2Line → L2Line) (h : Memory.wf s.mem = true) :
    Memory.wf (s.updL2 line comp f).mem = true := by
  unfold State.updL2
  split
  · simpa using h
  · simpa [State.addL2] using (s.makeWay_spec line h).1

@[simp] theorem State.queueMiss_mem (s : State) (m : Miss) : (s.queueMiss m).mem = s.mem := by
  unfold State.queueMiss; dsimp only; split <;> rfl

theorem State.putL2_wf (s : State) (line comp : Nat) (f : L2Line → L2Line) (h : Memory.wf s.mem = true) :
    Memory.wf (s.putL2 line comp f).mem = true := by
  unfold State.putL2
  split
  · exact s.updL2_wf line comp f h
  · simpa [State.queueWrite, State.addL2] using h

theorem State.memPut_wf (s : State) (comp pa : Nat) (v : Byte) (h : Memory.wf s.mem = true) :
    Memory.wf (s.memPut comp pa v).mem = true := by
  unfold State.memPut
  split
  · exact s.putL2_wf _ _ _ h
  · exact Memory.wf_put _ _ _ h

theorem State.memPuts_wf (s : State) (comp pa : Nat) (l : List Byte) (h : Memory.wf s.mem = true) :
    Memory.wf (s.memPuts comp pa l).mem = true := by
  induction l generalizing s pa with
  | nil => exact h
  | cons v l ih => exact ih _ _ (State.memPut_wf s comp pa v h)

theorem State.memWrite_wf (s : State) (comp pa : Nat) (l : List Byte) (h : Memory.wf s.mem = true) :
    Memory.wf (s.memWrite comp pa l).mem = true := by
  simpa [State.memWrite] using State.memPuts_wf s comp pa l h

theorem State.writeBack_wf (s : State) (line : Nat) (h : Memory.wf s.mem = true) : Memory.wf (s.writeBack line).mem = true := by
  unfold State.writeBack
  split
  · exact h
  · exact (L2Line.drain_spec _ _ h).1

/-! ## Memory at its execution points, read after a write -/

theorem find_map_line (l : List L2Line) (line j : Nat) (f : L2Line → L2Line) (hf : ∀ k, (f k).line = k.line) :
    (l.map fun k => if k.line = line then f k else k).find? (·.line = j) =
      (l.find? (·.line = j)).map fun k => if k.line = line then f k else k := by
  induction l with
  | nil => rfl
  | cons k l ih =>
    have hk : (if k.line = line then f k else k).line = k.line := by split <;> simp [hf]
    by_cases hj : k.line = j
    · rw [List.map_cons, List.find?_cons_of_pos (by simpa [hk] using hj), List.find?_cons_of_pos (by simpa using hj)]; rfl
    · rw [List.map_cons, List.find?_cons_of_neg (by simpa [hk] using hj), List.find?_cons_of_neg (by simpa using hj), ih]

/-- Memory as its execution points hold it depends on the lines found and the bytes of HBM alone. -/
theorem State.memByte_congr {s t : State} {a : Nat} (hl : t.l2Find (a / 64) = s.l2Find (a / 64)) (hm : cellGet t.mem a = cellGet s.mem a) :
    t.memByte a = s.memByte a := by
  simp only [State.memByte, hl, hm]

theorem State.l2Find_addL2 (s : State) (l : L2Line) (j : Nat) :
    (s.addL2 l).l2Find j = (s.l2Find j).or (if l.line = j then some l else none) := by
  by_cases hd : homeDie j = homeDie l.line
  · simp only [State.l2Find, State.addL2, hd, State.die_updDie]
    rw [List.find?_append]
    by_cases hj : l.line = j <;> simp [hj]
  · have hj : l.line ≠ j := fun e => hd (e ▸ rfl)
    simp [State.l2Find, State.addL2, State.die_updDie_other _ _ hd, hj]

@[simp] theorem State.l2Find_queueMiss (s : State) (m : Miss) (j : Nat) : (s.queueMiss m).l2Find j = s.l2Find j := by
  have key : ∀ t : State, (t.updDie (homeDie m.line) fun e => { e with overflow := e.overflow ++ [m] }).l2Find j = t.l2Find j := by
    intro t
    by_cases hd : homeDie j = homeDie m.line
    · simp [State.l2Find, hd]
    · simp [State.l2Find, State.die_updDie_other _ _ hd]
  unfold State.queueMiss
  dsimp only
  split
  · rw [key]; rfl
  · rw [key]

/-- The line an update of the L2 leaves: its function applied to the line that stood there, or to a clean one. -/
theorem State.l2Find_updL2_same (s : State) (line comp : Nat) (f : L2Line → L2Line) (hf : ∀ k, (f k).line = k.line) :
    (s.updL2 line comp f).l2Find line =
      some (f ((s.l2Find line).getD { line := line, dirty := [], uc := 0, dead := false, comp := comp })) := by
  unfold State.updL2
  cases h : s.l2Find line with
  | none => simp [State.l2Find_addL2, s.l2Find_makeWay line h, hf]
  | some k =>
    have h' : List.find? (·.line = line) (s.die (homeDie line)).l2 = some k := h
    have hk : k.line = line := by simpa using List.find?_some h'
    simp [State.l2Find, find_map_line _ _ _ _ hf, h', hk]

/-- The line a write to the L2 leaves, in the array or in the overflow queue. -/
theorem State.l2Find_putL2_same (s : State) (line comp : Nat) (f : L2Line → L2Line) (hf : ∀ k, (f k).line = k.line) :
    ∃ q, (s.putL2 line comp f).l2Find line =
      some (f ((s.l2Find line).getD { line := line, dirty := [], uc := 0, dead := false, comp := comp, queued := q })) := by
  unfold State.putL2
  split
  · exact ⟨false, s.l2Find_updL2_same line comp f hf⟩
  · rename_i h
    have hn : s.l2Find line = none := by
      cases hl : s.l2Find line with
      | none => rfl
      | some _ => simp [hl] at h
    exact ⟨true, by simp [State.queueWrite, State.l2Find_addL2, hn, hf]⟩

/-- A line that another line's update leaves: as it was, or gone to HBM to make room. -/
theorem State.memByte_updL2_other (s : State) {line a : Nat} (comp : Nat) (f : L2Line → L2Line) (hf : ∀ k, (f k).line = k.line)
    (hw : Memory.wf s.mem = true) (h : a / 64 ≠ line) : (s.updL2 line comp f).memByte a = s.memByte a := by
  unfold State.updL2
  split
  · refine State.memByte_congr ?_ (by simp)
    by_cases hd : homeDie (a / 64) = homeDie line
    · simp only [State.l2Find, hd, State.die_updDie, find_map_line _ _ _ _ hf]
      cases hj : List.find? (fun x => decide (x.line = a / 64)) (s.die (homeDie line)).l2 with
      | none => rfl
      | some m =>
        have hm : m.line = a / 64 := by simpa using List.find?_some hj
        simp [hm, h]
    · simp [State.l2Find, State.die_updDie_other _ _ hd]
  · rw [← (s.makeWay_spec line hw).2 a]
    refine State.memByte_congr ?_ (by simp [State.addL2])
    rw [State.l2Find_addL2, if_neg (by simp [hf]; omega)]
    simp

theorem State.memByte_putL2_other (s : State) {line a : Nat} (comp : Nat) (f : L2Line → L2Line) (hf : ∀ k, (f k).line = k.line)
    (hw : Memory.wf s.mem = true) (h : a / 64 ≠ line) : (s.putL2 line comp f).memByte a = s.memByte a := by
  unfold State.putL2
  split
  · exact s.memByte_updL2_other comp f hf hw h
  · refine State.memByte_congr ?_ (by simp [State.queueWrite, State.addL2])
    rw [State.queueWrite, State.l2Find_queueMiss, State.l2Find_addL2, if_neg (by simp [hf]; omega)]
    simp

/-- A write to an L2 line leaves HBM under that line as it was. -/
theorem State.cellGet_putL2 (s : State) {line a : Nat} (comp : Nat) (f : L2Line → L2Line) (hw : Memory.wf s.mem = true)
    (h : a / 64 = line) : cellGet (s.putL2 line comp f).mem a = cellGet s.mem a := by
  unfold State.putL2
  split
  · unfold State.updL2
    cases hl : s.l2Find line with
    | some _ => simp
    | none =>
      have := (s.makeWay_spec line hw).2 a
      simpa [State.memByte, h, hl, s.l2Find_makeWay line hl, State.addL2] using this
  · simp [State.queueWrite, State.addL2]

theorem State.memByte_memPut_other (s : State) (comp : Nat) {pa a : Nat} (v : Byte) (hw : Memory.wf s.mem = true) (h : a ≠ pa) :
    (s.memPut comp pa v).memByte a = s.memByte a := by
  unfold State.memPut
  split
  · by_cases hl : a / 64 = pa / 64
    · have ho : a % 64 ≠ pa % 64 := by omega
      obtain ⟨q, hq⟩ := s.l2Find_putL2_same (pa / 64) comp (fun l => { l with dirty := Tab.put l.dirty (pa % 64) v }) (by simp)
      have hc := s.cellGet_putL2 comp (fun l => { l with dirty := Tab.put l.dirty (pa % 64) v }) hw hl
      simp only [State.memByte, hl, hq, hc, Tab.find_put_other _ _ ho]
      cases s.l2Find (pa / 64) <;> simp [Tab.find]
    · exact s.memByte_putL2_other comp _ (by simp) hw hl
  · have hq : ∀ j, State.l2Find { s with mem := cellPut s.mem pa v } j = s.l2Find j := fun _ => rfl
    simp only [State.memByte, hq, cellGet_put_other _ _ h]

theorem State.memByte_memPuts_other (s : State) (comp pa a : Nat) (l : List Byte) (hw : Memory.wf s.mem = true)
    (h : a < pa ∨ pa + l.length ≤ a) : (s.memPuts comp pa l).memByte a = s.memByte a := by
  induction l generalizing s pa with
  | nil => rfl
  | cons v l ih =>
    simp only [List.length_cons] at h
    rw [State.memPuts, ih _ _ (State.memPut_wf s comp pa v hw) (by omega), State.memByte_memPut_other _ _ _ hw (by omega)]

/-- A write leaves every byte outside it as it was. -/
theorem State.memByte_memWrite_other (s : State) (comp pa a : Nat) (l : List Byte) (hw : Memory.wf s.mem = true)
    (h : a < pa ∨ pa + l.length ≤ a) : (s.memWrite comp pa l).memByte a = s.memByte a :=
  State.memByte_memPuts_other s comp pa a l hw h

/-- A byte of HBM reads as it was written last. -/
theorem State.memByte_memPut_same (s : State) (comp pa : Nat) (v : Byte) (h : isHbm pa = true) :
    (s.memPut comp pa v).memByte pa = v := by
  obtain ⟨q, hq⟩ := s.l2Find_putL2_same (pa / 64) comp (fun l => { l with dirty := Tab.put l.dirty (pa % 64) v }) (by simp)
  simp only [State.memPut, h, if_true, State.memByte, hq]
  simp

/-- A byte reads as it was written last, wherever it lies. -/
theorem State.memByte_memPut_host (s : State) (comp pa : Nat) (v : Byte) (hw : Memory.wf s.mem = true) (h : isHbm pa = false)
    (hl : s.l2Find (pa / 64) = none) : (s.memPut comp pa v).memByte pa = v := by
  have hq : ∀ j, State.l2Find { s with mem := cellPut s.mem pa v } j = s.l2Find j := fun _ => rfl
  simp [State.memPut, h, State.memByte, hq, hl, cellGet_put_of_wf _ _ _ hw]

end Sys2Proof.Machine
end

