-- ==== Sys2Proof/Laws/Ops.lean ====
section
/-! SUPPORT. The shared operations of an instruction: what each answers, once, in the words of the claims. -/
namespace Sys2Proof.Machine

/-! ## Effects in sequence -/

theorem exec_bind_ok {α β : Type} {m : Exec α} {f : α → Exec β} {s t : State} {a : α} (h : m s = .ok a t) : (m >>= f) s = f a t := by
  show EStateM.bind m f s = _
  simp [EStateM.bind, h]

theorem exec_bind_error {α β : Type} {m : Exec α} {f : α → Exec β} {s t : State} {e : Stop} (h : m s = .error e t) :
    (m >>= f) s = .error e t := by
  show EStateM.bind m f s = _
  simp [EStateM.bind, h]

@[simp] theorem exec_bind_pure {α β : Type} (a : α) (f : α → Exec β) : (pure a >>= f : Exec β) = f a := rfl

@[simp] theorem exec_pure {α : Type} (a : α) (s : State) : (pure a : Exec α) s = .ok a s := rfl

@[simp] theorem exec_get_bind {β : Type} (f : State → Exec β) (s : State) : ((get : Exec State) >>= f) s = f s s := rfl

@[simp] theorem exec_set_bind {β : Type} (t : State) (f : PUnit → Exec β) (s : State) : ((set t : Exec PUnit) >>= f) s = f ⟨⟩ t := rfl

@[simp] theorem exec_set (t s : State) : (set t : Exec PUnit) s = .ok ⟨⟩ t := rfl

@[simp] theorem exec_modify_bind {β : Type} (g : State → State) (f : PUnit → Exec β) (s : State) :
    ((modify g : Exec PUnit) >>= f) s = f ⟨⟩ (g s) := rfl

@[simp] theorem exec_modify (g : State → State) (s : State) : (modify g : Exec PUnit) s = .ok ⟨⟩ (g s) := rfl

theorem check_true {c : Bool} {code info : Nat} {va : W64} {s : State} (h : c = true) : check c code info va s = .ok () s := by
  simp [check, h]

theorem check_false {c : Bool} {code info : Nat} {va : W64} {s : State} (h : c = false) :
    check c code info va s = .error (.trap code info va) s := by
  simp [check, h]; rfl

@[simp] theorem check_bind {β : Type} (c : Bool) (code info : Nat) (va : W64) (f : Unit → Exec β) (s : State) :
    (check c code info va >>= f) s = if c then f () s else .error (.trap code info va) s := by
  cases c <;> rfl

@[simp] theorem await_bind {β : Type} (c : Bool) (f : Unit → Exec β) (s : State) :
    (await c >>= f) s = if c then f () s else .error .stall s := by
  cases c <;> rfl

/-! ## From an effect to an outcome -/

theorem issue_ok {m : Exec Unit} {s t : State} (h : m s = .ok () t) : issue m s = .next t := by simp [issue, h]

theorem issue_trap {m : Exec Unit} {s t : State} {code info : Nat} {va : W64} (h : m s = .error (.trap code info va) t) :
    issue m s = .next (s.raiseInt code info va) := by simp [issue, h, stopOutcome]

theorem issue_stall {m : Exec Unit} {s t : State} (h : m s = .error .stall t) : issue m s = .next s.stallMe := by
  simp [issue, h, stopOutcome]

theorem issue_wait {m : Exec Unit} {s t : State} (h : m s = .error .wait t) : issue m s = .next t.stallMe := by
  simp [issue, h, stopOutcome]

/-- An effect of the issuing context always has a next state: it completes, waits, or takes a trap. -/
theorem issue_next (m : Exec Unit) (s : State) : ∃ t, issue m s = .next t := by
  unfold issue
  split
  · exact ⟨_, rfl⟩
  · unfold stopOutcome
    split <;> exact ⟨_, rfl⟩

theorem event_true {c : Bool} {f : State → State} {s : State} (h : c = true) : event c f s = .next (f s) := by simp [event, h]

theorem event_false {c : Bool} {f : State → State} {s : State} (h : c = false) : event c f s = .next s := by simp [event, h]

/-! ## Operands -/

theorem ruined_eq (s : State) (r : SReg) : Claim.ruined s r = s.badReg r := by cases r <;> rfl

/-- A source that can be read is sound. -/
theorem take_sound {s t : State} {r : SReg} {v : W64} (h : Claim.take s r = some (v, t)) : s.badReg r = false := by
  cases hb : s.badReg r with
  | false => rfl
  | true => simp [Claim.take, ruined_eq, hb] at h

theorem take_badSource {s t : State} {r : SReg} {v : W64} (h : Claim.take s r = some (v, t)) : SReg.badSource r = false := by
  have hb := take_sound h
  simp only [Claim.take, ruined_eq, hb, Bool.false_eq_true, if_false] at h
  cases r with
  | x n => rfl
  | k n => rfl
  | q n =>
    by_cases hn : n.val < 4
    · simp [hn] at h
    · simp [SReg.badSource]; omega

/-- A source that can be read is read so. -/
theorem readS_take {s t : State} {r : SReg} {v : W64} (h : Claim.take s r = some (v, t)) : readS r s = .ok v t := by
  have hb := take_sound h
  simp only [Claim.take, ruined_eq, hb, Bool.false_eq_true, if_false] at h
  simp only [readS, hb, Bool.false_eq_true, if_false]
  cases r with
  | x n => simpa [Ctx.xreg] using h
  | k n => simpa [Core.kreg] using h
  | q n =>
    by_cases hn : n.val < 4
    · simp [hn] at h
    · simp only [hn, if_false] at h
      dsimp only at h ⊢
      split at h
      · simp at h
      · rename_i hq
        simp only [Option.some.injEq, Prod.mk.injEq] at h
        simp [hq, h]

theorem take_pc {s t : State} {r : SReg} {v : W64} (h : Claim.take s r = some (v, t)) :
    t.me.next = s.me.next ∧ t.cycle = s.cycle ∧ t.cur = s.cur ∧ t.curCtx = s.curCtx := by
  have hb := take_sound h
  simp only [Claim.take, ruined_eq, hb, Bool.false_eq_true, if_false] at h
  cases r with
  | x n => simp at h; simp [h]
  | k n => simp at h; simp [h]
  | q n =>
    by_cases hn : n.val < 4
    · simp [hn] at h
    · simp only [hn, if_false] at h
      split at h
      · simp at h
      · simp only [Option.some.injEq, Prod.mk.injEq] at h
        obtain ⟨-, rfl⟩ := h
        simp [Ctx.next, Ctx.setQueue]

theorem takes_one {s t : State} {a : SReg} {x : W64} (h : Claim.takes s [a] = some ([x], t)) : Claim.take s a = some (x, t) := by
  simp only [Claim.takes] at h
  split at h
  · simp at h
  · rename_i he; simp at h; simp [he, h]

theorem takes_cons {s t : State} {a : SReg} {as : List SReg} {x : W64} {xs : List W64}
    (h : Claim.takes s (a :: as) = some (x :: xs, t)) : ∃ u, Claim.take s a = some (x, u) ∧ Claim.takes u as = some (xs, t) := by
  simp only [Claim.takes] at h
  split at h
  · simp at h
  · rename_i v u he
    split at h
    · simp at h
    · rename_i vs w hw
      simp only [Option.some.injEq, Prod.mk.injEq, List.cons.injEq] at h
      obtain ⟨⟨rfl, rfl⟩, rfl⟩ := h
      exact ⟨u, he, hw⟩

theorem takes_two {s t : State} {a b : SReg} {x y : W64} (h : Claim.takes s [a, b] = some ([x, y], t)) :
    ∃ u, Claim.take s a = some (x, u) ∧ Claim.take u b = some (y, t) := by
  obtain ⟨u, h1, h2⟩ := takes_cons h
  exact ⟨u, h1, takes_one h2⟩

theorem takes_three {s t : State} {a b c : SReg} {x y z : W64} (h : Claim.takes s [a, b, c] = some ([x, y, z], t)) :
    ∃ u w, Claim.take s a = some (x, u) ∧ Claim.take u b = some (y, w) ∧ Claim.take w c = some (z, t) := by
  obtain ⟨u, h1, h2⟩ := takes_cons h
  obtain ⟨w, h2, h3⟩ := takes_two h2
  exact ⟨u, w, h1, h2, h3⟩

theorem room_badDest {s : State} {d : SReg} (h : Claim.room s d = true) : SReg.badDest d = false := by
  cases d with
  | x n => rfl
  | k n => rfl
  | q n => simp [Claim.room] at h; simp [SReg.badDest]; omega

theorem directions_ok {srcs dests : List SReg} (hs : srcs.any SReg.badSource = false) (hd : dests.any SReg.badDest = false)
    (s : State) : directions srcs dests s = .ok () s := by
  unfold directions
  simp [hs, hd]
  rfl

theorem putX (s : State) (d : SReg) (w : W64) : Claim.put s d w = s.writeD d w := by
  cases d with
  | x n => by_cases hn : n.val = 0 <;> simp [Claim.put, State.writeD, hn, Ctx.setX, State.updMe, id]
  | k n => rfl
  | q n => rfl

theorem writeS_room {s : State} {d : SReg} (w : W64) (h : Claim.room s d = true) : writeS d w s = .ok () (Claim.put s d w) := by
  rw [putX]
  cases d with
  | x n => rfl
  | k n => rfl
  | q n =>
    simp only [Claim.room, Bool.and_eq_true, decide_eq_true_eq] at h
    have : s.me.queueFull n.val = false := by simp [Ctx.queueFull, queueDepth, h.1] at *; omega
    simp [writeS, this]

@[simp] theorem writeD_cycle (s : State) (d : SReg) (w : W64) : (s.writeD d w).cycle = s.cycle := by cases d <;> rfl
@[simp] theorem writeD_cur (s : State) (d : SReg) (w : W64) : (s.writeD d w).cur = s.cur := by cases d <;> rfl
@[simp] theorem writeD_curCtx (s : State) (d : SReg) (w : W64) : (s.writeD d w).curCtx = s.curCtx := by cases d <;> rfl

theorem writeD_next (s : State) (d : SReg) (w : W64) : (s.writeD d w).me.next = s.me.next := by
  cases d with
  | x n => by_cases hn : n.val = 0 <;> simp [State.writeD, Ctx.setX, hn, Ctx.next]
  | k n => simp [State.writeD, State.me, State.ctx, Core.setK, Core.ctx]
  | q n => simp [State.writeD, Ctx.setQueue, Ctx.next]

theorem following_eq (s : State) : Claim.following s = s.me.next := by
  simp [Claim.following, Ctx.next, nextPc, field, w64]

theorem goesOn_eq (s : State) (pc : W64) : Claim.goesOn s pc = s.jump pc := rfl

@[simp] theorem jump_apply (pc : W64) (s : State) : jump pc s = .ok () (s.jump pc) := rfl
@[simp] theorem complete_apply (s : State) : complete s = .ok () (s.jump s.me.next) := rfl

theorem done_eq (s : State) : Claim.done s = s.jump s.me.next := by simp [Claim.done, goesOn_eq, following_eq]

theorem result_eq (s : State) (d : SReg) (w : W64) : Claim.result s d w = (s.writeD d w).jump s.me.next := by
  simp [Claim.result, goesOn_eq, following_eq, putX]

/-- The result is written and the context goes on. -/
theorem finish_room {s : State} {d : SReg} (w : W64) (h : Claim.room s d = true) : finish d w s = .ok () (Claim.result s d w) := by
  unfold finish
  rw [exec_bind_ok (writeS_room w h), complete_apply, putX, writeD_next, result_eq]

/-- One source, one destination. -/
theorem op1_ok {s t : State} {d a : SReg} {x : W64} (f : W64 → W64) (h : Claim.takes s [a] = some ([x], t))
    (hd : Claim.room t d = true) : op1 d a f s = .ok () (Claim.result t d (f x)) := by
  have h1 := takes_one h
  unfold op1
  rw [exec_bind_ok (directions_ok (by simp [take_badSource h1]) (by simp [room_badDest hd]) s), exec_bind_ok (readS_take h1)]
  exact finish_room _ hd

/-- Two sources, one destination. -/
theorem op2_ok {s t : State} {d a b : SReg} {x y : W64} (f : W64 → W64 → W64) (h : Claim.takes s [a, b] = some ([x, y], t))
    (hd : Claim.room t d = true) : op2 d a b f s = .ok () (Claim.result t d (f x y)) := by
  obtain ⟨u, h1, h2⟩ := takes_two h
  unfold op2
  rw [exec_bind_ok (directions_ok (by simp [take_badSource h1, take_badSource h2]) (by simp [room_badDest hd]) s),
    exec_bind_ok (readS_take h1), exec_bind_ok (readS_take h2)]
  exact finish_room _ hd

end Sys2Proof.Machine
end

