-- ==== Sys2Proof/Tests/Slice0.lean ====
section
/-! SUPPORT. The model's own tests: well-formedness, decoding, one step of small states, and for each statement of
Obligations.lean a state and operands that meet its hypotheses. Expected values are worked out by hand from the rule that the
docstring names. -/
set_option Elab.async false

namespace Sys2Proof.Tests
open Sys2Proof Sys2Proof.Machine Sys2Proof.Claim

/-! ## Small states -/

def n0 : SiteId := ⟨0, 0⟩
def n1 : SiteId := ⟨0, 1⟩
def c0 : CoreId := ⟨0, 0, 0⟩
def c1 : CoreId := ⟨0, 0, 1⟩
def b0 : BankId := ⟨0, 0, 0⟩
def b1 : BankId := ⟨0, 0, 1⟩

/-- One span of two clusters; context 0 of core 0 runs a firing, slot 0 berths bank 0. -/
def rig (x : Ctx) (k : Core := {}) (b : Bank := {}) : State :=
  { State.reset with
    sites := [(n0, .enabled), (n1, .enabled)]
    parts := [(0, { defined := true, clusters := [n0, n1], run := .running, ctx := some 0, s1root := 1, nctx := 2, tslice := 1 })]
    spans := [{ id := 7, launch := 9, part := 0, ctx := 0, slice := 0, sites := [n0, n1], started := true }]
    lantern := { started := true }
    cores := [(c0, { k with ctxs := (0, { x with running := true, fid := 1 }) :: k.ctxs
                            berths := (0, some b0) :: k.berths, ptbase := 1, tvec := 0x40 })]
    banks := [(b0, { b with st := .berthed })] }

/-- The rig with a few registers and a queue entry. -/
def regs : Ctx := { x := [(1, 5), (2, 7), (3, 0x8000000000000000), (4, 0xFFFFFFFFFFFFFFFF), (9, 1)], q := [(4, [7, 8])] }
def s0 : State := rig regs

def ran (i : Instr) (s : State) : State :=
  match exec i s with
  | .next t => t
  | _ => State.reset

/-- Register x of the issuing context after one instruction. -/
def gives (i : Instr) (s : State) (n : Nat) : W64 := (ran i s).me.xreg n

/-! ## WellFormed (R66, R68, R75, R105, R122, R124, R125, R133, R159, R195, R203, R221, R240, R268, R362, R396) -/

theorem test_wf_accepts : (Instr.add (.x 1) (.x 2) (.q 4)).wf = true ∧ (Instr.loop (.k 0) ⟨0, 0⟩).wf = true := by decide
theorem test_wf_loop : (Instr.loop (.x 0) ⟨0, 0⟩).wf = false ∧ (Instr.loop (.q 4) ⟨0, 0⟩).wf = false := by decide
theorem test_wf_lih : (Instr.lih (.q 0) 1).wf = false := by decide
theorem test_wf_bit_field : (Instr.bfx (.x 1) (.x 2) ⟨60, 4⟩ true).wf = false ∧ (Instr.bfi (.x 0) (.x 2) ⟨0, 0⟩).wf = false := by decide
theorem test_wf_faba : (Instr.faba (.x 1) (.x 2) (.x 0) (.x 3) ⟨false, true, false⟩).wf = false ∧
    (Instr.faba (.x 1) (.x 0) (.x 0) (.x 3) ⟨false, true, true⟩).wf = false ∧
    (Instr.faba (.x 1) (.x 0) (.x 2) (.x 3) ⟨true, false, false⟩).wf = false := by decide
theorem test_wf_load_dead : (Instr.ldw (.x 1) (.x 2) ⟨0, 0, true⟩).wf = false := by decide
theorem test_wf_relaxed_scope : (Instr.fadd (.x 0) (.x 1) (.x 2) ⟨true, false, false, .sys⟩).wf = false := by decide
theorem test_wf_send_zp : (Instr.send (.x 0) (.x 1) (.x 2) (.x 3) ⟨false, false, true⟩).wf = false := by decide
theorem test_wf_modifier : (Instr.vmov 1 2 ⟨.none, 1, 0, false⟩ 0).wf = false ∧ (Instr.vmov 1 2 ⟨.rotate, 1, 0, true⟩ 0).wf = false ∧
    (Instr.vadd 1 2 (.s (.x 1)) ⟨.rotate, 1, 0, true⟩ 0 ⟨.ctl, false⟩).wf = false := by decide
theorem test_wf_rounding : (Instr.vadd 1 2 (.v 3) ⟨.none, 0, 0, false⟩ 0 ⟨.sr, false⟩).wf = false := by decide
theorem test_wf_predicate_zero : (Instr.pand 0 1 2).wf = false ∧ (Instr.vcmp 0 1 (.v 2) ⟨.none, 0, 0, false⟩ 0 .eq .f32).wf = false := by
  decide
theorem test_wf_unordered : (Instr.vcmp 1 1 (.v 2) ⟨.none, 0, 0, false⟩ 0 .un .i32).wf = false := by decide
theorem test_wf_result_queue : (Instr.pcnt (.x 1) 2).wf = false ∧ (Instr.vred (.x 1) 2 ⟨.none, 0, 0, false⟩ 0 .addF).wf = false := by decide
theorem test_wf_tile_pair : (Instr.mload 1 (.x 1) ⟨true, 0⟩).wf = false := by decide
theorem test_wf_status : (Instr.mstat (.x 1)).wf = false ∧ (Instr.dtld (.k 0) (.x 1) false).wf = false := by decide
theorem test_wf_stream_clear : (Instr.mstream (.x 1) 0 true).wf = false := by decide
theorem test_wf_binfo : (Instr.binfo (.x 1) (.x 2) false 0).wf = false ∧ (Instr.binfo (.x 1) (.x 2) true 1).wf = false := by decide
theorem test_wf_system_register : (Instr.sysr (.x 1) 16383).wf = false := by decide
theorem test_wf_seal : (Instr.seal (.x 1) (.x 2) (.x 0) ⟨0, false, 0⟩).wf = false ∧
    (Instr.seal (.x 1) (.x 2) (.x 3) ⟨0, true, 0⟩).wf = false := by decide
theorem test_wf_conversion : (Instr.vcvt 1 2 .i8 .i32 ⟨.none, 0, 0, false⟩ 0 ⟨.sr, false⟩).wf = false := by decide
theorem test_wf_parts : (Instr.dieFence 8).wf = false ∧ (Instr.firingStart ⟨0, 132, 0⟩).wf = false ∧
    (Instr.takeEntry 128 0).wf = false ∧ (Instr.groupTurnComplete 10 0).wf = false := by decide

/-! ## Decoding: words written out from the encodings (R59, R62-R69) -/

/-- HAND x9, x4, 2: 0x8000 | 0x100 | 2; tail d 9, a 4, f14 2. -/
theorem test_decode_hand : decodeTableWord 48 (0x8102 + 0x24400002 * 2 ^ 16) = some (.hand (.x 9) (.x 4) 2) := by decide
/-- ADD x3, x1, q4: major 4, TL 2, minor 0; d 3, a 1, b 44. -/
theorem test_decode_add : decodeTableWord 48 (0x1100 + (3 * 2 ^ 26 + 1 * 2 ^ 20 + 44 * 2 ^ 14) * 2 ^ 16) =
    some (.add (.x 3) (.x 1) (.q 4)) := by decide
/-- ADDI x3, x1, -1: f14 all ones. -/
theorem test_decode_addi : decodeTableWord 48 (0x1D00 + (3 * 2 ^ 26 + 1 * 2 ^ 20 + 0x3FFF) * 2 ^ 16) = some (.addi (.x 3) (.x 1) 0x3FFF) := by
  decide
/-- BEQ x1, x2 one line back, slot 3. -/
theorem test_decode_beq : decodeTableWord 48 (0x0500 + (1 * 2 ^ 26 + 2 * 2 ^ 20 + 0x7FFF * 2 ^ 5 + 3) * 2 ^ 16) =
    some (.beq (.x 1) (.x 2) ⟨0x7FFF, 3⟩) := by decide
/-- END is a head alone. -/
theorem test_decode_end : decodeTableWord 16 0x0805 = some .end_ := by decide
/-- LDW x5, x8, 16, uc=3, dead=1. -/
theorem test_decode_ldw : decodeTableWord 80 (0x2A04 + 0x1480000004C00010 * 2 ^ 16) = some (.ldw (.x 5) (.x 8) ⟨16, 3, true⟩) := by decide
/-- STREL.64.sys x6, x9, 0. -/
theorem test_decode_strel : decodeTableWord 80 (0x2E04 + 0x1890000048000000 * 2 ^ 16) = some (.strel (.x 6) (.x 9) ⟨0, true, .sys⟩) := by
  decide
/-- CAS.64 x17, x16, x0, x14. -/
theorem test_decode_cas : decodeTableWord 64 (0x3180 + 0x45000E000040 * 2 ^ 16) =
    some (.cas (.x 17) (.x 16) (.x 0) (.x 14) ⟨true, false, false, .core⟩) := by decide
/-- SPEC x6, 3. -/
theorem test_decode_spec : decodeTableWord 32 (0x8085 + 0x1803 * 2 ^ 16) = some (.spec (.x 6) 3) := by decide
/-- CPYW x12, x8. -/
theorem test_decode_cpyw : decodeTableWord 32 (0x8484 + 0x3080 * 2 ^ 16) = some (.cpyw (.x 12) (.x 8)) := by decide
/-- TURN x9, x5, 6. -/
theorem test_decode_turn : decodeTableWord 48 (0x8900 + 0x24500006 * 2 ^ 16) = some (.turn (.x 9) (.x 5) 6) := by decide
/-- SEAL x5, x6, x7, ctx=3, vr=1, len=16. -/
theorem test_decode_seal : decodeTableWord 48 (0x9100 + 0x1461C390 * 2 ^ 16) = some (.seal (.x 5) (.x 6) (.x 7) ⟨3, true, 16⟩) := by decide
/-- VADD v1, v2, v3: major 0x10, format Fc; d 1, a 2, b 3, nothing else. -/
theorem test_decode_vadd : decodeTableWord 64 (0x4180 + (1 * 2 ^ 42 + 2 * 2 ^ 36 + 3 * 2 ^ 30) * 2 ^ 16) =
    some (.vadd 1 2 (.v 3) ⟨.none, 0, 0, false⟩ 0 ⟨.ctl, false⟩) := by decide
/-- PAND p1, p2, p3: major 0x1B, format Fb. -/
theorem test_decode_pand : decodeTableWord 48 (0x6D00 + (1 * 2 ^ 26 + 2 * 2 ^ 20 + 3 * 2 ^ 14) * 2 ^ 16) = some (.pand 1 2 3) := by decide
/-- MZERO a3: major 0x1C, format Fa; d 3. -/
theorem test_decode_mzero : decodeTableWord 32 (0x7080 + (3 * 2 ^ 10) * 2 ^ 16) = some (.mzero 3) := by decide
/-- SRET is a head alone; SYSR of a number that names no register is refused, INFO 6 (R396). -/
theorem test_decode_sret : decodeTableWord 16 0x8C01 = some .sret := by decide
/-- A reserved tail bit, an unknown major, a wrong tail length and a register number above 47 are refused by name. -/
theorem test_decode_refuses : decodeTableWord 32 (0x8085 + 0x1813 * 2 ^ 16) = none ∧ decodeTableWord 16 0x0000 = none ∧
    decodeTableWord 16 0x1000 = none ∧ decodeTableWord 48 (0x1100 + (48 * 2 ^ 26) * 2 ^ 16) = none := by decide

/-! ## Integer instructions -/

/-- Witness of IntegerArithmeticResults and LogicShiftCompareResults: a register and a queue entry. -/
theorem witness_two_sources : ∃ t, takes s0 [.x 1, .q 4] = some ([5, 7], t) ∧ room t (.x 6) = true ∧ room t (.q 0) = true :=
  ⟨_, rfl, rfl, rfl⟩
theorem witness_three_sources : ∃ t, takes s0 [.x 1, .q 4, .q 4] = some ([5, 7, 8], t) ∧ room t (.x 6) = true := ⟨_, rfl, rfl⟩
theorem witness_one_source : ∃ t, takes s0 [.x 3] = some ([0x8000000000000000], t) ∧ room t (.x 0) = true := ⟨_, rfl, rfl⟩
/-- R116: a sum wraps; the high half of (-1)(-1) is 0 signed and 2^64 - 2 unsigned. -/
theorem test_arithmetic : gives (.add (.x 6) (.x 4) (.x 9)) s0 6 = 0 ∧ gives (.mulh (.x 6) (.x 4) (.x 4)) s0 6 = 0 ∧
    gives (.mulhn (.x 6) (.x 4) (.x 4)) s0 6 = 0xFFFFFFFFFFFFFFFE ∧ gives (.min (.x 6) (.x 4) (.x 1)) s0 6 = 0xFFFFFFFFFFFFFFFF ∧
    gives (.minn (.x 6) (.x 4) (.x 1)) s0 6 = 5 := by decide
/-- Witness of DivisionResultsAndTrap: a divisor other than 0; a zero divisor with DZ clear, and with DZ set. -/
theorem witness_division :
    (∃ t, takes s0 [.x 3, .x 4] = some ([0x8000000000000000, 0xFFFFFFFFFFFFFFFF], t) ∧ room t (.x 6) = true) ∧
    (∃ t, takes (rig { regs with status := 0 }) [.x 1, .x 0] = some ([5, 0], t) ∧ room t (.x 6) = true) ∧
    (rig { regs with status := 0 }).me.status.getLsbD 0 = false ∧
    (∃ t, takes s0 [.x 1, .x 0] = some ([5, 0], t)) ∧ pushable (.x 6) = true ∧ s0.me.status.getLsbD 0 = true :=
  ⟨⟨_, rfl, rfl⟩, ⟨_, rfl, rfl⟩, rfl, ⟨_, rfl⟩, rfl, rfl⟩
/-- R117: -2^63 / -1 is -2^63 and leaves 0; 5 / 0 with DZ set traps with cause 0x09 at TVEC. -/
theorem test_division : gives (.div (.x 6) (.x 3) (.x 4)) s0 6 = 0x8000000000000000 ∧ gives (.rem (.x 6) (.x 3) (.x 4)) s0 6 = 0 ∧
    (ran (.div (.x 6) (.x 1) (.x 0)) s0).me.cause = 0x09 ∧ (ran (.div (.x 6) (.x 1) (.x 0)) s0).me.pc = 0x40 ∧
    gives (.remn (.x 6) (.x 1) (.x 0)) (rig { regs with status := 0 }) 6 = 5 := by decide
/-- R118: CLZ of 1 is 63, of 0 is 64; CTZ of bit 63 is 63; ROT by 1 of 1 is bit 63; SRA keeps the sign; a shift takes 6 bits. -/
theorem test_shifts : gives (.clz (.x 6) (.x 9)) s0 6 = 63 ∧ gives (.clz (.x 6) (.x 0)) s0 6 = 64 ∧
    gives (.ctz (.x 6) (.x 3)) s0 6 = 63 ∧ gives (.rot (.x 6) (.x 9) (.x 9)) s0 6 = 0x8000000000000000 ∧
    gives (.sra (.x 6) (.x 3) (.x 9)) s0 6 = 0xC000000000000000 ∧ gives (.shl (.x 6) (.x 9) (.x 4)) s0 6 = 0x8000000000000000 := by
  decide
/-- R118's counts at both ends of their ranges. -/
theorem witness_counts : (∃ t, takes s0 [.x 9] = some ([1], t)) ∧ (1 : W64).getLsbD (63 - 63) = true ∧ (1 : W64).getLsbD 0 = true ∧
    (0x8000000000000000 : W64).getLsbD (63 - 0) = true := ⟨⟨_, rfl⟩, rfl, rfl, rfl⟩
/-- R119: SLT is signed, SLTN is not; SEL with c = 0 gives b. -/
theorem test_compare : gives (.slt (.x 6) (.x 4) (.x 1)) s0 6 = 1 ∧ gives (.sltn (.x 6) (.x 4) (.x 1)) s0 6 = 0 ∧
    gives (.sel (.x 6) (.x 1) (.x 2) (.x 0)) s0 6 = 7 := by decide
/-- Witness of ImmediateResults, its sources and its destination that is read. -/
theorem witness_immediate : (∃ t, takes s0 [.x 1] = some ([5], t) ∧ room t (.x 6) = true) ∧ room s0 (.k 2) = true ∧
    ∃ t, takes s0 [.x 4] = some ([0xFFFFFFFFFFFFFFFF], t) ∧ room t (.x 4) = true := ⟨⟨_, rfl, rfl⟩, rfl, _, rfl, rfl⟩
/-- R120, R121: ADDI sign-extends, ANDI does not; LIH keeps the low half. -/
theorem test_immediate : gives (.addi (.x 6) (.x 1) 0x3FFF) s0 6 = 4 ∧ gives (.andi (.x 6) (.x 4) 0x3FFF) s0 6 = 0x3FFF ∧
    gives (.lih (.x 4) 1) s0 4 = 0x1FFFFFFFF ∧ gives (.li (.x 6) (-1)) s0 6 = 0xFFFFFFFFFFFFFFFF := by decide
/-- Witness of BitFieldAndAddressResults: the last one-bit field and the whole word; a field replaced; the wf of FABA. -/
theorem witness_bit_fields : (63 + 0 < 64 ∧ 0 + 63 < 64) ∧ (∃ t, takes s0 [.x 3] = some ([0x8000000000000000], t) ∧ room t (.x 6) = true) ∧
    (∃ t, takes s0 [.x 1, .x 2] = some ([5, 7], t) ∧ room t (.x 2) = true) ∧
    (Instr.faba (.x 6) (.x 0) (.x 0) (.x 1) ⟨true, true, false⟩).wf = true ∧
    ∃ t, takes s0 [.x 0, .x 0, .x 1] = some ([0, 0, 5], t) ∧ room t (.x 6) = true :=
  ⟨⟨by decide, by decide⟩, ⟨_, rfl, rfl⟩, ⟨_, rfl, rfl⟩, rfl, _, rfl, rfl⟩
/-- R122-R124: BFX of bit 63 signed; BFI of 5 at 63:1 of 7 keeps bit 0; LEA; FABA with the core's own cluster and core. -/
theorem test_fields : gives (.bfx (.x 6) (.x 3) ⟨63, 0⟩ true) s0 6 = 0xFFFFFFFFFFFFFFFF ∧ gives (.bfi (.x 2) (.x 1) ⟨1, 62⟩) s0 2 = 11 ∧
    gives (.lea (.x 6) (.x 1) (.x 2) false 3) s0 6 = 61 ∧
    gives (.faba (.x 6) (.x 0) (.x 0) (.x 1) ⟨true, true, false⟩) s0 6 = 0x8000000000000005 := by decide

/-! ## Queues, frames, control -/

/-- Witness of QueueMisuseAndStalls: a pop of q0, a push of q4, an empty queue, a full one. -/
theorem witness_queues :
    registerOnly (.add (.x 1) (.q 0) (.x 2)) = some ([.q 0, .x 2], [.x 1]) ∧ [SReg.q 0, .x 2].all poppable = false ∧
    otherFields (.crd (.q 4) 0) = some ([], [.q 4]) ∧ [SReg.q 4].all pushable = false ∧
    dry s0 [.q 4, .q 4, .q 4] = true ∧ spoilt (rig { regs with bad := [.x 2] }) [.x 1, .x 2] = true ∧
    (∃ t, takes (rig { regs with q := [(0, [1, 2, 3, 4, 5, 6, 7, 8])] }) [.x 1, .x 2] = some ([5, 7], t) ∧ room t (.q 0) = false) := by
  refine ⟨rfl, rfl, rfl, rfl, rfl, rfl, _, rfl, rfl⟩
/-- R388, R436: a spoilt source traps; the row is sound once written. -/
theorem test_spoilt : (ran (.add (.x 6) (.x 1) (.x 2)) (rig { regs with bad := [.x 2] })).me.cause = 0x100D ∧
    (ran (.mov (.x 2) (.x 1)) (rig { regs with bad := [.x 2] })).me.bad = [] := by decide
/-- R75: INFO 1 for a source, 2 for a destination; R74: an empty queue stalls. -/
theorem test_queues : (ran (.add (.x 1) (.q 0) (.x 2)) s0).me.cause = 0x100A ∧ (ran (.mov (.q 4) (.x 1)) s0).me.cause = 0x200A ∧
    (ran (.mov (.x 6) (.q 5)) s0).me.stalled = true ∧ (ran (.mov (.x 6) (.q 5)) s0).me.num = 0 := by decide
/-- Witness of RegisterFrameAndReadBack. -/
theorem witness_frame : registerOnly (.add (.x 6) (.x 1) (.q 4)) = some ([.x 1, .q 4], [.x 6]) ∧
    (∃ u, exec (.add (.x 6) (.x 1) (.q 4)) s0 = .next u) ∧ (1 : Fin 32) ≠ 0 := ⟨rfl, ⟨_, rfl⟩, by decide⟩
/-- R66: x0 stays 0; a queue takes its newest entry last. -/
theorem test_registers : (ran (.mov (.x 0) (.x 1)) s0).me.xreg 0 = 0 ∧
    (ran (.mov (.q 0) (.x 1)) (rig { regs with q := [(0, [9])] })).me.queue 0 = [9, 5] := by decide
/-- Witness of BranchesJumpsAndLoop. -/
theorem witness_branches : (∃ t, takes s0 [.x 1, .q 4] = some ([5, 7], t)) ∧ (∃ t, takes s0 [.x 1] = some ([5], t) ∧ room t (.x 6) = true) ∧
    room s0 (.x 6) = true ∧ (Instr.loop (.x 9) ⟨0, 0⟩).wf = true ∧ ∃ t, takes s0 [.x 9] = some ([1], t) :=
  ⟨⟨_, rfl⟩, ⟨_, rfl, rfl⟩, rfl, rfl, _, rfl⟩
/-- R107, R109, R110: a taken branch to slot 3 of the line before; a link; LOOP at 1 falls through, at 5 goes back. -/
theorem test_control : (ran (.bne (.x 1) (.x 2) ⟨0x7FFF, 3⟩) (rig { regs with pc := 0x1000, heads := 4 })).me.pc = 0xFC3 ∧
    (ran (.beq (.x 1) (.x 2) ⟨0x7FFF, 3⟩) (rig { regs with pc := 0x1003, heads := 4 })).me.pc = 0x1040 ∧
    gives (.jal (.x 6) ⟨1, 0⟩) (rig { regs with pc := 0x1000, heads := 4 }) 6 = 0x1001 ∧
    (ran (.loop (.x 9) ⟨0, 0⟩) (rig { regs with pc := 0x1001, heads := 4 })).me.pc = 0x1002 ∧
    (ran (.loop (.x 1) ⟨0, 0⟩) (rig { regs with pc := 0x1001, heads := 4 })).me.pc = 0x1000 := by decide
/-- A context whose sequencer holds an instruction. -/
def busy : Ctx := { regs with seq := [{ v := { instr := .pand 1 2 3, pc := 0, num := 0, sval := none, rndctl := 1 } }] }
/-- Witness of EndFreesTheFiring: a busy sequencer; a quiet firing with one inbox slot. -/
theorem witness_end : quiet (rig busy) = false ∧ quiet s0 = true ∧ s0.myCore.gang = none ∧ s0.me.join = .no ∧ s0.me.refuse = false ∧
    s0.me.th = false ∧ (rig { regs with slots := 2 }).me.slots.getLsbD 1 = true := by decide
/-- R111. -/
theorem test_end : (ran .end_ s0).me.running = false ∧ (ran .end_ (rig busy)).me.wait = .ending := by decide
/-- Core 1 of the cluster waits in a GANG of two. -/
def gangRig : State :=
  { rig regs with cores := (rig regs).cores ++ [(c1, { ctxs := [(2, { running := true, wait := .gang 1, pc := 0x80 })], tvec := 0x40 })] }
/-- A gang of cores 0 and 1. -/
def gangOn : State :=
  { rig { regs with status := 0x21 } { gang := some { log := 1, members := [(c0, 0), (c1, 2)] } } with
    cores := (rig { regs with status := 0x21 } { gang := some { log := 1, members := [(c0, 0), (c1, 2)] } }).cores ++
      [(c1, { ctxs := [(2, { running := true, status := 0x21 })], gang := some { log := 1, members := [(c0, 0), (c1, 2)] } })] }
/-- Core 1 of the cluster waits in ALIGN at the PC of core 0, whose own ALIGN has seen the given cores. -/
def alignRig (seen : List Nat) : State :=
  { rig { regs with wait := .align 0 seen } with
    cores := (rig { regs with wait := .align 0 seen }).cores ++ [(c1, { ctxs := [(2, { running := true, wait := .align 0 [] })], tvec := 0x40 })] }
/-- Witness of GangsAlignAndSpanBarriers: a gang that forms; one that its leader leaves; ALIGN alone, beside a core that stands
there or was seen there, and after 64 cycles; SBAR as the last to arrive and as the first, and in a gang. -/
theorem witness_gangs :
    (gangRig.me.running = true ∧ gangRig.myCore.gang = none ∧ gangRig.myCore.gangWait = none ∧ gangRig.gangClash gangRig.cur 1 = [] ∧
      gangRig.cur.core < 4 ∧ (∀ d ∈ gangCores 1 c0, d ≠ c0 → (gangRig.core d).gangWait = some (2, 1))) ∧
    (s0.myCore.gang = none) ∧
    (gangOn.myCore.gang = some { log := 1, members := [(c0, 0), (c1, 2)] } ∧ [(c0, 0), (c1, 2)].head? = some (gangOn.cur, gangOn.curCtx)) ∧
    (∀ k, k < 4 → k ≠ s0.cur.core → ∀ e ∈ (s0.core { s0.cur with core := k }).ctxs, e.2.running = false) ∧
    ((gangRig.core { gangRig.cur with core := 1 }).ctxs.any (·.2.running) = true ∧ (gangRig.ctx c1 2).pc ≠ gangRig.me.pc) ∧
    (alignRig [1]).me.wait = .align 0 [1] ∧ ((alignRig []).ctx c1 2).pc = (alignRig []).me.pc ∧ ((alignRig []).ctx c1 2).wait = .align 0 [] ∧
    ((rig { regs with wait := .align 0 [] }).me.wait = .align 0 [] ∧
      0 + 64 ≤ ({ rig { regs with wait := .align 0 [] } with cycle := 64 } : State).cycle) ∧
    gangOn.me.status.getLsbD 5 = true ∧ gangOn.myCore.sbar.getD 0 0 = 0 ∧
    (s0.myCore.unacked = 0 ∧ s0.myCore.updates = [] ∧ room s0 (.x 6) = true ∧ s0.me.wait = .none) := by decide
theorem witness_gang_waits : (∀ l, gangRig.me.wait ≠ .gang l) ∧ ∀ j e, s0.me.wait ≠ .sbar j e := by
  refine ⟨fun l => ?_, fun j e => ?_⟩
  · rw [show gangRig.me.wait = .none from rfl]; simp
  · rw [show s0.me.wait = .none from rfl]; simp
/-- SBAR: every other core of the span has arrived, or none has. -/
theorem witness_sbar : (∃ c ∈ s0.spanCores s0.cur.siteId, c ≠ s0.cur ∧ (s0.core c).sbar.getD 0 0 < 1) ∧
    let t : State := { s0 with spans := [] }
    ∀ c ∈ t.spanCores t.cur.siteId, c ≠ t.cur → 1 ≤ (t.core c).sbar.getD 0 0 := by
  decide
/-- R56: a core that completes its ALIGN has been seen by the one that waits there. -/
theorem test_align : ((ran .align (alignRig [])).ctx c1 2).wait = .align 0 [0] ∧ (ran .align (alignRig [])).me.num = 1 := by decide
/-- R52: both members stand behind the leader's GANG; R54: UNGANG clears STATUS bit 5; R115: the first to arrive waits. -/
theorem test_gangs : ((ran (.gang 0) gangRig).ctx c1 2).status = 0x21 ∧ ((ran (.gang 0) gangRig).ctx c1 2).pc = 0x40 ∧
    ((ran .ungang gangOn).ctx c1 2).status = 1 ∧ (ran (.sbar (.x 6) 0) s0).me.wait = .sbar 0 1 := by decide

/-! ## Loads, stores, atomics, fences -/

/-- A berth with bytes, a page of module memory in the TLB, addresses: x1 local, x2 global, x5 fabric (cluster 1, core 0), x6 a
local address of slot 1, which is empty, x7 window 11, x8 data. -/
def page : TlbEntry :=
  { part := 0, root := 0, va := 0x100000000, size := 65536, pa := 0x20000, rd := true, w := true, xe := true, sv := false, tag := 0, peer := false }
def memx : Ctx :=
  { x := [(1, 0x10), (2, 0x100000000), (5, 0x8001000000000010), (6, 0x10000), (7, 0xB0000000), (8, 0x1122334455667788), (9, 2)]
    fid := 1 }
def s1 : State :=
  { rig memx { tlb := [page] } { bytes := [(0x10, 0x80), (0x11, 0xFF)] } with
    mem := [(0x20000, 0xFE), (0x20001, 0xFF)]
    dies := [(0, { l2 := [{ line := 0x800, dirty := [], uc := 0, dead := false, comp := 0 }] })] }

/-- Witness of LocalLoadsReadTheBerth, LocalStoresWriteTheBerth: an aligned place of a calm bank, and the last one. -/
theorem witness_local :
    loadShape (.ldd (.x 6) (.x 1) ⟨0, 0, false⟩) = some (.x 6, .x 1, 0, 8) ∧
    storeShape (.std (.x 8) (.x 1) 0xFFE8) = some (.x 8, .x 1, 0xFFE8, 8) ∧
    (∃ t, takes s1 [.x 1] = some ([0x10], t) ∧ room t (.x 6) = true) ∧ (∃ t, takes s1 [.x 1, .x 8] = some ([0x10, 0x1122334455667788], t)) ∧
    s1.me.wait = .none ∧ alone s1 = true ∧ released s1 = true ∧ opens s1 0x10 b0 = true ∧ calm s1 b0 = true ∧ unprotected s1 b0 = true ∧
    Memory.wf (s1.bank b0).bytes = true ∧ offset 0x10 0 % 8 = 0 ∧ offset 0x10 0xFFE8 = 0xFFF8 ∧ offset 0x10 0xFFE8 % 8 = 0 := by
  refine ⟨rfl, rfl, ⟨_, rfl, rfl⟩, ⟨_, rfl⟩, ?_⟩
  decide
/-- R247: LDB sign-extends, LDHN does not; a store is little-endian; STNB keeps the other nibble. -/
theorem test_local : gives (.ldb (.x 6) (.x 1) ⟨0, 0, false⟩) s1 6 = 0xFFFFFFFFFFFFFF80 ∧ gives (.ldhn (.x 6) (.x 1) ⟨0, 0, false⟩) s1 6 = 0xFF80 ∧
    bankByte (ran (.sth (.x 8) (.x 1) 0) s1) b0 0x10 = 0x88 ∧ bankByte (ran (.sth (.x 8) (.x 1) 0) s1) b0 0x11 = 0x77 ∧
    bankByte (ran (.stnb (.x 8) (.x 1) 0 true) s1) b0 0x10 = 0x80 ∧ bankByte (ran (.stnb (.x 8) (.x 1) 0 false) s1) b0 0x10 = 0x88 := by
  decide
/-- Witness of GlobalAccessesReadAndWriteMemory. -/
theorem witness_global : maps s1 0x100000000 0 .load 0x20000 ∧ maps s1 0x100000000 0xFFF8 .store 0x2FFF8 ∧ soundHbm s1 0x20000 8 = true ∧
    soundHbm s1 0x2FFF8 8 = true ∧ noUpdates s1 = true ∧ s1.myCore.l1Find (0x20000 / 64) = none ∧
    inArray s1 0x20000 ∧ Memory.wf s1.mem = true ∧ globalSum 0x100000000 0xFFF8 % 8 = 0 ∧
    ∃ t, takes s1 [.x 2, .x 8] = some ([0x100000000, 0x1122334455667788], t) :=
  ⟨⟨rfl, by decide, by decide, 0, page, rfl, rfl, rfl, rfl, by decide, by decide⟩,
    ⟨rfl, by decide, by decide, 0, page, rfl, rfl, rfl, rfl, by decide, by decide⟩, by decide, by decide, rfl, rfl, ⟨rfl, _, rfl, rfl, rfl⟩, rfl,
    by decide, _, rfl⟩
/-- R247: LDH of FE FF is -2; a store reaches its execution point, and no byte of HBM behind it. -/
theorem test_global : gives (.ldh (.x 6) (.x 2) ⟨0, 0, false⟩) s1 6 = 0xFFFFFFFFFFFFFFFE ∧
    (ran (.stw (.x 8) (.x 2) 4) s1).memByte 0x20004 = 0x88 ∧ (ran (.stw (.x 8) (.x 2) 4) s1).memByte 0x20007 = 0x55 ∧
    cellGet (ran (.stw (.x 8) (.x 2) 4) s1).mem 0x20004 = 0 := by decide
/-- Witness of FabricStoresAndLoads: a core of the span; room in the fabric and none; a value and a refusal that came back. -/
theorem witness_fabric :
    reaches s1 0x8001000000000010 ⟨0, 1, 0⟩ ∧ (displaced 0x8001000000000010 0).toNat % 8 = 0 ∧ s1.myCore.unacked < 256 ∧
    (rig memx { unacked := 256 }).myCore.unacked = 256 ∧ (rig { memx with wait := .value 3 }).me.wait = .value 3 ∧
    (rig { memx with wait := .failed 0x07 0 9 }).me.wait = .failed 0x07 0 9 ∧
    (∃ t, takes s1 [.x 5, .x 8] = some ([0x8001000000000010, 0x1122334455667788], t)) ∧
    ∃ t, takes (rig { memx with wait := .value 3 }) [.x 5] = some ([0x8001000000000010], t) ∧ room t (.x 6) = true := by
  refine ⟨⟨rfl, by decide, rfl, rfl⟩, by decide, by decide, rfl, rfl, rfl, ⟨_, rfl⟩, _, rfl, rfl⟩
/-- R243: the store leaves with its bytes and is counted; R248: the value that came back is written. -/
theorem test_fabric : (ran (.stb (.x 8) (.x 5) 1) s1).fwrites = [{ src := c0, ctx := 0, fid := 1, comp := 0, addr := 0x8001000000000011, kind := .bytes [0x88] }] ∧
    (ran (.stb (.x 8) (.x 5) 1) s1).myCore.unacked = 1 ∧ (ran (.ldd (.x 6) (.x 5) ⟨0, 0, false⟩) s1).me.wait = .fabric 0 ∧
    gives (.ldd (.x 6) (.x 5) ⟨0, 0, false⟩) (rig { memx with wait := .value 3 }) 6 = 3 := by decide
/-- Witness of AccessFaultsInOrder: window 11; a cluster outside the span; an empty slot; a bank of another compartment; misaligned
places; a global sum at 2^57. -/
theorem witness_access_faults :
    (0xD800000000000000 : W64).getLsbD 63 = true ∧ 10 < ((0xD800000000000000 : W64).extractLsb' 59 4).toNat ∧
    s1.fabricCore s1.cur.siteId ((0x8002000000000000 : W64).extractLsb' 48 11).toNat 0 = none ∧
    10 < ((0xB0000000 : W64).extractLsb' 28 4).toNat ∧ s1.myCore.berth ((0x10000 : W64).extractLsb' 16 3).toNat = none ∧
    ((rig memx {} { tag := 3 }).myCore.berth 0 = some b0 ∧ opens (rig memx {} { tag := 3 }) 0x10 b0 = false) ∧
    (opens s1 0x10 b0 = true ∧ offset 0x10 1 % 8 ≠ 0) ∧ (displaced 0x8001000000000010 1).toNat % 2 ≠ 0 ∧
    2 ^ 57 ≤ globalSum 0x200000000000000 0 ∧ (∃ t, takes s1 [.x 7] = some ([0xB0000000], t)) ∧ pushable (.x 6) = true := by
  refine ⟨by decide, by decide, by decide, by decide, by decide, by decide, by decide, by decide, by decide, ⟨_, rfl⟩, rfl⟩
/-- R248, R420: INFO 4 for a window, cause 7 for an empty slot, cause 4 last. -/
theorem test_access_faults : (ran (.ldb (.x 6) (.x 7) ⟨0, 0, false⟩) s1).me.cause = 0x4006 ∧
    (ran (.ldb (.x 6) (.x 6) ⟨0, 0, false⟩) s1).me.cause = 7 ∧ (ran (.ldd (.x 6) (.x 1) ⟨1, 0, false⟩) s1).me.cause = 4 ∧
    (ran (.ldd (.x 6) (.x 1) ⟨1, 0, false⟩) s1).me.faultva = 0x11 := by decide
/-- Witness of AtomicsExchangeInOneStep and ReductionsUpdateWithoutReading. -/
theorem witness_atomics :
    atomShape (.fadd (.x 6) (.x 1) (.x 9) ⟨true, true, true, .sys⟩) = some (.x 6, [.x 1, .x 9], ⟨true, true, true, .sys⟩) ∧
    (∃ t, takes s1 [.x 1, .x 9] = some ([0x10, 2], t) ∧ room t (.x 6) = true) ∧
    (∃ t, takes s1 [.x 2, .x 9] = some ([0x100000000, 2], t) ∧ room t (.x 6) = true) ∧ maps s1 0x100000000 0 .atomic 0x20000 ∧
    maps s1 0x100000000 0 .red 0x20000 ∧ inArray s1 0x20000 ∧ s1.myCore.updates = [] ∧
    redValue .minI (5 : W64) 2 = some 2 ∧ redValue .maxI (5 : W32) 9 = some 9 :=
  ⟨rfl, ⟨_, rfl, rfl⟩, ⟨_, rfl, rfl⟩, ⟨rfl, by decide, by decide, 0, page, rfl, rfl, rfl, rfl, by decide, by decide⟩,
    ⟨rfl, by decide, by decide, 0, page, rfl, rfl, rfl, rfl, by decide, by decide⟩, ⟨rfl, _, rfl, rfl, rfl⟩, rfl, rfl, rfl⟩
/-- R269: the old value, zero-extended, and the sum in its place; R272: a RED of memory waits in the core. -/
theorem test_atomics : gives (.fadd (.x 6) (.x 1) (.x 9) ⟨false, false, false, .core⟩) s1 6 = 0xFF80 ∧
    bankByte (ran (.fadd (.x 6) (.x 1) (.x 9) ⟨false, false, false, .core⟩) s1) b0 0x10 = 0x82 ∧
    gives (.swap (.x 6) (.x 2) (.x 9) ⟨true, false, false, .core⟩) s1 6 = 0xFFFE ∧
    (ran (.swap (.x 6) (.x 2) (.x 9) ⟨true, false, false, .core⟩) s1).memByte 0x20000 = 2 ∧
    (ran (.red (.x 2) (.x 9) .addI true) s1).memByte 0x20000 = 0xFE ∧
    (ran (.red (.x 2) (.x 9) .addI true) s1).myCore.updates = [{ addr := 0x20000, op := .addI, w64 := true, val := 2, fid := 1 }] := by
  decide
/-- Witness of FencesAndPrefetch: nothing to wait for; a recorded refusal; a store on its way; each base of PFU. -/
theorem witness_fences :
    (quiet s1 = true ∧ released s1 = true ∧ s1.myCore.refusals.count = 0) ∧
    ((rig memx { refusals := { count := 1, info := 4, addr := 9 } }).myCore.refusals.count ≠ 0 ∧
      released (rig memx { refusals := { count := 1, info := 4, addr := 9 } }) = true) ∧
    (rig memx { unacked := 1 }).myCore.unacked ≠ 0 ∧ ((0x10 : W64).extractLsb' 32 32 = 0) ∧ noUpdates s1 = true ∧
    (∀ e ∈ (s1.die 0).l2, e.dead = false) ∧ ∃ t, takes s1 [.x 2] = some ([0x100000000], t) := by
  refine ⟨by decide, by decide, by decide, by decide, by decide, by decide, _, rfl⟩
/-- R273, R274, R403: an acquire drops L1, SFENCE waits, a refusal is reported with its INFO. -/
theorem test_fences : (ran (.fence .acq .sys) (rig memx { l1 := [{ line := 1, data := 0, uc := 0, dead := false, comp := 0 }] })).myCore.l1 = [] ∧
    (ran .sfence (rig memx { unacked := 1 })).me.stalled = true ∧
    (ran .sfence (rig memx { refusals := { count := 1, info := 4, addr := 9 } })).me.cause = 0x400B ∧
    (ran .ifence { s1 with clusters := [(n0, { icache := [{ part := 0, va := 0, pa := 0, data := 0 }] })] }).clusters.map (·.2.icache) = [[]] := by decide

/-! ## Counters, messages, firings -/

/-- A valid handler 3: PC 0x1000, RELOAD 2, SENDS 1. -/
def entry3 : BitVec 128 := BitVec.ofNat 128 (2 ^ 96 + 1 * 2 ^ 80 + 2 * 2 ^ 64 + 0x1000)
def msg1 : Msg := { h0 := 0, h1 := 0, payload := List.replicate 48 1 }
def ctrx : Ctx := { x := [(1, 0), (2, 3), (3, 0xFFFFFFFFFFFFFFFF), (4, 0x10003)], slots := 4, sends := 1 }
def s2 : State :=
  { rig ctrx { ctrs := [(5, { value := 1, handler := 3, pending := 6 }), (6, { value := 7 })], inbox := [(2, { msg := msg1, report := none })] } with
    clusters := [(n0, { handlers := [(3, entry3)] })] }
/-- Witness of CountersAndInboxReads: CSET to 3 and to 0; CADD within the range, to its floor and of a counter at 0; a slot in and
outside the mask. -/
theorem witness_counters :
    (∃ t, takes s2 [.x 4, .x 2] = some ([0x10003, 3], t) ∧ room t (.x 6) = true) ∧ (0x10003 : W64).extractLsb' 0 16 ≠ 0 ∧
    (∃ t, takes s2 [.x 1, .x 2] = some ([0, 3], t) ∧ room t (.x 6) = true) ∧ (0 : W64).extractLsb' 0 16 = 0 ∧
    ((6 : Nat) : Int) = max 0 (min 65535 ((s2.myCore.counter 6).value.toNat + (0xFFFFFFFFFFFFFFFF : W64).toInt)) ∧
    ((65535 : Nat) : Int) = max 0 (min 65535 ((s2.myCore.counter 6).value.toNat + (0x10003 : W64).toInt)) ∧
    (s2.myCore.counter 5).value.toNat + (0xFFFFFFFFFFFFFFFF : W64).toInt ≤ 0 ∧ (s2.myCore.counter 7).value = 0 ∧
    ((s2.cluster s2.cur.siteId).handlers.getD 3 0).getLsbD 96 = true ∧ s2.myCore.ready.length < 64 ∧
    s2.me.slots.getLsbD 2 = true ∧ s2.me.slots.getLsbD 1 = false ∧
    (∃ m, s2.myCore.inbox.find 2 = some m ∧ m.msg.payload.length = 48 ∧ m.bad = false) ∧
    ∃ m, (rig ctrx { inbox := [(2, { msg := msg1, report := none, bad := true })] }).myCore.inbox.find 2 = some m ∧ m.bad = true := by
  refine ⟨⟨_, rfl, rfl⟩, by decide, ⟨_, rfl, rfl⟩, by decide, by decide, by decide, by decide, by decide, by decide, by decide, by decide,
    by decide, ⟨_, rfl, rfl, rfl⟩, _, rfl, rfl⟩
/-- R388: INB of a slot with an uncorrectable error. -/
theorem test_bad_slot : (ran (.inb (.x 6) (.x 9) 7) (rig { ctrx with x := [(9, 2)] } { inbox := [(2, { msg := msg1, report := none, bad := true })] })).me.cause =
    0x100D := by decide
/-- R128: CSET gives the old value; CADD to 0 starts handler 3 with slots 1 and 2 and reloads 2; R127: a slot outside the mask
reads 0. -/
theorem test_counters : gives (.cset (.x 6) (.x 4) (.x 2) 6) s2 6 = 7 ∧ ((ran (.cset (.x 6) (.x 4) (.x 2) 6) s2).myCore.counter 6).value = 3 ∧
    (ran (.cadd (.x 6) (.x 3) 5) s2).myCore.ready = [{ handler := 3, entry := entry3, slots := 6 }] ∧
    ((ran (.cadd (.x 6) (.x 3) 5) s2).myCore.counter 5).value = 2 ∧ gives (.crd (.x 6) 5) s2 6 = 0x2030001 ∧
    gives (.inb (.x 6) (.x 2) 7) s2 6 = 0 ∧ gives (.inb (.x 6) (.q 4) 7) (rig { ctrx with q := [(4, [2])] } { inbox := [(2, { msg := msg1, report := none })] }) 6 =
      0x0101010101010101 := by decide
/-- Witness of SendBuildsAMessage: a payload of zeros and one of a berth; a full queue for SENDT; SENDS used up. -/
theorem witness_send :
    (∃ t, takes s2 [.x 1, .x 2] = some ([0, 3], t) ∧ room t (.x 6) = true) ∧ s2.myCore.outq.length < 32 ∧ s2.cur.core < 4 ∧
    s2.me.sent < s2.me.sends ∧ alone s2 = true ∧
    (opens s2 0xFFD0 b0 = true ∧ calm s2 b0 = true ∧ (0xFFD0 : W64).toNat % 16 = 0 ∧ offset 0xFFD0 0 + 48 ≤ 0x10000) ∧
    (rig { ctrx with sends := 32 }).me.sends - 0 = 32 ∧ 32 - (rig { ctrx with sends := 32 }).myCore.outq.length ≤ (rig { ctrx with sends := 32 }).myCore.reserved ∧
    (rig { ctrx with sends := 0 }).me.sends ≤ (rig { ctrx with sends := 0 }).me.sent := by
  refine ⟨⟨_, rfl, rfl⟩, by decide, by decide, by decide, by decide, by decide, by decide, by decide, by decide⟩
/-- R41, R46: counter 3 stands in bits 23:16 of the header; a SEND beyond SENDS takes cause 0x0B INFO 5. -/
theorem test_send : ((ran (.send (.x 6) (.x 1) (.x 2) (.x 0) ⟨false, false, true⟩) s2).myCore.outq.map (·.msg.h0)) = [0x30000] ∧
    (ran (.send (.x 6) (.x 1) (.x 2) (.x 0) ⟨false, false, true⟩) (rig { ctrx with sends := 0 })).me.cause = 0x500B ∧
    gives (.sendt (.x 6) (.x 1) (.x 2) (.x 0) ⟨false, false, true⟩) (rig { ctrx with sends := 32 }) 6 = 1 := by decide
/-- A direct message to handler 3, and one for counter 5, on their way. -/
def direct3 : Flight := { msg := { msg1 with h0 := 0x100030000 }, src := none, compart := 0, dest := c0 }
def toCtr5 : Flight := { msg := { msg1 with h0 := 0x5000000 }, src := none, compart := 0, dest := c0 }
/-- Witness of MessageArrivalFillsASlot: the lowest free slot is 0, or 1; DIRECT, a counter at 1 and one at 2. -/
theorem witness_arrival :
    (direct3.msg.h0.getLsbD 33 = false ∧ direct3.msg.h0.getLsbD 35 = false ∧ direct3.msg.h0.getLsbD 36 = false ∧ direct3.msg.h0.getLsbD 32 = true) ∧
    toCtr5.msg.h0.getLsbD 32 = false ∧ (s2.core c0).counter 5 = { value := 1, handler := 3, pending := 6 } ∧
    (s2.core c0).portq = [] ∧ (s2.core c0).inbox.find 0 = none ∧ (s2.core c0).ready.length < 64 ∧
    ((s2.cluster c0.siteId).handlers.getD 3 0).getLsbD 96 = true ∧ (s2.die 0).fenced = false := by decide
/-- R43, R45. -/
theorem test_arrival : ((ran (.messageArrival c0 (.engine 0)) { s2 with engine := [direct3] }).core c0).ready = [{ handler := 3, entry := entry3, slots := 1 }] ∧
    ((ran (.messageArrival c0 (.engine 0)) { s2 with engine := [toCtr5] }).core c0).ready = [{ handler := 3, entry := entry3, slots := 7 }] ∧
    (((ran (.messageArrival c0 (.engine 0)) { s2 with engine := [toCtr5] }).core c0).counter 5).value = 2 := by decide
/-- A firing of handler 3 ready on core 1. -/
def s3 : State := { s2 with cores := s2.cores ++ [(c1, { ready := [{ handler := 3, entry := entry3, slots := 4 }], ctxs := [(0, { running := true })] })] }
/-- Witness of FiringStartsAsDescribed. -/
theorem witness_firing : (s3.core c1).stopped = false ∧ (s3.core c1).ready = [{ handler := 3, entry := entry3, slots := 4 }] ∧
    entry3.getLsbD 88 = false ∧ (s3.ctx c1 1).running = false ∧ (∀ z, z < 1 → (s3.ctx c1 z).running = true) ∧
    (entry3.extractLsb' 80 8).toNat + (s3.core c1).reserved + (s3.core c1).outq.length ≤ 32 ∧ (s3.die 0).fenced = false := by decide
/-- R35, R36: PC, mask and handler of the new firing. -/
theorem test_firing : ((ran (.firingStart c1) s3).ctx c1 1).pc = 0x1000 ∧ ((ran (.firingStart c1) s3).ctx c1 1).xreg 1 = 4 ∧
    ((ran (.firingStart c1) s3).ctx c1 1).xreg 2 = 3 ∧ ((ran (.firingStart c1) s3).ctx c1 1).status = 1 := by decide

/-! ## Vector instructions -/

def nomod : SrcMod := ⟨.none, 0, 0, false⟩
/-- Lane i of v1 is i, every lane of v2 is 3, of v3 is 1.0 and of v4 is 2^-1; predicate 1 is bit 0 alone. -/
def vecx : Ctx :=
  { x := [(1, 0x10), (2, 0x100000000), (9, 2)], fid := 1, p := [(1, 1), (2, 6)]
    v := [(1, (List.range 16).map (BitVec.ofNat 32)), (2, List.replicate 16 3), (3, List.replicate 16 0x3F800000), (4, List.replicate 16 0x3F000000)] }
def vin (i : Instr) (w : Option W64) : VInstr := { instr := i, pc := 0x1000, num := 0, sval := w, rndctl := 1 }
/-- The instruction is the oldest in the sequencer. -/
def vrig (i : Instr) (w : Option W64) : State :=
  { rig { vecx with seq := [{ v := vin i w }], num := 1 } { tlb := [page] } { bytes := [(0x10, 0x80), (0x14, 7)] } with
    mem := [(0x20000, 0xFE)], dies := [(0, { l2 := [{ line := 0x800, dirty := [], uc := 0, dead := false, comp := 0 }] })] }
noncomputable def vran (i : Instr) (w : Option W64) : State := ran (.sequencerExecution c0 0) (vrig i w)

/-- Witness of VectorInstructionsAreForwarded: room, none, and a queue against its direction. -/
theorem witness_forward : forwards (.vadd 1 2 (.s (.x 9)) nomod 0 ⟨.ctl, false⟩) = true ∧
    (Instr.vadd 1 2 (.s (.x 9)) nomod 0 ⟨.ctl, false⟩).wf = true ∧ vectorQueuesOk (.vadd 1 2 (.s (.x 9)) nomod 0 ⟨.ctl, false⟩) = true ∧
    vectorRoom (rig vecx) = true ∧ vectorRoom (rig { vecx with seq := List.replicate 16 { v := vin (.pand 1 2 3) none } }) = false ∧
    vectorQueuesOk (.vbcast 1 (.q 4) 0) = false ∧ (Instr.vbcast 1 (.q 4) 0).wf = true ∧ operandSound (rig vecx) (.vbcast 1 (.x 9) 0) = true ∧
    operandSound (rig { vecx with bad := [.x 9] }) (.vbcast 1 (.x 9) 0) = false := by decide
/-- R70: the scalar is captured, no lane changes. -/
theorem test_forward : ((ran (.vadd 1 2 (.s (.x 9)) nomod 0 ⟨.ctl, false⟩) (rig vecx)).me.seq.map (·.v.sval)) = [some 2] ∧
    (ran (.vadd 1 2 (.s (.x 9)) nomod 0 ⟨.ctl, false⟩) (rig vecx)).me.v = vecx.v ∧
    (ran (.vbcast 1 (.q 4) 0) (rig vecx)).me.cause = 0x100A := by decide
theorem noEntry {e : MEntry} (h : e ∈ ([] : List MEntry)) : False := by simp at h
/-- A VLOOP of one instruction at the head of the sequencer, its count given. -/
def looped (w : W64) : State :=
  rig { vecx with seq := [{ v := vin (.vloop (.x 9) 0) (some w), body := [vin (.pnot 3 1) none] }], num := 1 }
/-- Witness of VectorLoopAndSync: one retained instruction and none; an empty and a busy sequencer; counts 0 and 2. -/
theorem witness_vloop : vectorQueuesOk (.vloop (.x 9) 0) = true ∧ operandSound (rig vecx) (.vloop (.x 9) 0) = true ∧ (rig { vecx with hist := [vin (.pnot 3 1) none] }).me.hist.length = 1 ∧
    (rig vecx).me.hist.length ≤ 0 ∧ (rig vecx).me.seq = [] ∧ (looped 2).me.seq ≠ [] ∧ (2 : W64).extractLsb' 0 32 ≠ 0 ∧
    (0x100000000 : W64).extractLsb' 0 32 = 0 := by decide
theorem witness_vloop_runs : mayRun (looped 2) c0 0 (vin (.vloop (.x 9) 0) (some 2)) ∧ ((looped 2).ctx c0 0).seq.head?.map (·.loop) = some none :=
  ⟨⟨rfl, rfl, rfl, by decide, rfl, rfl, by decide, rfl, fun _ => rfl, fun _ h => (noEntry h).elim⟩, rfl⟩
/-- R159. -/
theorem test_vloop : (ran (.vloop (.x 9) 0) (rig vecx)).me.cause = 0x7001 ∧
    ((ran (.sequencerExecution c0 0) (looped 2)).me.seq.map (·.loop)) = [some { left := 2, pos := 0 }] ∧
    (ran (.sequencerExecution c0 0) (looped 0x100000000)).me.seq = [] := by decide
/-- Witness of VectorWordLanes: VIADD of v1 rotated by one within segments of four lanes. -/
theorem witness_word_lanes :
    first (vrig (.viadd 5 1 (.v 2) ⟨.rotate, 2, 1, false⟩ 1 ⟨false, false⟩) none) c0 0 (vin (.viadd 5 1 (.v 2) ⟨.rotate, 2, 1, false⟩ 1 ⟨false, false⟩) none) [] ∧
    scalarIs (vrig (.viadd 5 1 (.v 2) ⟨.rotate, 2, 1, false⟩ 1 ⟨false, false⟩) none) c0 0 (vin (.viadd 5 1 (.v 2) ⟨.rotate, 2, 1, false⟩ 1 ⟨false, false⟩) none) 0 ∧
    lanewise (.viadd 5 1 (.v 2) ⟨.rotate, 2, 1, false⟩ 1 ⟨false, false⟩) = some (5, 1, some (.v 2), none, ⟨.rotate, 2, 1, false⟩, 1) ∧
    (Instr.viadd 5 1 (.v 2) ⟨.rotate, 2, 1, false⟩ 1 ⟨false, false⟩).wf = true ∧
    wordLane (.viadd 5 1 (.v 2) ⟨.rotate, 2, 1, false⟩ 1 ⟨false, false⟩) 1 3 = some 4 := by
  refine ⟨⟨rfl, rfl, rfl, rfl, by decide, rfl, rfl, by decide, rfl, fun _ => rfl, fun _ h => (noEntry h).elim⟩, .inr ⟨rfl, .inl ⟨rfl, rfl⟩⟩, rfl, by decide, by decide⟩
/-- R69, R136: lane 0 takes lane 1 of v1 and adds 3; inactive lanes stay; SAT clamps. -/
theorem test_word_lanes : lane (vran (.viadd 5 1 (.v 2) ⟨.rotate, 2, 1, false⟩ 1 ⟨false, false⟩) none) c0 0 5 0 = 4 ∧
    lane (vran (.viadd 5 1 (.v 2) ⟨.rotate, 2, 1, false⟩ 1 ⟨false, false⟩) none) c0 0 5 1 = 0 ∧
    lane (vran (.visub 5 1 (.v 2) nomod 0 ⟨true, true⟩) none) c0 0 5 1 = 0 ∧
    lane (vran (.vimul 5 1 (.s (.x 9)) nomod 0 ⟨false, false⟩) (some 2)) c0 0 5 15 = 30 := by decide
/-- Witness of VectorFloatLanesAndNaNs; 1.0 + 0.5 is 1.5. -/
theorem witness_float_lanes :
    first (vrig (.vadd 5 3 (.v 4) nomod 0 ⟨.ctl, false⟩) none) c0 0 (vin (.vadd 5 3 (.v 4) nomod 0 ⟨.ctl, false⟩) none) [] ∧
    scalarIs (vrig (.vadd 5 3 (.v 4) nomod 0 ⟨.ctl, false⟩) none) c0 0 (vin (.vadd 5 3 (.v 4) nomod 0 ⟨.ctl, false⟩) none) 0 ∧
    lanewise (.vadd 5 3 (.v 4) nomod 0 ⟨.ctl, false⟩) = some (5, 3, some (.v 4), none, nomod, 0) ∧
    floatLane (.vadd 5 3 (.v 4) nomod 0 ⟨.ctl, false⟩) 1 0x3F800000 0x3F000000 0 = some 0x3FC00000 := by
  refine ⟨⟨rfl, rfl, rfl, rfl, by decide, rfl, rfl, by decide, rfl, fun _ => rfl, fun _ h => (noEntry h).elim⟩, .inr ⟨rfl, .inl ⟨rfl, rfl⟩⟩, rfl, by decide⟩
/-- R134: 1.0 + 0.5; 1.0 * 0.5; 1.0 / 0.0; an operand NaN. -/
theorem test_float_lanes : lane (vran (.vadd 5 3 (.v 4) nomod 0 ⟨.ctl, false⟩) none) c0 0 5 15 = 0x3FC00000 ∧
    laneMul .rne false 0x3F800000 0x3F000000 = 0x3F000000 ∧ laneDiv .rne false 0x3F800000 0 = 0x7F800000 ∧
    laneAdd .rz true 0x7FC00001 0x3F800000 = 0x7FC00000 ∧ laneDiv .rne false 0x7F800000 0x7F800000 = 0x7FC00000 := by decide
/-- Witness of VectorCrossLanes and ReductionsAndPredicates: each form is the oldest in its sequencer. -/
theorem witness_cross_lanes (i : Instr) (w : Option W64) : first (vrig i w) c0 0 (vin i w) [] ∧ ((vrig i w).ctx c0 0).queue 4 = [] := by
  refine ⟨⟨rfl, rfl, rfl, rfl, ?_, rfl, rfl, ?_, rfl, fun _ => rfl, ?_⟩, rfl⟩
  · show vecx.status.getLsbD 2 = false; decide
  · show ∀ e ∈ vecx.v, e.2.length = 16; decide
  · exact fun _ h => (noEntry h).elim
theorem witness_cross_scalar (i : Instr) (w : W64) : scalarIs (vrig i (some w)) c0 0 (vin i (some w)) w := .inl rfl
theorem witness_cross_forms : (Instr.vsel 5 1 (.v 2) nomod 1).wf = true ∧ (Instr.vcmp 3 1 (.v 2) nomod 0 .lt .i32).wf = true ∧
    (Instr.vcmp 3 1 (.v 2) nomod 0 .un .f32).wf = true ∧ (Instr.viota 5 (.x 9) 1 0).wf = true ∧ (Instr.vext (.q 4) 1 (.x 9) nomod true).wf = true ∧
    (Instr.vxl 5 1 2 3 nomod 0).wf = true ∧ (Instr.vperm 5 1 2 3 nomod 0).wf = true ∧
    (Instr.vcvt 5 3 .bf16 .f32 nomod 0 ⟨.rz, false⟩).wf = true ∧ (Instr.vred (.q 4) 1 nomod 1 .addI).wf = true ∧
    (Instr.pcnt (.q 4) 2).wf = true ∧ (Instr.pnot 3 1).wf = true := by decide
/-- R139-R145: lanes 0-2 are below 3; VEXT of lane 2; 1.0 as bf16 is 0x3F80. -/
theorem test_cross_lanes : (vran (.vcmp 3 1 (.v 2) nomod 0 .lt .i32) none).me.p.getD 3 0 = 7 ∧
    lane (vran (.vsel 5 1 (.v 2) nomod 1) none) c0 0 5 5 = 3 ∧ (vran (.vext (.q 4) 1 (.x 9) nomod true) (some 2)).me.queue 4 = [2] ∧
    lane (vran (.vperm 5 1 2 3 nomod 0) none) c0 0 5 9 = 3 ∧ lane (vran (.viota 5 (.x 9) 1 0) (some 2)) c0 0 5 3 = 5 ∧
    lane (vran (.vcvt 5 3 .bf16 .f32 nomod 0 ⟨.rz, false⟩) none) c0 0 5 0 = 0x3F80 ∧
    lane (vran (.vxl 5 1 2 3 nomod 0) none) c0 0 5 9 = 3 := by decide
/-- R144, R161: 0 + ... + 15 is 120; predicate 2 has bits 1 and 2. -/
theorem test_reductions : (vran (.vred (.q 4) 1 nomod 0 .addI) none).me.queue 4 = [120] ∧ (vran (.vred (.q 4) 1 nomod 0 .maxI) none).me.queue 4 = [15] ∧
    (vran (.pcnt (.q 4) 2) none).me.queue 4 = [2] ∧ (vran (.pfirst (.q 4) 2) none).me.queue 4 = [1] ∧
    (vran (.pfirst (.q 4) 3) none).me.queue 4 = [16] ∧ (vran (.por 3 1 2) none).me.p.getD 3 0 = 7 := by decide +kernel
/-- Witness of VectorMemoryLanes: RAW, I8 and N8 windows of slot 0, the last 64 bytes, and a mapped global element. -/
theorem witness_vector_memory :
    (opens ((vrig (.vld 5 (.x 1) ⟨0, none, 0⟩) (some 0x10)).focus c0 0) 0x10 b0 = true ∧ (0x10 : W64).extractLsb' 28 4 = 0 ∧
      ((0x10 : W64).extractLsb' 0 16 + (0xFFB0 : BitVec 16)).toNat + 64 ≤ 0x10000) ∧ ((0x40000010 : W64).extractLsb' 28 4).toNat = 4 ∧
    ((0x50000010 : W64).extractLsb' 28 4).toNat = 5 ∧ calm (vrig (.vld 5 (.x 1) ⟨0, none, 0⟩) (some 0x10)) b0 = true ∧
    unprotected (vrig (.vld 5 (.x 1) ⟨0, none, 0⟩) (some 0x10)) b0 = true ∧
    (∃ e, (vrig (.vldg 5 (.x 2) 1 nomod ⟨.raw, 2, 1⟩) (some 0x100000000)).tlbLookup c0 0 0 0x100000000 = some e ∧ e.peer = false ∧ e.pa = 0x20000) ∧
    inArray (vrig (.vldg 5 (.x 2) 1 nomod ⟨.raw, 2, 1⟩) (some 0x100000000)) 0x20000 ∧
    soundHbm ((vrig (.vldg 5 (.x 2) 1 nomod ⟨.raw, 2, 1⟩) (some 0x100000000)).focus c0 0) 0x20000 4 = true ∧
    (∀ i, i < 16 → active (vrig (.vldg 5 (.x 2) 1 nomod ⟨.raw, 2, 1⟩) (some 0x100000000)) c0 0 1 i = decide (i = 0)) := by
  refine ⟨by decide, by decide, by decide, by decide, by decide, ⟨page, rfl, rfl, rfl⟩, ⟨rfl, _, rfl, rfl, rfl⟩, rfl, by decide⟩
/-- R152, R156: lane 1 of a RAW load at 0x10 is 7, lane 0 of an I8 one is -128; a gather of FE; a store of v1's lane 1. -/
theorem test_vector_memory : lane (vran (.vld 5 (.x 1) ⟨0, none, 0⟩) (some 0x10)) c0 0 5 1 = 7 ∧
    lane (vran (.vld 5 (.x 1) ⟨0, none, 0⟩) (some 0x40000010)) c0 0 5 0 = 0xFFFFFF80 ∧
    lane (vran (.vldg 5 (.x 2) 1 nomod ⟨.raw, 2, 1⟩) (some 0x100000000)) c0 0 5 0 = 0xFE ∧
    bankByte (vran (.vst 1 (.x 1) ⟨0, none, 0⟩) (some 0x20)) b0 0x24 = 1 ∧
    (vran (.vstg 2 (.x 2) 1 nomod ⟨.raw, 2, 1⟩) (some 0x100000000)).memByte 0x20000 = 3 := by decide +kernel

/-! ## The matrix slice -/

/-- Two berths: bank b0 in slot 0 (from the rig) and b1 in slot 1; x1 and x2 name them; x5 the core's own slot 0 by the fabric. -/
def matx : Ctx := { x := [(1, 0x10), (2, 0x10000), (5, 0x8000000000000000)], fid := 1 }
def mrig (l : List MEntry) (k : Core := {}) : State :=
  { rig matx { k with slice := l, berths := [(1, some b1)] } { bytes := [(0x10, 3), (0x12, 0x80), (0x13, 0x3F)] } with
    banks := [(b0, { st := .berthed, bytes := [(2, 0x80), (3, 0x3F), (0x12, 0x80), (0x13, 0x3F)] }),
      (b1, { st := .berthed, bytes := [(2, 0x80), (3, 0x3F)] })] }
def mraw : MmaImm := { km1 := 0, swa := false, swb := false, swc := 0, sws := 0, pa := 8, pb := 8, sc := false, f64 := false, ss := none }
def opA : MOp := { bank := b0, off := 0x10, win := 0, addr := 0x10 }
def opB : MOp := { bank := b1, off := 0, win := 0, addr := 0x10000 }
/-- Witness of MatrixIssueAndCounts: an empty slice; a local address and a fabric one of the own cluster; no scale;
a stream that is not live; no handler, no member of the joint row. -/
theorem witness_matrix_issue :
    sliceRoom (mrig []) = true ∧ noneBefore (mrig []) = true ∧ reads (mrig []) (.x 1) 0x10 ∧ reads (mrig []) (.x 2) 0x10000 ∧
    bankOperand (mrig []) 0x10 opA ∧ bankOperand (mrig []) 0x10000 opB ∧
    bankOperand (mrig []) 0x8000000000000000 { bank := b0, off := 0, win := 0, addr := 0x8000000000000000 } ∧
    tileOk (mrig []) 0 true = true ∧ tileOk (mrig []) 4 true = false ∧ pairing opA.window opB.window false = some 4 ∧
    mstoreRounds opA.window ⟨.rne, false⟩ = true ∧ sourceOk (mrig []) 0x10 ∧ (mrig []).myCore.slice = [] ∧
    ((mrig []).myCore.streams.getD 1 {}).live = false ∧ (mrig []).me.status.getLsbD 2 = false ∧
    (∀ e ∈ (mrig []).myCore.ctxs, e.1 ≠ (mrig []).curCtx → e.2.join = .no) := by
  refine ⟨by decide, by decide, ⟨rfl, rfl⟩, ⟨rfl, rfl⟩, ⟨rfl, by decide, .inl ⟨by decide, by decide⟩⟩, ⟨rfl, by decide, .inl ⟨by decide, by decide⟩⟩,
    ⟨rfl, by decide, .inr ⟨c0, ⟨by decide, by decide, by decide, by decide⟩, by decide, by decide, .inl (by decide), by decide⟩⟩,
    by decide, by decide, by decide, by decide, .inr ⟨b0, by decide, by decide⟩, by decide, by decide, by decide, by decide⟩
/-- R203, R205, R225: MMA enters with its operands; MSCALE captures its sources; tile 4 is no tile of a user firing (INFO 6). -/
theorem test_matrix_issue : ((ran (.mma 1 (.x 1) (.x 2) mraw) (mrig [])).myCore.slice.map fun e => (e.opA, e.opB, e.cons)) = [(some opA, some opB, false)] ∧
    (ran (.mma 1 (.x 1) (.x 2) mraw) (mrig [])).me.issued = 1 ∧ (ran (.mscale (.x 1) (.x 2) true false) (mrig [])).me.scaleA = some 0x10 ∧
    (ran (.mzero 4) (mrig [])).me.cause = 0x6001 := by decide
/-- Witness of MatrixIssueAndCounts: equal counts and unequal ones. -/
theorem witness_matrix_counts : (mrig []).me.refuse = false ∧ (mrig []).me.consumed = (mrig []).me.issued ∧ (mrig []).me.done = (mrig []).me.issued ∧
    (rig { matx with issued := 1 }).me.consumed ≠ (rig { matx with issued := 1 }).me.issued ∧ (rig { matx with issued := 1 }).me.refuse = false ∧
    (rig { matx with issued := 1 }).me.done ≠ (rig { matx with issued := 1 }).me.issued ∧ statusRoom (mrig []) (.q 6) = true := by decide
/-- R224. -/
theorem test_matrix_counts : (ran (.mwait true) (rig { matx with issued := 1, consumed := 1 })).me.stalled = true ∧
    (ran (.mwait false) (rig { matx with issued := 1, consumed := 1 })).me.stalled = false ∧
    gives (.mstat (.x 6)) (rig { matx with issued := 3, consumed := 2, done := 1 }) 6 = 0x300020001 := by decide
def ment (i : Instr) : MEntry := { ctx := 0, instr := i, pc := 0x1000, num := 0, fid := 1, rndctl := 1 }
def mrun (e : MEntry) : State := mrig [e]
noncomputable def mstep (e : MEntry) : State := ran (.matrixSliceExecution c0) (mrun e)
theorem mrun_reaches (e : MEntry) (h : e.ctx = 0 ∧ e.fid = 1 ∧ e.held = false ∧ e.paired = false) : sliceReaches (mrun e) c0 e [] := by
  obtain ⟨h1, h2, h3, h4⟩ := h
  refine ⟨rfl, fun _ h => (noEntry h).elim, h3, .inl h4, rfl, ?_, ?_, ?_, rfl, rfl⟩ <;> rw [h1]
  · rfl
  · rw [h2]; rfl
  · rfl
/-- Witness of MatrixSliceExecutes: MZERO not begun and begun; MSTREAM, MSCALE; MLOAD and DTLD that read; MSTORE at pitches 8 and 131;
MMA with one element of four; a reader that is consumed. -/
theorem witness_slice :
    sliceReaches (mrun (ment (.mzero 1))) c0 (ment (.mzero 1)) [] ∧
    sliceReaches (mrun { ment (.mma 1 (.x 1) (.x 2) mraw) with begun := true, opA := some opA, opB := some opB }) c0
      { ment (.mma 1 (.x 1) (.x 2) mraw) with begun := true, opA := some opA, opB := some opB } [] ∧
    calm (mrun (ment (.mzero 1))) b0 = true ∧ calm (mrun (ment (.mzero 1))) b1 = true ∧
    unprotected (mrun (ment (.mzero 1))) b0 = true ∧ Memory.wf ((mrun (ment (.mzero 1))).bank b0).bytes = true ∧
    4 * (ment (.mma 1 (.x 1) (.x 2) mraw)).group < mraw.k ∧ opA.win = 0 ∧ opA.off % 4 = 0 ∧ opA.addr.getLsbD 63 = false ∧
    (ment (.mma 1 (.x 1) (.x 2) mraw)).reads = true ∧ (ment (.mzero 1)).reads = false ∧
    ((mrun (ment (.mzero 1))).ctx c0 0).seq = [] := by
  refine ⟨mrun_reaches _ ⟨rfl, rfl, rfl, rfl⟩, mrun_reaches _ ⟨rfl, rfl, rfl, rfl⟩, ?_⟩
  decide
/-- R204: MZERO is consumed as it begins. -/
theorem test_slice_begin : ((mstep (ment (.mzero 1))).core c0).slice = [{ ment (.mzero 1) with begun := true, cons := true }] ∧
    ((mstep (ment (.mzero 1))).ctx c0 0).consumed = 1 := by decide
/-- R222: element 0 of row 0 is 1.0 in A and in B: their product is added to element (0, 0); row 1 of A is 0. -/
theorem test_slice_mma : element (mstep { ment (.mma 1 (.x 1) (.x 2) mraw) with begun := true, opA := some opA, opB := some opB }) c0 1 0 0 = 0x3F800000 ∧
    element (mstep { ment (.mma 1 (.x 1) (.x 2) mraw) with begun := true, opA := some opA, opB := some opB }) c0 1 1 0 = 0 := by decide +kernel
/-- R227: entry 0 of DT1 is the low 19 bits of the first word; R204: a consumed reader leaves. -/
theorem test_slice_dtld : ((mstep { ment (.dtld (.x 0) (.x 1) true) with begun := true, opA := some opA }).core c0).dt1.getD 0 0 = 0 ∧
    ((mstep { ment (.dtld (.x 0) (.x 1) true) with begun := true, opA := some { opA with off := 0 } }).core c0).dt1.getD 0 0 = 0 ∧
    ((mstep { ment (.mload 0 (.x 1) ⟨false, 8⟩) with begun := true, cons := true }).core c0).slice = [] := by decide +kernel

/-! ## Banks -/

/-- Core 1 of the cluster has an empty slot 2; x1 names it, x2 a core outside the span, x3 slot 0 of core 0. -/
def bankx : Ctx :=
  { x := [(1, 0x8000400000020000), (2, 0x8002000000000000), (3, 0x8000000000000000), (4, 0x8000400000000000), (5, 0x100)], fid := 1 }
def desc0 : Desc :=
  { table := 0, done := 0, ext := [2, 1], slsz := [2, 1], nwait := 0, merge := false, reissue := false, prio := 0, dims := 1, dies := 0, h := 1
    w := 2, quota := 64, args := [], waits := [] }
def launch9 : Launch :=
  { id := 9, part := 0, ctx := 0, queue := 0, entry := 0, desc := desc0, sat := [], prio := 0, slices := 1, next := 1, placedAny := true }
def hrig (b : Bank := {}) : State :=
  { rig bankx {} { b with bytes := [(0, 9)] } with
    cores := (rig bankx {} {}).cores ++ [(c1, { berths := [(3, some ⟨0, 0, 2⟩)] })]
    launches := [launch9]
    banks := [(b0, { b with st := .berthed, bytes := [(0, 9)] }), (b1, { bytes := [(0, 4)], tag := 2 }), (⟨0, 0, 2⟩, { st := .berthed })] }
/-- Witness of HandAndBankDescriptions: an empty slot; a bank with and without a shadow; no core, one out of reach, a taken slot, a free
one. -/
theorem witness_hand :
    (∃ t, takes (hrig) [.x 1] = some ([0x8000400000020000], t) ∧ room t (.x 6) = true) ∧ idleCore (hrig) = true ∧
    (hrig).myCore.berth 5 = none ∧ (hrig).myCore.berth 0 = some b0 ∧ noHeld (hrig) b0 = true ∧
    ((hrig { shadow := some b1 }).bank b0).shadow ≠ none ∧ ((hrig).bank b0).shadow = none ∧
    names (hrig) 0x8002000000000000 = none ∧ names (hrig) 0x8000400000020000 = some c1 ∧ (hrig).reach b0 c1.siteId = true ∧
    ((hrig).core c1).berth (slotOf 0x8000400000030000) ≠ none ∧ ((hrig).core c1).berth (slotOf 0x8000400000020000) = none := by
  refine ⟨⟨_, rfl, rfl⟩, ?_⟩; decide
/-- R189, R195, R255: the slot that a HAND fills waits for its first access, which acquires. -/
theorem test_hand : (ran (.hand (.x 6) (.x 1) 0) (hrig)).myCore.berth 0 = none ∧ ((ran (.hand (.x 6) (.x 1) 0) (hrig)).core c1).handed = [2] ∧ ((ran (.hand (.x 6) (.x 1) 0) (hrig)).core c1).berth 2 = some b0 ∧
    gives (.hand (.x 6) (.x 1) 0) (hrig) 6 = 0 ∧ gives (.hand (.x 6) (.x 2) 0) (hrig) 6 = 5 ∧ gives (.hand (.x 6) (.x 1) 4) (hrig) 6 = 3 ∧
    gives (.hand (.x 6) (.x 1) 0) (hrig { shadow := some b1 }) 6 = 4 := by decide
/-- Witness of HandAndBankDescriptions: own slots, a slot of another core, a core outside the span. -/
theorem witness_descriptions :
    room (hrig) (.x 6) = true ∧ (∀ b, (hrig).myCore.berth 0 = some b → b.num < 32 ∧ (hrig).logical b.siteId < 2048) ∧
    (∃ t, takes (hrig) [.x 3] = some ([0x8000000000000000], t) ∧ room t (.x 6) = true) ∧ names (hrig) 0x8000000000000000 = some c0 ∧
    (∀ b, ((hrig).core c0).berth (slotOf 0x8000000000000000) = some b → b.num < 32 ∧ (hrig).logical b.siteId < 2048) ∧
    names (hrig) 0x8002000000000000 = none ∧ (hrig).myCore.berth 0 = some b0 ∧ (hrig).myCore.berth 6 = none ∧
    ((hrig).bank b0).wmW < 2 ^ 17 ∧ ((hrig).bank b0).wmChan < 4 ∧ ((hrig).bank b0).wmStart < 2 ^ 16 ∧ ((hrig).bank b0).wmEnd < 2 ^ 17 := by
  refine ⟨rfl, ?_, ⟨_, rfl, rfl⟩, rfl, ?_, by decide⟩ <;> intro b h <;> rw [show b = b0 from (Option.some.inj h).symm] <;> decide
/-- R196, R199: present, and the watermark's position after reset. -/
theorem test_descriptions : gives (.binfo (.x 6) (.x 0) false 0) (hrig) 6 = 1 ∧ gives (.binfo (.x 6) (.x 2) true 0) (hrig) 6 = 0x5000000000000000 ∧
    gives (.wmrd (.x 6) 0 0) (hrig) 6 = 0x10000 ∧ gives (.binfo (.x 6) (.x 0) false 0) (hrig { shadow := some b1 }) 6 = 9 := by decide
/-- Witness of ClearAndSpeculate: an empty slot; an open copy and none; a shadow to open, none to be had, one that is open. -/
theorem witness_speculate :
    room (hrig) (.x 6) = true ∧ idleCore (hrig) = true ∧ (hrig).myCore.berth 5 = none ∧ (hrig).myCore.berth 0 = some b0 ∧
    noCopies (hrig { wmOpen := true }) b0 = false ∧ noCopies (hrig) b0 = true ∧ unprotected (hrig) b0 = true ∧ noHeld (hrig) b0 = true ∧
    ((hrig).bank b0).shadow = none ∧ ((hrig).bank b0).st = .berthed ∧ (hrig).shadowFor (hrig).cur.siteId = some b1 ∧
    (hrig).quotaFull (hrig).cur.siteId = false ∧ ((hrig { shadow := some b1 }).bank b0).shadow = some b1 ∧ b1 ≠ b0 ∧
    ({ hrig with launches := [{ launch9 with desc := { desc0 with quota := 2 } }] } : State).quotaFull n0 = true := by decide
/-- R192, R193, R197. -/
theorem test_speculate : (((ran (.spec (.x 6) 0) (hrig)).bank b0).shadow = some b1 ∧ bankByte (ran (.spec (.x 6) 0) (hrig)) b1 0 = 9) ∧
    (ran (.scommit (.x 6) 0) (hrig { shadow := some b1 })).myCore.berth 0 = some b1 ∧
    ((ran (.sabort (.x 6) 0) (hrig { shadow := some b1 })).bank b1).st = .free ∧ gives (.sabort (.x 6) 0) (hrig) 6 = 8 ∧
    bankByte (ran (.bclr (.x 6) 0) (hrig)) b0 0 = 0 ∧ gives (.bclr (.x 6) 0) (hrig { wmOpen := true }) 6 = 7 := by decide
/-- The same in a supervisor firing. -/
def hsup (b : Bank := {}) : State := { hrig b with cores := (hrig b).cores.map fun e => (e.1, { e.2 with ctxs := e.2.ctxs.map fun x => (x.1, { x.2 with status := 3 }) }) }
/-- Witness of SupervisorBerths: a user firing; no such core and no such bank; a bank out of reach; a taken bank, a taken slot;
a free bank, a free slot; an empty slot to unberth, a shadow, a copy, a bank at rest. -/
theorem witness_berths :
    (hrig).me.status.getLsbD 1 = false ∧ (hsup).me.status.getLsbD 1 = true ∧
    (∃ t, takes (hsup) [.x 1, .x 5] = some ([0x8000400000020000, 0x100], t) ∧ room t (.x 6) = true) ∧
    (∃ t, takes (hsup) [.x 3] = some ([0x8000000000000000], t) ∧ room t (.x 6) = true) ∧
    names (hsup) 0x8002000000000000 = none ∧ (hsup).namedBank 0x70000 = none ∧ (hsup).namedBank 0x100 = some b1 ∧ (hsup).namedBank 0 = some b0 ∧
    names (hsup) 0x8000400000020000 = some c1 ∧ (hsup).reach b1 c1.siteId = true ∧ ((hsup).bank b0).st ≠ .free ∧ ((hsup).bank b1).st = .free ∧
    (hsup).quotaFull (hsup).cur.siteId = false ∧ ((hsup).core c1).berth (slotOf 0x8000400000020000) = none ∧
    ((hsup).core c1).berth (slotOf 0x8000400000030000) ≠ none ∧ ((hsup).core c0).berth (slotOf 0x8000000000000000) = some b0 ∧
    ((hsup).bank b0).shadow = none ∧ noCopies (hsup) b0 = true ∧ noHeld (hsup) b0 = true ∧ unprotected (hsup) b0 = true ∧ ((hsup).core c0).slice = [] ∧
    (∀ z, z < 4 → ((hsup).ctx c0 z).seq = []) ∧ (hsup).me.seq = [] ∧ (∀ e ∈ ((hsup).core c0).ctxs, e.2.touch = []) := by
  refine ⟨rfl, rfl, ⟨_, rfl, rfl⟩, ⟨_, rfl, rfl⟩, ?_⟩; decide
/-- R200, R355: the tag changes, so the contents go; R372: a user firing traps. -/
theorem test_berths : ((ran (.berth (.x 6) (.x 1) (.x 5) false) (hsup)).core c1).berth 2 = some b1 ∧ bankByte (ran (.berth (.x 6) (.x 1) (.x 5) false) (hsup)) b1 0 = 0 ∧
    ((ran (.berth (.x 6) (.x 1) (.x 5) false) (hsup)).bank b1).tag = 0 ∧ gives (.berth (.x 6) (.x 1) (.x 0) false) (hsup) 6 = 6 ∧
    (ran (.unberth (.x 6) (.x 3) false) (hsup)).myCore.berth 0 = none ∧ ((ran (.unberth (.x 6) (.x 3) false) (hsup)).bank b0).st = .free ∧
    (ran (.unberth (.x 6) (.x 3) false) (hrig)).me.cause = 3 := by decide

/-! ## Copies and straits -/

/-- One row of 64 bytes from b0 offset 0x40 to b1 offset 0x80, no message. -/
def copyy : Ctx := { x := [(1, 0x40), (2, 0x10080), (3, 15), (9, 1)], fid := 1 }
def crig (ch : Channel) (b : Bank := {}) : State :=
  { rig copyy { chan := ch, berths := [(1, some b1)], l1 := [{ line := 1, data := 0, uc := 0, dead := false, comp := 0 }] } with
    banks := [(b0, { st := .berthed, bytes := [(0x40, 1), (0x7F, 2)] }), (b1, { b with st := .berthed, tag := 0, bytes := [(0x80, 5), (0xC0, 6)] })]
    cycle := 100, rtime := 500 }
def cp (id : BitVec 32) (st : CopySt) : Copy := { id := id, w0 := 0x40, w1 := 0x10080, w2 := 15, w3 := 0, st := st, src := some b0, dst := some b1, fid := 1 }
def two (st : CopySt) : Channel := { next := 7, done := 5, places := [cp 5 st, cp 6 .waiting] }
def four : Channel := { next := 4, done := 0, places := [cp 0 .landing, cp 1 .waiting, cp 2 .waiting, cp 3 .waiting] }
def qc (id : BitVec 32) : QCopy := { core := c0, id := id, start := 0x80, stop := 0xC0 }
/-- Witness of CopyRequestsAndControl: an acceptable request with room, with a full channel, with a full bank queue. -/
theorem witness_copy_requests :
    acceptable (crig {}) (request (crig {}) 1 (some b0) (some b1)) ∧ (crig {}).myCore.chan.places.length < 4 ∧ ((crig {}).bank b1).queue.length < 8 ∧
    quiet (crig {}) = true ∧ released (crig {}) = true ∧ ((crig {}).bank b1).queue = [] ∧ ((crig {}).bank b1).wmOpen = false ∧
    ((crig {}).bank b1).shadow = none ∧
    acceptable (crig four) (request (crig four) 1 (some b0) (some b1)) ∧ 4 ≤ (crig four).myCore.chan.places.length ∧
    acceptable (crig {} { queue := List.replicate 8 (qc 1) }) (request (crig {} { queue := List.replicate 8 (qc 1) }) 1 (some b0) (some b1)) ∧
    8 ≤ ((crig {} { queue := List.replicate 8 (qc 1) }).bank b1).queue.length := by
  have h : ∀ (ch : Channel) (b : Bank), acceptable (crig ch b) (request (crig ch b) 1 (some b0) (some b1)) := fun ch b =>
    by
    have h0 : (request (crig ch b) 1 (some b0) (some b1)).w0 = 0x40 := rfl
    have h1 : (request (crig ch b) 1 (some b0) (some b1)).w1 = 0x10080 := rfl
    have h2 : (request (crig ch b) 1 (some b0) (some b1)).w2 = 15 := rfl
    have h3 : (request (crig ch b) 1 (some b0) (some b1)).w3 = 0 := rfl
    have h4 : (request (crig ch b) 1 (some b0) (some b1)).dst.isSome = true := rfl
    have tags : (request (crig ch b) 1 (some b0) (some b1)).sluice = 0 → ∀ k,
        (request (crig ch b) 1 (some b0) (some b1)).src = some k ∨ (request (crig ch b) 1 (some b0) (some b1)).dst = some k →
        tagOpen (crig ch b) (crig ch b).me.compart k := by
      rintro - k (h | h) <;> cases h <;> exact .inl rfl
    refine ⟨?_, ⟨some c0, .inl ⟨rfl, ?_⟩, b0, rfl, by rw [h0]; rfl⟩, ⟨some c0, .inl ⟨rfl, ?_⟩, b1, rfl, by rw [h1]; rfl⟩, ?_, ?_, ?_, .inl ?_, tags⟩ <;>
      simp only [Copy.fieldsOk, Copy.limitsOk, Copy.mkind, Copy.swc, Copy.sws, Copy.swz, Copy.ctr, Copy.mdest, Copy.dead, Copy.uc, Copy.planes,
        Copy.rows, Copy.dp, Copy.rb, h0, h1, h2, h3, h4] <;> decide
  refine ⟨h _ _, by decide, by decide, by decide, by decide, by decide, by decide, by decide, h _ _, by decide, h _ _, by decide⟩
/-- R296, R299: ID 0; the envelope is 0x80 to 0xC0. -/
theorem test_copy_requests : gives (.cpyq 0) (crig { next := 7, done := 7 }) 1 = 7 ∧ ((ran (.cpyq 0) (crig {})).bank b1).wmEnd = 0xC0 ∧
    ((ran (.cpyq 0) (crig {})).bank b1).wmOpen = true ∧ gives (.cpyqt 0) (crig four) 1 = 0x8000000000000001 ∧
    (ran (.cpyq 0) (crig four)).me.stalled = true := by decide
/-- Witness of CopyRequestsAndControl: IDs above NEXT, below DONE, outstanding; a copy in each state. -/
theorem witness_copy_control :
    (∃ t, takes (crig (two .landing)) [.x 9] = some ([1], t) ∧ room t (.x 6) = true) ∧ (crig (two .landing)).me.wait = .none ∧
    before 7 (crig (two .landing)).myCore.chan.next = false ∧ before 4 (crig (two .landing)).myCore.chan.done = true ∧
    before 4 (crig (two .landing)).myCore.chan.next = true ∧ copyOf (crig (two .landing)) c0 4 = none ∧
    outstanding (crig (two .suspended)) 5 (cp 5 .suspended) ∧ outstanding (crig (two .frozen)) 5 (cp 5 .frozen) ∧
    outstanding (crig (two .landed)) 5 (cp 5 .landed) ∧ outstanding (crig (two .landing)) 5 (cp 5 .landing) ∧
    outstanding (crig (two .landing)) 6 (cp 6 .waiting) ∧ (cp 6 .waiting).began = false := by
  refine ⟨⟨_, rfl, rfl⟩, rfl, by decide, by decide, by decide, by decide, ⟨rfl, rfl, rfl⟩, ⟨rfl, rfl, rfl⟩, ⟨rfl, rfl, rfl⟩, ⟨rfl, rfl, rfl⟩,
    ⟨rfl, rfl, rfl⟩, rfl⟩
def asks (n : W64) (s : State) : State := s.updMe fun v => { v with x := v.x.put 9 n }
/-- R311-R314. -/
theorem test_copy_control : gives (.cpys (.x 6) (.x 9)) (asks 5 (crig (two .frozen))) 6 = 3 ∧ gives (.cpys (.x 6) (.x 9)) (asks 4 (crig (two .frozen))) 6 = 1 ∧
    gives (.cpyr (.x 6) (.x 9)) (asks 6 (crig (two .frozen))) 6 = 5 ∧ gives (.cpyw (.x 6) (.x 9)) (asks 4 (crig (two .frozen))) 6 = 0 ∧
    (ran (.cpyw (.x 6) (.x 9)) (asks 4 (crig (two .frozen)))).myCore.l1 = [] ∧ gives (.cpyst (.x 6) (.x 9) 0) (asks 5 (crig (two .frozen))) 6 = 4 ∧
    gives (.cpyst (.x 6) (.x 9) 2) (crig (two .frozen)) 6 = 0x700000005 := by decide
/-- An open envelope of the first copy. -/
def opened : State := crig (two .landing) { wmOpen := true, wmW := 0x80, wmStart := 0x80, wmEnd := 0xC0, wmId := 5, queue := [qc 5, qc 6] }
/-- Witness of LandingAndCompletion: one unit from its end; a landed copy without and with a message. -/
theorem witness_landing :
    (opened.core c0).chan.places = cp 5 .landing :: [cp 6 .waiting] ∧ (cp 5 .landing).stop = false ∧ (cp 5 .landing).swz = false ∧
    (opened.core c0).stopped = false ∧ (opened.die c0.die).fenced = false ∧ b0 ≠ b1 ∧ calm opened b0 = true ∧ (opened.bank b1).wmOpen = true ∧
    (opened.bank b1).queue = qc 5 :: [qc 6] ∧ (opened.bank b1).bad = [] ∧ unprotected opened b1 = true ∧ Memory.wf (opened.bank b1).bytes = true ∧
    (cp 5 .landing).nextUnit = 0x80 ∧ (cp 5 .landing).stopAt = 0xC0 ∧ { cp 5 .landing with w2 := 16 }.stopAt = 0x100 ∧
    ((crig (two .landed)).core c0).chan.places = cp 5 .landed :: [cp 6 .waiting] ∧ (cp 5 .landed).mkind = 0 ∧
    ({ cp 5 .landed with w3 := 0x800000000 } : Copy).mkind = 1 ∧ (crig (two .landed)).spanCore c0.siteId 0 = some c0 ∧
    (crig (two .landed)).logical c0.siteId < 2048 := by decide
/-- R295, R298, R302, R307. -/
theorem test_landing : bankByte (ran (.landingUnit c0) opened) b1 0x80 = 1 ∧ bankByte (ran (.landingUnit c0) opened) b1 0xBF = 2 ∧
    bankByte (ran (.landingUnit c0) opened) b1 0xC0 = 6 ∧ (copyOf (ran (.landingUnit c0) opened) c0 5).map (·.st) = some .landed ∧
    ((ran (.copyCompletion c0) (crig (two .landed))).core c0).chan.done = 6 := by decide +kernel
/-- A partition that holds all groups of strait 0, between dies 0 and 1, and k groups of strait 6, between dies 0 and 4. -/
def owned (k : Nat) : List Lane := Strait.reset.lanes.mapIdx fun i l => { l with owner := if i < k then some 0 else none }
def turns (n : W64) (k : Nat) (l0 : Strait := { lanes := owned 32 }) : State :=
  { rig { x := [(1, n)] } with
    straits := l0 :: List.replicate 5 { lanes := owned 0 } ++ [{ lanes := owned k }] ++ List.replicate 3 { lanes := owned 0 }, rtime := 999 }
/-- Group 0 has turned toward lo since 100. -/
def turning0 : Strait := { lanes := [{ dir := .turning true 100, owner := some 0 }], pending := [] }
/-- Witness of StraitTurns: an end and no end of a strait; 0, 6 and 32 groups; a window that is due, with a target and without; a
group whose drain and slack are over. -/
theorem witness_straits :
    (∃ t, takes (turns 6 6) [.x 1] = some ([6], t) ∧ room t (.x 6) = true) ∧ windowsMade (turns 6 6) ∧ (turns 6 6).straits.length = 10 ∧
    (straitDies 1).1 ≠ (turns 6 6).cur.die ∧ (straitDies 1).2 ≠ (turns 6 6).cur.die ∧ (straitDies 0).1 = (turns 6 6).cur.die ∧
    (straitDies 6).1 = (turns 6 6).cur.die ∧ (lanesOf (turns 6 6) 0 (turns 6 6).myPart).length = 32 ∧
    (lanesOf (turns 6 6) 6 (turns 6 6).myPart).length = 6 ∧ (lanesOf (turns 6 0) 6 (turns 6 0).myPart).length = 0 ∧
    (lanesOf (turns 6 6) 0 (turns 6 6).myPart).all steady = true ∧
    1000 * (({ turns 6 6 with rtime := 1000 } : State).windows + 1) ≤ ({ turns 6 6 with rtime := 1000 } : State).rtime ∧
    ((turns 6 6).strait 0).initial = [] ∧ ((turns 6 6).strait 0).pending = [] ∧ (∀ l ∈ ((turns 6 6).strait 0).lanes, l.retire = false) ∧
    ((turns 6 6 { lanes := owned 32, pending := [(0, 20)] }).strait 0).pending = [(0, 20)] ∧ 20 + 4 ≤ 32 ∧
    ((turns 6 6 turning0).strait 0).lanes[0]? = some { dir := .turning true 100, owner := some 0 } ∧ 100 + 80 ≤ (turns 6 6 turning0).rtime := by
  refine ⟨⟨_, rfl, rfl⟩, show 999 / 1000 ≤ 0 by decide, ?_⟩; decide
/-- R280, R281, R283, R286: die 0 is lo; 32 groups, 16 each way; a split of 20 is four groups away; THRD counts windows. -/
theorem test_straits : gives (.turn (.x 6) (.x 1) 0) (turns 6 6) 6 = 0 ∧ gives (.turn (.x 6) (.x 1) 0) (turns 3 6) 6 = 1 ∧
    ((ran (.turn (.x 6) (.x 1) 0) (turns 3 6)).strait 0).pending = [(0, 4)] ∧ gives (.turn (.x 6) (.x 1) 1) (turns 6 6) 6 = 2 ∧
    gives (.turn (.x 6) (.x 1) 6) (turns 6 0) 6 = 3 ∧ gives (.turn (.x 6) (.x 1) 6) (turns 6 6) 6 = 4 ∧
    gives (.turnq (.x 6) 0) (turns 6 6) 6 = 32 * 2 ^ 7 + 16 * 2 ^ 13 + 16 * 2 ^ 19 ∧
    ((ran .turnWindow { turns 6 6 { lanes := owned 32, pending := [(0, 20)] } with rtime := 1000 }).strait 0).split 0 = 20 ∧
    ((ran (.groupTurnComplete 0 0) (turns 6 6 turning0)).strait 0).lanes.map (·.dir) = [.toLo] := by decide +kernel

/-! ## System registers, traps, sealed contexts -/

/-- A user firing and, with status 3, a supervisor one. -/
def sysx (st : W64) (k : Core := {}) : State := { rig { x := [(1, 7), (2, 0xFFFFFFFFFFFFFFFF)], status := st, epc := 0x11, xpc := 0x22, pc := 0x80 } k with cycle := 2 ^ 24 }
/-- Witness of SystemRegisters: both levels; an empty sequencer; no gang; small numbers. -/
theorem witness_system_registers : (sysx 1).me.status.getLsbD 1 = false ∧ (sysx 3).me.status.getLsbD 1 = true ∧ room (sysx 3) (.x 6) = true ∧
    (∃ t, takes (sysx 3) [.x 1] = some ([7], t) ∧ room t (.x 6) = true) ∧ (sysx 3).me.seq = [] ∧ (sysx 3).me.status.getLsbD 5 = false ∧
    (sysx 3).spanCluster (sysx 3).cur.siteId < 1024 ∧ (sysx 3).logical (sysx 3).cur.siteId < 2048 := by
  refine ⟨rfl, rfl, rfl, ⟨_, rfl, rfl⟩, ?_⟩; decide
/-- R171, R372, R382, R396: RNDCTL keeps its mode for 7; PTBASE keeps its writable fields; a user firing may not read EPC. -/
theorem test_system_registers : gives (.sysr (.x 6) 2) (sysx 3) 6 = 0x22 ∧ (ran (.sysr (.x 6) 2) (sysx 1)).me.cause = 3 ∧
    (ran (.sysw (.x 6) (.x 1) 0x12) (sysx 3)).me.rndctl = 1 ∧ (ran (.sysw (.x 6) (.x 2) 0x1E) (sysx 3)).myCore.ptbase = 0xFFFFFFFFFF001 ∧
    (ran (.sysw (.x 6) (.x 0) 0x00) (sysx 3)).me.status = 2 ∧ (ran (.sysw (.x 6) (.x 0) 0x13) (sysx 3)).myCore.seed = 1 := by decide
/-- A trap that waited: cause 6 INFO 2 of the vector stream. -/
def waitingTrap : TrapInfo := { code := 6, info := 2, stream := 1, epc := 0x44, xpc := 0x55, va := 9, order := 3 }
def trapped (st : W64) (tv : W64) : State :=
  { rig { x := [(1, 7)], pc := 0x80, status := st, trapPend := some waitingTrap, handler := 4 } with
    cores := (rig { x := [(1, 7)], pc := 0x80, status := st, trapPend := some waitingTrap, handler := 4 }).cores.map fun e => (e.1, { e.2 with tvec := tv }) }
/-- Witness of TrapEntry: a context that is free to trap; a trap that waited, with TVEC, without, and in a handler. -/
theorem witness_trap : trapReady (sysx 1) (sysx 1).cur (sysx 1).curCtx ∧ (∃ t, takes (sysx 1) [.x 1] = some ([7], t)) ∧
    ((trapped 1 0x40).ctx c0 0).trapPend = some waitingTrap ∧ ((trapped 1 0x40).core c0).stopped = false ∧
    (∀ e ∈ ((trapped 1 0x40).core c0).ctxs, (e.1 ≠ 0 → e.2.running = true → e.2.status.getLsbD 2 = false) ∧
      ∀ j, e.2.trapPend = some j → waitingTrap.order ≤ j.order) ∧
    ((trapped 1 0x40).core c0).tvec ≠ 0 ∧ ((trapped 1 0x40).ctx c0 0).status.getLsbD 2 = false ∧ ((trapped 1 0).core c0).tvec = 0 ∧
    ((trapped 7 0x40).ctx c0 0).status.getLsbD 2 = true ∧ ((trapped 1 0x40).die c0.die).fenced = false := by
  refine ⟨⟨rfl, by decide, rfl, rfl, by decide, by decide⟩, ⟨_, rfl⟩, rfl, rfl, ?_, by decide⟩
  intro e h
  have : e = (0, { x := [(1, 7)], pc := 0x80, status := 1, trapPend := some waitingTrap, handler := 4, running := true, fid := 1 }) := by
    simpa [trapped, rig, State.core, Tab.getD, Tab.find] using h
  subst this
  exact ⟨fun h => absurd rfl h, fun j h => by cases h; decide⟩
/-- R373, R375, R378, R391. -/
theorem test_trap : (ran (.trap (.x 1) 5) (sysx 1)).me.cause = 0x5011 ∧ (ran (.trap (.x 1) 5) (sysx 1)).me.xpc = 0xC0 ∧
    (ran (.trap (.x 1) 5) (sysx 1)).me.epc = 0x80 ∧ (ran (.trap (.x 1) 5) (sysx 1)).me.faultva = 7 ∧ (ran (.trap (.x 1) 5) (sysx 1)).me.status = 7 ∧
    ((ran (.trapEntry c0 0) (trapped 1 0x40)).ctx c0 0).cause = 0x2106 ∧ ((ran (.trapEntry c0 0) (trapped 1 0)).ctx c0 0).running = false ∧
    (((ran (.trapEntry c0 0) (trapped 7 0x40)).core c0).rev.map (·.handler)) = [4] := by decide
/-- A revocation that waits on core 0. -/
def dying : State := sysx 1 { rev := [{ cause := 6, epc := 0x11, va := 3, handler := 4, version := 0, report := false }] }
/-- Witness of ReturnWatchdogRevocation. -/
theorem witness_return : (sysx 0x17).me.status.getLsbD 2 = true ∧ (sysx 1).me.status.getLsbD 2 = false ∧ ((sysx 1).ctx c0 0).running = true ∧
    ((sysx 1).ctx c0 0).wait = .none ∧ trapReady (sysx 1) c0 0 ∧ ((sysx 1).ctx c0 0).watch + 2 ^ 24 ≤ (sysx 1).cycle ∧
    (dying.core c0).rev = { cause := 6, epc := 0x11, va := 3, handler := 4, version := 0, report := false } :: [] ∧ (dying.core c0).slice = [] ∧
    (∀ y, y < 4 → (dying.ctx c0 y).seq = []) ∧ (dying.core c0).berth 0 = some b0 ∧ unprotected dying b0 = true ∧ (dying.bank b0).shadow = none ∧
    (∀ e ∈ (dying.core c0).ctxs, e.2.touch = []) := by
  refine ⟨rfl, rfl, rfl, rfl, ⟨rfl, by decide, rfl, rfl, by decide, by decide⟩, by decide, rfl, rfl, by decide, rfl, by decide, rfl, by decide⟩
theorem dying_berths (i : Nat) (b : BankId) (h : i < 8) (q : (dying.core c0).berth i = some b) : unprotected dying b = true ∧ (dying.bank b).shadow = none := by
  have : b = b0 := by
    have w : ∀ i, i < 8 → (dying.core c0).berth i = none ∨ (dying.core c0).berth i = some b0 := by decide
    rcases w i h with e | e <;> rw [e] at q <;> simp_all
  subst this; exact ⟨by decide, rfl⟩
/-- R392: SRET to XPC at the saved level; R405, R424. -/
theorem test_return : (ran .sret (sysx 0x17)).me.pc = 0x22 ∧ (ran .sret (sysx 0x17)).me.status = 0x13 ∧ (ran .sret (sysx 7)).me.status = 1 ∧
    (ran .sret (sysx 1)).me.cause = 3 ∧ ((ran (.watchdog c0 0) (sysx 1)).ctx c0 0).cause = 0x100E ∧
    ((ran (.revocation c0) dying).bank b0).st = .revoked ∧ ((ran (.revocation c0) dying).core c0).berth 0 = none := by decide
def waiter (w : Wait) : State := { rig { wait := w } with cycle := 5000 }
def tlbs (st : W64) : State :=
  { rig { x := [(1, 0x100000000)], status := st } { tlb := [page] } with dies := [(0, { tlb := [page, { page with part := 1 }] })] }
/-- Witness of WaitsAndTlbInvalidation. -/
theorem witness_waits : (waiter .woken).me.wait = .woken ∧ (waiter (.wfe 904)).me.wait = .wfe 904 ∧ 904 + 4096 ≤ (waiter (.wfe 904)).cycle ∧
    (waiter (.wfe 905)).cycle < 905 + 4096 ∧ (waiter .none).me.wait = .none ∧ ((waiter (.align 4936 [])).ctx c0 0).wait = .align 4936 [] ∧
    4936 + 64 ≤ (waiter (.align 4936 [])).cycle ∧ (tlbs 1).me.status.getLsbD 1 = false ∧ (tlbs 3).me.status.getLsbD 1 = true ∧ quiet (tlbs 3) = true ∧
    (tlbs 3).myCore.unacked = 0 ∧ ∃ t, takes (tlbs 3) [.x 1] = some ([0x100000000], t) := by
  refine ⟨by decide, by decide, by decide, by decide, by decide, by decide, by decide, by decide, by decide, by decide, by decide, _, rfl⟩
/-- R56, R394, R395. -/
theorem test_waits : (ran .wfe (waiter .none)).me.wait = .wfe 5000 ∧ (ran .wfe (waiter .woken)).me.num = 1 ∧
    ((ran (.wfeTimeout c0 0) (waiter (.wfe 904))).ctx c0 0).wait = .woken ∧ ((ran (.alignTimeout c0 0) (waiter (.align 4936 []))).ctx c0 0).wait = .woken ∧
    (ran (.tlbi (.x 1) false) (tlbs 3)).myCore.tlb = [] ∧ ((ran (.tlbi (.x 1) false) (tlbs 3)).die 0).tlb = [{ page with part := 1 }] ∧
    (ran (.tlbi (.x 1) false) (tlbs 1)).me.cause = 3 := by decide
/-- Compartment 63 of world 5 of partition 0; a host page. -/
def hostPage : TlbEntry := { page with pa := 2 ^ 51 }
def world5 : World := { num := 5, part := 0, comps := [(63, { meas := [], key := 1 })], key := 2 }
def sealing (cells : List Host.Cell) : State :=
  { rig { x := [(1, 0x100000000), (2, 0), (3, 0x201), (4, 0x101)], compart := 63, fid := 1 } { tlb := [hostPage] } { tag := 1 } with
    lantern := { started := true, worlds := [world5] }, mem := cells }
def image0 : SealImm := { ctx := 0, vr := false, len := 0 }
theorem image_on (cells : List Host.Cell) (n : Nat) (h : n ≤ 65536) : imageOn (sealing cells) 0x100000000 n (2 ^ 51) := by
  refine ⟨by decide, by decide, ?_, 0, hostPage, rfl, by show (1 : W64).getLsbD 0 = true; decide, ?_, rfl, by decide, by decide, by omega⟩
  · simp; omega
  · have h : (sealing cells).tlbLookup (sealing cells).cur 0 (rootPage (sealing cells).myCore.ptbase) 0x100000000 =
        (tlbFind [hostPage] 0 (rootPage 1) 0x100000000).orElse fun _ => (tlbFind [] 0 (rootPage 1) 0x100000000).orElse fun _ =>
          tlbFind [] 0 (rootPage 1) 0x100000000 := rfl
    exact h.trans (by decide)
/-- Witness of SealedContexts: another compartment; SLUICE in form and not; SEAL of nothing but the header; UNSEAL of an image
that is not accepted. -/
theorem witness_sealed :
    (sysx 1).me.compart ≠ 63 ∧ (sealing []).me.compart = 63 ∧ (sealing []).me.status.getLsbD 5 = false ∧ (sealing []).myWorld = some world5 ∧
    (∃ t, takes (sealing []) [.x 3, .x 2] = some ([0x201, 0], t) ∧ room t (.x 6) = true) ∧ (∃ t, takes (sealing []) [.x 1] = some ([0x100000000], t) ∧ room t (.x 6) = true) ∧
    (0x201 : W64).extractLsb' 0 6 = 1 ∧ (0x201 : W64).extractLsb' 8 6 = 2 ∧ (0x101 : W64).extractLsb' 8 6 = 1 ∧
    (∀ e ∈ (sealing []).me.v, e.2.length = 16) ∧ alone (sealing []) = true ∧ released (sealing []) = true ∧ world5.counter 0 ≠ BitVec.allOnes 64 ∧
    Memory.wf (sealing []).mem = true ∧ imageOn (sealing []) 0x100000000 (80 + SealImm.bytes image0) (2 ^ 51) ∧ sealRange (sealing []) 0 64 b0 ∧
    sealAccepted world5 image0 ((sealing []).memRead (2 ^ 51) (80 + SealImm.bytes image0)) = false := by
  refine ⟨by decide, rfl, rfl, rfl, ⟨_, rfl, rfl⟩, ⟨_, rfl, rfl⟩, by decide, by decide, by decide, by decide, by decide, by decide, by decide, by decide,
    image_on _ _ (by decide), ⟨by decide, by decide, by decide, by decide, by decide⟩, ?_⟩
  rfl
/-- R360, R364, R438. -/
theorem test_sealed : (ran (.sluice (.x 6) (.x 4) (.x 2) 2) (sealing [])).me.cause = 0x500F ∧
    ((ran (.sluice (.x 6) (.x 3) (.x 1) 2) (sealing [])).sluice 3) = { frm := 1, into := 2, allow := 0x100000000 } ∧
    (ran (.unseal (.x 6) (.x 1) (.x 0) image0) (sysx 1)).me.cause = 3 := by decide
/-- An image of nothing but header and tag, in host memory. -/
noncomputable def tag0 : List Byte := gcmTag (world5.saveKey 0) (sealNonce 5 0 0) (sealHeader 5 image0 0) []
noncomputable def stored : State :=
  sealing ((List.range 64).map (fun o => (2 ^ 51 + o, (sealHeader 5 image0 0).getD o 0)) ++
    (List.range 16).map fun o => (2 ^ 51 + 64 + o, tag0.getD o 0))
set_option maxRecDepth 20000 in
/-- Witness of SealedContexts: UNSEAL of an image that is accepted. -/
theorem witness_unseal : imageOn stored 0x100000000 (80 + SealImm.bytes image0) (2 ^ 51) ∧
    sealAccepted world5 image0 (stored.memRead (2 ^ 51) (80 + SealImm.bytes image0)) = true := by
  refine ⟨image_on _ _ (by decide), ?_⟩
  have h : tag0.length = 16 := gcmTag_length _ _ _ _ (by decide)
  have e : stored.memRead (2 ^ 51) (80 + SealImm.bytes image0) = sealHeader 5 image0 0 ++ tag0 := by
    have q : ∀ t : List Byte, t.length = 16 → (sealing ((List.range 64).map (fun o => (2 ^ 51 + o, (sealHeader 5 image0 0).getD o 0)) ++
        (List.range 16).map fun o => (2 ^ 51 + 64 + o, t.getD o 0))).memRead (2 ^ 51) 80 = sealHeader 5 image0 0 ++ t := by
      intro t ht
      match t, ht with
      | [a0, a1, a2, a3, a4, a5, a6, a7, a8, a9, a10, a11, a12, a13, a14, a15], _ => rfl
    exact q tag0 h
  rw [e]
  have w : world5.counter 0 = 0 := rfl
  have l : (sealHeader 5 image0 0).length = 64 := by decide
  have k : SealImm.bytes image0 = 0 := by decide
  simp only [sealAccepted, k, show image0.ctx.val = 0 from rfl, show world5.num = 5 from rfl, w]
  have t1 : (sealHeader 5 image0 0 ++ tag0).take 64 = sealHeader 5 image0 0 := by
    rw [List.take_append_of_le_length (by omega), List.take_of_length_le (by omega)]
  have t2 : (sealHeader 5 image0 0 ++ tag0).drop 64 = tag0 := by
    rw [List.drop_append_of_le_length (by omega), List.drop_of_length_le (by omega), List.nil_append]
  have t3 : tag0.take 16 = tag0 := List.take_of_length_le (by omega)
  simp only [Nat.add_zero, t1, t2, t3, List.take_zero]
  exact Bool.and_eq_true_iff.mpr ⟨by decide, decide_eq_true rfl⟩

/-! ## Traffic on the fabric, in memory and on the Coastline -/

/-- A write of core 1 to slot 0 of core 0, offset 0x10. -/
def wr (k : WKind) : FWrite := { src := c1, ctx := 0, fid := 1, comp := 0, addr := 0x8000000000000010, kind := k }
def nowhere : FWrite := { wr (.bytes [7]) with addr := 0x8000000000050010 }
def wrig (l : List FWrite) (b : Bank := {}) (acks : List Ack := []) : State := { rig {} { unacked := 1 } b with fwrites := l, acks := acks }
/-- Witness of FabricTrafficAtItsBank: an empty slot; a tag of another compartment; an open bank; a speculative one; a held
write; acknowledgements, accepted and refused. -/
theorem witness_remote_writes :
    (wrig [nowhere]).fwrites = nowhere :: [] ∧ State.reaches (wrig [nowhere]) c1 ((wrig [nowhere]).portDie c1 nowhere.addr) = true ∧
    State.reaches (wrig [wr (.bytes [7])]) c1 ((wrig [wr (.bytes [7])]).portDie c1 (wr (.bytes [7])).addr) = true ∧ bankOf (wrig [nowhere]) c1 nowhere.addr = none ∧
    bankOf (wrig [wr (.bytes [7])]) c1 (wr (.bytes [7])).addr = some b0 ∧ tagOpen (wrig [wr (.bytes [7])]) 0 b0 ∧
    ¬tagOpen (wrig [wr (.bytes [7])] { tag := 2 }) 0 b0 ∧ calm (wrig [wr (.bytes [7])]) b0 = true ∧
    unprotected (wrig [wr (.bytes [7])]) b0 = true ∧ Memory.wf ((wrig [wr (.bytes [7])]).bank b0).bytes = true ∧
    ((wrig [wr (.bytes [7])] { shadow := some b1 }).bank b0).shadow ≠ none ∧ ((wrig [wr (.bytes [7])] { shadow := some b1 }).bank b0).held.length < 64 ∧
    ((wrig [wr (.bytes [7])] { shadow := some b1 }).bank b0).wmFroz = false ∧ ((wrig [wr (.bytes [7])] {}).bank b0).waiting = [] ∧
    ((wrig [wr (.bytes [7])] { waiting := [nowhere] }).bank b0).waiting ≠ [] ∧
    ((wrig [] { held := [wr (.bytes [7])] }).bank b0).held = wr (.bytes [7]) :: [] ∧ noCopies (wrig [] { held := [wr (.bytes [7])] }) b0 = true ∧
    (wrig [] {} [{ core := c0, ctx := 0, addr := 9, refused := some 3 }]).acks = { core := c0, ctx := 0, addr := 9, refused := some 3 } :: [] := by
  refine ⟨rfl, by decide, by decide, by decide, by decide, .inl (by decide), ?_, by decide⟩
  rintro (h | ⟨h, -⟩) <;> exact absurd h (by decide)
/-- R186, R243, R271, R403, R428. -/
theorem test_remote_writes : bankByte (ran (.remoteWriteArrival 0) (wrig [wr (.bytes [7, 8])])) b0 0x11 = 8 ∧
    bankByte (ran (.remoteWriteArrival 0) (wrig [wr (.red .or true 0x2100)] { bytes := [(0x11, 4)] })) b0 0x11 = 0x25 ∧
    (ran (.remoteWriteArrival 0) (wrig [nowhere])).acks.map (·.refused) = [some 1] ∧
    (ran (.remoteWriteArrival 0) (wrig [wr (.bytes [7])] { tag := 2 })).acks.map (·.refused) = [some 3] ∧
    (ran (.remoteWriteArrival 0) (wrig [wr (.bytes [7])] { shadow := some b1 })).acks = [] ∧
    bankByte (ran (.heldWriteApply b0 0) (wrig [] { held := [wr (.nibble 5 true)], bytes := [(0x10, 0x12)] })) b0 0x10 = 0x52 ∧
    ((ran (.storeAck 0 false) (wrig [] {} [{ core := c0, ctx := 0, addr := 9, refused := some 3 }])).core c0).refusals = { count := 1, info := 3, addr := 9 } ∧
    ((ran (.storeAck 0 false) (wrig [] {} [{ core := c0, ctx := 0, addr := 9, refused := some 3 }])).core c0).unacked = 0 := by decide
/-- A request of context 0 of core 0 for slot 0, offset 0x10. -/
def fr (k : FKind) : FReq := { id := 5, core := c0, ctx := 0, fid := 1, comp := 0, addr := 0x8000000000000010, dest := .x 6, kind := k }
def inc : Instr := .fadd (.x 6) (.x 5) (.x 9) ⟨true, false, false, .core⟩
def frig (l : List FReq) (r : List FResp) (b : Bank := { bytes := [(0x10, 0x80)] }) : State := { rig { wait := .fabric 5 } {} b with freqs := l, fresps := r }
/-- An envelope of offsets 0 to 0x40 of which nothing has landed. -/
def unlanded : Bank := { bytes := [(0x10, 0x80)], wmOpen := true, wmW := 0, wmStart := 0, wmEnd := 0x40 }
/-- Witness of FabricTrafficAtItsBank: an empty slot; a load that waits for a landing; a load; an atomic; a value and a fault that come back. -/
theorem witness_fabric_accesses :
    (∀ w ∈ (frig [fr (.load 1 true)] []).fwrites, w.src ≠ c0) ∧ (fr (.load 1 true)).bound = none ∧
    State.reaches (frig [fr (.load 1 true)] []) c0 ((frig [fr (.load 1 true)] []).portDie c0 (fr (.load 1 true)).addr) = true ∧
    ((frig [fr (.load 1 true)] [] unlanded).bank b0).wmOpen = true ∧ ((frig [fr (.load 1 true)] [] unlanded).bank b0).wmW ≤ 0x10 ∧
    0x10 < ((frig [fr (.load 1 true)] [] unlanded).bank b0).wmEnd ∧ bankOf (frig [] []) c0 0x8000000000050010 = none ∧
    bankOf (frig [] []) c0 (fr (.load 1 true)).addr = some b0 ∧ tagOpen (frig [] []) 0 b0 ∧ calm (frig [] []) b0 = true ∧
    loadWord 1 true (bankByte (frig [] []) b0) 0x10 = some 0xFFFFFFFFFFFFFF80 ∧
    atomShape inc = some (.x 6, [.x 5, .x 9], ⟨true, false, false, .core⟩) ∧ unprotected (frig [] []) b0 = true ∧
    Memory.wf ((frig [] []).bank b0).bytes = true ∧ ((frig [] []).ctx c0 0).fid = 1 ∧ ((frig [] []).ctx c0 0).wait = .fabric 5 :=
  ⟨by decide, rfl, by decide, rfl, by decide, by decide, by decide, by decide, .inl (by decide), by decide, by decide, rfl, by decide, by decide, rfl, rfl⟩
/-- R186, R248, R270. -/
theorem test_fabric_accesses :
    (ran (.fabricAccessArrival 0) (frig [fr (.load 1 true)] [])).fresps.map (·.value) = [0xFFFFFFFFFFFFFF80] ∧
    (ran (.fabricAccessArrival 0) (frig [fr (.load 1 true)] [] unlanded)).freqs.map (·.bound) = [some b0] ∧
    (ran (.fabricAccessArrival 0) (frig [fr (.rmw inc ⟨true, false, false, .core⟩ 2)] [])).fresps.map (·.value) = [0x80] ∧
    bankByte (ran (.fabricAccessArrival 0) (frig [fr (.rmw inc ⟨true, false, false, .core⟩ 2)] [])) b0 0x10 = 0x82 ∧
    ((ran (.fabricLoadReturn 0) (frig [] [{ req := fr (.load 1 true), value := 9, fault := none }])).ctx c0 0).wait = .value 9 ∧
    ((ran (.fabricLoadReturn 0) (frig [] [{ req := fr (.load 1 true), value := 0, fault := some (7, 0) }])).ctx c0 0).wait = .failed 7 0 0x8000000000000010 := by
  decide
/-- Both stages map the gigabyte at global 2^32, and stage 2 the one at 0, to HBM from address 0; the gigabyte at 5 * 2^30 goes
through intermediate 2^30 to host memory from 2^51: tables at 0x1000, 0x2000, 0x3000. -/
def tables : List Host.Cell :=
  [(0x1000, 1), (0x1001, 0x20), (0x2000, 1), (0x2001, 0x30), (0x3000, 0x73), (0x3008, 0x73), (0x300E, 8), (0x3020, 0x73), (0x3028, 0x73), (0x302B, 0x40)]
def giga : TlbEntry := { part := 0, root := 1, va := 0x100000000, size := 2 ^ 30, pa := 0, rd := true, w := true, xe := true, sv := false, tag := 0, peer := false }
def hreq : HReq := { id := 8, core := c0, ctx := 0, fid := 1, pa := 2 ^ 51 + 8, size := 4, dest := .x 6, kind := .load 4 false }
/-- Rank r of the die at site r; a clean line of a slice; the lines of the tables. -/
def flat (d : Die) : Die := { d with slicemap := (List.range 128).map fun i => (i, i) }
def clean (n : Nat) : L2Line := { line := n, dirty := [], uc := 0, dead := false, comp := 0 }
def tabs : List L2Line := [clean 0x40, clean 0x80, clean 0xC0, clean 0xC1]
def xrig (d : Die) (w : Wait := .none) (ups : List Update := [{ addr := 0x20000, op := .maxI, w64 := true, val := 9, fid := 1 }]) : State :=
  { rig { wait := w } {} with
    cores := [(c0, { ctxs := [(0, { running := true, fid := 1, wait := w })], ptbase := 0x1001, updates := ups })]
    parts := [(0, { defined := true, clusters := [n0, n1], run := .running, ctx := some 0, s1root := 1, s2root := 0x1000, roster := [{ modul := 2, rpart := 3, w := true, rd := true, v := true }] })]
    mem := tables ++ [(0x20000, 5)], dies := [(0, flat d)], hreqs := [hreq], rtime := 1000000 }
def line800 : L2Line := { clean 0x800 with dirty := [(0, 6), (3, 1)] }
/-- A load's request for the line of 0x20000, and an atomic's. -/
def asksLoad : LineReq := { who := .pipe c0 0, want := .value (.load 4 false) false, id := 3, fid := 1, pa := 0x20000, uc := 2 }
def asksAdd : LineReq := { asksLoad with want := .value (.rmw inc ⟨true, false, false, .core⟩ 2) true }
def miss800 (r : LineReq) : Miss := { line := 0x800, rank := 4, comp := 0, reqs := [r] }
def missing (r : LineReq) : State := xrig { misses := [miss800 r] } (.line 3) []
def walk0 : Walk := { core := c0, who := .pipe c0 0, fid := 1, part := 0, root := 0x1001, va := 0x100000000 }
/-- A walk of an address that no table maps. -/
def lost0 : Walk := { walk0 with va := 0x200000000 }
/-- Witness of CachesAndWalks. -/
theorem witness_caches :
    ((xrig {}).core c0).updatesOn 0x800 = [{ addr := 0x20000, op := .maxI, w64 := true, val := 9, fid := 1 }] ∧ goodHbm (xrig {}) 0x20000 8 = true ∧
    (xrig {}).recallable 0x800 = true ∧ (xrig {}).lineFree 0x800 = true ∧ redValue .maxI (le8 (xrig {}).memByte 0x20000) 9 = some 9 ∧
    (xrig { l2 := [line800] }).l2Find 0x800 = some line800 ∧ line800.dirty ≠ [] ∧ ((xrig { l2 := [line800] }).die (homeDie 0x800)).fenced = false ∧
    Memory.wf (xrig {}).mem = true ∧ (xrig {}).lineOwner 0x800 = none ∧ ((xrig { walks := [walk0], l2 := tabs }).die 0).walks = walk0 :: [] ∧
    (xrig {} (.host 8)).hreqs = hreq :: [] ∧ loadWord 4 false (fun i => [1, 2, 3, 4].getD i 0) 0 = some 0x04030201 ∧
    ((xrig {} (.host 8)).ctx c0 0).wait = .host 8 := by
  decide +kernel
theorem witness_miss (r : LineReq) (h : r = asksLoad ∨ r = asksAdd) :
    ((missing r).die 0).fenced = false ∧ ((missing r).die 0).misses = miss800 r :: [] ∧ ((missing r).die 0).overflow = [] ∧
    homeDie 0x800 = 0 ∧ r.pa / 64 = 0x800 ∧ (missing r).l2Find 0x800 = none ∧ (missing r).servable (miss800 r) = true ∧
    plainHbm (missing r) (64 * 0x800) 64 ∧ ((missing r).core c0).l1Find 0x800 = none ∧ ((missing r).ctx c0 0).wait = .line 3 ∧
    loadWord 4 false (missing r).memByte 0x20000 = some 5 := by
  rcases h with rfl | rfl <;> exact ⟨rfl, rfl, rfl, by decide, by decide, rfl, by decide +kernel, ⟨by decide +kernel, rfl, by decide +kernel, by decide⟩, rfl, rfl, by decide +kernel⟩
theorem others_update_nothing (d : CoreId) (h : d ≠ c0) : ((xrig {}).core d).updatesOn 0x800 = [] := by
  have : (xrig {}).core d = {} := by
    simp only [State.core, xrig, rig, Tab.getD, Tab.find]
    split <;> simp_all
  rw [this]; rfl
/-- A walk's answer, translation or fault, and the lines it has missed. -/
def walkAnswer (w : Walk) (s : State) : Except TransErr TlbEntry × List Nat :=
  let m := walkBoth (s.viaOf w.core) (s.part w.part).s2root w.root w.part w.va
  (answer m s, (traces m s).missed)
def walking (w : Walk) (ls : List L2Line) : State := xrig { walks := [w], l2 := ls }
/-- Witness of CachesAndWalks: a walk that ends in a translation, one that ends in a fault, one whose tables are missed. -/
theorem witness_walk : (walkAnswer walk0 (xrig { l2 := tabs })).1.toOption = some giga ∧ (walkAnswer walk0 (xrig { l2 := tabs })).2 = [] ∧
    (match (walkAnswer lost0 (xrig { l2 := tabs })).1 with
      | .error f => f
      | .ok _ => (0, 0)) = (5, 2) ∧ (walkAnswer lost0 (xrig { l2 := tabs })).2 = [] ∧
    (walkAnswer walk0 (xrig {})).2 ≠ [] ∧ (∀ l ∈ (walkAnswer walk0 (xrig {})).2, (xrig {}).l2Ready l = false ∧ isHbm (64 * l) = true) ∧
    (xrig { l2 := tabs }).missed = [] ∧ ((walking lost0 tabs).ctx c0 0).fid = lost0.fid := by decide +kernel
/-- R234, R236, R239-R241: a walk whose tables are missed asks for them and stays. -/
theorem test_caches : (ran (.redMerge 0x800) (xrig {})).memByte 0x20000 = 9 ∧ ((ran (.redMerge 0x800) (xrig {})).core c0).updates = [] ∧
    ((ran (.l2MissFill 0 4) (missing asksLoad)).l2Find 0x800).map (·.uc) = some 2 ∧ ((ran (.l2MissFill 0 4) (missing asksLoad)).ctx c0 0).wait = .value 5 ∧
    (ran (.l2MissFill 0 4) (missing asksAdd)).memByte 0x20000 = 7 ∧
    cellGet (ran (.l2Writeback 0x800 false) (xrig { l2 := [line800] })).mem 0x20003 = 1 ∧
    (ran (.l2Writeback 0x800 true) (xrig { l2 := [line800] })).memByte 0x20000 = 5 ∧
    ((ran (.tableWalk 0 0) (walking walk0 tabs)).core c0).tlb = [giga] ∧ ((ran (.tableWalk 0 0) (walking lost0 tabs)).ctx c0 0).walkFail = some (5, 2) ∧
    ((ran (.tableWalk 0 0) (walking walk0 [])).die 0).walks = [walk0] ∧ ((ran (.tableWalk 0 0) (walking walk0 [])).die 0).misses.map (·.line) = [0xC0, 0x80, 0x40] ∧
    ((ran (.hostReadCompletion 0 [1, 2, 3, 4]) (xrig {} (.host 8))).ctx c0 0).wait = .value 0x04030201 ∧
    (ran (.hostReadCompletion 0 [1, 2, 3, 4]) (xrig {} (.host 8))).memByte (2 ^ 51 + 9) = 2 := by decide +kernel
/-- Port 1 of the module; the lines of the tables and of 0x20000 stand in their slices. -/
def ported (p : Port) : State := { xrig { l2 := tabs ++ [clean 0x800] } with cores := [], ports := [(1, p)] }
/-- Witness of PeerPorts: a roster entry and none; a page; links up, down and long down. -/
theorem witness_peer : (ported {}).powered = true ∧ ((ported {}).port 1).up = true ∧ ((ported {}).part 0).admits 2 3 true = true ∧
    ((ported {}).part 0).admits 2 4 true = false ∧ (State.peerPage 0 1 true 0x20000 (ported {})).1 = some 0x20000 ∧
    (State.peerPage 0 1 false 0x20000 (ported {})).1 = some 0x20000 ∧ 0x20000 % 65536 + 2 ≤ 65536 ∧ plainHbm (ported {}) 0x20000 2 ∧
    ((ported {}).peerWriteIn 1 2 3 0 0x20000 [8, 9]).missed = [] ∧ ((ported {}).peerNibbleIn 1 2 3 0 0x20000 8 true).missed = [] ∧
    ((ported {}).peerReadIn 1 2 3 0 0x20000 2).missed = [] ∧ (ported {}).missed = [] ∧ ((ported {}).part 0).admits 2 4 false = false ∧
    ((ported { up := false, down := some 0 }).port 1).up = false ∧ ((ported { up := false, down := some 0 }).port 1).refuse = false ∧
    0 + 1000000 ≤ (ported { up := false, down := some 0 }).rtime := by
  refine ⟨rfl, rfl, rfl, rfl, ?_, ?_, by decide, ⟨?_, rfl, by decide, by decide⟩, ?_⟩ <;> decide +kernel
/-- A turn of the model's own, after which there is a next state. -/
def turned (o : Host.Outcome State Fault Refusal) : State :=
  match o with
  | .next t => t
  | _ => State.reset
/-- R246, R336, R337, R430. -/
theorem test_peer : (ran (.peerIngressWrite 1 2 3 0 0x20000 [8, 9] false) (ported {})).memByte 0x20001 = 9 ∧
    (ran (.peerIngressWrite 1 2 3 0 0x20000 [8, 9] false) (ported {})).outside = [.peerAck 1 true] ∧
    (ran (.peerIngressWrite 1 2 4 0 0x20000 [8, 9] false) (ported {})).outside = [.peerAck 1 false] ∧
    (turned (turnExec (.peerNibble 1 2 3 0 0x20000 8 true) (ported {}))).memByte 0x20000 = 0x85 ∧
    (turned (turnExec (.peerRead 1 2 3 0 0x20000 2) (ported {}))).outside = [.peerData 1 (some [5, 0])] ∧
    ((ran (.peerLinkDown 1) (ported {})).port 1).down = some 1000000 ∧
    ((ran (.peerLinkDown 1) (ported { up := false, down := some 0 })).port 1).refuse = true ∧
    ((ran (.linkTrainingReturns 1) (ported { up := false, down := some 0 })).port 1).up = true := by decide +kernel

/-! ## The host interface and Lantern -/

/-- A started module with queue 1 of function 0 and one gigabyte of stage 2, given a mailbox command. -/
def lrig (l : Lantern) (q : Queue := {}) (h : List Host.Cell := []) (started : Bool := true) : State :=
  { State.reset with
    queues := [((0, 1), q)], funcs := [(0, { count := 5 })], rtime := 2000000, cycle := 7
    lantern := { l with started := started }
    parts := [(0, { defined := true, clusters := [n0, n1], ctx := some 0, s1root := 1, s2root := 0x1000 })]
    dies := [(0, flat { l2 := tabs ++ [clean 0x800] })], mem := tables ++ [(0x20000, 5)] ++ h }
/-- Witness of HostRegistersAndBar2: a function that is there and two that are not; a ring enabled and not; a sealed notify
reached, early and late. -/
theorem witness_host : present (lrig {}) 0 ∧ present (lrig {}) 127 ∧ ¬present (lrig {} {} [] false) 1 ∧ ¬present (lrig {}) 128 ∧
    ((lrig {}).queue 0 1).log2n = 0 ∧ ((lrig {} { log2n := 4 }).queue 0 1).log2n ≠ 0 ∧ (lrig {}).lantern.cmd = none ∧
    (lrig {}).lantern.started = true ∧ reached (lrig {}) 0 5 = true ∧ reached (lrig {}) 0 6 = false ∧
    ((lrig {} { sealed := some (3, 6, 1000000) }).queue 0 1).sealed = some (3, 6, 1000000) ∧
    1000000 + 1000000 ≤ (lrig {} { sealed := some (3, 6, 1000000) }).rtime := by
  refine ⟨⟨rfl, .inl rfl⟩, ⟨rfl, .inr ⟨rfl, by decide⟩⟩, ?_, ?_, by decide⟩
  · rintro ⟨-, h | ⟨h, -⟩⟩ <;> cases h
  · rintro ⟨-, h | ⟨-, h⟩⟩ <;> omega
/-- R315, R331, R332, R417. -/
theorem test_host : ((ran (.qctlWrite 0 1 0x2040004) (lrig {} { tail := 3, head := 3 })).queue 0 1) = { irq := true, vec := 1, log2n := 4 } ∧
    ((ran (.qctlWrite 0 1 5) (lrig {} { log2n := 4, tail := 3 })).queue 0 1).log2n = 4 ∧
    (ran (.registerWrite 0 0x80008 0x3FF) (lrig {})).prcmd = 0x37F ∧
    ((ran (.plainNotify 0 1 9) (lrig {} { tail := 3 })).queue 0 1).tail = 9 ∧ ((ran (.plainNotify 0 1 2) (lrig {} { tail := 3 })).queue 0 1).tail = 3 ∧
    ((ran (.sealedNotify 0 1 0x600000009) (lrig {})).queue 0 1).sealed = some (9, 6, 2000000) ∧
    ((ran (.notifyTimeout 0 1) (lrig {} { sealed := some (9, 6, 1000000) })).func 0).fnerr = 0x900040301 := by decide
/-- Witness of HostRegistersAndBar2: an address that reaches HBM, and one above it. -/
theorem witness_bar2 : 0x20000 % 65536 + [1, 2].length ≤ 65536 ∧
    plainHbm (lrig {}) ((((lrig {}).func 0).wbase.extractLsb' 36 16).toNat * 2 ^ 36 + 0x20000) 2 ∧ isDeviceTop 0x20000 = false ∧
    ((lrig {}).bar2Write 0 0x20000 [1, 2]).missed = [] ∧ ((lrig {}).bar2Read 0 0x20000 2).missed = [] ∧ (lrig {}).missed = [] ∧
    2 ^ 40 ≤ (((ran (.registerWrite 0 0x018 0x10000000000) (lrig {})).func 0).wbase.extractLsb' 36 16).toNat * 2 ^ 36 := by
  refine ⟨by decide, ⟨?_, rfl, by decide, by decide⟩, ?_⟩ <;> decide +kernel
/-- R329, R330, R418. -/
theorem test_bar2 : (ran (.bar2Write 0 0x20000 [1, 2]) (lrig {})).memByte 0x20001 = 2 ∧ ((ran (.bar2Write 0 0x20000 [1, 2]) (lrig {})).func 0).count = 7 ∧
    (ran (.bar2Read 0 0x20000 2) (lrig {})).outside = [.readData 0 0x20000 (some [5, 0])] ∧
    ((ran (.bar2Read 0 0x20000 2) (ran (.registerWrite 0 0x018 0x10000000000) (lrig {}))).func 0).fnerr = 0x200000000401 := by decide +kernel
/-- A firmware image of the loader, one byte long, in host memory. -/
def firmware : List Host.Cell :=
  [(2 ^ 51, 0x5A), (2 ^ 51 + 1, 0x46), (2 ^ 51 + 2, 0x57), (2 ^ 51 + 3, 0x4D), (2 ^ 51 + 4, 1), (2 ^ 51 + 12, 1)]
def loads : Lantern := { cmd := some 1, cargs := [0, 449] }
def others : List FwImage := [2, 3, 4, 5, 6, 7, 8].map fun i => { target := i, version := 0, bytes := [] }
def power (k a b : W64) : State := lrig { cmd := some 0x20, cargs := [k, a, b] }
def gated5 : State := { power 2 5 0 with clusters := [(⟨0, 5⟩, { gated := true })] }
/-- Witness of LanternBringUpAndPower: off and on; an image in form and one not, whatever its verification says; START before and
after the others; each POWER kind; FAULTWIN and CHKPT; a summary. -/
theorem witness_lantern :
    ({ lrig {} with powered := false } : State).powered = false ∧ Memory.wf (lrig {}).mem = true ∧
    (running (lrig loads {} firmware false) 0x01 ∧ (lrig loads {} firmware false).lantern.started = false ∧ (argument (lrig loads) 1).toNat ≤ 448 + 2 ^ 24) ∧
    imageOk ((lrig loads {} firmware false).memRead (2 ^ 51 + (argument (lrig loads) 0).toNat % 2 ^ 51) 449) = true ∧
    fieldAt ((lrig loads {} firmware false).memRead (2 ^ 51 + (argument (lrig loads) 0).toNat % 2 ^ 51) 449) 4 2 = 1 ∧
    imageOk ((lrig loads {} [] false).memRead (2 ^ 51) 449) = false ∧
    running (lrig { cmd := some 2 } {} [] false) 0x02 ∧ (∀ i, i < 7 → (lrig { cmd := some 2, images := others }).lantern.images.any (fun j => j.target = i + 2) = true) ∧
    (∃ i, i < 7 ∧ (lrig { cmd := some 2 }).lantern.images.any (fun j => j.target = i + 2) = false) ∧
    powers (power 1 0 3) 1 ∧ powers (power 2 5 1) 2 ∧ powers (power 3 3 1) 3 ∧ powers (power 4 5 1) 4 ∧ powers (power 5 0 50) 5 ∧
    (∀ e ∈ (power 2 5 1).parts, e.2.run = .running → (⟨0, 5⟩ : SiteId) ∉ e.2.clusters) ∧ (∀ q ∈ (power 2 5 1).spans, (⟨0, 5⟩ : SiteId) ∉ q.sites) ∧
    (∀ l ∈ (power 2 5 1).launches, l.merge ≠ some ⟨0, 5⟩) ∧ powers (power 2 5 0) 2 ∧ ((power 2 5 0).cluster ⟨0, 5⟩).gated = false ∧
    (gated5.cluster ⟨0, 5⟩).gated = true ∧ powers gated5 2 ∧
    (∀ e ∈ (power 3 3 1).parts, e.2.run ≠ .running) ∧ ((power 3 3 1).die 1).l2 = [] ∧
    ((power 4 5 1).strait 0).lanes[5]? = some { dir := .toHi } ∧
    running (lrig { cmd := some 0x21, cargs := [1, 65535] }) 0x21 ∧ running (lrig { cmd := some 0x22, cargs := [0] }) 0x22 ∧
    ((lrig {}).part 0).pre = none ∧ ((lrig {}).part 0).ctx ≠ none ∧ (lrig { sumGo := true }).lantern.sumGo = true := by
  refine ⟨by decide, by decide, ⟨⟨by decide, by decide, by decide⟩, by decide, by decide⟩, by decide +kernel, by decide +kernel, by decide +kernel,
    ⟨by decide, by decide, by decide⟩, by decide, ⟨0, by decide⟩, ⟨⟨rfl, rfl, fun _ => rfl⟩, rfl⟩, ⟨⟨rfl, rfl, fun _ => rfl⟩, rfl⟩,
    ⟨⟨rfl, rfl, fun _ => rfl⟩, rfl⟩, ⟨⟨rfl, rfl, fun _ => rfl⟩, rfl⟩, ⟨⟨rfl, rfl, fun _ => rfl⟩, rfl⟩, by decide, by decide, by decide,
    ⟨⟨rfl, rfl, fun _ => rfl⟩, rfl⟩, by decide, by decide, ⟨⟨rfl, rfl, fun _ => rfl⟩, rfl⟩, by decide, by decide, by decide,
    ⟨rfl, rfl, fun _ => rfl⟩, ⟨rfl, rfl, fun _ => rfl⟩, by decide, by decide, by decide⟩
theorem witness_verify (b : List Byte) : imageVerified b = true ∨ imageVerified b = false := by cases imageVerified b <;> simp
/-- R18, R365, R369, R370, R386. -/
theorem test_lantern : (ran .powerOff (lrig {} {} [(2 ^ 51, 3)])).memByte 0x20000 = 0 ∧ (ran .powerOff (lrig {} {} [(2 ^ 51, 3)])).memByte (2 ^ 51) = 3 ∧
    (ran .start (lrig { cmd := some 2 } {} [] false)).lantern.result = 3 ∧ (ran .start (lrig { cmd := some 2, images := others } {} [] false)).master = some 0 ∧
    (ran .create (lrig { cmd := some 0x10 } {} [] false)).lantern.result = 5 ∧ ((ran .clockStep (power 1 0 3)).die 0).clock = 3 ∧
    (ran .clockStep (power 1 8 3)).lantern.result = 3 ∧ ((ran .clusterGate (power 2 5 1)).cluster ⟨0, 5⟩).gated = true ∧ ((ran .clusterGate gated5).cluster ⟨0, 5⟩).gated = false ∧
    ((ran .hbmSelfRefresh (power 3 3 1)).die 1).refresh1 = true ∧ ((ran .straitIdle (power 4 5 1)).strait 0).lanes[5]? = some { dir := .toHi, idle := true } ∧
    ((ran .allowance (power 5 0 50)).die 0).allow = 50 ∧ (ran .allowance (power 5 0 49)).lantern.result = 3 ∧
    (ran .faultwin (lrig { cmd := some 0x21, cargs := [1, 65535] })).lantern.thresh = 65535 ∧
    ((ran .chkpt (lrig { cmd := some 0x22, cargs := [0] })).part 0).pre = some { mode := .checkpoint, why := .chkpt } := by decide +kernel
/-- A mailbox command of a world, its arguments; compartments 63 and 2 of world 5 are in use. -/
def both : List World := [{ world5 with comps := world5.comps ++ [(2, { meas := [], key := 3 })] }]
def world (code : Nat) (args : List W64) (ws : List World := both) (h : List Host.Cell := []) : State :=
  lrig { cmd := some code, cargs := args, worlds := ws } {} h
theorem zeros {s : State} {n : Nat} (h : ∀ i, i < 6 → n ≤ i → argument s i = 0) (i : Nat) (a : n ≤ i) (b : i < 6) : argument s i = 0 := h i b a
/-- The world commands of partition 0, world 5, compartment 2, in form: ASSIGN of 0x40000, IMPORT of 0x1A1 bytes to it. -/
def assigns : State := world 0x12 [0, 0x205, 0x40000, 65536, 0]
def imports : State := world 0x13 [0, 0x205, 0, 0x1A1, 0x40000] both [(2 ^ 51 + 0x18C, 1)]
/-- The page belongs to compartment 2 of world 5. -/
def ownedPage : State := world 0x13 [0, 0x205, 0, 0x1A1, 0x40000] both [(ownerAddr 0x40000, 2), (ownerAddr 0x40000 + 1, 5), (2 ^ 51 + 0x18C, 1)]
theorem witness_owned : (ownedPage.worldPage 0 0x40000).1 = some 0x40000 ∧ (ownedPage.worldPage 0 0x40000).2.ownerEntry 0x40000 = 0x502 ∧
    Memory.wf (ownedPage.worldPage 0 0x40000).2.mem = true ∧ (ownedPage.worldPage 0 0x40000).2.missed = [] ∧
    0x1A1 = 0x1A0 + fieldAt ((ownedPage.worldPage 0 0x40000).2.memRead (2 ^ 51) 0x1A1) 0x18C 4 := by decide +kernel
/-- Witness of WorldCommands. -/
theorem witness_worlds :
    (running (world 0x10 [0, 5]) 0x10 ∧ worldForm (world 0x10 [0, 5]) 0 0 2 ∧ (∃ w ∈ (world 0x10 [0, 5]).lantern.worlds, w.part = 0) ∧
      ∀ w ∈ (world 0x10 [0, 5] []).lantern.worlds, w.part ≠ 0 ∧ w.num ≠ 5) ∧
    (worldForm (world 0x11 [0, 0x105]) 1 62 2 ∧ inUse (world 0x11 [0, 0x105]) 63 ∧ ¬inUse (world 0x11 [0, 0x105]) 1 ∧ inUse (world 0x11 [0, 0x205]) 2 ∧
      compNo (world 0x11 [0, 0x205]) = 2) ∧
    (worldForm assigns 1 63 5 ∧ assigns.partRuns 0 = false ∧ (assigns.worldPage 0 0x40000).1 = some 0x40000 ∧
      (assigns.worldPage 0 0x40000).2.missed = [] ∧ assigns.missed = [] ∧ (assigns.worldPage 0 0x40000).2.ownerEntry 0x40000 < 256) ∧
    (worldForm imports 1 63 5 ∧ (imports.worldPage 0 0x40000).1 = some 0x40000 ∧ (imports.worldPage 0 0x40000).2.missed = [] ∧
      Memory.wf (imports.worldPage 0 0x40000).2.mem = true ∧ (imports.worldPage 0 0x40000).2.ownerEntry 0x40000 ≠ 0x502 ∧
      imports.memRead (2 ^ 51 + 0x18C) 4 = [1, 0, 0, 0]) ∧
    (worldForm (world 0x14 [0, 0x205]) 1 63 2 ∧ (world 0x14 [0, 0x205]).departRuns 0 2 = false ∧ (world 0x14 [0, 0x205]).departCopies 0 2 = false) ∧
    ((world 0x18 [5, 0xFF]).lantern.worlds.find? fun w => w.num = (argument (world 0x18 [5, 0xFF]) 0).toNat).isSome = true ∧
    ((world 0x18 [5, 0xFF]).compsRunning 0).2.missed = [] := by
  refine ⟨⟨⟨rfl, rfl, fun _ => rfl⟩, ⟨by decide, by decide, by decide, by decide, by decide, zeros (by decide)⟩, ⟨_, List.mem_cons_self, rfl⟩, nofun⟩,
    ⟨⟨by decide, by decide, by decide, by decide, by decide, zeros (by decide)⟩, ⟨_, rfl, by decide⟩, ?_, ⟨_, rfl, by decide⟩, by decide⟩,
    ⟨⟨by decide, by decide, by decide, by decide, by decide, zeros (by decide)⟩, by decide +kernel⟩,
    ⟨⟨by decide, by decide, by decide, by decide, by decide, zeros (by decide)⟩, by decide +kernel⟩,
    ⟨⟨by decide, by decide, by decide, by decide, by decide, zeros (by decide)⟩, by decide, by decide⟩, by decide, by decide +kernel⟩
  rintro ⟨w, h, k⟩
  cases h
  exact k (by decide)
theorem witness_unwrap (k : Nat) (aad b : List Byte) : importPlain k aad b = none ∨ ∃ pt, importPlain k aad b = some pt := by
  cases importPlain k aad b <;> simp
/-- R353, R357, R366, R429, R439. -/
theorem test_worlds : (ran .create (world 0x10 [0, 5])).lantern.result = 3 ∧ (ran .create (world 0x10 [0, 5] [])).lantern.worlds.map (·.num) = [5] ∧
    (ran .assign assigns).ownerEntry 0x40000 = 0x502 ∧
    (ran .assign assigns).lantern.result = 0 ∧
    (ran .importCmd imports).lantern.result = 3 ∧
    (ran .depart (world 0x14 [0, 0x205])).lantern.worlds.map (fun w => w.comps.map (·.1)) = [[63]] ∧
    (ran .evidence (world 0x18 [5, 9])).lantern.result = 3 := by decide +kernel

/-! ## Partitions, launches, pre-emption, failures -/

/-- The record of partition 1 at 0x50400: defined, four contexts' worth of CTL zero, cluster map byte 0 given. -/
def record1 (m : Byte) : List Host.Cell := [(0x50400, 1), (0x50418, 9)] ++ (if m = 0 then [] else [(0x50420, m)])
def asking (op : BitVec 2) (p : BitVec 7) (m : Byte) (r : RunSt := .never) (c : Option Nat := none) : State :=
  { State.reset with
    prbase := 0x50000, prcmd := 0#54 ++ op ++ 0#1 ++ p, rtime := 77, lantern := { started := true }, mem := record1 m
    parts := [(0, { defined := true, clusters := [n0, n1] }), (2, { defined := true, run := r, ctx := c, haltCtx := 3, slmode := true })] }
/-- Witness of PartitionOperations: a record that names a cluster of another, one that names a free one, RUN of an undefined
partition, of one that runs, of one that has never run; HALT of each. -/
theorem witness_partitions :
    asked (asking 1 1 1) 1 ∧ named (asking 1 1 1) = 1 ∧ windowsMade (asking 1 1 4) ∧ windowsMade (asking 2 2 0) ∧ (recordByte (asking 1 1 1) 0).getLsbD 0 = true ∧
    ((asking 1 1 1).part 0).defined = true ∧ n0 ∈ ((asking 1 1 1).part 0).clusters ∧
    (recordByte (asking 1 1 1) (0x20 + 32 * n0.die + n0.site / 8)).getLsbD (n0.site % 8) = true ∧
    (asking 1 1 4).claimMeets 1 (recordClaim ((asking 1 1 4).recordBytes 1 1024)) = false ∧ ((asking 1 1 4).part 1).ctx = none ∧
    asked (asking 2 1 0) 2 ∧ ((asking 2 1 0).part 1).defined = false ∧ ((asking 2 2 0 .running (some 1)).part 2).ctx ≠ none ∧
    ((asking 2 2 0).part 2).defined = true ∧ ((asking 2 2 0).part 2).ctx = none ∧ (asking 2 2 0).images = [] ∧ ((asking 3 2 0).part 2).pre = none := by
  refine ⟨⟨by decide, by decide⟩, by decide, show 77 / 1000 ≤ 0 by decide, show 77 / 1000 ≤ 0 by decide, by decide +kernel, by decide, by decide, by decide +kernel, by decide +kernel, by decide, ⟨by decide, by decide⟩, ?_⟩
  decide
/-- R325, R326, R338, R433: a cluster of another partition; site 2 joins; the context that HALT stopped comes back. -/
theorem test_partitions : ((ran .apply (asking 1 1 1)).func 0).fnerr = 0x100000701 ∧ ((ran .apply (asking 1 1 4)).part 1).clusters = [⟨0, 2⟩] ∧
    ((ran .apply (asking 1 1 4)).part 1).tslice = 9 ∧ (ran .apply (asking 1 1 4)).prcmd = 0 ∧ ((ran .run (asking 2 2 0)).part 2).ctx = some 0 ∧
    ((ran .run (asking 2 2 0 .halted)).part 2).ctx = some 3 ∧ (ran .halt (asking 3 2 0)).prcmd = 0 ∧
    ((ran .halt (asking 3 2 0 .running (some 1))).part 2).pre = some { mode := .drain, why := .halt } := by decide +kernel

def deskd : Desc := { desc0 with table := 0x140010000, ext := [0, 0, 0], slsz := [0, 0, 0] }
/-- A partition of two clusters, its tables, a master; launches and spans given. -/
def drig (l : List Launch) (sp : List Span) (f : Part → Part := id) (h : List Host.Cell := []) : State :=
  { State.reset with
    sites := [(n0, .enabled), (n1, .enabled)], cycle := 100, rtime := 5000000, master := some 0, lantern := { started := true }
    parts := [(0, f { defined := true, clusters := [n0, n1], run := .running, ctx := some 0, s1root := 0x1001, s2root := 0x1000, nctx := 2
                      tslice := 1000, quantum := 4, credits := [(2, 4)] })]
    launches := l, spans := sp, dies := [(0, flat { l2 := tabs ++ [clean 0x800] })], mem := tables ++ [(0x20000, 5)] ++ h }
def fresh : Launch := { launch9 with desc := deskd, next := 0, placedAny := false, prio := 2, eligible := some 0 }
def span7 : Span := { id := 7, launch := 9, part := 0, ctx := 0, slice := 0, sites := [n0, n1], started := true }
/-- A ring of 2 entries at global 5 * 2^30, that is host memory from 2^51; one entry of a kind stands in it, with bytes of its own. -/
def ring (k : Byte) (own : List Host.Cell) (l : List Launch := []) (base : W64 := 0x140000000) : State :=
  { drig l [] with queues := [((0, 3), { qbase := base, log2n := 1, tail := 1 })], mem := tables ++ [(0x20000, 5)] ++ ((0, k) :: own).map fun e => (2 ^ 51 + e.1, e.2) }
/-- TLSET and TLSIGNAL of 3 at 0x20000; a launch descriptor of one cluster with one wait. -/
def timeline : List Host.Cell := [(0xA, 2), (0xC, 1), (0x10, 3)]
def launching : List Host.Cell := [(0x5C, 0x81), (0x6C, 0x11)]
def wait9 : Launch := { fresh with eligible := none, sat := [false], desc := { deskd with nwait := 1, waits := [(0x100020000, 5)] } }
theorem ring_stands (k : Byte) (own : List Host.Cell) (l : List Launch) (base : W64) : entryStands (ring k own l base) 0 3 :=
  ⟨⟨rfl, nofun, rfl⟩, by decide, nofun, nofun, rfl, rfl⟩
/-- The 256 bytes of the entry, as host memory holds them. -/
def ringBytes (s : State) : List Byte := s.memRead (2 ^ 51) 256
/-- Witness of EntriesAndTimelines: no entry; a ring that cannot be read; a wait that is met; a first read that does not translate; a
launch that has grown old. -/
theorem witness_entries :
    ¬entryStands (drig [] []) 0 3 ∧
    ((ring 1 [] [] 0x300000000).masterRead 0 (((ring 1 [] [] 0x300000000).queue 0 3).qbase.toNat + 256 * entryIndex (ring 1 [] [] 0x300000000) 0 3) 256).1 = none ∧
    ((ring 1 [] [] 0x300000000).masterRead 0 0x300000100 256).2.missed = [] ∧ (drig [wait9] []).missed = [] ∧
    (drig [wait9] []).launch 9 = some wait9 ∧ (State.masterPage 0 true false 0x100020000 (drig [wait9] [])).1 = some 0x20000 ∧
    plainHbm (drig [wait9] []) 0x20000 8 ∧ ((drig [wait9] []).timelineRead 9 0).missed = [] ∧ ledBy (drig [wait9] []) ∧
    (le8 (drig [wait9] []).memByte 0x20000).toNat = 5 ∧ (State.masterPage 0 true false 0x300000000 (drig [wait9] [])).1 = none ∧
    (State.masterPage 0 true false 0x300000000 (drig [wait9] [])).2.missed = [] ∧ fresh.unplaced = true ∧
    fresh.agedAt + 2000000 ≤ (drig [fresh] []).rtime := by
  refine ⟨fun h => h.2.2.1 rfl, by decide +kernel, by decide +kernel, rfl, by decide +kernel, by decide +kernel,
    ⟨by decide +kernel, by decide, by decide, by decide⟩, by decide +kernel, ⟨rfl, nofun, rfl⟩, ?_⟩
  decide +kernel
theorem read_ring (k : Byte) (own : List Host.Cell) (l : List Launch)
    (h : State.masterPage 0 true false 0x140000000 (ring k own l) = (some (2 ^ 51), ring k own l)) :
    entryBytes (ring k own l) 0 3 (ringBytes (ring k own l)) (ring k own l) :=
  ⟨ring_stands _ _ _ _, masterRead_host _ 0 0x140000000 256 (2 ^ 51) h rfl (by decide) (by decide) (by decide) rfl, rfl⟩
/-- A timeline on an address that no table maps; the launch descriptor with a reserved bit set. -/
def badTimeline : List Host.Cell := [(0xA, 2), (0xC, 3), (0x10, 3)]
def reservedLaunch : List Host.Cell := [(0x10, 1)] ++ launching
/-- Witness of EntriesAndTimelines: each kind; an earlier launch that AFTER waits for. -/
theorem witness_kinds :
    (entryBytes (ring 4 []) 0 3 (ringBytes (ring 4 [])) (ring 4 []) ∧ fieldAt (ringBytes (ring 4 [])) 0 4 = 4) ∧
    (entryBytes (ring 1 reservedLaunch) 0 3 (ringBytes (ring 1 reservedLaunch)) (ring 1 reservedLaunch) ∧ entryReserved (ringBytes (ring 1 reservedLaunch)) = false) ∧
    (entryBytes (ring 2 timeline) 0 3 (ringBytes (ring 2 timeline)) (ring 2 timeline) ∧ entryReserved (ringBytes (ring 2 timeline)) = true ∧
      fieldAt (ringBytes (ring 2 timeline)) 8 8 = 0x100020000 ∧ (State.masterPage 0 true true 0x100020000 (ring 2 timeline)).1 = some 0x20000 ∧
      ((ring 2 timeline).takeEntry 0 3).missed = []) ∧
    (entryBytes (ring 2 badTimeline) 0 3 (ringBytes (ring 2 badTimeline)) (ring 2 badTimeline) ∧ entryReserved (ringBytes (ring 2 badTimeline)) = true ∧
      (State.masterPage 0 true true (fieldAt (ringBytes (ring 2 badTimeline)) 8 8) (ring 2 badTimeline)).1 = none) ∧
    (entryBytes (ring 1 launching) 0 3 (ringBytes (ring 1 launching)) (ring 1 launching) ∧ entryReserved (ringBytes (ring 1 launching)) = true ∧
      descOk ((ringBytes (ring 1 launching)).drop 0x40) = true) ∧
    (entryBytes (ring 1 []) 0 3 (ringBytes (ring 1 [])) (ring 1 []) ∧ descOk ((ringBytes (ring 1 [])).drop 0x40) = false) ∧
    (entryBytes (ring 1 [(4, 1)] [{ fresh with queue := 3 }]) 0 3 (ringBytes (ring 1 [(4, 1)] [{ fresh with queue := 3 }])) (ring 1 [(4, 1)] [{ fresh with queue := 3 }]) ∧
      fieldAt (ringBytes (ring 1 [(4, 1)] [{ fresh with queue := 3 }])) 4 1 % 2 = 1) := by
  refine ⟨⟨read_ring _ _ _ ?_, ?_⟩, ⟨read_ring _ _ _ ?_, ?_⟩, ⟨read_ring _ _ _ ?_, ?_⟩, ⟨read_ring _ _ _ ?_, ?_⟩, ⟨read_ring _ _ _ ?_, ?_⟩,
    ⟨read_ring _ _ _ ?_, ?_⟩, ⟨read_ring _ _ _ ?_, ?_⟩⟩ <;> decide +kernel
/-- R316-R320: TLSET to 3 where 5 stands raises it no lower, TLSIGNAL writes; a valid launch is active and waits; errors 1, 2 and 8. -/
theorem test_entries : (ran (.takeEntry 0 3) (ring 2 timeline)).memByte 0x20000 = 5 ∧ (ran (.takeEntry 0 3) (ring 3 timeline)).memByte 0x20000 = 3 ∧
    ((ran (.takeEntry 0 3) (ring 1 launching)).launches.map fun l => (l.desc.nwait, l.eligible)) = [(1, none)] ∧
    ((ran (.takeEntry 0 3) (ring 4 [])).func 0).fnerr = 0xC0101 ∧ ((ran (.takeEntry 0 3) (ring 1 reservedLaunch)).func 0).fnerr = 0xC0201 ∧
    ((ran (.takeEntry 0 3) (ring 2 badTimeline)).func 0).fnerr = 0xC0801 ∧ ((ran (.takeEntry 0 3) (ring 4 [])).queue 0 3).head = 1 ∧
    ((ran (.timelineRead 9 0) (drig [wait9] [])).launch 9).map (·.sat) = some [true] ∧
    ((ran (.priorityAging 9) (drig [fresh] [])).launch 9).map (·.prio) = some 1 := by decide +kernel
/-- A span that has not started, one whose cores rest, and a merge message of a launch whose slice 0 is done. -/
def unstarted : Span := { span7 with started := false }
def unread : Launch := { launch9 with desc := { desc0 with table := 8 } }
def merging : Launch := { launch9 with merge := some n1, done := [0], mergeMsgs := [{ slice := 0, score := 3, msg := msg1, comp := 0 }] }
/-- Witness of PlacementAndSlices: too soon; a launch that fits; a program that reads and one that does not; cores at rest; a merge
message. -/
theorem witness_placement :
    ({ drig [fresh] [] with lastPlace := 69 } : State).cycle < 69 + 32 ∧ ledBy (drig [fresh] []) ∧ (drig [fresh] []).lastPlace + 32 ≤ (drig [fresh] []).cycle ∧
    fresh.eligible ≠ none ∧ fresh.unplaced = true ∧ 0 < (drig [fresh] []).credit 0 2 ∧
    (drig [fresh] [unstarted]).span 7 = some unstarted ∧ (drig [fresh] [unstarted]).launch 9 = some fresh ∧ ((drig [fresh] [unstarted]).part 0).pre = none ∧
    (drig [fresh] [unstarted]).tableComp 0 [] = some 0 ∧ ((drig [unread] [unstarted]).readProgram unread).1 = none ∧
    (∀ k ∈ coresOf span7, (drig [launch9] [span7]).coreRests k = true ∧ (drig [launch9] [span7]).storesRest k = true ∧
      (drig [launch9] [span7]).homeward k = true ∧ (drig [launch9] [span7]).active k = true) ∧
    (drig [merging] []).launch 9 = some merging ∧ (drig [merging] []).mergeSaved merging = false ∧ (drig [merging] []).active ⟨0, 1, 0⟩ = true ∧
    merging.mergeNext ∈ merging.done ∧ merging.mergeMsgs.length ≤ 2 ^ 32 := by
  refine ⟨by decide, ⟨rfl, nofun, rfl⟩, ?_⟩
  decide +kernel
/-- The program in host memory at 2^51 + 0x10000 holds nothing. -/
theorem read_program (s : State) (hm : s.mem = tables ++ [(0x20000, 5)]) (hd : s.dies = [(0, flat { l2 := tabs ++ [clean 0x800] })]) (hb : s.bad = [])
    (hs : s.master = some 0) (h0 : State.masterPage 0 true false 0x140010000 s = (some (2 ^ 51 + 0x10000), s))
    (h1 : State.masterPage 0 true false 0x140011000 s = (some (2 ^ 51 + 0x11000), s)) :
    s.readProgram fresh = (some { table := [], dir := [], images := [] }, s) := by
  have l2 : ∀ d l, 2 ^ 45 ≤ l → (s.die d).l2.find? (·.line = l) = none := by
    intro d l h
    simp only [State.die, hd, Tab.getD, Tab.find]
    split
    · have q : ∀ e ∈ (flat { l2 := tabs ++ [clean 0x800] }).l2, e.line ≤ 0x800 := by decide
      exact List.find?_eq_none.mpr fun e he => by have := q e he; simp; omega
    · rfl
  have z : ∀ a, 2 ^ 51 ≤ a → s.memByte a = 0 := by
    intro a h
    simp only [State.memByte, State.l2Find, l2 _ (a / 64) (by omega), hm, tables, cellGet, List.cons_append, List.nil_append]
    repeat (rw [if_neg (by omega)])
  have e : ∀ pa n, 2 ^ 40 ≤ pa → s.memError pa n = none := by
    intro pa n h
    simp [State.memError, isHbm, hb]
    omega
  have t1 := masterRead_host s 0 0x140010000 4096 _ h0 (by rw [hs]; rfl) (by decide) (by decide) (by decide) (e _ _ (by decide))
  have t2 := masterRead_host s 0 0x140011000 128 _ h1 (by rw [hs]; rfl) (by decide) (by decide) (by decide) (e _ _ (by decide))
  have p1 := parseTable_zeros _ (memRead_zeros s (2 ^ 51 + 0x10000) 4096 fun a h1 _ => z a (by omega))
  have p2 := parseDir_zeros _ (memRead_zeros s (2 ^ 51 + 0x11000) 128 fun a h1 _ => z a (by omega))
  unfold State.readProgram
  simp only [show fresh.desc.table.toNat = 0x140010000 from rfl, show fresh.part = 0 from rfl]
  rw [if_neg (by decide)]
  simp only [t1, t2, show 0x140010000 + 0x1000 = 0x140011000 from rfl, p1, p2, State.readImages, Option.map_some]
/-- Witness of PlacementAndSlices: a program that reads, at a span's start. -/
theorem witness_program : (drig [fresh] [unstarted]).readProgram fresh = (some { table := [], dir := [], images := [] }, drig [fresh] [unstarted]) :=
  read_program _ rfl rfl rfl rfl (by decide +kernel) (by decide +kernel)
/-- Witness of PlacementAndSlices: the attempt finds a place. -/
theorem witness_attempt : ∃ c, (State.attempt { drig [fresh] [] with lastPlace := 100 } fresh).2 = some c := by
  have h := read_program { drig [fresh] [] with lastPlace := 100 } rfl rfl rfl rfl (by decide +kernel) (by decide +kernel)
  have f : ({ drig [fresh] [] with lastPlace := 100 } : State).couldFit fresh 0 = true := by decide +kernel
  have k : ({ drig [fresh] [] with lastPlace := 100 } : State).placementCheck fresh = (.ok (0, 0), { drig [fresh] [] with lastPlace := 100 }) := by
    unfold State.placementCheck
    rw [h]
    simp only [show dirNeed [] = 0 from rfl, f]
    rfl
  refine Option.isSome_iff_exists.mp ?_
  unfold State.attempt
  rw [if_neg (by decide +kernel), k]
  decide +kernel
/-- Witness of PlacementAndSlices: a launch that has been tried before, and an attempt that misses no line. -/
def again : Launch := { fresh with tried := true }
theorem witness_placed : (State.attempt { drig [again] [] with lastPlace := 100 } again).2.isSome = true ∧ (drig [again] []).placement.missed = [] ∧
    (drig [again] []).missed = [] ∧ (drig [again] []).recheck = false ∧ (drig [again] []).images = [] ∧ ((drig [again] []).placement).spans.length = 1 := by
  decide +kernel
/-- R30, R32, R174, R398. -/
theorem test_placement : (ran (.spanStart 7) (drig [unread] [unstarted])).spans = [] ∧ (ran (.sliceComplete 7) (drig [launch9] [span7])).spans = [] ∧
    (ran (.mergeDelivery 9) (drig [merging] [])).engine.map (·.merged) = [true] := by decide +kernel

/-- The running context 0 has span 7 on the module; context 1 has an entry to take if asked; a pre-emption given. -/
def pre (r : Option PreReq) (busy : Bool) (img : List Image := []) : State :=
  { drig [launch9] [span7] (fun k => { k with pre := r, turnAt := 4000000 }) with
    queues := if busy then [((0, 3), { log2n := 1, tail := 1, ctx := 1 })] else [], images := img, windows := 5000
    cores := [(c0, { k := [(0, 5)], l1 := [{ line := 1, data := 0, uc := 0, dead := false, comp := 0 }], ctxs := [(0, { running := true, fid := 1, pc := 0x80 })] })] }
def tsl : PreReq := { mode := .immediate, why := .tslice }
/-- The stop is over, context 1 comes. -/
def held1 : PreReq := { tsl with stopped := true, coming := some 1 }
def hlt : PreReq := { mode := .drain, why := .halt }
def chk : PreReq := { mode := .checkpoint, why := .chkpt, stopped := true }
/-- An image of context 1 on cluster 0, which holds core 0 at PC 0x1234; one that fills the shadow stores of the cluster. -/
def image1 : Image :=
  { part := 0, ctx := 1, span := some 8, launch := 9, drained := false, urgent := none, tables := [], units := [(n0, 4)], banks := []
    cores := [(c0, { k := [(0, 6)], stopped := true, ctxs := [(0, { running := true, fid := 2, pc := 0x1234 })] })] }
def full1 : Image := { image1 with ctx := 2, units := [(n0, 48)] }
/-- A drain whose tokens are out and whose cores have come to rest. -/
def drained : State := { drig [launch9] [span7] (fun k => { k with pre := some { hlt with tokens := true } }) with windows := 5000 }
theorem covers (r : PreReq) (h : r.why = .tslice ∨ r.why = .halt ∨ r.why = .chkpt ∨ r.why = .urgentCtx 1 9) : covering r := by
  intro l n e; rw [e] at h; rcases h with h | h | h | h <;> cases h
/-- Witness of PreemptionAndExchange: a turn that is over with and without another busy context, and one that is not; a stop that
fits and one that does not; an exchange for HALT, for a context with and without an image; each step of a drain; a checkpoint; a
retry. -/
theorem witness_preemption :
    ((pre none true).part 0).turnAt + 1000 * ((pre none true).part 0).tslice ≤ (pre none true).rtime ∧ otherBusy (pre none true) 0 0 ∧
    ¬otherBusy (pre none false) 0 0 ∧ ({ pre none true with rtime := 4500000 } : State).rtime < 4000000 + 1000 * 1000 ∧
    stood (pre (some tsl) true) 0 span7 ∧ (∀ q, stood (pre (some tsl) true) 0 q → q.started = true) ∧ windowsMade (pre (some held1) true) ∧ windowsMade drained ∧
    (pre (some tsl) true).fits ((pre (some tsl) true).coveredSites 0 tsl) ((((pre (some tsl) true).comingCtx 0 tsl.why).map fun c => (pre (some tsl) true).incoming 0 c).getD []) false = true ∧
    (pre (some tsl) true [full1]).fits ((pre (some tsl) true [full1]).coveredSites 0 tsl) ((pre (some tsl) true [full1]).incoming 0 1) false = false ∧ (pre (some tsl) true [full1]).nextCtx 0 = some 1 ∧
    (pre none false).nextCtx 0 = none ∧
    (∀ k ∈ (pre (some held1) true).coveredCores 0 held1, (pre (some held1) true).sliceRests k = true ∧ (pre (some held1) true).homeward k = true) ∧
    (pre (some held1) true [image1]).canReturn image1 = true ∧ image1.bad = false ∧ image1.drained = false ∧
    (pre (some held1) true).atRest ((pre (some held1) true).coveredCores 0 held1) = true ∧
    (pre (some held1) true).nextCtx 0 = some 1 ∧ (pre (some held1) true).incoming 0 1 = [] ∧
    (pre (some held1) true [image1]).incoming 0 1 = [image1] ∧ (image1.cores.map (·.1)).Nodup ∧
    (∃ k ∈ (pre (some { hlt with tokens := true }) true).coveredCores 0 { hlt with tokens := true }, (pre (some { hlt with tokens := true }) true).coreRests k = false) ∧
    (∀ k ∈ drained.coveredCores 0 { hlt with tokens := true }, drained.coreRests k = true ∧ drained.storesRest k = true ∧ drained.homeward k = true) := by
  refine ⟨by decide, ⟨1, by decide, by decide, by decide +kernel⟩, ?_, by decide, ⟨List.mem_cons_self, rfl, rfl, rfl⟩, ?_, show 5000000 / 1000 ≤ 5000 by decide,
    show 5000000 / 1000 ≤ 5000 by decide, ?_⟩
  · rintro ⟨x, h1, h2, h3⟩
    have : x = 1 := by have : x < 2 := h1; omega
    subst this; revert h3; decide +kernel
  · rintro q ⟨h, -⟩
    have : q = span7 := by simpa [pre, drig] using h
    subst this; rfl
  · decide +kernel
/-- R326, R342, R346-R349: a slice's end asks for a change, or begins anew; the stop empties L1; core 0 of image 1 comes back at 0x1234,
and the span that left is in an image. -/
theorem test_preemption : ((ran (.tsliceExpiry 0) (pre none true)).part 0).pre = some { mode := .immediate, why := .tslice } ∧
    ((ran (.tsliceExpiry 0) (pre none false)).part 0).turnAt = 5000000 ∧
    ((ran (.preemptStop 0) (pre (some tsl) true)).core c0).l1 = [] ∧ ((ran (.preemptStop 0) (pre (some tsl) true)).core c0).stopped = true ∧
    ((ran (.contextExchange 0) (pre (some held1) true [image1])).ctx c0 0).pc = 0x1234 ∧
    ((ran (.contextExchange 0) (pre (some held1) true [image1])).images.map (·.span)) = [some 7] ∧
    ((ran (.contextExchange 0) (pre (some { hlt with mode := .immediate, stopped := true }) true)).part 0).run = .halted ∧
    (ran (.drainStart 0) (pre (some hlt) true)).engine.length = 8 ∧
    ((ran (.drainOverrun 0) (pre (some { hlt with tokens := true }) true)).part 0).pre = some { hlt with tokens := true, mode := .immediate } ∧
    ((ran (.checkpointDiscard 0) (pre (some chk) true)).launch 9).map (·.back) = some [0] ∧
    ((ran (.preemptRetry 0) (pre (some { hlt with retry := 5000000 }) true)).part 0).pre = some hlt := by decide +kernel

/-- A module with a die 0 of given state, cluster 5 retiring and site 7 the spare of die 0. -/
def frail (l : Lantern) (d : Die := {}) (k : Core := {}) : State :=
  { State.reset with
    lantern := { l with started := true }, rtime := 1500000000, cycle := 2 ^ 24, dies := [(0, d)], cores := [(c0, k)], master := some 0, spans := [span7]
    sites := (List.range 132).map fun i => ((⟨0, i⟩ : SiteId), if i = 7 then SiteSt.spare else .enabled), clusters := [(⟨0, 5⟩, { retiring := true })] }
def seven : Lantern := { began := 1000000000, counts := [(.site ⟨0, 5⟩, 7)] }
/-- Witness of FailuresAndRepair: a count below and above the threshold; a window that is over; a spare; missed heartbeats; a fence;
an election; a repair; a core that leaves a message at its port. -/
theorem witness_failures :
    (frail seven).windowPassed = false ∧ (frail seven).lantern.counts.getD (.site ⟨0, 5⟩) 0 + 1 ≤ (frail seven).lantern.thresh ∧
    (frail { seven with thresh := 7 }).lantern.thresh < 8 ∧ (frail {}).windowPassed = true ∧ ((frail {}).cluster ⟨0, 5⟩).retiring = true ∧
    (frail {}).siteSt ⟨0, 5⟩ = .enabled ∧ (∀ q ∈ (frail {}).spans, (⟨0, 5⟩ : SiteId) ∉ q.sites) ∧ (frail {}).siteSt ⟨0, 7⟩ = .spare ∧
    (∀ k, k < 7 → (frail {}).siteSt ⟨0, k⟩ ≠ .spare) ∧ ((frail {} { hbMissed := 3 }).die 0).hbMissed = 3 ∧ ((frail {}).die 0).fenced = false ∧
    ({ frail {} with election := some 3 } : State).election = some 3 ∧ (1, 9) ∈ ((frail {} { repairs := [(1, 9)] }).die (1 / 2)).repairs ∧
    (frail {}).spanAt c0.siteId = some span7 ∧ (frail {}).active c0 = true ∧ (frail {} {} { portq := [direct3] }).portStalled c0 = true ∧
    (frail {}).portStalled c0 = false := by decide
/-- R10, R370, R386, R387, R404, R414, R415. -/
theorem test_failures : ((ran (.errorEvent (.site ⟨0, 4⟩) none) (frail { seven with thresh := 0 })).cluster ⟨0, 4⟩).retiring = true ∧
    (ran (.errorEvent (.site ⟨0, 5⟩) none) (frail seven)).lantern.counts = [(.site ⟨0, 5⟩, 8)] ∧ (ran .faultWindow (frail {})).lantern.began = 1500000000 ∧
    (ran (.clusterRetirement ⟨0, 5⟩) (frail {} { slicemap := (List.range 128).map fun r => (r, r) })).siteSt ⟨0, 7⟩ = .enabled ∧ ((ran (.heartbeat 0 false) (frail {} { hbMissed := 2 })).die 0).fenced = false ∧
    ((ran (.heartbeat 0 false) (frail {} { hbMissed := 3 })).die 0).fenced = true ∧ (ran (.dieFence 0) (frail {})).master = none ∧
    (ran .masterElection { frail {} with election := some 3, master := none }).master = some 0 ∧
    ((ran (.temperatureChange 0 90 86 80) (frail {} { hot1 := true })).die 0).hot0 = true ∧ ((ran (.temperatureChange 0 90 86 80) (frail {} { hot1 := true })).die 0).hot1 = true ∧
    (ran (.portStallDiscard c0) (frail {} {} { portq := [direct3] })).spans = [] := by decide +kernel

/-! ## Encoding, step and reset -/

/-- Witness of EncodingRoundTrip and DecodedIsWellFormed: LDW with every field of its own. -/
theorem witness_encoding : (Instr.ldw (.x 5) (.x 8) ⟨16, 3, true⟩).wf = true ∧ encode (.ldw (.x 5) (.x 8) ⟨16, 3, true⟩) = some (0x2A04, 0x1480000004C00010) ∧
    0x2A04 < 2 ^ 16 ∧ 0x1480000004C00010 < 2 ^ (16 * bits 0x2A04 7 3) ∧
    (decodeInstr 0x2A04 0x1480000004C00010).toOption = some (.ldw (.x 5) (.x 8) ⟨16, 3, true⟩) := by decide
/-- A core whose context stands at 2^32, its page in the TLB; the line ADDI x1, x0, 5 then END, in memory or in the cache. -/
def addLine : List Byte := lineOf 0x1D00 (1 * 2 ^ 26 + 5)
def fetching (cached : Bool) (line : List Byte) (bad : Bool := false) : State :=
  let s := rig { pc := 0x100000000 } { tlb := [page] }
  { s with dies := [(0, flat { l2 := [{ line := 0x800, dirty := [], uc := 0, dead := false, comp := 0 }] })], turns := [.issue c0], mem := (line.zipIdx.filter (·.1 ≠ 0)).map fun e => (0x20000 + e.2, e.1)
           clusters := if cached then [(n0, { icache := [{ part := 0, va := 0x100000000, pa := 0x20000, data := packBytes line, bad := bad }] })] else [] }
/-- Witness of StepRunsDecoded: one running context, its line in memory and in the cache, a line that does not decode; an event. -/
theorem witness_step : c0.exist = true ∧ (fetching false addLine).active c0 = true ∧ ((fetching false addLine).core c0).gang = none ∧
    (fetching false addLine).mayIssue c0 = [0] ∧ (fetching false addLine).partOfSite n0 = some 0 ∧ ((fetching false addLine).core c0).ptbase.getLsbD 0 = true ∧
    (fetching false addLine).tlbLookup c0 0 (rootPage ((fetching false addLine).core c0).ptbase) 0x100000000 = some page ∧ (fetching false addLine).pageError page 0x100000000 .fetch false 0 = none ∧
    (fetching false addLine).memError 0x20000 64 = none ∧ noUpdates (fetching false addLine) = true ∧
    (decodeLine addLine 0).toOption = some (1, .addi (.x 1) (.x 0) 5) ∧ (((fetching true addLine).cluster n0).icache.find? fun m => m.part = page.part && m.va = 0x100000000 && m.pa = 0x20000).map (·.bad) = some false ∧
    (((fetching true addLine true).cluster n0).icache.find? fun m => m.part = page.part && m.va = 0x100000000 && m.pa = 0x20000).map (·.bad) = some true ∧
    c0.die = homeDie 0x800 ∧ (fetching false addLine).l2Ready 0x800 = true ∧
    (Instr.turnWindow).wf = true ∧ (Instr.turnWindow).encoded = false := by decide +kernel
/-- R49, R60, R77: ADDI runs from memory and from the cache; a line without a head traps with cause 0x02, INFO 2 (R396). -/
theorem test_step : (match step (fetching false addLine) with | .next t => (t.ctx c0 0).xreg 1 | _ => 0) = 5 ∧
    (match step (fetching true addLine) with | .next t => (t.ctx c0 0).xreg 1 | _ => 0) = 5 ∧
    (match step (fetching false []) with | .next t => (t.ctx c0 0).cause | _ => 0) = 0x2002 ∧
    (match step (fetching true addLine true) with | .next t => (t.ctx c0 0).cause | _ => 0) = 0x100D := by decide +kernel
/-- ADDI x1, x0, 5 as the first instruction after reset (log 20). -/
theorem test_first : (match step (State.reset.withFetchWord 48 (0x1D00 + (1 * 2 ^ 26 + 5) * 2 ^ 16)) with
    | .next t => (t.ctx c0 0).xreg 1
    | _ => 0) = 5 := by decide +kernel
/-- The forms hold at reset. -/
theorem reset_inv : cellsOk State.reset ∧ vectorsOk State.reset := by
  refine ⟨⟨rfl, ?_, ?_, ?_⟩, ?_, ?_⟩ <;> intro e h <;> cases h

/-! ## Further hypotheses: uncorrectable rows, passed copies, gangs at a strait, elections -/

/-- Witness of CopyRequestsAndControl: a request register in an uncorrectable row. -/
theorem witness_spoilt_request :
    ((List.range 4).any fun j => ({ copyy with bad := [.x 3] } : Ctx).bad.contains (.x (0 + 1 + j))) = true ∧
    ((List.range 4).any fun j => (crig {}).me.bad.contains (.x (0 + 1 + j))) = false := by decide
/-- Witness of CopyRequestsAndControl: a landing copy that has not begun, one at a boundary, one in the middle; a CPYS that waits. -/
theorem witness_stops :
    (cp 5 .landing).began = false ∧ (({ cp 5 .landing with began := true, prog := 512 - 0x80 } : Copy).pos - 1) / 512 <
      ({ cp 5 .landing with began := true, prog := 512 - 0x80 } : Copy).nextUnit / 512 ∧
    ({ cp 5 .landing with began := true, prog := 64 } : Copy).nextUnit / 512 ≤ (({ cp 5 .landing with began := true, prog := 64 } : Copy).pos - 1) / 512 ∧
    ((crig (two .landing)).updMe fun v => { v with wait := .stopping 5 }).me.wait = .stopping 5 := by decide
/-- Witness of StraitTurns: a member of a gang that takes its leader's count; no transfer yet. -/
theorem witness_gang_turn :
    gangOn.myGang.head? = some (gangOn.cur, gangOn.curCtx) ∧ ({ gangOn with cur := c1, curCtx := 2 } : State).myGang.head? = some (c0, 0) ∧
    (c0, 0) ≠ (({ gangOn with cur := c1, curCtx := 2 } : State).cur, ({ gangOn with cur := c1, curCtx := 2 } : State).curCtx) ∧
    (gangOn.ctx c0 0).xreg 1 = 5 ∧ (gangOn.ctx c0 0).bad.contains (.x 1) = false ∧ ((turns 6 6).strait 0).xfers = [] := by decide
/-- Witness of SystemRegisters: a channel whose DONE has moved and one whose DONE has not. -/
theorem witness_passed : ((sysx 1 { chan := { passed := true } }).core { (sysx 1).cur with core := 0 }).chan.passed = true ∧
    ((sysx 1).core { (sysx 1).cur with core := 0 }).chan.passed = false := by decide
/-- Witness of SealedContexts: a vector register in an uncorrectable row. -/
theorem witness_seal_row : ∃ r, r < 64 ∧ RegRow.v r ∈ ((sealing []).updMe fun v => { v with bad := [.v 3] }).me.bad := ⟨3, by decide, by decide⟩
/-- A module with an image of context 1 whose shadow units lie on cluster 0; a launch that is complete. -/
def shadowed : State := { frail seven with images := [image1] }
def complete9 : Launch := { launch9 with next := launch9.slices, placedAny := true, doneCnt := launch9.slices }
def elects (l : List Launch) : State := { frail {} with election := some 3, master := none, spans := [], launches := l }
/-- Witness of FailuresAndRepair: an image on a cluster; an election with no complete launch and with one. -/
theorem witness_rows : (shadowed.images.filter fun i => (i.units.find n0).isSome)[0]? = some image1 ∧ shadowed.windowPassed = false ∧
    (elects []).election = some 3 ∧ ((elects []).die 0).fenced = false ∧ (elects [complete9]).launches = [complete9] ∧
    (elects [complete9]).powered = true ∧ (elects [complete9]).launchDone complete9 = true := by decide
/-- R388, R415, R436. -/
theorem test_rows : ((ran (.errorEvent (.site ⟨0, 4⟩) (some (.reg c0 1 (.v 3)))) (frail seven)).ctx c0 1).bad = [.v 3] ∧
    ((ran (.errorEvent (.site ⟨0, 4⟩) (some (.coreRow c0 (.k 2)))) (frail seven)).core c0).bad = [.k 2] ∧
    (ran (.errorEvent (.site ⟨0, 4⟩) (some (.shadow n0 0))) shadowed).images.map (·.bad) = [true] ∧
    (ran .masterElection (elects [complete9])).launches = [] := by decide +kernel

/-! ## Further witnesses: each clause's hypotheses met, at the bounds of their ranges -/

/-- A gang whose follower still has a vector instruction waiting; a joined context; a row whose others have left; a handler. -/
def gangBusy : State := gangOn.updCtx c1 2 fun v => { v with seq := busy.seq }
def follower : State := { gangOn with cur := c1, curCtx := 2 }
def joinedRig : State := rig { regs with join := .joined }
def lastToLeave : State :=
  { joinedRig with cores := joinedRig.cores ++ [1, 2, 3].map fun k => (({ c0 with core := k } : CoreId), { ctxs := [(0, { running := true, join := .leaving })] }) }
/-- Witness of EndFreesTheFiring: gangs, joint rows, a handler. -/
theorem witness_end_forms :
    (gangOn.myCore.gang = some { log := 1, members := [(c0, 0), (c1, 2)] } ∧ quiet gangOn = true ∧ gangOn.me.join = .no ∧ gangOn.me.th = false ∧
      gangOn.mergeAt gangOn.cur.siteId = none ∧ ∀ m ∈ [(c0, 0), (c1, 2)], mayFinish gangOn m.1 m.2 = true) ∧
    (∃ m ∈ [(c0, 0), (c1, 2)], mayFinish gangBusy m.1 m.2 = false) ∧ quiet gangBusy = true ∧
    (follower.myCore.gang = some { log := 1, members := [(c0, 0), (c1, 2)] } ∧ (follower.cur, follower.curCtx) ∈ [(c0, 0), (c1, 2)] ∧
      [(c0, 0), (c1, 2)].head? ≠ some (follower.cur, follower.curCtx) ∧ quiet follower = true) ∧
    (joinedRig.me.join = .joined ∧ quiet joinedRig = true ∧ joinedRig.myCore.gang = none ∧
      ∃ k, k < 4 ∧ k ≠ joinedRig.cur.core ∧ ∀ e ∈ (joinedRig.core { joinedRig.cur with core := k }).ctxs, e.2.join ≠ .leaving) ∧
    (∀ k, k < 4 → k ≠ lastToLeave.cur.core → ∃ e ∈ (lastToLeave.core { lastToLeave.cur with core := k }).ctxs, e.2.join = .leaving) ∧
    (rig { regs with status := 7 }).me.th = true ∧ (rig { regs with status := 7 }).mergeAt n0 = none := by decide
theorem witness_no_leaving : gangOn.me.wait ≠ .leaving ∧ follower.me.wait ≠ .leaving := by
  constructor <;> (intro h; cases h)
/-- R111, R215, R378: the leader ends both; a busy follower keeps it; the follower's own END changes nothing; the row dissolves. -/
theorem test_end_forms : (ran .end_ gangOn).me.running = false ∧ ((ran .end_ gangOn).ctx c1 2).running = false ∧
    (ran .end_ gangBusy).me.wait = .ending ∧ ((ran .end_ gangBusy).ctx c1 2).running = true ∧ (ran .end_ follower).me.running = true ∧
    (ran .end_ joinedRig).me.wait = .leaving ∧ ((ran .end_ lastToLeave).ctx { c0 with core := 3 } 0).join = .no ∧
    (ran .end_ (rig { regs with status := 7, handler := 4 })).myCore.rev.map (·.handler) = [4] := by decide

/-- Two members at one instruction: lane i of v1 is i in both, of v2 3 in member 0 and 5 in member 1; p1 is lane 0 alone. -/
def pairOf : List (CoreId × Nat) := [(c0, 0), (c1, 2)]
def gin (i : Instr) (w : Option W64) : VInstr := { vin i w with gang := pairOf }
def grig (i : Instr) (w : Option W64) : State :=
  { vrig i w with
    cores := [(c0, { ctxs := [(0, { vecx with running := true, num := 1, seq := [{ v := gin i w }] })] }),
      (c1, { ctxs := [(2, { vecx with running := true, num := 1, seq := [{ v := gin i w }], v := vecx.v.put 2 (List.replicate 16 5) })] })] }
noncomputable def gran (i : Instr) (w : Option W64) : State := ran (.sequencerExecution c0 0) (grig i w)
/-- Witness of GangVectorLanes: both members stand at one instruction. -/
theorem witness_gang_lanes (i : Instr) (w : W64) :
    together (grig i (some w)) pairOf i (fun _ => gin i (some w)) (fun _ => []) (fun _ => w) ∧ pairOf.head? = some (c0, 0) := by
  have r0 : ready (grig i (some w)) c0 0 (gin i (some w)) :=
    ⟨rfl, rfl, by show vecx.status.getLsbD 2 = false; decide, rfl, rfl, by show ∀ e ∈ vecx.v, e.2.length = 16; decide, rfl, fun _ => rfl,
      fun _ h => (noEntry h).elim⟩
  have r1 : ready (grig i (some w)) c1 2 (gin i (some w)) :=
    ⟨rfl, rfl, by show vecx.status.getLsbD 2 = false; decide, rfl, rfl,
      by show ∀ e ∈ vecx.v.put 2 (List.replicate 16 5), e.2.length = 16; decide, rfl, fun _ => rfl, fun _ h => (noEntry h).elim⟩
  refine ⟨⟨.inl rfl, by decide, ?_⟩, rfl⟩
  rintro (_ | _ | j) m h
  · cases h; exact ⟨rfl, rfl, rfl, rfl, r0, .inl rfl⟩
  · cases h; exact ⟨rfl, rfl, rfl, rfl, r1, .inl rfl⟩
  · cases h
/-- R53, R144, R161, R162: a rotation by 16 over the gang brings the other member's lanes; 2 x (0 + ... + 15) is 240. -/
theorem test_gang_lanes : lane (gran (.viadd 5 2 (.v 1) ⟨.rotate, 5, 16, false⟩ 0 ⟨false, false⟩) none) c0 0 5 1 = 6 ∧
    lane (gran (.viadd 5 2 (.v 1) ⟨.rotate, 5, 16, false⟩ 0 ⟨false, false⟩) none) c1 2 5 1 = 4 ∧
    lane (gran (.viota 5 (.x 9) 1 0) (some 2)) c1 2 5 0 = 18 ∧
    ((gran (.vred (.q 4) 1 nomod 0 .addI) none).ctx c0 0).queue 4 = [240] ∧ ((gran (.vred (.q 4) 1 nomod 0 .addI) none).ctx c1 2).queue 4 = [240] ∧
    ((gran (.vext (.q 4) 2 (.x 9) nomod false) (some 17)).ctx c0 0).queue 4 = [5] ∧
    ((gran (.pcnt (.q 4) 1) none).ctx c1 2).queue 4 = [2] := by decide +kernel
/-- Witness of RoundingAndConversion and SpecialFunctionValues (R163): in units of 1/4, e2m1's codes 2 and 3 are 4 and 6, and 9 lies
between codes 8 and 9 that it does not have; 2.5; the reciprocal and the root of 3. -/
theorem witness_rounding : e2m1 ∈ [f64, f32, f16, bf16, e5m2, e4m3, e2m1] ∧ gridUnits e2m1 (-2) 2 = 4 ∧ gridUnits e2m1 (-2) 3 = 6 ∧
    gridUnits e2m1 (-2) 8 ≤ 9 * 2 ^ (0 - (-2) : Int).toNat ∧ 9 * 2 ^ (0 - (-2) : Int).toNat < gridUnits e2m1 (-2) 9 ∧ topCode e2m1 = 7 ∧
    intTy .i8 = some (8, true) ∧ floatTy .f32 = some f32 ∧ f32.decode 0x40200000 = .fin false 0xA00000 (-22) ∧
    2 * 2 ^ 2048 ≤ 0xA00000 * 2 ^ (-22 + 2048 : Int).toNat ∧ 0xA00000 * 2 ^ (-22 + 2048 : Int).toNat < 3 * 2 ^ 2048 ∧
    f32.decode 0x40400000 = .fin false 0xC00000 (-22) ∧ gridUnits f32 (-149) 0x3EAAAAAA * 0xC00000 ≤ 2 ^ (22 + 149) ∧
    2 ^ (22 + 149) < gridUnits f32 (-149) 0x3EAAAAAB * 0xC00000 ∧ gridUnits f32 (-149) 0x3F13CD3A * gridUnits f32 (-149) 0x3F13CD3A * 0xC00000 ≤ 2 ^ (22 + 298) ∧
    2 ^ (22 + 298) < gridUnits f32 (-149) 0x3F13CD3B * gridUnits f32 (-149) 0x3F13CD3B * 0xC00000 ∧
    (0xC00000 : Int) * 2 ^ (-22 + 149 : Int).toNat = 3 * 2 ^ 149 := by decide +kernel
/-- R145-R147, R164, R170: a tie goes to the even code, 9 saturates in e2m1; 300 as i8 clamped and not; 2.5 to nearest; 1/3. -/
theorem test_rounding : e2m1.convert .rne false 0 (.fin false 5 (-2)) = 2 ∧ e2m1.convert .rne false 0 (.fin true 9 0) = 0xF ∧
    e4m3.convert .rne false 0 (.fin false 9 10) = 0x7F ∧ convertLane ⟨[], []⟩ .i8 .i32 .rz true 0 300 = 127 ∧
    convertLane ⟨[], []⟩ .i8 .i32 .rz false 0 300 = 44 ∧ convertLane ⟨[], []⟩ .i8 .f32 .rne false 0 0x40200000 = 2 ∧
    laneSpecial rcpVal 0x40400000 = 0x3EAAAAAB := by decide +kernel

/-- Witness of LocalVectorMemory and GlobalVectorMemory: nothing of the core on its way; several lanes of one page. -/
theorem witness_vector_forms (i : Instr) (w : Option W64) : ((vrig i w).core c0).slice = [] ∧ (∀ f ∈ (vrig i w).fwrites, f.src ≠ c0) ∧
    (∀ e ∈ (vrig i w).banks, ∀ f ∈ e.2.waiting, f.src ≠ c0) ∧ ((vrig i w).core c0).l1 = [] ∧ ((vrig i w).core c0).unacked ≤ 256 := by
  have f : (vrig i w).fwrites = [] := rfl
  have b : (vrig i w).banks = [(b0, { st := .berthed, bytes := [(0x10, 0x80), (0x14, 7)] })] := rfl
  rw [f, b]
  exact ⟨rfl, by simp, by simp, rfl, Nat.zero_le 256⟩
theorem witness_gather (i : Instr) (hi : i = .vldg 5 (.x 2) 1 nomod ⟨.raw, 2, 2⟩ ∨ i = .vstg 1 (.x 2) 1 nomod ⟨.raw, 2, 2⟩) (l : Nat) (h : l < 16) :
    let s := vrig i (some 0x100000000)
    active s c0 0 2 l = true → gatherNibble 0x100000000 (laneB s c0 0 0 (.v 1) nomod l) 2 8 / 2 = 0x100000000 + 4 * l ∧
      s.tlbLookup c0 0 (rootPage (s.core c0).ptbase) (0x100000000 + 4 * l) = some page ∧ s.takesWrite (0x20000 / 64) = true ∧
      inArray s (0x20000 + 4 * l) := by
  have k : ∀ l, l < 16 → l = 1 ∨ l = 2 ∨ active (vrig i (some 0x100000000)) c0 0 2 l = false := by
    intro l h; revert l; rcases hi with rfl | rfl <;> decide
  intro s a
  rcases k l h with rfl | rfl | q
  · rcases hi with rfl | rfl <;> exact ⟨by decide, by decide, by decide, rfl, _, rfl, rfl, rfl⟩
  · rcases hi with rfl | rfl <;> exact ⟨by decide, by decide, by decide, rfl, _, rfl, rfl, rfl⟩
  · rw [q] at a; cases a
/-- R153-R157: the high nibble of 0x80 is -8; lane 1 of stride 4 bytes; 1.0 as bf16; a misaligned base and a misaligned lane; a scatter. -/
theorem test_vector_forms : lane (vran (.vld 5 (.x 1) ⟨0, none, 0⟩) (some 0x60000010)) c0 0 5 1 = 0xFFFFFFF8 ∧
    lane (vran (.vld 5 (.x 1) ⟨0, some 4, 0⟩) (some 0x50000010)) c0 0 5 1 = 7 ∧
    bankByte (vran (.vst 3 (.x 1) ⟨0, none, 0⟩) (some 0x70000020)) b0 0x21 = 0x3F ∧
    ((vran (.vld 5 (.x 1) ⟨2, none, 0⟩) (some 0x10)).ctx c0 0).cause = 0x104 ∧
    ((vran (.vldg 5 (.x 2) 1 nomod ⟨.raw, 0, 2⟩) (some 0x100000000)).ctx c0 0).faultva = 0x100000001 ∧
    (vran (.vstg 1 (.x 2) 1 nomod ⟨.raw, 2, 2⟩) (some 0x100000000)).memByte 0x20004 = 1 ∧
    (vran (.vstg 1 (.x 2) 1 nomod ⟨.raw, 2, 2⟩) (some 0x100000000)).memByte 0x20008 = 2 := by decide +kernel

/-! ## Further witnesses: matrix, joint row -/

def handing : State := mrig [] { handed := [0], ctxs := [(1, { touch := [] })] }
/-- Witness of MatrixIssueAndCounts: windows that pair and their groups; a full buffer; a refused row; a first access under way. -/
theorem witness_matrix_fits : fits opA false ∧ fits opB true ∧ fits { opA with win := 7 } false ∧ fits { opA with win := 4 } false :=
  ⟨⟨by decide, by decide, by decide⟩, ⟨by decide, by decide, by decide⟩, ⟨by decide, by decide, by decide⟩, by decide, by decide, by decide⟩
theorem witness_matrix_pairs : pairs 0 0 false = some 4 ∧ pairs 7 1 false = some 8 ∧ pairs 4 6 false = some 16 ∧
    pairs 0 0 true = some 1 ∧ windowOf 0 = some .raw ∧
    8 ≤ ((mrig (List.replicate 8 (ment (.mzero 1)))).myCore.slice.filter fun e => !e.held).length ∧
    (mrig (List.replicate 8 (ment (.mzero 1)))).me.refuse = false ∧ (rig { matx with refuse := true }).me.refuse = true ∧
    (∀ e ∈ (rig { matx with refuse := true }).myCore.slice, e.ctx ≠ (rig { matx with refuse := true }).curCtx) := by decide
/-- R203, R215: the ninth waits; a refused row traps, INFO 4. -/
theorem test_matrix_full : (ran (.mzero 0) (mrig (List.replicate 8 (ment (.mzero 1))))).me.stalled = true ∧
    (ran (.mzero 0) (rig { matx with refuse := true })).me.cause = 0x400C := by decide

def mEntryOf (i : Instr) (win : Nat) (far : Bool) (begun cons : Bool) : MEntry :=
  { ment i with begun := begun, cons := cons, opA := some { opA with win := win, addr := if far then 0x8000000000000010 else 0x10 } }
def mloadB : MEntry := mEntryOf (.mload 0 (.x 1) ⟨false, 8⟩) 7 false true false
def mstoreB (far : Bool) : MEntry := mEntryOf (.mstore 0 (.x 1) ⟨false, 8⟩ ⟨.rne, true⟩) 4 far true true
/-- Tile 0 has 300.0 in its first element and -2.0 in its second. -/
def tiled (e : MEntry) : State := { mrun e with cores := (mrun e).cores.map fun k => (k.1, { k.2 with tiles := [(0, [(0, 0x43960000), (1, 0xC0000000)])] }) }
/-- Witness of MatrixSliceExecutes: MLOAD through bf16; MSTORE as i8, local and through a fabric address. -/
theorem witness_matrix_windows :
    sliceReaches (mrun mloadB) c0 mloadB [] ∧ sliceReaches (tiled (mstoreB true)) c0 (mstoreB true) [] ∧
    calm (mrun mloadB) b0 = true ∧
    calm (tiled (mstoreB false)) b0 = true ∧ unprotected (tiled (mstoreB false)) b0 = true ∧
    Memory.wf ((tiled (mstoreB false)).bank b0).bytes = true ∧ (0x8000000000000010 : W64).getLsbD 63 = true ∧
    (mstoreB true).group < 1024 ∧ ((tiled (mstoreB true)).core c0).unacked < 256 := by
  refine ⟨mrun_reaches _ ⟨rfl, rfl, rfl, rfl⟩, ⟨rfl, fun _ h => (noEntry h).elim, rfl, .inl rfl, rfl, rfl, rfl, rfl, rfl, rfl⟩, ?_⟩
  decide
/-- R146, R154, R206, R220: bf16 0x3F80 is 1.0; 300 and -2 as i8, saturating; 256 stores leave at once. -/
theorem test_matrix_windows : element (ran (.matrixSliceExecution c0) (mrun mloadB)) c0 0 0 1 = 0x3F800000 ∧
    ((ran (.matrixSliceExecution c0) (tiled (mstoreB true))).fwrites.take 2).map (·.kind) = [.bytes [127], .bytes [0xFE]] ∧
    ((ran (.matrixSliceExecution c0) (tiled (mstoreB true))).core c0).unacked = 256 ∧
    (((ran (.matrixSliceExecution c0) (tiled (mstoreB true))).core c0).slice.map (·.group)) = [256] := by decide +kernel

/-- A joint row: an instruction of context 0 at the head of each core's slice. -/
def rowrig (v : Ctx) (h : CoreId → MEntry) : State :=
  { mrig [] with cores := n0.cores.map fun c => (c, { slice := [h c], ctxs := [(0, { v with running := true, fid := 1 })], tvec := 0x40, berths := [(0, some b0), (1, some b1)] }) }
def atJoin (_ : CoreId) : MEntry := { ment .mjoin with begun := true, cons := true }
def pairedAt (k1 : CoreId) (c : CoreId) : MEntry :=
  { ment (.mma 1 (.x 1) (.x 2) { mraw with km1 := if c = k1 then 7 else 3 }) with paired := true, opA := some opA, opB := some opB }
theorem rowrig_reaches (v : Ctx) (h : CoreId → MEntry) (k : ∀ c, (h c).ctx = 0 ∧ (h c).fid = 1 ∧ (h c).held = false) (w : v.refuse = false) :
    rowReaches (rowrig v h) n0 h (fun _ => []) := by
  intro c m
  have m : c ∈ [c0, c1, ⟨0, 0, 2⟩, ⟨0, 0, 3⟩] := m
  simp only [List.mem_cons, List.not_mem_nil, or_false] at m
  obtain ⟨k1, k2, k3⟩ := k c
  rcases m with rfl | rfl | rfl | rfl <;>
    exact ⟨rfl, fun _ h => (noEntry h).elim, k3, rfl, by rw [k1]; rfl, by rw [k1, k2]; rfl, by rw [k1]; exact w, rfl, rfl, show ([0] : List Nat).Nodup by decide⟩
/-- Witness of JointRow: a lone MJOIN, not begun and waiting; a row whole at its barrier, joining and leaving; paired MMAs that match,
that do not, and one whose others are not there. -/
theorem witness_row :
    rowReaches (rowrig { join := .joining } atJoin) n0 atJoin (fun _ => []) ∧ rowReaches (rowrig { join := .leaving } atJoin) n0 atJoin (fun _ => []) ∧
    (∀ d ∈ n0.cores, (atJoin d).instr = .mjoin ∧ (atJoin d).begun = true ∧ (atJoin d).cons = true ∧
      ((rowrig { join := .joining } atJoin).ctx d (atJoin d).ctx).join = .joining ∧
      ∀ y ∈ ((rowrig { join := .joining } atJoin).core d).ctxs, y.2.join = .joining → y.1 = (atJoin d).ctx) := by
  exact ⟨rowrig_reaches _ _ (fun _ => ⟨rfl, rfl, rfl⟩) rfl, rowrig_reaches _ _ (fun _ => ⟨rfl, rfl, rfl⟩) rfl, by decide⟩
theorem side7 : sideOf (pairedAt c1 c0) opA mraw ≠ sideOf (pairedAt c1 c1) opA { mraw with km1 := 7 } := fun h =>
  absurd (congrArg (·.2.2.2.1) h) (by decide)
theorem witness_paired :
    rowReaches (rowrig { join := .joined } (pairedAt n1.cores[0])) n0 (pairedAt n1.cores[0]) (fun _ => []) ∧
    (∀ d ∈ n0.cores, (pairedAt c1 d).paired = true ∧ (pairedAt c1 d).begun = false ∧ (pairedAt c1 d).opA = some opA ∧
      ((rowrig { join := .joined } (pairedAt c1)).ctx d (pairedAt c1 d).ctx).join = .joined) ∧
    sideOf (pairedAt c1 c0) opA mraw ≠ sideOf (pairedAt c1 c1) opA { mraw with km1 := 7 } ∧
    (∀ d ∈ n0.cores, ((rowrig { join := .joined } (pairedAt c1)).core d).tvec ≠ 0 ∧
      ∀ y ∈ ((rowrig { join := .joined } (pairedAt c1)).core d).ctxs, y.2.trapPend = none ∧
        y.2.status.getLsbD 2 = false ∧ y.2.status.getLsbD 5 = false ∧ ∀ q ∈ y.2.seq, q.gangs = []) := by
  exact ⟨rowrig_reaches _ _ (fun _ => ⟨rfl, rfl, rfl⟩) rfl, by decide, side7, by decide⟩
/-- R213-R215. -/
theorem test_row : ((ran (.matrixSliceExecution c0) (rowrig { join := .joining } atJoin)).ctx c1 0).join = .joined ∧
    ((ran (.matrixSliceExecution c1) (rowrig { join := .leaving } atJoin)).ctx c0 0).join = .no ∧
    (((ran (.matrixSliceExecution c0) (rowrig { join := .joined } (pairedAt n1.cores[0]))).core c1).slice.map (·.begun)) = [true] ∧
    ((ran (.matrixSliceExecution c0) (rowrig { join := .joined } (pairedAt c1))).ctx c1 0).cause = 0x320C := by decide +kernel
/-- A live stream at word 0x10 of bank 0, whose entry is 0x0103: one group skipped, three kept; scales of 2 for A. -/
def skippy : MEntry :=
  { ment (.mma 1 (.x 1) (.x 2) { mraw with ss := some 2, sc := true }) with
    begun := true, opA := some opA, opB := some opB, skip := some { opA with off := 0x20 }, scA := some { opB with off := 0x40 } }
def streamy (t : Stream) : State :=
  { mrun skippy with
    cores := (mrun skippy).cores.map fun k => (k.1, { k.2 with streams := [(2, t)] })
    banks := [(b0, { st := .berthed, bytes := [(0x12, 0x80), (0x13, 0x3F), (0x20, 3), (0x21, 1)] }),
      (b1, { st := .berthed, bytes := [(2, 0x80), (3, 0x3F), (0x40, 128)] })] }
/-- Witness of MatrixMultiplies: a skip stream that reads, one that counts, one that is not live; a scale of A. -/
theorem witness_skip :
    nextEntry (streamy { live := true, addr := 0x20 }) skippy { live := true, addr := 0x20 } 0x0103 ∧
    nextEntry (streamy { live := true, skip := 1 }) skippy { live := true, skip := 1 } 7 ∧ nextEntry (streamy {}) skippy {} 7 ∧
    calm (streamy {}) b0 = true ∧ calm (streamy {}) b1 = true ∧ operandPlace { mraw with swc := 0, sws := 0 } true opA 8 0 0 = 0x20 := by
  exact ⟨fun _ _ _ => ⟨_, rfl, by decide, by decide, by decide, by decide⟩, nofun, nofun, by decide, by decide, by decide⟩
/-- R165, R211, R212, R222: the entry skips this group; a KEEP counts; a group kept is scaled by 2^(128 - 127). -/
theorem test_skip : ((ran (.matrixSliceExecution c0) (streamy { live := true, addr := 0x20 })).core c0).streams = [(2, { live := true, addr := 0x22, skip := 0, keep := 3 })] ∧
    element (ran (.matrixSliceExecution c0) (streamy { live := true, addr := 0x20 })) c0 1 0 0 = 0 ∧
    element (ran (.matrixSliceExecution c0) (streamy { live := true, keep := 1 })) c0 1 0 0 = 0x40000000 := by decide +kernel

/-! ## Further witnesses: banks and copies -/

/-- Witness of HandAndBankDescriptions: a write held at the bank's port, no copy and no region there. -/
def heldHand : State := hrig { held := [{ order := 1, src := c0, ctx := 0, fid := 1, comp := 0, addr := 0x8000000000000000, kind := .bytes [7] }] }
theorem witness_hand_held : (∃ t, takes heldHand [.x 1] = some ([0x8000400000020000], t) ∧ room t (.x 6) = true) ∧ idleCore heldHand = true ∧
    heldHand.myCore.berth 0 = some b0 ∧ (heldHand.bank b0).shadow = none ∧ noCopies heldHand b0 = true ∧ (heldHand.bank b0).held ≠ [] := by
  refine ⟨⟨_, rfl, rfl⟩, ?_⟩; decide
/-- R189. -/
theorem test_hand_held : (ran (.hand (.x 6) (.x 1) 0) heldHand).me.stalled = true ∧ (ran (.hand (.x 6) (.x 1) 0) heldHand).myCore.berth 0 = some b0 := by
  decide

/-- A copy of 64 bytes between two berths with the request words given, in a world with a sluice 1. -/
def sluiced (w0 w1 w2 w3 : W64) (q : Sluice) (v : Ctx := {}) : State :=
  { crig {} with
    cores := (crig {}).cores.map fun e => (e.1, { e.2 with ctxs := [(0, { v with running := true, fid := 1, x := [(1, w0), (2, w1), (3, w2), (4, w3)] })] })
    lantern := { started := true, worlds := [{ num := 1, part := 0, comps := [], sluices := [(1, q)], key := 0 }] } }
theorem acceptable_sluice (q : Sluice) (v : Ctx) : acceptable (sluiced 0x40 0x10080 15 1 q v) (request (sluiced 0x40 0x10080 15 1 q v) 1 (some b0) (some b1)) := by
  have h0 : (request (sluiced 0x40 0x10080 15 1 q v) 1 (some b0) (some b1)).w0 = 0x40 := rfl
  have h1 : (request (sluiced 0x40 0x10080 15 1 q v) 1 (some b0) (some b1)).w1 = 0x10080 := rfl
  have h2 : (request (sluiced 0x40 0x10080 15 1 q v) 1 (some b0) (some b1)).w2 = 15 := rfl
  have h3 : (request (sluiced 0x40 0x10080 15 1 q v) 1 (some b0) (some b1)).w3 = 1 := rfl
  have h4 : (request (sluiced 0x40 0x10080 15 1 q v) 1 (some b0) (some b1)).dst.isSome = true := rfl
  refine ⟨?_, ⟨some c0, .inl ⟨rfl, ?_⟩, b0, rfl, by rw [h0]; rfl⟩, ⟨some c0, .inl ⟨rfl, ?_⟩, b1, rfl, by rw [h1]; rfl⟩, ?_, ?_, ?_, .inl ?_, ?_⟩
  case refine_8 => intro h; simp only [Copy.sluice, h3] at h; exact absurd h (by decide)
  all_goals
    simp only [Copy.fieldsOk, Copy.limitsOk, Copy.mkind, Copy.swc, Copy.sws, Copy.swz, Copy.ctr, Copy.mdest, Copy.dead, Copy.uc, Copy.planes,
      Copy.rows, Copy.dp, Copy.rb, h0, h1, h2, h3, h4]
    decide
/-- Witness of CopyRequestsAndControl: a sluice that lets the copy through, and ones that do not: another compartment, other tags, no
allowance; streams that are not empty; requests at fault: a field, an address, a limit, a message's core, an empty berth, a bad row. -/
theorem witness_sluice : sluiceOf (sluiced 0x40 0x10080 15 1 { allow := 64 }) (request (sluiced 0x40 0x10080 15 1 { allow := 64 }) 1 (some b0) (some b1)) { allow := 64 } ∧
    (request (sluiced 0x40 0x10080 15 1 { allow := 64 }) 1 (some b0) (some b1)).sluice ≠ 0 ∧
    lets (sluiced 0x40 0x10080 15 1 { allow := 64 }) 0 (request (sluiced 0x40 0x10080 15 1 { allow := 64 }) 1 (some b0) (some b1)) { allow := 64 } ∧
    quiet (sluiced 0x40 0x10080 15 1 {} busy) = false ∧ (sluiced 0x40 0x10080 15 1 {}).me.compart = 0 ∧
    ((sluiced 0x40 0x10080 15 1 {}).bank b0).tag = 0 := by
  refine ⟨⟨_, rfl, rfl⟩, by decide, ⟨.inl rfl, ?_, ?_, by decide⟩, by decide, by decide, by decide⟩ <;> intro b h <;> cases h <;> rfl
theorem witness_copy_faults :
    ((List.range 4).any fun j => (sluiced 0x40 0x10080 15 0 {} { bad := [.x 2] }).me.bad.contains (.x (1 + j))) = true ∧
    (request (sluiced 0x40 0x10080 15 0x1800000000 {}) 1 (some b0) (some b1)).fieldsOk = false ∧
    (∃ a, endsAt (sluiced 0x42 0x10080 15 0 {}) 0x42 a) ∧ (∃ a, endsAt (sluiced 0x40 0x10082 15 0 {}) 0x10082 a) ∧
    (request (sluiced 0x40 0x1FFF0 15 0 {}) 1 (some b0) (some b1)).limitsOk true = false ∧
    (request (sluiced 0x40 0x10080 15 0x1000000800 {}) 1 (some b0) (some b1)).mkind = 2 ∧
    (sluiced 0x40 0x10080 15 0x1000002000 {}).spanCoreCount n0 ≤ (request (sluiced 0x40 0x10080 15 0x1000002000 {}) 1 (some b0) (some b1)).mdest ∧
    endsAt (sluiced 0x50040 0x10080 15 0 {}) 0x50040 (some c0) ∧ ((sluiced 0x50040 0x10080 15 0 {}).core c0).berth (slotOf 0x50040) = none := by
  refine ⟨by decide, by decide, ⟨some c0, .inl ⟨rfl, by decide⟩⟩, ⟨some c0, .inl ⟨rfl, by decide⟩⟩, by decide, by decide, by decide,
    .inl ⟨rfl, by decide⟩, by decide⟩
/-- R310, R360, R431. -/
theorem test_sluice : ((ran (.cpyq 0) (sluiced 0x40 0x10080 15 1 { allow := 65 })).lantern.worlds.map fun w => (w.sluices.getD 1 {}).allow) = [1] ∧
    (ran (.cpyq 0) (sluiced 0x40 0x10080 15 1 { allow := 63 })).me.cause = 0x300F ∧
    (ran (.cpyq 0) (sluiced 0x40 0x10080 15 1 { frm := 3, into := 4, allow := 64 })).me.cause = 0x100F ∧
    (ran (.cpyq 0) (sluiced 0x40 0x10080 15 1 { frm := 0, into := 4, allow := 64 })).me.faultva = 0x10080 := by decide +kernel
theorem test_copy_faults : (ran (.cpyq 0) (sluiced 0x42 0x10080 15 0 {})).me.cause = 4 ∧ (ran (.cpyq 0) (sluiced 0x50040 0x10080 15 0 {})).me.cause = 7 ∧
    (ran (.cpyq 0) (sluiced 0x40 0x10080 15 0x1000002000 {})).me.cause = 0x5006 ∧ (ran (.cpyq 0) (sluiced 0x40 0x1FFF0 15 0 {})).me.cause = 0x7001 := by decide +kernel

/-- 1,024 bytes from b0 to b1 offset 0, n of them landed; a context waits for its stop. -/
def kilo (n : Nat) (st : CopySt) (stop : Bool) (w3 : W64 := 0) : Copy :=
  { id := 5, w0 := 0, w1 := 0x10000, w2 := 255, w3 := w3, st := st, stop := stop, prog := n, began := n ≠ 0, src := some b0, dst := some b1, fid := 1 }
def kiloAt (p : Copy) (w : Wait) : State :=
  { crig { next := 7, done := 5, places := [p] } with
    cores := (crig { next := 7, done := 5, places := [p] }).cores.map fun e => (e.1, { e.2 with ctxs := [(0, { copyy with running := true, wait := w, x := [(9, 5)] })] })
    banks := [(b0, { st := .berthed, bytes := [(0x1C0, 1), (0x1D0, 2)] }),
      (b1, { st := .berthed, wmOpen := true, wmW := p.prog, wmEnd := 0x400, wmId := 5, queue := [{ core := c0, id := 5, start := 0, stop := 0x400 }] })] }
/-- Witness of CopyRequestsAndControl: a copy at a 512-byte boundary, one past it, a context whose CPYS waits and one whose has its status. -/
theorem witness_copy_stops :
    outstanding (kiloAt (kilo 512 .landing false) .none) 5 (kilo 512 .landing false) ∧ (kilo 512 .landing false).began = true ∧
    ((kilo 512 .landing false).pos - 1) / 512 < (kilo 512 .landing false).nextUnit / 512 ∧
    ¬ ((kilo 448 .landing false).pos - 1) / 512 < (kilo 448 .landing false).nextUnit / 512 ∧
    outstanding (kiloAt (kilo 448 .landing false) .none) 5 (kilo 448 .landing false) ∧
    (kiloAt (kilo 448 .landing false) (.stopping 5)).me.wait = .stopping 5 ∧ (kiloAt (kilo 448 .suspended false) (.value 0)).me.wait = .value 0 := by
  exact ⟨⟨rfl, rfl, rfl⟩, by decide, by decide, by decide, ⟨rfl, rfl, rfl⟩, rfl, rfl⟩
/-- Witness of LandingAndCompletion: a unit that comes to a boundary with a stop asked for; a swizzled one. -/
theorem witness_landing_stops : landsNext (kiloAt (kilo 448 .landing true) (.stopping 5)) c0 (kilo 448 .landing true) [] ∧
    (((kilo 448 .landing true).nextUnit + 64 - 1) / 512 < ({ kilo 448 .landing true with prog := 512 } : Copy).nextUnit / 512) ∧
    landsNext (kiloAt (kilo 0 .landing false (2 ^ 43)) .none) c0 (kilo 0 .landing false (2 ^ 43)) [] ∧
    (kilo 0 .landing false (2 ^ 43)).unit = 512 ∧ landsAt (kilo 0 .landing false (2 ^ 43)) 0x200 = 0x210 ∧
    State.carriedTo (kiloAt (kilo 448 .landing true) (.stopping 5)) c0 b1.die = true ∧
    State.reaches (kiloAt (kilo 448 .landing true) (.stopping 5)) c0 b0.die = true := by
  refine ⟨⟨rfl, .inr rfl, nofun, rfl, rfl⟩, by decide, ⟨rfl, .inr rfl, nofun, rfl, rfl⟩, by decide⟩
/-- R208, R298, R306, R312: W stands at 512; the CPYS that waited takes 0. -/
theorem test_copy_stops : gives (.cpys (.x 6) (.x 9)) (kiloAt (kilo 512 .landing false) .none) 6 = 0 ∧
    gives (.cpys (.x 6) (.x 9)) (kiloAt (kilo 448 .suspended false) (.value 4)) 6 = 4 ∧
    ((ran (.landingUnit c0) (kiloAt (kilo 448 .landing true) (.stopping 5))).bank b1).wmW = 512 ∧
    ((ran (.landingUnit c0) (kiloAt (kilo 448 .landing true) (.stopping 5))).ctx c0 0).wait = .value 0 ∧
    (copyOf (ran (.landingUnit c0) (kiloAt (kilo 448 .landing true) (.stopping 5))) c0 5).map (·.st) = some .suspended := by decide +kernel
/-- The same bytes to global memory at 0x100000000, with the page given. -/
def outy (sl : W64) : Copy := { id := 5, w0 := 0x40, w1 := 0x100000000, w2 := 15, w3 := sl, st := .landing, src := some b0, dst := none, fid := 1, sto := 3 }
def outAt (p : Copy) (e : TlbEntry) : State :=
  { crig { next := 7, done := 5, places := [p] } with
    cores := (crig { next := 7, done := 5, places := [p] }).cores.map fun k => (k.1, { k.2 with tlb := [e] }) }
/-- Witness of LandingAndCompletion: a unit in HBM and in host memory; a page that may not be written; one outside the sluice's TO. -/
theorem witness_landing_global :
    (landsNext (outAt (outy 0) page) c0 (outy 0) [] ∧ unitOn (outAt (outy 0) page) c0 (outy 0) page 0x20000 ∧
      unitOn (outAt (outy 0) hostPage) c0 (outy 0) hostPage (2 ^ 51)) ∧
    (outAt (outy 0) page).copyPage (outy 0) page (outy 0).nextByte true = none ∧ Memory.wf (outAt (outy 0) page).mem = true ∧
    isHbm 0x20000 = true ∧ ((outAt (outy 0) page).die (homeDie 0x800)).fenced = false ∧ (outAt (outy 0) page).takesWrite 0x800 = true ∧
    State.carriedTo (outAt (outy 0) page) c0 (homeDie 0x800) = true ∧
    (outAt (outy 0) hostPage).copyPage (outy 0) hostPage (outy 0).nextByte true = none ∧ (outAt (outy 0) hostPage).l2Find (2 ^ 51 / 64) = none ∧
    State.carriedTo (outAt (outy 0) hostPage) c0 0 = true ∧ { page with w := false }.w = false ∧
    isDeviceTop 0x20000 = false ∧ (outAt (outy 1) page).effective page 0x100000000 = some 0 ∧ (outy 1).sluice ≠ 0 ∧ 0 ≠ (outy 1).sto := by
  refine ⟨⟨⟨rfl, .inr rfl, nofun, rfl, rfl⟩, ⟨⟨_, rfl⟩, rfl, ⟨_, rfl, rfl, rfl⟩, rfl, by decide, rfl, by decide⟩,
    ⟨⟨_, rfl⟩, rfl, ⟨_, rfl, rfl, rfl⟩, rfl, by decide, rfl, by decide⟩⟩, ?_⟩
  decide
/-- R305, R307, R408, R431. -/
theorem test_landing_global : (ran (.landingUnit c0) (outAt (outy 0) page)).memByte 0x20000 = 1 ∧ (ran (.landingUnit c0) (outAt (outy 0) page)).memByte 0x2003F = 2 ∧
    ((ran (.landingUnit c0) (outAt (outy 1) page)).core c0).chan.record.head? = some 0x50000410F ∧
    ((ran (.landingUnit c0) (outAt (outy 0) { page with w := false })).core c0).chan.record.head? = some 0x500001106 := by decide +kernel

/-! ## Further witnesses: fences, prefetch, global stores, messages -/

/-- A VLD forwarded before; an MLOAD that has not consumed. -/
def beforeVld : State := vrig (.vld 5 (.x 1) ⟨0, none, 0⟩) (some 0x10)
def beforeMload : State := mrig [{ ment (.mload 0 (.x 1) ⟨false, 8⟩) with feet := [.bank b0 0 4096] }]
/-- Witness of FencesAndPrefetch: earlier vector and matrix reads for an acquire; a forwarded instruction and a store on its way for a
release; no TLB entry; a line that is not in its home slice; one that is. -/
theorem witness_acquire : beforeVld.myCore.refusals.count = 0 ∧ beforeVld.me.seq = [{ v := vin (.vld 5 (.x 1) ⟨0, none, 0⟩) (some 0x10) }] ∧
    (vin (.vld 5 (.x 1) ⟨0, none, 0⟩) (some 0x10)).num ≤ beforeVld.me.num ∧ ((0x10 : W64).extractLsb' 28 4).toNat ≤ 10 ∧
    beforeVld.myCore.berth 0 = some b0 ∧ active beforeVld beforeVld.cur beforeVld.curCtx 0 15 = true ∧
    beforeMload.myCore.refusals.count = 0 ∧ quiet beforeVld = false ∧
    ∃ e ∈ beforeMload.myCore.slice, e.ctx = beforeMload.curCtx ∧ e.cons = false ∧ e.num ≤ beforeMload.me.num ∧ e.feet ≠ [] := by
  refine ⟨rfl, rfl, ?_⟩; decide
theorem witness_pfu :
    (∃ t, takes (rig memx) [.x 2] = some ([0x100000000], t)) ∧ (0x100000000 : W64).getLsbD 63 = false ∧ globalSum 0x100000000 0 < 2 ^ 57 ∧
    (rig memx).myCore.ptbase.getLsbD 0 = true ∧ (rig memx).partOfSite (rig memx).cur.siteId = some 0 ∧
    (rig memx).tlbLookup c0 0 (rootPage (rig memx).myCore.ptbase) (globalSum 0x100000000 0) = none ∧ (rig memx).me.walkFail = none ∧
    s1.tlbLookup c0 0 (rootPage s1.myCore.ptbase) (globalSum 0x100000000 0x40) = some page ∧
    s1.pageError page (globalSum 0x100000000 0x40) .load false 0 = none ∧ s1.myCore.l1Find (0x20040 / 64) = none ∧
    s1.memError (64 * (0x20040 / 64)) 64 = none ∧ s1.l2Ready (0x20040 / 64) = false ∧ s1.l2Ready (0x20000 / 64) = true ∧
    State.reaches s1 c0 (homeDie (0x20000 / 64)) = true ∧ (s1.memError (64 * (0x20000 / 64)) 64).isSome = false := by
  refine ⟨⟨_, rfl⟩, ?_⟩; decide
/-- R249, R260. -/
theorem test_acquire : (ran (.fence .acq .sys) beforeVld).me.stalled = true ∧ (ran (.fence .acq .sys) beforeMload).me.stalled = true ∧
    ((ran (.pfu (.x 2) ⟨0, 0, false⟩) s1).myCore.l1.map (·.line)) = [0x800] ∧ (ran (.pfu (.x 2) ⟨0x40, 0, false⟩) s1).me.stalled = false ∧
    (ran (.pfu (.x 2) ⟨0x40, 0, false⟩) s1).myCore.l1 = [] ∧ ((ran (.pfu (.x 2) ⟨0, 0, false⟩) (rig memx)).die 0).walks.length = 1 := by decide +kernel

/-- A page of host memory; one of a peer window, its port up or down, its roster entry open for writes or not. -/
def hosted : State := rig memx { tlb := [hostPage] }
def peerPage (u : Nat) : TlbEntry := { page with pa := 2 ^ 51 + u * 2 ^ 46, peer := true }
def peered (r : Roster) (up : Bool) (n : Nat := 0) : State :=
  { rig memx { tlb := [peerPage 3], unacked := n } with
    parts := (rig memx).parts.map fun p => (p.1, { p.2 with roster := [{}, {}, {}, r] }), ports := [(1, { up := up })] }
def openR : Roster := { modul := 2, rpart := 5, port := 1, rd := true, w := true, v := true, size := 1, rbase := 7 }
/-- Witness of GlobalAccessesReadAndWriteMemory: host memory; a peer window, open, shut, with the fabric full. -/
theorem witness_global_far :
    maps hosted 0x100000000 0 .store (2 ^ 51) ∧ hosted.l2Find (2 ^ 51 / 64) = none ∧ State.carriedTo hosted c0 0 = true ∧
    released hosted = true ∧ alone hosted = true ∧
    mapsPeer (peered openR true) 0x100000000 8 0 (2 ^ 51 + 3 * 2 ^ 46 + 8) ∧ rosterOpen (peered openR true) 0 (2 ^ 51 + 3 * 2 ^ 46 + 8) openR ∧
    rosterOpen (peered openR false) 0 (2 ^ 51 + 3 * 2 ^ 46 + 8) openR ∧ (∀ r, ¬ rosterOpen (peered { openR with w := false } true) 0 (2 ^ 51 + 3 * 2 ^ 46 + 8) r) ∧
    (peered openR true).myCore.unacked < 256 ∧ (peered openR true 256).myCore.unacked = 256 ∧
    State.carriedTo (peered openR true) c0 (1 / 2) = true ∧ alone (peered openR true) = true := by
  refine ⟨⟨rfl, by decide, by decide, 0, hostPage, rfl, rfl, rfl, rfl, by decide, by decide⟩, by decide, by decide, by decide, by decide,
    ⟨rfl, by decide, by decide, rfl, peerPage 3, rfl, rfl, rfl, by decide, by decide⟩, ⟨rfl, rfl, rfl, by decide, rfl⟩, ⟨rfl, rfl, rfl, by decide, rfl⟩,
    ?_, by decide, by decide, by decide, by decide⟩
  rintro r ⟨rfl, -, h, -⟩
  exact absurd h (by decide)
/-- R235, R246, R335, R336. -/
theorem test_global_far : (ran (.sth (.x 8) (.x 2) 2) hosted).memByte (2 ^ 51 + 3) = 0x77 ∧ (ran (.stnb (.x 8) (.x 2) 0 true) s1).memByte 0x20000 = 0x8E ∧
    (ran (.stb (.x 8) (.x 2) 9) (peered openR true)).outside = [.peerWrite 1 2 5 0x70009 [0x88] false] ∧
    (ran (.stnb (.x 8) (.x 2) 9 true) (peered openR true)).outside = [.peerNibble 1 2 5 0x70009 8 true false] ∧
    (ran (.stb (.x 8) (.x 2) 9) (peered openR false)).outside = [] ∧
    ((ran (.stb (.x 8) (.x 2) 9) (peered { openR with w := false } true)).acks.map (·.refused)) = [some 4] := by decide +kernel

/-- A message of core 1 of the cluster to core 0, with its header's low half and its sender's compartment given. -/
def sentBy (h0 : W64) (k : Nat) : Flight := { msg := { msg1 with h0 := h0 }, src := some c1, compart := k, dest := c0 }
def arriving (f : Flight) (v : Core := {}) : State :=
  { s2 with
    cores := [(c0, { v with ctrs := [(5, { value := 1, handler := 3, pending := 6 }), (6, { value := 1, handler := 9 })], ctxs := [(0, { running := true })] }),
      (c1, { outq := [f], ctxs := [(0, { running := true })] })]
    clusters := [(n0, { handlers := [(3, entry3), (254, BitVec.ofNat 128 (2 ^ 96 + 0x2000))] })], launches := [launch9] }
theorem reaches_from (f : Flight) (v : Core) (h : f.dest = c0 ∧ f.msg.h0.getLsbD 33 = false ∧ f.msg.h0.getLsbD 35 = false ∧ f.msg.h0.getLsbD 36 = false ∧
    f.merged = false ∧ f.src = some c1) (q : v.portq = []) : reachesPort (arriving f v) c0 f (.core c1 0) [] := by
  obtain ⟨h1, h2, h3, h4, h5, h6⟩ := h
  exact ⟨h1, h2, h3, h4, h5, rfl, q, .inr ⟨c1, rfl, rfl, h6, rfl, rfl, .inl rfl⟩⟩
/-- Witness of MessageArrivalFillsASlot: a core's message that is admitted, to a handler, to none (stray 1, 2, 3), with a full inbox; one to
a handler of another compartment, one that names another core; a merge message. -/
theorem witness_core_message :
    reachesPort (arriving (sentBy 0x100030000 0)) c0 (sentBy 0x100030000 0) (.core c1 0) [] ∧ admitted (arriving (sentBy 0x100030000 0)) c0 (sentBy 0x100030000 0) ∧
    handled (arriving (sentBy 0x100030000 0)) c0 (sentBy 0x100030000 0) ∧ ((arriving (sentBy 0x100090000 0)).core c0).inbox.find 0 = none ∧
    (entryAt (arriving (sentBy 0x100090000 0)) c0 254).getLsbD 96 = true ∧ (entryAt (arriving (sentBy 0x100090000 0)) c0 9).getLsbD 96 = false ∧
    (counterOf (arriving (sentBy 0x7000000 0)) c0 (sentBy 0x7000000 0)).value = 0 ∧ (counterOf (arriving (sentBy 0x6000000 0)) c0 (sentBy 0x6000000 0)).value = 1 ∧
    handlerOf (arriving (sentBy 0x6000000 0)) c0 (sentBy 0x6000000 0) = 9 ∧
    (∀ j, j < 32 → ((arriving (sentBy 0x100030000 0) { inbox := (List.range 32).map fun n => (n, { msg := msg1, report := none }) }).core c0).inbox.find j ≠ none) ∧
    ((comparedWith (arriving (sentBy 0x100030000 1)) c0 (sentBy 0x100030000 1)).extractLsb' 90 6).toNat ≠ (sentBy 0x100030000 1).compart ∧
    (comparedWith (arriving (sentBy 0x100030000 1)) c0 (sentBy 0x100030000 1)).getLsbD 96 = true ∧
    addressee (arriving (sentBy 0x100030000 1)) c1 (sentBy 0x100030000 1) = some c0 ∧
    addressee (arriving (sentBy 0x100030800 0)) c1 (sentBy 0x100030800 0) ≠ some c0 := by
  refine ⟨reaches_from _ _ ⟨rfl, rfl, rfl, rfl, rfl, rfl⟩ rfl, .inr ⟨c1, rfl, rfl, fun _ => by decide⟩, ⟨by decide, .inl rfl⟩, ?_⟩
  decide
def toMerge : State := { arriving (sentBy 0x200000000 0) with launches := [{ launch9 with merge := some n1 }] }
theorem witness_merge_message : (toMerge.core c1).outq = [sentBy 0x200000000 0] ∧ (sentBy 0x200000000 0).msg.h0.getLsbD 33 = true ∧
    (∃ p, toMerge.spanAt c1.siteId = some p ∧ p.launch = 9) ∧ (∃ l, toMerge.launch 9 = some l ∧ l.merge = some n1) ∧ (toMerge.die 0).fenced = false := by
  refine ⟨rfl, rfl, ⟨_, rfl, rfl⟩, ⟨_, rfl, rfl⟩, rfl⟩
/-- No handler at all: the message is discarded and counted. -/
def unheard : State := { arriving (sentBy 0x100090000 0) with clusters := [] }
theorem witness_discarded : reachesPort unheard c0 (sentBy 0x100090000 0) (.core c1 0) [] ∧ (entryAt unheard c0 254).getLsbD 96 = false ∧
    (entryAt unheard c0 (handlerOf unheard c0 (sentBy 0x100090000 0))).getLsbD 96 = false ∧ (unheard.launchAt n0).map (·.id) = some 9 := by
  refine ⟨⟨rfl, rfl, rfl, rfl, rfl, rfl, rfl, .inr ⟨c1, rfl, rfl, rfl, rfl, rfl, .inl rfl⟩⟩, ?_⟩; decide
/-- R356, R399, R400. -/
theorem test_core_message : ((ran (.messageArrival c0 (.core c1 0)) (arriving (sentBy 0x100030000 0))).core c0).ready.map (·.handler) = [3] ∧
    (((ran (.messageArrival c0 (.core c1 0)) (arriving (sentBy 0x6000000 0))).core c0).inbox.map fun e => e.2.msg.h1) = [0x300000000] ∧
    ((ran (.messageArrival c0 (.core c1 0)) (arriving (sentBy 0x100030000 1))).core c1).refusals.info = 3 ∧
    ((ran (.messageArrival c0 (.core c1 0)) (arriving (sentBy 0x100030800 0))).core c1).refusals.info = 2 ∧
    (ran (.messageArrival c0 (.core c1 0)) unheard).launches.map (·.discard) = [1] ∧
    (ran (.messageArrival c0 (.core c1 0)) toMerge).launches.map (·.mergeMsgs.length) = [1] := by decide +kernel

/-! ## Further witnesses: system registers, waits, seals, fabric traffic -/

/-- A member of a gang, number 1 of two. -/
def member1 : State := { rig { x := [(1, 7)], status := 0x23 } with
  cores := [(c0, { ctxs := [(0, { x := [(1, 7)], status := 0x23, running := true, fid := 1 })], gang := some { log := 1, members := [(c1, 2), (c0, 0)] }, chan := { next := 7, done := 5 } }),
    (c1, { chan := { next := 9, done := 8, passed := true } })]
  dies := [(0, { hot1 := true, temp := 0x55, allow := 9 })], lantern := { started := true, worlds := [{ num := 5, part := 0, comps := [], key := 2 }] } }
/-- Witness of SystemRegisters: LANEID in a gang. -/
theorem witness_lane_id : member1.me.status.getLsbD 5 = true ∧ member1.myCore.gang = some { log := 1, members := [(c1, 2), (c0, 0)] } ∧
    [(c1, 2), (c0, 0)].Nodup ∧ [(c1, 2), (c0, 0)][1]? = some (member1.cur, member1.curCtx) := by
  refine ⟨by decide, rfl, by decide, by decide⟩
/-- R53, R171, R297, R351, R370: lane 16 of 32; COPYHEAD of core 1; world 5; a read-only register keeps its value. -/
theorem test_lane_id : gives (.sysr (.x 6) 0x11) member1 6 = 0x110 ∧ gives (.sysr (.x 6) 0x19) member1 6 = 0x900000008 ∧
    gives (.sysr (.x 6) 0x1D) member1 6 = 5 ∧ gives (.sysr (.x 6) 0x15) member1 6 = 0x25500000009 ∧
    gives (.sysw (.x 6) (.x 1) 0x1D) member1 6 = 5 ∧ gives (.sysr (.x 7) 0x1D) (ran (.sysw (.x 6) (.x 1) 0x1D) member1) 7 = 5 := by decide +kernel

/-- A context that waits for a fabric access held at its port, or for a host read. -/
def stuck (w : Wait) : State :=
  { rig { wait := w } {} { waiting := [{ wr (.access (fr (.load 1 true))) with src := c0 }] } with
    freqs := [fr (.load 1 true)], hreqs := [{ id := 5, core := c0, ctx := 0, fid := 1, pa := 2 ^ 51, size := 4, dest := .x 6, kind := .load 4 false }], cycle := 2 ^ 24 }
/-- Witness of ReturnWatchdogRevocation. -/
theorem witness_stuck : ((stuck (.fabric 5)).ctx c0 0).running = true ∧ ((stuck (.fabric 5)).ctx c0 0).wait = .fabric 5 ∧
    ((stuck (.host 5)).ctx c0 0).wait = .host 5 ∧ trapReady (stuck (.fabric 5)) c0 0 ∧ trapReady (stuck (.host 5)) c0 0 ∧
    ((stuck (.fabric 5)).ctx c0 0).watch + 2 ^ 24 ≤ (stuck (.fabric 5)).cycle := by
  refine ⟨rfl, rfl, rfl, ⟨rfl, by decide, rfl, rfl, by decide, by decide⟩, ⟨rfl, by decide, rfl, rfl, by decide, by decide⟩, by decide⟩
/-- R340, R405. -/
theorem test_stuck : (ran (.watchdog c0 0) (stuck (.fabric 5))).freqs = [] ∧ ((ran (.watchdog c0 0) (stuck (.fabric 5))).bank b0).waiting = [] ∧
    (ran (.watchdog c0 0) (stuck (.host 5))).hreqs = [] := by decide
/-- A supervisor's TLBI behind a store of its sequencer. -/
def storing : State := { rig { x := [(1, 0x100000000)], status := 3, seq := [{ v := { vin (.vst 3 (.x 1) ⟨0, none, 0⟩) (some 0x20) with num := 0 } }], num := 1 } with cycle := 9 }
/-- Witness of WaitsAndTlbInvalidation. -/
theorem witness_storing : storesBefore storing = true ∧ storesBefore (tlbs 3) = false ∧ (∃ t, takes storing [.x 1] = some ([0x100000000], t)) ∧
    storing.me.status.getLsbD 1 = true := ⟨by decide, by decide, ⟨_, rfl⟩, by decide⟩
/-- R394: a load in the sequencer holds nothing up. -/
theorem test_storing : (ran (.tlbi (.x 1) true) storing).me.stalled = true ∧
    (ran (.tlbi (.x 1) true) (storing.updMe fun v => { v with seq := [{ v := vin (.vld 3 (.x 1) ⟨0, none, 0⟩) (some 0x20) }] })).me.stalled = false := by decide
/-- Witness of SealedContexts: the straits to the Coastline; a SEAL of registers with a spoilt one. -/
theorem witness_seal_paths : State.carriedTo (sealing []) c0 0 = true ∧ State.reaches (sealing []) c0 0 = true ∧ unprotected (sealing []) b0 = true ∧
    Memory.wf ((sealing []).bank b0).bytes = true ∧
    ∃ r, r < 64 ∧ RegRow.v r ∈ ((sealing []).updMe fun v => { v with bad := [.v 3] }).me.bad :=
  ⟨by decide, by decide, by decide, by decide, 3, by decide, by decide⟩
/-- R388. -/
theorem test_seal_spoilt : (ran (.seal (.x 6) (.x 1) (.x 0) { image0 with vr := true }) ((sealing []).updMe fun v => { v with bad := [.v 3] })).me.cause = 0x100D := by
  decide

/-- Witness of FabricTrafficAtItsBank: a slot before which nothing waits and one where something does, under whichever bank; CAS; 32 bits. -/
theorem witness_slots : slotClear (wrig [wr (.bytes [7])]) (wr (.bytes [7])).addr ∧ ¬slotClear (wrig [wr (.bytes [7])] { waiting := [wr (.bytes [8])] }) (wr (.bytes [7])).addr ∧
    slotClear (wrig [wr (.bytes [7])] { waiting := [nowhere] }) (wr (.bytes [7])).addr ∧
    (∀ ts ∈ ((wrig [wr (.bytes [7])]).core c1).handed, ((wrig [wr (.bytes [7])]).core c1).berth ts ≠ some b0) := by
  refine ⟨?_, fun h => ?_, ?_, by decide⟩
  · show ∀ e ∈ (wrig [wr (.bytes [7])]).banks, ∀ v ∈ e.2.waiting, _; decide
  · exact h (b0, { st := .berthed, waiting := [wr (.bytes [8])] }) (by decide) _ (List.mem_singleton.mpr rfl) rfl rfl
  · show ∀ e ∈ (wrig [wr (.bytes [7])] { waiting := [nowhere] }).banks, ∀ v ∈ e.2.waiting, _; decide
/-- R268, R440: a CAS that matches and one of 32 bits; the write behind another waits too. -/
theorem test_slots : bankByte (ran (.fabricAccessArrival 0) (frig [fr (.cas ⟨true, false, false, .core⟩ 0x80 9)] [])) b0 0x10 = 9 ∧
    bankByte (ran (.fabricAccessArrival 0) (frig [fr (.cas ⟨false, false, false, .core⟩ 0x81 9)] [])) b0 0x10 = 0x80 ∧
    ((ran (.remoteWriteArrival 0) (wrig [wr (.bytes [7])] { waiting := [wr (.bytes [8])] })).bank b0).waiting.length = 2 := by decide
/-- Witness of FailuresAndRepair: the record that a new master writes meets no missing line. -/
theorem witness_complete : ((({ elects [complete9] with master := some 0, election := none } : State).dropMerge complete9).writeRecord complete9
    (complete9.record (elects [complete9]).rtime)).missed = (elects [complete9]).missed := by decide +kernel

end Sys2Proof.Tests
end

section
/-! PROOFS. The encodings of the scalar instructions of majors 0x04, 0x05 and 0x06, and what the decoder asks of their reserved bits
(R59, R62, R64, R116, R118, R119). -/
namespace Sys2Proof
open Sys2Proof.Claim (number tailFb)

/-! ## The encoder -/

theorem number_eq_code (r : SReg) : number r = r.code := by cases r <;> rfl

/-- Format Fb with every f14 bit zero. -/
theorem encB_zero (major minor d a b : Nat) : encB major minor d a b 0 = (headOf major .b minor, tailFb d a b) := by
  simp [encB, pack, tailFb, Nat.add_assoc]

/-- Three registers in format Fb, as majors 0x04 to 0x06 have them. -/
theorem encDab_eq (major minor : Nat) (d a b : SReg) :
    encDab major minor d a b = (headOf major .b minor, tailFb (number d) (number a) (number b)) := by
  simp only [encDab, encB_zero, number_eq_code]

/-- Two registers in format Fb, as the counts of R118 have them. -/
theorem encB_two_registers (major minor : Nat) (d a : SReg) :
    encB major minor d.code a.code 0 0 = (headOf major .b minor, tailFb (number d) (number a) 0) := by
  simp only [encB_zero, number_eq_code]

/-! ## The decoder -/

/-- A decoder that answers has answered at each of its parts. -/
theorem dec_bind_ok {α β : Type} {m : Dec α} {f : α → Dec β} {r : β} (h : (m >>= f) = .ok r) : ∃ a, m = .ok a ∧ f a = .ok r := by
  cases m with
  | error e => cases h
  | ok a => exact ⟨a, rfl, h⟩

/-- A reserved field that is accepted is zero (R64). -/
theorem zero_ok {n : Nat} {u : Unit} (h : zero n = .ok u) : n = 0 := by
  unfold zero require at h
  split at h
  · next hn => exact beq_iff_eq.mp hn
  · cases h

/-- An accepted instruction is what its major's decoder made of its tail: MAJOR is bits 15:10 and MINOR 6:0 of the head (R59). -/
theorem decodeTail_of_decodeInstr {h t : Nat} {i : Instr} (hd : decodeInstr h t = .ok i) :
    decodeTail (bits h 10 6) (bits h 0 7) t = .ok i := by
  unfold decodeInstr at hd
  split at hd
  · cases hd
  · split at hd
    · cases hd
    · split at hd
      · exact hd
      · cases hd

/-- Three registers: f14 is zero. -/
theorem decDab_reserved {mk : SReg → SReg → SReg → Instr} {t : Nat} {i : Instr} (h : decDab mk t = .ok i) : t % 2 ^ 14 = 0 := by
  obtain ⟨d, -, h⟩ := dec_bind_ok h
  obtain ⟨a, -, h⟩ := dec_bind_ok h
  obtain ⟨b, -, h⟩ := dec_bind_ok h
  obtain ⟨u, hf, -⟩ := dec_bind_ok h
  simpa [fbOf, bits] using zero_ok hf

/-- Two registers: the b field and f14 are zero. -/
theorem decDa_reserved {mk : SReg → SReg → Instr} {t : Nat} {i : Instr} (h : decDa mk t = .ok i) : t % 2 ^ 20 = 0 := by
  obtain ⟨d, -, h⟩ := dec_bind_ok h
  obtain ⟨a, -, h⟩ := dec_bind_ok h
  obtain ⟨u, hb, h⟩ := dec_bind_ok h
  obtain ⟨v, hf, -⟩ := dec_bind_ok h
  have hb := zero_ok hb
  have hf := zero_ok hf
  simp only [fbOf, bits] at hb hf
  omega

/-- Every minor of major 0x04 names three registers (R116). -/
theorem dec04_reserved {m t : Nat} {i : Instr} (h : dec04 m t = .ok i) : t % 2 ^ 14 = 0 := by
  unfold dec04 at h
  split at h
  case h_14 => cases h
  all_goals exact decDab_reserved h

/-- Minors 0 to 7 of major 0x05 name three registers, minors 8 to 10 two (R118). -/
theorem dec05_reserved {m t : Nat} {i : Instr} (h : dec05 m t = .ok i) : t % 2 ^ 14 = 0 ∧ (8 ≤ m → t % 2 ^ 20 = 0) := by
  unfold dec05 at h
  split at h
  case h_12 => cases h
  case h_9 | h_10 | h_11 => have := decDa_reserved h; omega
  all_goals exact ⟨decDab_reserved h, by omega⟩

/-- Minors 0 to 2 of major 0x06, the compares, name three registers (R119). -/
theorem dec06_compare_reserved {m t : Nat} {i : Instr} (hm : m ≤ 2) (h : dec06 m t = .ok i) : t % 2 ^ 14 = 0 := by
  obtain rfl | rfl | rfl : m = 0 ∨ m = 1 ∨ m = 2 := by omega
  all_goals exact decDab_reserved h

/-- SEL: mod and flags are zero (R119). -/
theorem dec06_sel_reserved {t : Nat} {i : Instr} (h : dec06 3 t = .ok i) : t % 2 ^ 24 = 0 := by
  obtain ⟨d, -, h⟩ := dec_bind_ok h
  obtain ⟨a, -, h⟩ := dec_bind_ok h
  obtain ⟨b, -, h⟩ := dec_bind_ok h
  obtain ⟨c, -, h⟩ := dec_bind_ok h
  obtain ⟨u, hm, h⟩ := dec_bind_ok h
  obtain ⟨v, hf, -⟩ := dec_bind_ok h
  have hm := zero_ok hm
  have hf := zero_ok hf
  simp only [fcOf, bits] at hm hf
  omega

/-- MOV: s4 is zero (R119). -/
theorem dec06_mov_reserved {t : Nat} {i : Instr} (h : dec06 4 t = .ok i) : t % 2 ^ 4 = 0 := by
  obtain ⟨d, -, h⟩ := dec_bind_ok h
  obtain ⟨a, -, h⟩ := dec_bind_ok h
  obtain ⟨u, hs, -⟩ := dec_bind_ok h
  simpa [faOf, bits] using zero_ok hs

/-! ## Heads of the three majors -/

theorem bits_major_minor {h major : Nat} (lo : major * 1024 + 256 ≤ h) (hi : h < major * 1024 + 384) (hm : major < 64) :
    bits h 10 6 = major ∧ bits h 0 7 = h - (major * 1024 + 256) := by
  simp only [bits]
  omega

/-- The reserved bits of an accepted word with a head of major 0x04. -/
theorem decodeInstr_arithmetic_reserved {h t : Nat} {i : Instr} (lo : 0x1100 ≤ h) (hi : h ≤ 0x110C)
    (hd : decodeInstr h t = .ok i) : t % 2 ^ 14 = 0 := by
  obtain ⟨hmajor, -⟩ := bits_major_minor (major := 0x04) (h := h) (by omega) (by omega) (by decide)
  have hd := decodeTail_of_decodeInstr hd
  rw [hmajor] at hd
  exact dec04_reserved hd

/-- The reserved bits of an accepted word with a head of major 0x05. -/
theorem decodeInstr_logic_reserved {h t : Nat} {i : Instr} (lo : 0x1500 ≤ h) (hi : h ≤ 0x150A)
    (hd : decodeInstr h t = .ok i) : t % 2 ^ 14 = 0 ∧ (0x1508 ≤ h → t % 2 ^ 20 = 0) := by
  obtain ⟨hmajor, hminor⟩ := bits_major_minor (major := 0x05) (h := h) (by omega) (by omega) (by decide)
  have hd := decodeTail_of_decodeInstr hd
  rw [hmajor] at hd
  obtain ⟨hf, hb⟩ := dec05_reserved hd
  exact ⟨hf, fun hh => hb (by omega)⟩

/-- The reserved bits of an accepted compare of major 0x06. -/
theorem decodeInstr_compare_reserved {h t : Nat} {i : Instr} (lo : 0x1900 ≤ h) (hi : h ≤ 0x1902)
    (hd : decodeInstr h t = .ok i) : t % 2 ^ 14 = 0 := by
  obtain ⟨hmajor, hminor⟩ := bits_major_minor (major := 0x06) (h := h) (by omega) (by omega) (by decide)
  have hd := decodeTail_of_decodeInstr hd
  rw [hmajor] at hd
  exact dec06_compare_reserved (by omega) hd

end Sys2Proof
end

section
/-! PROOFS. The values of the scalar arithmetic, shifts, counts and compares, in the words of R116 to R119. -/
namespace Sys2Proof.Machine

/-! ## Arithmetic -/

/-- The bits above bit 63 of a number taken modulo 2^128. -/
theorem extractLsb'_high_ofInt (p : Int) : (BitVec.ofInt 128 p).extractLsb' 64 64 = BitVec.ofInt 64 (p / 2 ^ 64) := by
  apply BitVec.eq_of_toNat_eq
  simp only [BitVec.extractLsb'_toNat, BitVec.toNat_ofInt, Nat.shiftRight_eq_div_pow]
  omega

theorem signExtend_eq_ofInt (x : W64) : x.signExtend 128 = BitVec.ofInt 128 x.toInt := rfl

theorem mulhS_eq (x y : W64) : mulhS x y = (x.signExtend 128 * y.signExtend 128).extractLsb' 64 64 := by
  rw [signExtend_eq_ofInt, signExtend_eq_ofInt, ← BitVec.ofInt_mul, extractLsb'_high_ofInt, mulhS]

theorem mulhU_eq (x y : W64) : mulhU x y = (x.zeroExtend 128 * y.zeroExtend 128).extractLsb' 64 64 := by
  have hxy : x.toNat * y.toNat < 2 ^ 64 * 2 ^ 64 := Nat.mul_lt_mul'' x.isLt y.isLt
  apply BitVec.eq_of_toNat_eq
  simp only [mulhU, w64, BitVec.toNat_ofNat, BitVec.extractLsb'_toNat, BitVec.toNat_mul, BitVec.toNat_setWidth,
    Nat.shiftRight_eq_div_pow]
  rw [Nat.mod_eq_of_lt (a := x.toNat) (by omega), Nat.mod_eq_of_lt (a := y.toNat) (by omega), Nat.mod_eq_of_lt (b := 2 ^ 128) (by omega)]

/-- A condition may be replaced by a weaker one where both alternatives are one value. -/
theorem ite_decide_eq_ite_weaker {α : Type} {P Q : Prop} [Decidable P] [Decidable Q] {p q : α} (hPQ : P → Q)
    (h : Q → ¬P → p = q) : (if decide P then p else q) = if Q then p else q := by
  by_cases hP : P
  · rw [if_pos (decide_eq_true hP), if_pos (hPQ hP)]
  · rw [if_neg (by rw [decide_eq_false hP]; exact Bool.false_ne_true)]
    by_cases hQ : Q
    · rw [if_pos hQ, h hQ hP]
    · rw [if_neg hQ]

/-- Neither of two words below the other, signed: they are one. -/
theorem eq_of_toInt_le {x y : W64} (hle : x.toInt ≤ y.toInt) (hlt : ¬x.toInt < y.toInt) : x = y :=
  BitVec.toInt_inj.mp (by omega)

/-- Neither of two words below the other, unsigned: they are one. -/
theorem eq_of_toNat_le {x y : W64} (hle : x.toNat ≤ y.toNat) (hlt : ¬x.toNat < y.toNat) : x = y :=
  BitVec.toNat_inj.mp (by omega)

theorem minS_eq (x y : W64) : (if x.slt y then x else y) = if x.toInt ≤ y.toInt then x else y := by
  rw [BitVec.slt_eq_decide]
  exact ite_decide_eq_ite_weaker Int.le_of_lt eq_of_toInt_le

theorem maxS_eq (x y : W64) : (if x.slt y then y else x) = if x.toInt ≤ y.toInt then y else x := by
  rw [BitVec.slt_eq_decide]
  exact ite_decide_eq_ite_weaker Int.le_of_lt fun hle hlt => (eq_of_toInt_le hle hlt).symm

theorem minU_eq (x y : W64) : (if x.ult y then x else y) = if x.toNat ≤ y.toNat then x else y := by
  rw [BitVec.ult_eq_decide]
  exact ite_decide_eq_ite_weaker Nat.le_of_lt eq_of_toNat_le

theorem maxU_eq (x y : W64) : (if x.ult y then y else x) = if x.toNat ≤ y.toNat then y else x := by
  rw [BitVec.ult_eq_decide]
  exact ite_decide_eq_ite_weaker Nat.le_of_lt fun hle hlt => (eq_of_toNat_le hle hlt).symm

/-! ## Division -/

theorem divU_of_ne_zero {x y : W64} (h : y ≠ 0) : divU x y = BitVec.ofNat 64 (x.toNat / y.toNat) := if_neg h

theorem remU_of_ne_zero {x y : W64} (h : y ≠ 0) : remU x y = BitVec.ofNat 64 (x.toNat % y.toNat) := if_neg h

/-- The model's quotient is Lean's signed division. -/
theorem divS_eq_sdiv {x y : W64} (h : y ≠ 0) : divS x y = x.sdiv y := by
  apply BitVec.eq_of_toInt_eq
  rw [divS, if_neg h, BitVec.toInt_ofInt, BitVec.toInt_sdiv]

/-- The model's remainder is Lean's signed remainder. -/
theorem remS_eq_srem {x y : W64} (h : y ≠ 0) : remS x y = x.srem y := by
  apply BitVec.eq_of_toInt_eq
  rw [remS, if_neg h, ← BitVec.toInt_srem, BitVec.ofInt_toInt]

/-- Away from the overflow the quotient truncates toward zero. -/
theorem toInt_divS {x y : W64} (h : y ≠ 0) (ho : ¬(x = BitVec.intMin 64 ∧ y = -1)) : (divS x y).toInt = x.toInt.tdiv y.toInt := by
  rw [divS_eq_sdiv h]
  exact BitVec.toInt_sdiv_of_ne_or_ne x y (Decidable.not_and_iff_not_or_not.mp ho)

/-- Away from the overflow the remainder is what the quotient leaves of the dividend. -/
theorem toInt_remS {x y : W64} (h : y ≠ 0) (ho : ¬(x = BitVec.intMin 64 ∧ y = -1)) :
    (remS x y).toInt = x.toInt - y.toInt * (divS x y).toInt := by
  rw [remS_eq_srem h, BitVec.toInt_srem, toInt_divS h ho, Int.tmod_def]

/-! ## Shifts -/

/-- The shift amount is bits 5:0 of b. -/
theorem shamt_eq (y : W64) : shamt y = (y.extractLsb' 0 6).toNat := by
  rw [BitVec.extractLsb'_toNat]; rfl

theorem shamt_lt (y : W64) : shamt y < 64 := Nat.mod_lt _ (by decide)

theorem getLsbD_shl (x : W64) (n : Nat) {i : Nat} (hi : i < 64) :
    (x <<< n).getLsbD i = if i < n then false else x.getLsbD (i - n) := by
  rw [BitVec.getLsbD_shiftLeft]
  by_cases h : i < n <;> simp [hi, h]

theorem getLsbD_shr (x : W64) (n i : Nat) : (x >>> n).getLsbD i = if i + n < 64 then x.getLsbD (i + n) else false := by
  rw [BitVec.getLsbD_ushiftRight, Nat.add_comm n i]
  split
  · rfl
  · next h => exact BitVec.getLsbD_of_ge x _ (by omega)

theorem getLsbD_sra (x : W64) (n : Nat) {i : Nat} (hi : i < 64) :
    (x.sshiftRight n).getLsbD i = if i + n < 64 then x.getLsbD (i + n) else x.getLsbD 63 := by
  simp [BitVec.getLsbD_sshiftRight, BitVec.msb_eq_getLsbD_last, Nat.not_le.mpr hi, Nat.add_comm n i]

/-- A rotation toward bit 0: bit i comes from n places above it, around the word. -/
theorem getLsbD_rot (x : W64) {n i : Nat} (hn : n < 64) (hi : i < 64) : (x.rotateRight n).getLsbD i = x.getLsbD ((i + n) % 64) := by
  rw [BitVec.getLsbD_rotateRight, Nat.mod_eq_of_lt hn]
  by_cases h : i < 64 - n
  · have : (i + n) % 64 = n + i := by omega
    simp [h, this]
  · have : (i + n) % 64 = i - (64 - n) := by omega
    simp [h, hi, this]

/-! ## Counts -/

/-- The highest one bit of a word stands below n zeros. -/
theorem clzW_of_highest {x : W64} {n : Nat} (hn : n < 64) (hone : x.getLsbD (63 - n) = true)
    (hzero : ∀ i, i < n → x.getLsbD (63 - i) = false) : clzW x = BitVec.ofNat 64 n := by
  have hlow : 2 ^ (63 - n) ≤ x.toNat := Nat.ge_two_pow_of_testBit hone
  have hhigh : x.toNat < 2 ^ (63 - n + 1) := by
    refine Nat.lt_pow_two_of_testBit _ fun j hj => ?_
    by_cases h64 : j < 64
    · have := hzero (63 - j) (by omega)
      rwa [show 63 - (63 - j) = j by omega] at this
    · exact BitVec.getLsbD_of_ge x j (by omega)
  have hx : x.toNat ≠ 0 := by have := Nat.two_pow_pos (63 - n); omega
  have hlog : x.toNat.log2 = 63 - n := (Nat.log2_eq_iff hx).mpr ⟨hlow, hhigh⟩
  have hx0 : x ≠ 0 := fun h => hx (by simp [h])
  rw [clzW, if_neg hx0, hlog, w64, show 63 - (63 - n) = n by omega]

/-- The lowest one bit of a word stands above n zeros. -/
theorem ctzW_of_lowest {x : W64} {n : Nat} (hn : n < 64) (hone : x.getLsbD n = true) (hzero : ∀ i, i < n → x.getLsbD i = false) :
    ctzW x = BitVec.ofNat 64 n := by
  have hfind : (List.range 64).find? (x.getLsbD ·) = some n :=
    List.find?_range_eq_some.mpr ⟨hone, List.mem_range.mpr hn, fun i hi => by simp [hzero i hi]⟩
  rw [ctzW, hfind]
  rfl

theorem popcW_eq (x : W64) : popcW x = BitVec.ofNat 64 ((List.range 64).filter fun i => x.getLsbD i).length := by
  rw [popcW, List.countP_eq_length_filter]
  rfl

/-! ## Compares -/

theorem boolW_slt (x y : W64) : boolW (x.slt y) = if x.toInt < y.toInt then 1 else 0 := by
  simp [boolW, BitVec.slt_eq_decide]

theorem boolW_ult (x y : W64) : boolW (x.ult y) = if x.toNat < y.toNat then 1 else 0 := by
  simp [boolW, BitVec.ult_eq_decide]

theorem boolW_eq (x y : W64) : boolW (x = y) = if x = y then 1 else 0 := by
  simp [boolW]

end Sys2Proof.Machine
end

section
/-! PROOFS. What the scalar instructions with one, two or three sources and one destination do, DIV and its kin with the zero divisor
(R116 to R119). An instruction's own arm of `exec` is `issue` of its operation by definition, so these equations are equations of `exec`. -/
namespace Sys2Proof.Machine
open Sys2Proof.Claim

theorem issue_op1 {s t : State} {d a : SReg} {x w : W64} {f : W64 → W64} (h : takes s [a] = some ([x], t))
    (hd : room t d = true) (hw : f x = w) : issue (op1 d a f) s = .next (result t d w) :=
  hw ▸ issue_ok (op1_ok f h hd)

theorem issue_op2 {s t : State} {d a b : SReg} {x y w : W64} {f : W64 → W64 → W64} (h : takes s [a, b] = some ([x, y], t))
    (hd : room t d = true) (hw : f x y = w) : issue (op2 d a b f) s = .next (result t d w) :=
  hw ▸ issue_ok (op2_ok f h hd)

/-- SEL reads all three sources, whichever it selects (R119). -/
theorem opSel_ok {s t : State} {d a b c : SReg} {x y z : W64} (h : takes s [a, b, c] = some ([x, y, z], t)) (hd : room t d = true) :
    opSel d a b c s = .ok () (result t d (if z ≠ 0 then x else y)) := by
  obtain ⟨u, v, h1, h2, h3⟩ := takes_three h
  unfold opSel
  rw [exec_bind_ok (directions_ok (by simp [take_badSource h1, take_badSource h2, take_badSource h3]) (by simp [room_badDest hd]) s),
    exec_bind_ok (readS_take h1), exec_bind_ok (readS_take h2), exec_bind_ok (readS_take h3)]
  exact finish_room _ hd

/-! ## Division with the DZ bit of STATUS (R117) -/

theorem pushable_badDest {d : SReg} (h : pushable d = true) : SReg.badDest d = false := by
  cases d with
  | x n => rfl
  | k n => rfl
  | q n => simp [pushable] at h; simp [SReg.badDest]; omega

/-- A division with sound operands comes to its check of the divisor. -/
theorem opDiv_reads {s t : State} {d a b : SReg} {x y : W64} (f : W64 → W64 → W64) (h : takes s [a, b] = some ([x, y], t))
    (hd : SReg.badDest d = false) :
    opDiv d a b f s = if !(s.me.dz && y = 0) then finish d (f x y) t else .error (.trap 0x09 0 0) t := by
  obtain ⟨u, h1, h2⟩ := takes_two h
  unfold opDiv
  rw [exec_bind_ok (directions_ok (by simp [take_badSource h1, take_badSource h2]) (by simp [hd]) s), exec_get_bind,
    exec_bind_ok (readS_take h1), exec_bind_ok (readS_take h2), check_bind]

/-- With DZ clear, or with a divisor other than 0, a division gives its quotient or remainder. -/
theorem issue_opDiv {s t : State} {d a b : SReg} {x y w : W64} {f : W64 → W64 → W64} (h : takes s [a, b] = some ([x, y], t))
    (hd : room t d = true) (hz : s.me.dz = false ∨ y ≠ 0) (hw : f x y = w) : issue (opDiv d a b f) s = .next (result t d w) := by
  have hcheck : (!(s.me.dz && decide (y = 0))) = true := by
    rcases hz with hz | hy
    · simp [hz]
    · rw [decide_eq_false hy, Bool.and_false, Bool.not_false]
  refine issue_ok ?_
  rw [opDiv_reads f h (room_badDest hd), if_pos hcheck, hw]
  exact finish_room w hd

/-- DZ is 1 at reset. -/
theorem reset_dz (c : CoreId) (x : Nat) : (State.reset.ctx c x).status.getLsbD 0 = true := by
  have hctx : State.reset.ctx c x = {} := rfl
  rw [hctx]
  decide

/-- With DZ set, a zero divisor traps. -/
theorem issue_opDiv_trap {s t : State} {d a b : SReg} {x : W64} (f : W64 → W64 → W64) (h : takes s [a, b] = some ([x, 0], t))
    (hd : pushable d = true) (hz : s.me.dz = true) : issue (opDiv d a b f) s = .next (s.raiseInt 0x09 0 0) := by
  refine issue_trap (t := t) ?_
  rw [opDiv_reads f h (pushable_badDest hd), hz]
  rfl

end Sys2Proof.Machine
end

section
/-! PROOFS. O1: the instructions of major 0x04 (R116, R117). -/
namespace Sys2Proof.Machine
open Sys2Proof.Claim

/-- R116's heads, minors 0 to 12 of major 0x04. -/
theorem arithmetic_encodings (d a b : SReg) :
    let t := tailFb (number d) (number a) (number b)
    encode (.add d a b) = some (0x1100, t) ∧ encode (.sub d a b) = some (0x1101, t) ∧ encode (.mul d a b) = some (0x1102, t) ∧
    encode (.mulh d a b) = some (0x1103, t) ∧ encode (.mulhn d a b) = some (0x1104, t) ∧ encode (.div d a b) = some (0x1105, t) ∧
    encode (.divn d a b) = some (0x1106, t) ∧ encode (.rem d a b) = some (0x1107, t) ∧ encode (.remn d a b) = some (0x1108, t) ∧
    encode (.min d a b) = some (0x1109, t) ∧ encode (.max d a b) = some (0x110A, t) ∧ encode (.minn d a b) = some (0x110B, t) ∧
    encode (.maxn d a b) = some (0x110C, t) := by
  simp [encode, encDab_eq, headOf, pack, Fmt.tl]

/-- R117's table for a zero divisor with DZ clear. -/
theorem division_by_zero_values {s t : State} {d a b : SReg} {x : W64} (h : takes s [a, b] = some ([x, 0], t))
    (hd : room t d = true) (hz : s.me.dz = false) :
    exec (.div d a b) s = .next (result t d 0xFFFFFFFFFFFFFFFF) ∧ exec (.divn d a b) s = .next (result t d 0xFFFFFFFFFFFFFFFF) ∧
    exec (.rem d a b) s = .next (result t d x) ∧ exec (.remn d a b) s = .next (result t d x) :=
  ⟨issue_opDiv h hd (.inl hz) rfl, issue_opDiv h hd (.inl hz) rfl, issue_opDiv h hd (.inl hz) rfl, issue_opDiv h hd (.inl hz) rfl⟩

/-- R117's signed overflow, and the ordinary unsigned results of the same words. -/
theorem division_overflow_values {s t : State} {d a b : SReg}
    (h : takes s [a, b] = some ([0x8000000000000000, 0xFFFFFFFFFFFFFFFF], t)) (hd : room t d = true) :
    exec (.div d a b) s = .next (result t d 0x8000000000000000) ∧ exec (.rem d a b) s = .next (result t d 0) ∧
    exec (.divn d a b) s = .next (result t d 0) ∧ exec (.remn d a b) s = .next (result t d 0x8000000000000000) := by
  have hy : (0xFFFFFFFFFFFFFFFF : W64) ≠ 0 := by decide
  exact ⟨issue_opDiv h hd (.inr hy) (by decide), issue_opDiv h hd (.inr hy) (by decide), issue_opDiv h hd (.inr hy) (by decide),
    issue_opDiv h hd (.inr hy) (by decide)⟩

/-- Divisions by a divisor other than 0 (R116). -/
theorem division_values {s t : State} {d a b : SReg} {x y : W64} (h : takes s [a, b] = some ([x, y], t)) (hd : room t d = true)
    (hy : y ≠ 0) :
    exec (.divn d a b) s = .next (result t d (BitVec.ofNat 64 (x.toNat / y.toNat))) ∧
    exec (.remn d a b) s = .next (result t d (BitVec.ofNat 64 (x.toNat % y.toNat))) ∧
    (¬(x = BitVec.intMin 64 ∧ y = -1) →
      ∃ q r : W64, exec (.div d a b) s = .next (result t d q) ∧ exec (.rem d a b) s = .next (result t d r) ∧
        q.toInt = x.toInt.tdiv y.toInt ∧ r.toInt = x.toInt - y.toInt * q.toInt) :=
  ⟨issue_opDiv h hd (.inr hy) (divU_of_ne_zero hy), issue_opDiv h hd (.inr hy) (remU_of_ne_zero hy),
    fun ho => ⟨divS x y, remS x y, issue_opDiv h hd (.inr hy) rfl, issue_opDiv h hd (.inr hy) rfl, toInt_divS hy ho, toInt_remS hy ho⟩⟩

/-- Settles O1: the encodings, the reserved bits that the decoder checks, the values of R116 through `issue_op2`, and R117's cases
through the two ends of a division, `issue_opDiv` and `issue_opDiv_trap`. -/
theorem integerArithmeticAndDivision : Obligations.IntegerArithmeticAndDivision := by
  unfold Obligations.IntegerArithmeticAndDivision
  refine ⟨⟨arithmetic_encodings, fun h t i lo hi _ hd => decodeInstr_arithmetic_reserved lo hi hd, ?values⟩,
    reset_dz, ?byZero, fun s t d a b h hd => division_overflow_values h hd, ?trapped⟩
  case values =>
    intro s t d a b x y h hd
    exact ⟨issue_op2 h hd rfl, issue_op2 h hd rfl, issue_op2 h hd rfl, issue_op2 h hd (mulhS_eq x y), issue_op2 h hd (mulhU_eq x y),
      issue_op2 h hd (minS_eq x y), issue_op2 h hd (maxS_eq x y), issue_op2 h hd (minU_eq x y), issue_op2 h hd (maxU_eq x y),
      division_values h hd⟩
  case byZero =>
    intro s t d a b x h hd hz
    exact division_by_zero_values h hd hz
  case trapped =>
    intro s t d a b x h hd hz
    exact ⟨issue_opDiv_trap _ h hd hz, issue_opDiv_trap _ h hd hz, issue_opDiv_trap _ h hd hz, issue_opDiv_trap _ h hd hz⟩

end Sys2Proof.Machine
end

section
/-! PROOFS. O2: the instructions of majors 0x05 and 0x06 (R118, R119). -/
namespace Sys2Proof.Machine
open Sys2Proof.Claim

/-- R118's heads, minors 0 to 10 of major 0x05. -/
theorem logic_encodings (d a b : SReg) :
    let t := tailFb (number d) (number a) (number b)
    let u := tailFb (number d) (number a) 0
    encode (.and d a b) = some (0x1500, t) ∧ encode (.or d a b) = some (0x1501, t) ∧ encode (.xor d a b) = some (0x1502, t) ∧
    encode (.andn d a b) = some (0x1503, t) ∧ encode (.shl d a b) = some (0x1504, t) ∧ encode (.shr d a b) = some (0x1505, t) ∧
    encode (.sra d a b) = some (0x1506, t) ∧ encode (.rot d a b) = some (0x1507, t) ∧ encode (.clz d a) = some (0x1508, u) ∧
    encode (.ctz d a) = some (0x1509, u) ∧ encode (.popc d a) = some (0x150A, u) := by
  simp [encode, encDab_eq, encB_two_registers, headOf, pack, Fmt.tl]

/-- R119's heads, and the tails of its three formats. -/
theorem compare_encodings (d a b c : SReg) :
    let t := tailFb (number d) (number a) (number b)
    encode (.slt d a b) = some (0x1900, t) ∧ encode (.sltn d a b) = some (0x1901, t) ∧ encode (.seq d a b) = some (0x1902, t) ∧
    encode (.sel d a b c) = some (0x1983, number d * 2 ^ 42 + number a * 2 ^ 36 + number b * 2 ^ 30 + number c * 2 ^ 24) ∧
    encode (.mov d a) = some (0x1884, number d * 2 ^ 10 + number a * 2 ^ 4) := by
  simp [encode, encDab_eq, encC, encA, headOf, pack, Fmt.tl, number_eq_code, Nat.add_assoc]

/-- The four shifts, bit by bit (R118). -/
theorem shift_values {s t : State} {d a b : SReg} {x y : W64} (h : takes s [a, b] = some ([x, y], t)) (hd : room t d = true) :
    ∃ l r h o : W64,
      exec (.shl d a b) s = .next (result t d l) ∧ exec (.shr d a b) s = .next (result t d r) ∧
      exec (.sra d a b) s = .next (result t d h) ∧ exec (.rot d a b) s = .next (result t d o) ∧
      ∀ i, i < 64 →
        let n := (y.extractLsb' 0 6).toNat
        l.getLsbD i = (if i < n then false else x.getLsbD (i - n)) ∧
        r.getLsbD i = (if i + n < 64 then x.getLsbD (i + n) else false) ∧
        h.getLsbD i = (if i + n < 64 then x.getLsbD (i + n) else x.getLsbD 63) ∧
        o.getLsbD i = x.getLsbD ((i + n) % 64) := by
  refine ⟨_, _, _, _, issue_op2 h hd rfl, issue_op2 h hd rfl, issue_op2 h hd rfl, issue_op2 h hd rfl, fun i hi => ?_⟩
  rw [← shamt_eq]
  exact ⟨getLsbD_shl x _ hi, getLsbD_shr x _ i, getLsbD_sra x _ hi, getLsbD_rot x (shamt_lt y) hi⟩

/-- The counts of one bits, leading and trailing zeros (R118). -/
theorem count_values {s t : State} {d a : SReg} {x : W64} (h : takes s [a] = some ([x], t)) (hd : room t d = true) :
    exec (.popc d a) s = .next (result t d (BitVec.ofNat 64 ((List.range 64).filter fun i => x.getLsbD i).length)) ∧
    (x = 0 → exec (.clz d a) s = .next (result t d 64) ∧ exec (.ctz d a) s = .next (result t d 64)) ∧
    (∀ n, n < 64 → x.getLsbD (63 - n) = true → (∀ i, i < n → x.getLsbD (63 - i) = false) →
      exec (.clz d a) s = .next (result t d (BitVec.ofNat 64 n))) ∧
    (∀ n, n < 64 → x.getLsbD n = true → (∀ i, i < n → x.getLsbD i = false) →
      exec (.ctz d a) s = .next (result t d (BitVec.ofNat 64 n))) := by
  refine ⟨issue_op1 h hd (popcW_eq x), ?ofZero, fun n hn hone hzero => issue_op1 h hd (clzW_of_highest hn hone hzero),
    fun n hn hone hzero => issue_op1 h hd (ctzW_of_lowest hn hone hzero)⟩
  case ofZero =>
    rintro rfl
    exact ⟨issue_op1 h hd (by decide), issue_op1 h hd (by decide)⟩

/-- Settles O2: the encodings, the reserved bits that the decoder checks, and the values of R118 and R119 through the equations of the
operations with one, two and three sources. -/
theorem logicShiftCompareResults : Obligations.LogicShiftCompareResults := by
  unfold Obligations.LogicShiftCompareResults
  refine ⟨⟨logic_encodings, fun h t i lo hi _ hd => decodeInstr_logic_reserved lo hi hd, ?logic, fun s t d a x h hd => count_values h hd⟩,
    compare_encodings, fun h t i lo hi _ hd => decodeInstr_compare_reserved lo hi hd, ?reserved, ?compare,
    fun s t d a b c x y z h hd => issue_ok (opSel_ok h hd), fun s t d a x h hd => issue_op1 h hd rfl⟩
  case logic =>
    intro s t d a b x y h hd
    exact ⟨issue_op2 h hd rfl, issue_op2 h hd rfl, issue_op2 h hd rfl, issue_op2 h hd rfl, shift_values h hd⟩
  case reserved =>
    intro t i
    exact ⟨fun _ hd => dec06_sel_reserved (decodeTail_of_decodeInstr hd), fun _ hd => dec06_mov_reserved (decodeTail_of_decodeInstr hd)⟩
  case compare =>
    intro s t d a b x y h hd
    exact ⟨issue_op2 h hd (boolW_slt x y), issue_op2 h hd (boolW_ult x y), issue_op2 h hd (boolW_eq x y)⟩

end Sys2Proof.Machine
end
